-- ==== Sys2Proof/Word.lean ====
section
/-! DEFINITION. The words of the machine: bytes and 16-bit words, and nothing else. Helpers over them that a test could
show wrong (byte order, sign extension, bit fields) stand in Machine/Bits.lean. -/

namespace Sys2Proof

/-- A byte: the only quantity a bus access moves (R108). -/
abbrev Byte := BitVec 8

/-- A 16-bit word: the program counter, a CPU address, a pointer, an instruction's 16-bit operand (R7, R21, R100). -/
abbrev Word := BitVec 16

end Sys2Proof
end

