-- ==== Sys2Proof/Machine/Bits.lean ====
section
/-! DEFINITION. Byte order, sign and zero extension, and the bit fields the spec's registers are written by (R9, R10). -/

namespace Sys2Proof.Machine

/-- `hi:lo`, the 16-bit value of two bytes (R9). -/
def mkWord (hi lo : Byte) : Word := hi ++ lo

/-- `w[15:8]`. -/
def hiByte (w : Word) : Byte := w.extractLsb' 8 8

/-- `w[7:0]`. -/
def loByte (w : Word) : Byte := w.extractLsb' 0 8

/-- `zext_16(v)` (R10). -/
def zext (v : Byte) : Word := v.setWidth 16

/-- `sext_16(v)` (R10). -/
def sext (v : Byte) : Word := v.signExtend 16

/-- `v[k]`, bit k of a byte (R9). -/
def bit (v : Byte) (k : Nat) : Bool := v.getLsbD k

/-- The field of `n` bits of `v` from bit `lo` up (R9). -/
def field (v : Byte) (lo n : Nat) : BitVec n := v.extractLsb' lo n

/-- `v` with its field of `n` bits from bit `lo` up replaced by `x` (R9): `v[lo + n - 1 : lo] <- x`. -/
def putField {w n : Nat} (v : BitVec w) (lo : Nat) (x : BitVec n) : BitVec w :=
  (v &&& ~~~((BitVec.allOnes n).setWidth w <<< lo)) ||| (x.setWidth w <<< lo)

/-- One bit as a byte, 0 or 1. -/
def boolByte (b : Bool) : Byte := if b then 1 else 0

/-- Byte `k` of a number, byte 0 the least significant. -/
def byteOf (w k : Nat) : Byte := BitVec.ofNat 8 (w >>> (8 * k))

end Sys2Proof.Machine
end

