-- ==== Sys2Proof/Machine/Params.lean ====
section
/-! DEFINITION. The parameters of R8 that have a default: one record, which State carries and no step changes, and the record
of the defaults (log entry 1). `Params.default` stands in Machine/ so that a later repair may mend a table. -/

namespace Sys2Proof.Machine

/-- What the frame counter does at one of its points (R650): the actions are performed in the order quarter, half, IRQ,
reset (R651). -/
structure FcStep where
  count : Nat
  quarter : Bool
  half : Bool
  irq : Bool
  reset : Bool
  deriving DecidableEq, Repr

/-- The arguments of R8 that have a default. The tables are as long as the fields that index them (R52, R54, R55, R660).
What an argument outside what R650 to R701 provide for does is the model's choice (log entry 25). -/
structure Params where
  sampleRate : Nat                        -- SAMPLE_RATE
  cpuFreq : Nat                           -- CPU_FREQ
  fcSteps4 : List FcStep                  -- FC_STEPS_4 (R650)
  fcSteps5 : List FcStep                  -- FC_STEPS_5 (R650)
  lengthTable : Vector Byte 32            -- LENGTH_TABLE (R660)
  duty : Vector (Vector Bool 8) 4         -- DUTY, by `duty` and then `seq_step` (R664)
  noisePeriod : Vector (BitVec 12) 16     -- NOISE_PERIOD (R681)
  dmcRate : Vector Nat 16                 -- DMC_RATE (R700)
  deriving DecidableEq, Repr

/-- The defaults of R8, R650, R660, R664, R681 and R700. -/
def Params.default : Params :=
  { sampleRate := 44100
    cpuFreq := 1789773
    fcSteps4 := [
      { count := 3729, quarter := true, half := false, irq := false, reset := false },
      { count := 7457, quarter := true, half := true, irq := false, reset := false },
      { count := 11186, quarter := true, half := false, irq := false, reset := false },
      { count := 14915, quarter := true, half := true, irq := true, reset := true }]
    fcSteps5 := [
      { count := 3729, quarter := true, half := false, irq := false, reset := false },
      { count := 7457, quarter := true, half := true, irq := false, reset := false },
      { count := 11186, quarter := true, half := false, irq := false, reset := false },
      { count := 18641, quarter := true, half := true, irq := false, reset := true }]
    lengthTable :=
      #v[10, 254, 20, 2, 40, 4, 80, 6, 160, 8, 60, 10, 14, 12, 26, 14,
         12, 16, 24, 18, 48, 20, 96, 22, 192, 24, 72, 26, 16, 28, 32, 30]
    duty := #v[
      #v[false, true, false, false, false, false, false, false],
      #v[false, true, true, false, false, false, false, false],
      #v[false, true, true, true, true, false, false, false],
      #v[true, false, false, true, true, true, true, true]]
    noisePeriod := #v[4, 8, 16, 32, 64, 96, 128, 160, 202, 254, 380, 508, 762, 1016, 2034, 4068]
    dmcRate := #v[428, 380, 340, 320, 286, 254, 226, 214, 190, 160, 142, 128, 106, 84, 72, 54] }

/-- `SAMPLE_RATE / 4`, the capacity of the PCM queue (R51, R721). DESIGN CHOICE: rounded down where the rate is not a multiple
of 4, and a queue of capacity 0 keeps the sample just appended (log entry 25). -/
def Params.pcmCapacity (k : Params) : Nat := k.sampleRate / 4

/-- `TRI_SEQ`: the ramp 15 to 0 and 0 to 15 (R672), which is no parameter. -/
def triSeq : List Nat :=
  [15, 14, 13, 12, 11, 10, 9, 8, 7, 6, 5, 4, 3, 2, 1, 0,
   0, 1, 2, 3, 4, 5, 6, 7, 8, 9, 10, 11, 12, 13, 14, 15]

end Sys2Proof.Machine
end

