-- ==== Sys2Proof/Machine/State.lean ====
section
/-! DEFINITION. The state of the machine as plain data: the CPU, the bus, the PPU, the APU and the cartridge, every field of
10_state.md, and the state right after reset. Nested records follow the devices, so that an effect on one device visibly
leaves the others alone. -/

namespace Sys2Proof.Machine

/-- A byte array of the machine (work RAM, nametable RAM, OAM, PRG-RAM, PRG-ROM, CHR): the listed cells, in one canonical
form (`Memory.wf`): addresses strictly rising, and no cell equal to what an unlisted address reads as. -/
abbrev Memory := List Host.Cell

/-! ## CPU -/

/-- The five unstable stores, as the micro-sequencer's `opcode` names them (R31, R400). -/
inductive ShOp where
  | shaIzy   -- 0x93
  | shaAby   -- 0x9F
  | shx      -- 0x9E
  | shy      -- 0x9C
  | shs      -- 0x9B
  deriving DecidableEq, Repr

/-- The micro-sequencer context `sh` (R31, R401). -/
structure Sh where
  active : Bool
  op : ShOp
  step : Nat
  lo : Byte
  hi : Byte
  ptr : Byte
  rdyTwoBefore : Bool
  deriving DecidableEq, Repr

/-- The CPU's registers and counters (10_state.md section 1). `ea`, `base` and `fetched` of R27 carry nothing from one
clock to the next and are not stored (R27: "a model need not store them"). -/
structure Cpu where
  a : Byte                    -- R20
  x : Byte                    -- R20
  y : Byte                    -- R20
  sp : Byte                   -- R23
  p : Byte                    -- R24, R25
  pc : Word                   -- R21
  cyclesRemaining : Nat       -- R27
  totalCycles : Nat           -- R27: the length of the current instruction or sequence
  pollAt : List Nat           -- R27 `poll_at`: the clocks of the current instruction, after its first, that begin with a poll
  cycleCount : BitVec 64      -- R26
  nmiPending : Bool           -- R28
  irqLine : Bool              -- R29
  latchedIrq : Bool           -- R30
  sh : Sh                     -- R31
  deriving DecidableEq, Repr

/-! ## Bus -/

/-- One controller port: the latch the host writes and the shift register a program reads (R36). -/
structure Port where
  latch : Byte
  shift : Byte
  deriving DecidableEq, Repr

/-- The bus's own state (10_state.md section 2). -/
structure Bus where
  ram : Memory                -- R35, 2048 bytes
  ctl0 : Port                 -- R36, read at 0x4016
  ctl1 : Port                 -- R36, read at 0x4017
  ctlStrobe : Bool            -- R36
  openBus : Byte              -- R37 `cpu_open_bus`
  deriving DecidableEq, Repr

/-! ## PPU -/

/-- 256 columns by 240 rows of `α`, by row and then column. -/
abbrev Screen (α : Type) := Vector (Vector α 256) 240

/-- The PPU (10_state.md section 3). A framebuffer pixel is held as the 6-bit palette entry it shows, `none` where reset
cleared it; its four bytes R, G, B, A are the view `Ppu.pixelRgba` (R40, R577; log entry 4). -/
structure Ppu where
  ntRam : Memory                          -- R40, 4096 bytes
  palRam : Vector (BitVec 6) 32           -- R40
  oam : Memory                            -- R40, 256 bytes
  framebuffer : Screen (Option (BitVec 6))  -- R40
  bgOpaque : Screen Bool                  -- R40
  activeSprites : List (Fin 64)           -- R40; its length is `n_active`
  ctrl : Byte                             -- R41, R45
  mask : Byte                             -- R41, R46
  vblank : Bool                           -- R47, status bit 7
  sprite0Hit : Bool                       -- R47, status bit 6
  spriteOverflow : Bool                   -- R47, status bit 5
  oamAddr : Byte                          -- R41
  fineX : BitVec 3                        -- R41
  w : Bool                                -- R41
  readBuffer : Byte                       -- R41
  openBus : Byte                          -- R41 `ppu_open_bus`
  openBusAge : Nat                        -- R41
  v : BitVec 15                           -- R41, R42
  t : BitVec 15                           -- R41, R42
  latchedT : BitVec 15                    -- R41, R42
  latchedFineX : BitVec 3                 -- R41
  scanline : Nat                          -- R43, 0 to 261
  dot : Nat                               -- R43, 0 to 340
  frameCount : Nat                        -- R43
  ppuCycles : Nat                         -- R43
  nmiLatched : Bool                       -- R44
  resetProtect : Bool                     -- R44
  drawnFrame : Option (Screen (Option (BitVec 6)))  -- R545: what the last `draw_frame` call handed to the host
  deriving DecidableEq, Repr

/-! ## APU -/

/-- An envelope (R52). -/
structure Envelope where
  start : Bool
  divider : BitVec 4
  decay : BitVec 5
  deriving DecidableEq, Repr

/-- A pulse channel's sweep unit (R52). -/
structure Sweep where
  enabled : Bool
  negate : Bool
  shift : BitVec 3
  period : BitVec 3
  divider : BitVec 3
  reload : Bool
  deriving DecidableEq, Repr

/-- A pulse channel (R52). -/
structure Pulse where
  duty : BitVec 2
  timerReload : BitVec 11
  timer : BitVec 11
  seqStep : BitVec 3
  length : Byte
  enabled : Bool
  halt : Bool
  constVol : Bool
  volPeriod : BitVec 4
  envelope : Envelope
  sweep : Sweep
  onesComplement : Bool       -- a constant tag: true for pulse 1, false for pulse 2
  deriving DecidableEq, Repr

/-- The triangle channel (R53). -/
structure Triangle where
  timerReload : BitVec 11
  timer : BitVec 11
  seqStep : BitVec 5
  linear : BitVec 7
  linearReloadValue : BitVec 7
  linearReloadFlag : Bool
  control : Bool
  length : Byte
  enabled : Bool
  deriving DecidableEq, Repr

/-- The noise channel (R54). -/
structure Noise where
  lfsr : BitVec 15
  mode : Bool
  periodIndex : BitVec 4
  timer : BitVec 12
  length : Byte
  enabled : Bool
  halt : Bool
  constVol : Bool
  volPeriod : BitVec 4
  envelope : Envelope
  deriving DecidableEq, Repr

/-- The DMC channel (R55). -/
structure Dmc where
  level : BitVec 7
  rateIndex : BitVec 4
  timer : BitVec 9
  sampleStart : Word
  sampleLength : BitVec 12
  curAddr : Word
  bytesRemaining : BitVec 12
  shift : Byte
  bitsRemaining : BitVec 4
  buffer : Byte
  bufferEmpty : Bool
  silence : Bool
  irqEnable : Bool
  loop : Bool
  irq : Bool                  -- `dmc_irq`
  stallRequested : Nat
  deriving DecidableEq, Repr

/-- The APU (10_state.md section 4). Samples and filter values are rationals (R715, R720, D30; log entry 8). -/
structure Apu where
  fcCount : Nat               -- R50
  fcFiveStep : Bool           -- R50
  fcInhibit : Bool            -- R50
  frameIrq : Bool             -- R50
  parity : Bool               -- R50 `apu_parity`
  irqClearScheduled : Bool    -- R50
  stallPending : Nat          -- R50
  sampleAcc : Nat             -- R51
  hpPrevIn : Rat              -- R51
  hpPrevOut : Rat             -- R51
  lpPrevOut : Rat             -- R51
  pcmQueue : List Rat         -- R51, oldest first
  pulse1 : Pulse              -- R52
  pulse2 : Pulse              -- R52
  triangle : Triangle         -- R53
  noise : Noise               -- R54
  dmc : Dmc                   -- R55
  deriving DecidableEq, Repr

/-! ## Cartridge -/

/-- The nametable mirroring modes (R61). -/
inductive Mirroring where
  | horizontal
  | vertical
  | oneScreenLower
  | oneScreenUpper
  | fourScreen
  deriving DecidableEq, Repr

/-- The registers of mapper 1 (R63). -/
structure Mmc1 where
  shift : BitVec 5
  control : BitVec 5
  chrBank0 : BitVec 5
  chrBank1 : BitVec 5
  prgBank : BitVec 5
  deriving DecidableEq, Repr

/-- The registers of mapper 4 (R64). -/
structure Mmc3 where
  bankSelect : Byte
  r : Vector Byte 8
  prgRamEnable : Bool
  prgRamWriteProtect : Bool
  deriving DecidableEq, Repr

/-- The five mappers with their registers (R62 to R64). -/
inductive Mapper where
  | nrom                              -- mapper 0
  | mmc1 (regs : Mmc1)                -- mapper 1
  | uxrom (prgBank : BitVec 4)        -- mapper 2
  | cnrom (chrBank : Byte)            -- mapper 3
  | mmc3 (regs : Mmc3)                -- mapper 4
  deriving DecidableEq, Repr

/-- An inserted cartridge: its fixed configuration (R8, R481) and its mutable state (10_state.md section 5). -/
structure Cart where
  prgBanks : Nat              -- R60: PRG-ROM size in units of 16384 bytes
  prgRom : Memory             -- R60, read-only
  chrSize : Nat               -- R60: size of CHR in bytes
  chrIsRam : Bool             -- R60
  headerMirroring : Mirroring -- R61: the value the image's header gives
  prgRam : Memory             -- R60, 8192 bytes
  chr : Memory                -- R60
  mirroring : Mirroring       -- R61
  mapper : Mapper             -- R62 to R64
  deriving DecidableEq, Repr

/-! ## The machine -/

/-- The state of the machine. `cart` is `none` when no cartridge is inserted (R38 `cart_present`). `params` is the instance's
parameters, the arguments of R8, which nothing in the machine changes (log entry 1). -/
structure State where
  cpu : Cpu
  bus : Bus
  ppu : Ppu
  apu : Apu
  cart : Option Cart
  params : Params
  deriving DecidableEq, Repr

/-- Why the machine would stop with a fault: never. "The machine raises no synchronous exception" (R760), "a read never
fails and a write never fails" (R111), and no state stops the machine (R785), so there is no constructor and nobody raises
one; safe. -/
inductive Fault where
  deriving DecidableEq, Repr

/-- Why an instruction would be refused. No opcode byte is illegal (R164). -/
inductive Refusal where
  /-- The instruction with this mnemonic has no meaning yet; raised by the arms of `exec` that are rejected by name (none
  is left); safe, since the model stops where the hardware goes on. -/
  | notModelled (mnemonic : String)
  deriving DecidableEq, Repr

/-! ## Reset -/

/-- The micro-sequencer after reset: inactive. Its other fields are don't-care (R31, R807) and are zero here (log entry
6). -/
def Sh.reset : Sh :=
  { active := false, op := .shaIzy, step := 0, lo := 0, hi := 0, ptr := 0, rdyTwoBefore := false }

/-- The CPU after reset with the program counter at `pc` (R32, R802). -/
def Cpu.reset (pc : Word) : Cpu :=
  { a := 0, x := 0, y := 0, sp := 0xFD, p := 0x24, pc := pc, cyclesRemaining := 8, totalCycles := 8, pollAt := [],
    cycleCount := 0, nmiPending := false, irqLine := false, latchedIrq := false, sh := Sh.reset }

/-- The PPU after reset (R40, R41, R43, R44, R47, R803), with OAM and palette RAM empty (log entry 5). -/
def Ppu.reset : Ppu :=
  { ntRam := [], palRam := Vector.replicate 32 0, oam := [],
    framebuffer := Vector.replicate 240 (Vector.replicate 256 none),
    bgOpaque := Vector.replicate 240 (Vector.replicate 256 false),
    activeSprites := [], ctrl := 0, mask := 0, vblank := false, sprite0Hit := false, spriteOverflow := false,
    oamAddr := 0, fineX := 0, w := false, readBuffer := 0, openBus := 0, openBusAge := 0, v := 0, t := 0, latchedT := 0,
    latchedFineX := 0, scanline := 0, dot := 0, frameCount := 0, ppuCycles := 0, nmiLatched := false,
    resetProtect := true, drawnFrame := none }

/-- An envelope after reset (R52, R54). -/
def Envelope.reset : Envelope := { start := false, divider := 0, decay := 0 }

/-- A sweep unit after reset (R52). -/
def Sweep.reset : Sweep := { enabled := false, negate := false, shift := 0, period := 0, divider := 0, reload := false }

/-- A pulse channel after reset (R52); the tag is 1 for pulse 1 and 0 for pulse 2. -/
def Pulse.reset (onesComplement : Bool) : Pulse :=
  { duty := 0, timerReload := 0, timer := 0, seqStep := 0, length := 0, enabled := false, halt := false,
    constVol := false, volPeriod := 0, envelope := Envelope.reset, sweep := Sweep.reset,
    onesComplement := onesComplement }

/-- The triangle channel after reset (R53). -/
def Triangle.reset : Triangle :=
  { timerReload := 0, timer := 0, seqStep := 0, linear := 0, linearReloadValue := 0, linearReloadFlag := false,
    control := false, length := 0, enabled := false }

/-- The noise channel after reset: the shift register holds 1 (R54). -/
def Noise.reset : Noise :=
  { lfsr := 1, mode := false, periodIndex := 0, timer := 0, length := 0, enabled := false, halt := false,
    constVol := false, volPeriod := 0, envelope := Envelope.reset }

/-- The DMC channel after reset (R55). -/
def Dmc.reset : Dmc :=
  { level := 0, rateIndex := 0, timer := 0, sampleStart := 0xC000, sampleLength := 1, curAddr := 0, bytesRemaining := 0,
    shift := 0, bitsRemaining := 8, buffer := 0, bufferEmpty := true, silence := true, irqEnable := false, loop := false,
    irq := false, stallRequested := 0 }

/-- The APU after reset (R50 to R55, R804). -/
def Apu.reset : Apu :=
  { fcCount := 0, fcFiveStep := false, fcInhibit := false, frameIrq := false, parity := false,
    irqClearScheduled := false, stallPending := 0, sampleAcc := 0, hpPrevIn := 0, hpPrevOut := 0, lpPrevOut := 0,
    pcmQueue := [], pulse1 := Pulse.reset true, pulse2 := Pulse.reset false, triangle := Triangle.reset,
    noise := Noise.reset, dmc := Dmc.reset }

/-- A controller port whose latch the host has not written and whose shift register is reset (R36). -/
def Port.reset : Port := { latch := 0, shift := 0 }

/-- The bus after reset, with work RAM listing nothing (R35 to R37, R805; log entry 5). -/
def Bus.reset : Bus := { ram := [], ctl0 := Port.reset, ctl1 := Port.reset, ctlStrobe := false, openBus := 0 }

/-- The machine right after power-on and reset, with no cartridge inserted: the reset vector then reads 0x0000 (R104,
R436, R801, R802; log entries 5 and 7), with the default parameters (R8). -/
def State.reset : State :=
  { cpu := Cpu.reset 0x0000, bus := Bus.reset, ppu := Ppu.reset, apu := Apu.reset, cart := none,
    params := Params.default }

end Sys2Proof.Machine
end

