-- ==== Sys2Proof/Machine/Cartridge.lean ====
section
/-! DEFINITION. The cartridge: the five mappers' address decoding and bank registers, and the accesses of the CPU and the
PPU to the cartridge (51_cartridge_mappers.md). A cartridge that is present has `prgBanks > 0` and `chrSize > 0`
(`Cart.ok` in Safety.lean): creation refuses the rest (R482). -/

namespace Sys2Proof.Machine

/-- The identifier byte a mapper offers (R483). -/
def Mapper.id : Mapper → Byte
  | .nrom => 0
  | .mmc1 _ => 1
  | .uxrom _ => 2
  | .cnrom _ => 3
  | .mmc3 _ => 4

/-- The identifier byte of a cartridge's mapper (R483). -/
def Cart.mapperId (c : Cart) : Byte := c.mapper.id

/-- A mapper's answer to a CPU access (R483). -/
inductive CpuMap where
  | notMine
  | zero
  | prgRam (off : Nat)
  | prgRom (off : Nat)
  deriving DecidableEq, Repr

/-- `NB8`: the number of 8 KiB PRG banks (51_cartridge_mappers.md section 3). -/
def Cart.nb8 (c : Cart) : Nat := 2 * c.prgBanks

/-- Offset of a PRG-ROM address fixed in place: 16 KiB mirrored if there is one bank (R490, R494). -/
def Cart.prgFixed (c : Cart) (a : Nat) : Nat := (a - 0x8000) % (c.prgBanks * 16384)

/-- Offset into a 16 KiB PRG bank, the bank index taken modulo the bank count (R483). -/
def Cart.prg16 (c : Cart) (bank a : Nat) : Nat := (bank % c.prgBanks) * 16384 + a % 0x4000

/-- Offset into an 8 KiB PRG bank (R511). -/
def Cart.prg8 (c : Cart) (bank a : Nat) : Nat := (bank % c.nb8) * 8192 + a % 0x2000

/-- MMC1 PRG mapping (R498). -/
def Cart.mmc1Bank (c : Cart) (r : Mmc1) (a : Nat) : Nat :=
  match (r.control.extractLsb' 2 2).toNat with
  | 2 => if a < 0xC000 then 0 else r.prgBank.toNat % 16
  | 3 => if a < 0xC000 then r.prgBank.toNat % 16 else c.prgBanks - 1
  | _ => r.prgBank.toNat % 16 / 2 * 2 + a / 0x4000 % 2

/-- MMC3 bank register `k` (R64). -/
def Mmc3.reg (r : Mmc3) (k : Fin 8) : Nat := (r.r.get k).toNat

/-- MMC3 PRG mapping (R511): `bank_select` bit 6 is the PRG mode. -/
def Cart.mmc3Bank (c : Cart) (r : Mmc3) (a : Nat) : Nat :=
  let mode := bit r.bankSelect 6
  if a < 0xA000 then (if mode then c.nb8 - 2 else r.reg 6)
  else if a < 0xC000 then r.reg 7
  else if a < 0xE000 then (if mode then r.reg 6 else c.nb8 - 2)
  else c.nb8 - 1

/-- Offset into PRG-ROM of a CPU address at or above 0x8000. -/
def Cart.prgRomOffset (c : Cart) (a : Nat) : Nat :=
  match c.mapper with
  | .nrom => c.prgFixed a
  | .mmc1 r => c.prg16 (c.mmc1Bank r a) a
  | .uxrom bank => if a < 0xC000 then c.prg16 bank.toNat a else c.prg16 (c.prgBanks - 1) a
  | .cnrom _ => c.prgFixed a
  | .mmc3 r => c.prg8 (c.mmc3Bank r a) a

/-- The PRG-RAM window answers a read (R487; R515 for mapper 4). -/
def Cart.prgRamReadable (c : Cart) : Bool :=
  match c.mapper with
  | .mmc3 r => r.prgRamEnable
  | _ => true

/-- The PRG-RAM window takes a write (R487; R515 for mapper 4). -/
def Cart.prgRamWritable (c : Cart) : Bool :=
  match c.mapper with
  | .mmc3 r => r.prgRamEnable && !r.prgRamWriteProtect
  | _ => true

/-- The mapper's answer to a CPU read: all five accept exactly 0x6000 to 0xFFFF (R485). -/
def Cart.mapRead (c : Cart) (a : Word) : CpuMap :=
  if a.toNat < 0x6000 then .notMine
  else if a.toNat < 0x8000 then (if c.prgRamReadable then .prgRam (a.toNat - 0x6000) else .zero)
  else .prgRom (c.prgRomOffset a.toNat)

/-- The mapper's answer to a CPU write (R485, R487, R515). -/
def Cart.mapWrite (c : Cart) (a : Word) : CpuMap :=
  if a.toNat < 0x6000 then .notMine
  else if a.toNat < 0x8000 then (if c.prgRamWritable then .prgRam (a.toNat - 0x6000) else .zero)
  else .prgRom (c.prgRomOffset a.toNat)

/-- `CartAccepts(addr)` (R484, R485). -/
def cartAccepts (a : Word) : Bool := 0x6000 ≤ a.toNat

/-- `CartCpuRead(addr)` (R484): `none` where the cartridge does not accept the address. -/
def Cart.cpuRead (c : Cart) (a : Word) : Option Byte :=
  match c.mapRead a with
  | .notMine => none
  | .zero => some 0
  | .prgRam off => some (Memory.read c.prgRam off)
  | .prgRom off => some (Memory.read c.prgRom off)

/-- A mapper's mirroring write: a FourScreen cartridge keeps FourScreen (R61). -/
def Cart.setMirroring (c : Cart) (m : Mirroring) : Cart :=
  if c.headerMirroring = .fourScreen then c else { c with mirroring := m }

/-- MMC1's mirroring field (R496). -/
def mmc1Mirroring (control : BitVec 5) : Mirroring :=
  match (control.extractLsb' 0 2).toNat with
  | 0 => .oneScreenLower
  | 1 => .oneScreenUpper
  | 2 => .vertical
  | _ => .horizontal

/-- A write to an MMC1 register (R497). -/
def Cart.mmc1Write (c : Cart) (r : Mmc1) (a : Word) (v : Byte) : Cart :=
  if bit v 7 then { c with mapper := .mmc1 { r with shift := 0x10, control := r.control ||| 0x0C } }
  else
    let full := r.shift.getLsbD 0
    let shifted := (r.shift >>> 1) ||| ((field v 0 1).setWidth 5 <<< 4)
    if full then
      match (a.extractLsb' 13 2).toNat with
      | 0 => ({ c with mapper := .mmc1 { r with shift := 0x10, control := shifted } }).setMirroring (mmc1Mirroring shifted)
      | 1 => { c with mapper := .mmc1 { r with shift := 0x10, chrBank0 := shifted } }
      | 2 => { c with mapper := .mmc1 { r with shift := 0x10, chrBank1 := shifted } }
      | _ => { c with mapper := .mmc1 { r with shift := 0x10, prgBank := shifted } }
    else { c with mapper := .mmc1 { r with shift := shifted } }

/-- A write to an MMC3 register (R510, R512, R514). -/
def Cart.mmc3Write (c : Cart) (r : Mmc3) (a : Word) (v : Byte) : Cart :=
  let odd := a.getLsbD 0
  if a.toNat < 0xA000 then
    (if odd then { c with mapper := .mmc3 { r with r := r.r.set (r.bankSelect.toNat % 8) v (by omega) } }
     else { c with mapper := .mmc3 { r with bankSelect := v } })
  else if a.toNat < 0xC000 then
    (if odd then { c with mapper := .mmc3 { r with prgRamEnable := bit v 7, prgRamWriteProtect := bit v 6 } }
     else c.setMirroring (if bit v 0 then .horizontal else .vertical))
  else c

/-- The register side effect of a CPU write at or above 0x8000 (R486). -/
def Cart.registerWrite (c : Cart) (a : Word) (v : Byte) : Cart :=
  match c.mapper with
  | .nrom => c
  | .mmc1 r => c.mmc1Write r a v
  | .uxrom _ => { c with mapper := .uxrom (field v 0 4) }
  | .cnrom _ => { c with mapper := .cnrom v }
  | .mmc3 r => c.mmc3Write r a v

/-- `CartCpuWrite(addr, v)` (R486): PRG-RAM where the mapper permits it, ROM never, and the register side effect at or
above 0x8000. -/
def Cart.cpuWrite (c : Cart) (a : Word) (v : Byte) : Cart :=
  let stored := match c.mapWrite a with
    | .prgRam off => { c with prgRam := Memory.write c.prgRam off v }
    | .notMine => c
    | .zero => c
    | .prgRom _ => c
  if 0x8000 ≤ a.toNat then stored.registerWrite a v else stored

/-- MMC1 CHR bank of 4 KiB (R499). -/
def mmc1ChrBank (r : Mmc1) (a : Nat) : Nat :=
  if r.control.getLsbD 4 then (if a < 0x1000 then r.chrBank0.toNat else r.chrBank1.toNat)
  else r.chrBank0.toNat / 2 * 2 + a / 0x1000 % 2

/-- MMC3 CHR bank of 1 KiB (R513): `bank_select` bit 7 is the CHR mode. -/
def mmc3ChrBank (r : Mmc3) (a : Nat) : Nat :=
  let s := if bit r.bankSelect 7 then (a / 0x400 % 8) ^^^ 4 else a / 0x400 % 8
  match s with
  | 0 => r.reg 0 / 2 * 2
  | 1 => r.reg 0 ||| 1
  | 2 => r.reg 1 / 2 * 2
  | 3 => r.reg 1 ||| 1
  | 4 => r.reg 2
  | 5 => r.reg 3
  | 6 => r.reg 4
  | _ => r.reg 5

/-- The mapper's CHR offset of a PPU address below 0x2000 (R490, R492, R494, R499, R513). -/
def Cart.chrOffset (c : Cart) (a : Nat) : Nat :=
  match c.mapper with
  | .nrom => a % c.chrSize
  | .mmc1 r => (mmc1ChrBank r a % (c.chrSize / 4096)) * 4096 + a % 0x1000
  | .uxrom _ => a % c.chrSize
  | .cnrom bank => (bank.toNat % (c.chrSize / 8192)) * 8192 + a
  | .mmc3 r => (mmc3ChrBank r a % (c.chrSize / 1024)) * 1024 + a % 0x400

/-- `CartPpuRead(a)`: 0x00 with no cartridge (R488). -/
def cartPpuRead (c : Option Cart) (a : Nat) : Byte :=
  match c with
  | none => 0
  | some c => Memory.read c.chr (c.chrOffset a)

/-- `CartPpuWrite(a, v)`: stored only where CHR is RAM (R488). -/
def cartPpuWrite (c : Option Cart) (a : Nat) (v : Byte) : Option Cart :=
  match c with
  | none => none
  | some c => some (if c.chrIsRam then { c with chr := Memory.write c.chr (c.chrOffset a) v } else c)

/-- The mirroring mode the PPU sees; Horizontal with no cartridge (R517, R553). -/
def cartMirroring : Option Cart → Mirroring
  | none => .horizontal
  | some c => c.mirroring

/-- The reset hook's mapper registers (R62 to R64, R489). -/
def Mapper.reset : Mapper → Mapper
  | .nrom => .nrom
  | .mmc1 _ => .mmc1 { shift := 0x10, control := 0x0C, chrBank0 := 0, chrBank1 := 0, prgBank := 0 }
  | .uxrom _ => .uxrom 0
  | .cnrom _ => .cnrom 0
  | .mmc3 _ =>
    .mmc3 { bankSelect := 0, r := Vector.replicate 8 0, prgRamEnable := true, prgRamWriteProtect := false }

/-- The reset hook: registers to their reset values, mirroring to the header's, memories unchanged (R489, R806). -/
def Cart.resetHook (c : Cart) : Cart := { c with mapper := c.mapper.reset, mirroring := c.headerMirroring }

end Sys2Proof.Machine
end

