-- ==== Sys2Proof/Machine/Apu.lean ====
section
/-! DEFINITION. The APU: its register interface, the frame counter, the channels, the DMC fetcher, the mixer and one APU
clock (53_apu.md). The DMC fetcher reads the cartridge and work RAM by its own path (R453). -/

namespace Sys2Proof.Machine

/-- `LENGTH_TABLE[v[7:3]]` (R660). -/
def lengthOf (k : Params) (v : Byte) : Byte := k.lengthTable.get (field v 3 5).toFin

/-! ## Units shared by the channels -/

/-- Length counter, half-frame tick (R660). -/
def lengthTick (halt : Bool) (length : Byte) : Byte := if !halt && length != 0 then length - 1 else length

/-- Envelope, quarter-frame tick (R661). -/
def Envelope.tick (e : Envelope) (volPeriod : BitVec 4) (halt : Bool) : Envelope :=
  if e.start then { start := false, decay := 15, divider := volPeriod }
  else if e.divider = 0 then
    { e with divider := volPeriod, decay := if e.decay != 0 then e.decay - 1 else if halt then 15 else e.decay }
  else { e with divider := e.divider - 1 }

/-- `Volume()` (R633, R661). -/
def volume (constVol : Bool) (volPeriod : BitVec 4) (e : Envelope) : Nat :=
  if constVol then volPeriod.toNat else e.decay.toNat

/-- Sweep `Target()` (R662): the negated form is floored at 0 by the truncated subtraction. -/
def Pulse.target (p : Pulse) : Nat :=
  let shifted := p.timerReload.toNat >>> p.sweep.shift.toNat
  if p.sweep.negate then p.timerReload.toNat - shifted - (if p.onesComplement then 1 else 0)
  else p.timerReload.toNat + shifted

/-- Sweep `Muted()` (R662). -/
def Pulse.muted (p : Pulse) : Bool := decide (p.timerReload.toNat < 8) || decide (0x7FF < p.target)

/-- Sweep, half-frame tick (R662). -/
def Pulse.sweepTick (p : Pulse) : Pulse :=
  let s := p.sweep
  let moved := if s.divider == 0 && s.enabled && s.shift != 0 && !p.muted then
      { p with timerReload := BitVec.ofNat 11 p.target } else p
  { moved with
    sweep := if s.divider == 0 || s.reload then { s with divider := s.period, reload := false }
             else { s with divider := s.divider - 1 } }

/-! ## Channels -/

/-- `PulseTimerTick` (R663). -/
def Pulse.timerTick (p : Pulse) : Pulse :=
  if p.timer = 0 then { p with timer := p.timerReload, seqStep := p.seqStep + 1 } else { p with timer := p.timer - 1 }

/-- Pulse output (R664). -/
def Pulse.out (k : Params) (p : Pulse) : Nat :=
  let high := (k.duty.get p.duty.toFin).get p.seqStep.toFin
  if p.length == 0 || !high || p.muted then 0 else volume p.constVol p.volPeriod p.envelope

/-- A pulse channel's quarter-frame tick (R652). -/
def Pulse.quarter (p : Pulse) : Pulse := { p with envelope := p.envelope.tick p.volPeriod p.halt }

/-- A pulse channel's half-frame tick (R653). -/
def Pulse.half (p : Pulse) : Pulse := ({ p with length := lengthTick p.halt p.length }).sweepTick

/-- `TriangleTimerTick` (R670). -/
def Triangle.timerTick (t : Triangle) : Triangle :=
  if t.timer = 0 then
    { t with
      timer := t.timerReload
      seqStep := if t.linear != 0 && t.length != 0 && decide (2 ≤ t.timerReload.toNat) then t.seqStep + 1 else t.seqStep }
  else { t with timer := t.timer - 1 }

/-- Linear counter, quarter-frame tick (R671). -/
def Triangle.quarter (t : Triangle) : Triangle :=
  { t with
    linear := if t.linearReloadFlag then t.linearReloadValue else if t.linear != 0 then t.linear - 1 else t.linear
    linearReloadFlag := t.linearReloadFlag && t.control }

/-- The triangle's half-frame tick: its `halt` is `control` (R653, R660). -/
def Triangle.half (t : Triangle) : Triangle := { t with length := lengthTick t.control t.length }

/-- Triangle output (R672). -/
def Triangle.out (t : Triangle) : Nat :=
  if t.timerReload.toNat < 2 then 0 else triSeq.getD t.seqStep.toNat 0

/-- `NoiseTimerTick` (R680). -/
def Noise.timerTick (k : Params) (n : Noise) : Noise :=
  if n.timer = 0 then
    let fb := n.lfsr.getLsbD 0 ^^ n.lfsr.getLsbD (if n.mode then 6 else 1)
    { n with
      timer := k.noisePeriod.get n.periodIndex.toFin
      lfsr := (n.lfsr >>> 1) ||| (if fb then 0x4000 else 0) }
  else { n with timer := n.timer - 1 }

/-- Noise output (R682). -/
def Noise.out (n : Noise) : Nat :=
  if n.length != 0 && n.lfsr.getLsbD 0 then volume n.constVol n.volPeriod n.envelope else 0

/-- The noise channel's quarter-frame tick (R652). -/
def Noise.quarter (n : Noise) : Noise := { n with envelope := n.envelope.tick n.volPeriod n.halt }

/-- The noise channel's half-frame tick (R653). -/
def Noise.half (n : Noise) : Noise := { n with length := lengthTick n.halt n.length }

/-! ## DMC -/

/-- `DmcRead(addr)`: the cartridge where it accepts the address, else work RAM below 0x2000, else 0 (R453). -/
def dmcRead (cart : Option Cart) (ram : Memory) (a : Word) : Byte :=
  match cart.bind (fun c => c.cpuRead a) with
  | some v => v
  | none => if a.toNat ≤ 0x1FFF then Memory.read ram (a.toNat % 0x800) else 0

/-- The sample starts again from its first byte (R646, R707). -/
def Dmc.restart (d : Dmc) : Dmc := { d with curAddr := d.sampleStart, bytesRemaining := d.sampleLength }

/-- `DmcFetch()` with the byte fetched (R707). -/
def Dmc.fetch (d : Dmc) (byte : Byte) : Dmc :=
  let d := { d with
    buffer := byte, bufferEmpty := false, stallRequested := d.stallRequested + 4
    curAddr := if d.curAddr = 0xFFFF then 0x8000 else d.curAddr + 1
    bytesRemaining := d.bytesRemaining - 1 }
  if d.bytesRemaining = 0 then
    if d.loop then d.restart
    else { d with irq := d.irq || d.irqEnable }
  else d

/-- The output level after one bit of the shift register (R701). -/
def Dmc.levelStep (d : Dmc) : BitVec 7 :=
  if d.silence then d.level
  else if d.shift.getLsbD 0 then (if d.level.toNat ≤ 125 then d.level + 2 else d.level)
  else (if 2 ≤ d.level.toNat then d.level - 2 else d.level)

/-- The output unit's timer tick (R701). The timer takes the rate less 1 in its 9 bits (R55): the rates 1 to 512 exactly, any
other modulo 512, a rate of 0 as 512 (log entry 25). -/
def Dmc.outputTick (k : Params) (d : Dmc) : Dmc :=
  if d.timer = 0 then
    let d := { d with
      timer := BitVec.ofNat 9 (k.dmcRate.get d.rateIndex.toFin) - 1, level := d.levelStep, shift := d.shift >>> 1
      bitsRemaining := d.bitsRemaining - 1 }
    if d.bitsRemaining = 0 then
      if d.bufferEmpty then { d with bitsRemaining := 8, silence := true }
      else { d with bitsRemaining := 8, silence := false, shift := d.buffer, bufferEmpty := true }
    else d
  else { d with timer := d.timer - 1 }

/-- `DmcClock()` (R701): a fetch when the buffer is empty and bytes remain, then the output unit. -/
def Dmc.clock (k : Params) (cart : Option Cart) (ram : Memory) (d : Dmc) : Dmc :=
  (if d.bufferEmpty && d.bytesRemaining != 0 then d.fetch (dmcRead cart ram d.curAddr) else d).outputTick k

/-! ## Register interface -/

/-- `ApuStatusRead()` (R636); `busLatch` is the CPU open-bus latch, whose bit 5 shows. -/
def Apu.readStatus (u : Apu) (busLatch : Byte) : Byte × Apu :=
  let val := boolByte (u.pulse1.length != 0) ||| (boolByte (u.pulse2.length != 0) <<< 1) |||
    (boolByte (u.triangle.length != 0) <<< 2) ||| (boolByte (u.noise.length != 0) <<< 3) |||
    (boolByte (u.dmc.bytesRemaining != 0) <<< 4) ||| (busLatch &&& 0x20) ||| (boolByte u.frameIrq <<< 6) |||
    (boolByte u.dmc.irq <<< 7)
  (val, { u with frameIrq := false })

/-- Write of 0x4000 or 0x4004 (R633). -/
def Pulse.writeControl (p : Pulse) (v : Byte) : Pulse :=
  { p with duty := field v 6 2, halt := bit v 5, constVol := bit v 4, volPeriod := field v 0 4 }

/-- Write of 0x4001 or 0x4005 (R634). -/
def Pulse.writeSweep (p : Pulse) (v : Byte) : Pulse :=
  { p with sweep := { p.sweep with
      enabled := bit v 7, period := field v 4 3, negate := bit v 3, shift := field v 0 3, reload := true } }

/-- Write of 0x4002 or 0x4006 (R635). -/
def Pulse.writeTimerLow (p : Pulse) (v : Byte) : Pulse := { p with timerReload := putField p.timerReload 0 v }

/-- Write of 0x4003 or 0x4007 (R637). PRESUMED: `if enabled:` guards the length load alone (log entry 24). -/
def Pulse.writeTimerHigh (k : Params) (p : Pulse) (v : Byte) : Pulse :=
  { p with
    timerReload := putField p.timerReload 8 (field v 0 3)
    length := if p.enabled then lengthOf k v else p.length
    seqStep := 0
    envelope := { p.envelope with start := true } }

/-- Write of 0x4008 (R638). -/
def Triangle.writeLinear (t : Triangle) (v : Byte) : Triangle :=
  { t with control := bit v 7, linearReloadValue := field v 0 7 }

/-- Write of 0x400A (R639). -/
def Triangle.writeTimerLow (t : Triangle) (v : Byte) : Triangle :=
  { t with timerReload := putField t.timerReload 0 v }

/-- Write of 0x400B (R639). PRESUMED: `if tri.enabled:` guards the length load alone (log entry 24). -/
def Triangle.writeTimerHigh (k : Params) (t : Triangle) (v : Byte) : Triangle :=
  { t with
    timerReload := putField t.timerReload 8 (field v 0 3)
    length := if t.enabled then lengthOf k v else t.length
    linearReloadFlag := true }

/-- Write of 0x400C (R640). -/
def Noise.writeControl (n : Noise) (v : Byte) : Noise :=
  { n with halt := bit v 5, constVol := bit v 4, volPeriod := field v 0 4 }

/-- Write of 0x400E (R641). -/
def Noise.writePeriod (n : Noise) (v : Byte) : Noise := { n with mode := bit v 7, periodIndex := field v 0 4 }

/-- Write of 0x400F (R642). PRESUMED: `if noise.enabled:` guards the length load alone (log entry 24). -/
def Noise.writeLength (k : Params) (n : Noise) (v : Byte) : Noise :=
  { n with
    length := if n.enabled then lengthOf k v else n.length
    envelope := { n.envelope with start := true } }

/-- Write of 0x4010 (R643). -/
def Dmc.writeControl (d : Dmc) (v : Byte) : Dmc :=
  { d with irqEnable := bit v 7, loop := bit v 6, rateIndex := field v 0 4, irq := d.irq && bit v 7 }

/-- Write of 0x4011 (R644). -/
def Dmc.writeLevel (d : Dmc) (v : Byte) : Dmc := { d with level := field v 0 7 }

/-- Write of 0x4012 (R645). -/
def Dmc.writeStart (d : Dmc) (v : Byte) : Dmc := { d with sampleStart := BitVec.ofNat 16 (0xC000 + v.toNat * 64) }

/-- Write of 0x4013 (R645). -/
def Dmc.writeLength (d : Dmc) (v : Byte) : Dmc := { d with sampleLength := BitVec.ofNat 12 (v.toNat * 16 + 1) }

/-- A channel's enable bit: disabling zeroes its length counter (R646). -/
def gatedLength (enabled : Bool) (length : Byte) : Byte := if enabled then length else 0

/-- The DMC's part of a write of 0x4015 (R646). -/
def Dmc.writeEnable (d : Dmc) (on : Bool) : Dmc :=
  let d := { d with irq := false }
  if on then (if d.bytesRemaining = 0 then d.restart else d) else { d with bytesRemaining := 0 }

/-- Write of 0x4015 (R646). -/
def Apu.writeEnables (u : Apu) (v : Byte) : Apu :=
  { u with
    pulse1 := { u.pulse1 with enabled := bit v 0, length := gatedLength (bit v 0) u.pulse1.length }
    pulse2 := { u.pulse2 with enabled := bit v 1, length := gatedLength (bit v 1) u.pulse2.length }
    triangle := { u.triangle with enabled := bit v 2, length := gatedLength (bit v 2) u.triangle.length }
    noise := { u.noise with enabled := bit v 3, length := gatedLength (bit v 3) u.noise.length }
    dmc := u.dmc.writeEnable (bit v 4) }

/-- `QuarterFrame()` (R652). -/
def Apu.quarterFrame (u : Apu) : Apu :=
  { u with pulse1 := u.pulse1.quarter, pulse2 := u.pulse2.quarter, noise := u.noise.quarter,
           triangle := u.triangle.quarter }

/-- `HalfFrame()` (R653). -/
def Apu.halfFrame (u : Apu) : Apu :=
  { u with pulse1 := u.pulse1.half, pulse2 := u.pulse2.half, noise := u.noise.half, triangle := u.triangle.half }

/-- Write of 0x4017 (R647). -/
def Apu.writeFrameCounter (u : Apu) (v : Byte) : Apu :=
  let u := { u with fcFiveStep := bit v 7, fcInhibit := bit v 6, fcCount := 0 }
  let u := if u.fcFiveStep then u.quarterFrame.halfFrame else u
  { u with irqClearScheduled := u.irqClearScheduled || u.fcInhibit }

/-- `ApuWrite(addr, v)` (R632 to R648): offered 0x4000 to 0x4013, 0x4015 and 0x4017. -/
def Apu.write (k : Params) (u : Apu) (a : Word) (v : Byte) : Apu :=
  match a.toNat with
  | 0x4000 => { u with pulse1 := u.pulse1.writeControl v }
  | 0x4001 => { u with pulse1 := u.pulse1.writeSweep v }
  | 0x4002 => { u with pulse1 := u.pulse1.writeTimerLow v }
  | 0x4003 => { u with pulse1 := u.pulse1.writeTimerHigh k v }
  | 0x4004 => { u with pulse2 := u.pulse2.writeControl v }
  | 0x4005 => { u with pulse2 := u.pulse2.writeSweep v }
  | 0x4006 => { u with pulse2 := u.pulse2.writeTimerLow v }
  | 0x4007 => { u with pulse2 := u.pulse2.writeTimerHigh k v }
  | 0x4008 => { u with triangle := u.triangle.writeLinear v }
  | 0x400A => { u with triangle := u.triangle.writeTimerLow v }
  | 0x400B => { u with triangle := u.triangle.writeTimerHigh k v }
  | 0x400C => { u with noise := u.noise.writeControl v }
  | 0x400E => { u with noise := u.noise.writePeriod v }
  | 0x400F => { u with noise := u.noise.writeLength k v }
  | 0x4010 => { u with dmc := u.dmc.writeControl v }
  | 0x4011 => { u with dmc := u.dmc.writeLevel v }
  | 0x4012 => { u with dmc := u.dmc.writeStart v }
  | 0x4013 => { u with dmc := u.dmc.writeLength v }
  | 0x4015 => u.writeEnables v
  | 0x4017 => u.writeFrameCounter v
  | _ => u

/-! ## Frame counter -/

/-- One row of the frame counter's list: quarter, half, IRQ, reset (R650, R651). Five-step mode never sets the IRQ, whatever
its list says (R654). -/
def Apu.fcActions (u : Apu) (s : FcStep) : Apu :=
  let u := if s.quarter then u.quarterFrame else u
  let u := if s.half then u.halfFrame else u
  let u := if s.irq then { u with frameIrq := u.frameIrq || (!u.fcFiveStep && !u.fcInhibit) } else u
  if s.reset then { u with fcCount := 0 } else u

/-- `FrameCounterStep()` (R651). Of several rows with one count only the first is performed (DESIGN CHOICE, log entry 25). -/
def Apu.frameCounterStep (k : Params) (u : Apu) : Apu :=
  let u := { u with fcCount := u.fcCount + 1 }
  match (if u.fcFiveStep then k.fcSteps5 else k.fcSteps4).find? (fun s => s.count == u.fcCount) with
  | some s => u.fcActions s
  | none => u

/-- `ApuIrqPending()` (R656). -/
def Apu.irqPending (u : Apu) : Bool := u.frameIrq || u.dmc.irq

/-! ## Mixer and samples -/

/-- The mixer (R715). -/
def Apu.mix (k : Params) (u : Apu) : Rat :=
  let p := u.pulse1.out k + u.pulse2.out k
  let pulseOut : Rat := if p = 0 then 0 else (9588 / 100 : Rat) / ((8128 : Rat) / (p : Rat) + 100)
  let tndIn : Rat := (u.triangle.out : Rat) / 8227 + (u.noise.out : Rat) / 12241 + (u.dmc.level.toNat : Rat) / 22638
  let tndOut : Rat := if tndIn = 0 then 0 else (15979 / 100 : Rat) / (100 + 1 / tndIn)
  pulseOut + tndOut

/-- `Filter(x)` without its clamp: the high-pass and low-pass carries (R720). -/
def Apu.filter (u : Apu) (x : Rat) : Apu :=
  let y := (996 / 1000 : Rat) * (u.hpPrevOut + x - u.hpPrevIn)
  { u with hpPrevIn := x, hpPrevOut := y, lpPrevOut := u.lpPrevOut + (815 / 1000 : Rat) * (y - u.lpPrevOut) }

/-- The clamp to [-1, 1] (R720). -/
def clampSample (x : Rat) : Rat := if x < -1 then -1 else if 1 < x then 1 else x

/-- `Emit(s)`: the oldest sample is dropped when the queue is full (R721). -/
def Apu.emit (k : Params) (u : Apu) (s : Rat) : Apu :=
  { u with pcmQueue := (if k.pcmCapacity ≤ u.pcmQueue.length then u.pcmQueue.drop 1 else u.pcmQueue) ++ [s] }

/-- `SampleStep()` (R716). -/
def Apu.sampleStep (k : Params) (u : Apu) : Apu :=
  let acc := u.sampleAcc + k.sampleRate
  if k.cpuFreq ≤ acc then
    let u := { u with sampleAcc := acc - k.cpuFreq }
    let u := u.filter (u.mix k)
    u.emit k (clampSample u.lpPrevOut)
  else { u with sampleAcc := acc }

/-! ## One clock -/

/-- The pulse and noise timers, ticked on APU cycles (R631). -/
def Apu.slowTimers (k : Params) (u : Apu) : Apu :=
  if u.parity then
    { u with pulse1 := u.pulse1.timerTick, pulse2 := u.pulse2.timerTick, noise := u.noise.timerTick k }
  else u

/-- The toggle of the parity bit and the scheduled clear of the frame IRQ (R631, R655). -/
def Apu.toggleParity (u : Apu) : Apu :=
  let u := { u with parity := !u.parity }
  if !u.parity && u.irqClearScheduled then { u with frameIrq := false, irqClearScheduled := false } else u

/-- The stall hand-off (R631, R709). -/
def Apu.handOffStall (u : Apu) : Apu :=
  { u with stallPending := u.stallPending + u.dmc.stallRequested, dmc := { u.dmc with stallRequested := 0 } }

/-- `ApuClock()` (R631). -/
def Apu.clock (k : Params) (cart : Option Cart) (ram : Memory) (u : Apu) : Apu :=
  let u := u.frameCounterStep k
  let u := { u with triangle := u.triangle.timerTick }
  let u := u.slowTimers k
  let u := { u with dmc := u.dmc.clock k cart ram }
  (u.sampleStep k).toggleParity.handOffStall

end Sys2Proof.Machine
end

