-- ==== Sys2Proof/Config.lean ====
section
/-! DEFINITION. The free values of the model: the parameters of R8 that the spec leaves open with no default. None has a
body, so nothing can be proved about their values: a statement holds for every value they may take. The parameters for
which the spec gives a default are the record of Machine/Params.lean, which State carries. -/

namespace Sys2Proof.Config

/-- `ANE_CONST`: the constant ORed into A by ANE, OPEN (R8, R361, R748: fixed per instance; log entry 2). -/
opaque aneConst : Byte

/-- `LXA_CONST`: the constant ORed into A by LXA, OPEN (R8, R362, R748: fixed per instance; log entry 2). -/
opaque lxaConst : Byte

/-- One less than `PPU_OPEN_BUS_DECAY_TICKS`, which the spec calls a positive integer with no default (R8, R543; log
entry 3). -/
opaque decayTicksLessOne : Nat

/-- `PPU_OPEN_BUS_DECAY_TICKS`: PPU ticks without a refresh after which the PPU open-bus latch becomes 0. A positive
integer, otherwise open (R8, R543). -/
def ppuOpenBusDecayTicks : Nat := decayTicksLessOne + 1

/-- `SYSTEM_PALETTE`: the 24-bit RGB value of each 6-bit palette entry, red in bits 23:16, green in 15:8, blue in 7:0
(R8, R577: no value in the source; log entry 4). -/
opaque systemPalette : BitVec 6 → BitVec 24

end Sys2Proof.Config
end

