-- ==== Sys2Proof/Machine/Ppu.lean ====
section
/-! DEFINITION. The PPU: its address space, its register interface, the renderer and one PPU tick (52_ppu.md). The functions
take the cartridge, whose CHR and mirroring the PPU reads. -/

namespace Sys2Proof.Machine

/-! ## Address space -/

/-- Palette index normalisation, `PalIndex` (R551). -/
def palIndex (a : Nat) : Nat :=
  let i := a % 32
  if i = 0x10 ∨ i = 0x14 ∨ i = 0x18 ∨ i = 0x1C then i - 0x10 else i

/-- A palette entry by index. -/
def Ppu.pal (p : Ppu) (i : Nat) : BitVec 6 := p.palRam[i % 32]'(Nat.mod_lt _ (by decide))

/-- Store a palette entry. -/
def Ppu.setPal (p : Ppu) (i : Nat) (e : BitVec 6) : Ppu :=
  { p with palRam := p.palRam.set (i % 32) e (Nat.mod_lt _ (by decide)) }

/-- The physical nametable page of a logical page (R553). -/
def ntPage (m : Mirroring) (page : Nat) : Nat :=
  match m with
  | .horizontal => page / 2
  | .vertical => page % 2
  | .oneScreenLower => 0
  | .oneScreenUpper => 1
  | .fourScreen => page

/-- Nametable mirroring, `NtIndex` (R553). -/
def ntIndex (m : Mirroring) (a : Nat) : Nat := ntPage m (a / 0x400 % 4) * 0x400 + a % 0x400

/-- `PpuRead(a)` (R550, R556). -/
def Ppu.read (c : Option Cart) (p : Ppu) (a : BitVec 14) : Byte :=
  if a.toNat ≤ 0x1FFF then cartPpuRead c a.toNat
  else if a.toNat ≤ 0x3EFF then Memory.read p.ntRam (ntIndex (cartMirroring c) a.toNat)
  else (p.pal (palIndex a.toNat)).setWidth 8

/-- `PpuRead` at an address computed as a number, reduced to 14 bits (R550). -/
def Ppu.readAt (c : Option Cart) (p : Ppu) (a : Nat) : Nat := (p.read c (BitVec.ofNat 14 a)).toNat

/-- `PpuRead` at an address computed as an integer, reduced to 14 bits (R550). -/
def Ppu.readAtInt (c : Option Cart) (p : Ppu) (a : Int) : Nat := (p.read c (BitVec.ofInt 14 a)).toNat

/-- `PpuWrite(a, val)` (R557): a palette write keeps 6 bits. -/
def Ppu.write (c : Option Cart) (p : Ppu) (a : BitVec 14) (val : Byte) : Option Cart × Ppu :=
  if a.toNat ≤ 0x1FFF then (cartPpuWrite c a.toNat val, p)
  else if a.toNat ≤ 0x3EFF then
    (c, { p with ntRam := Memory.write p.ntRam (ntIndex (cartMirroring c) a.toNat) val })
  else (c, p.setPal (palIndex a.toNat) (val.setWidth 6))

/-! ## Register interface -/

/-- A refresh of the open-bus latch (R543). -/
def Ppu.refresh (p : Ppu) (val : Byte) : Ppu := { p with openBus := val, openBusAge := 0 }

/-- The address register as an address: `v & 0x3FFF` (R42). -/
def Ppu.vAddr (p : Ppu) : BitVec 14 := p.v.setWidth 14

/-- `v` after an access to 0x2007 (R569, R572): by 32 if `ctrl` bit 2 is 1, else by 1, modulo 2^15. -/
def Ppu.advanceV (p : Ppu) : Ppu := { p with v := p.v + (if bit p.ctrl 2 then 32 else 1) }

/-- The status byte a read of 0x2002 returns (R563). -/
def Ppu.statusByte (p : Ppu) : Byte :=
  (boolByte p.vblank <<< 7) ||| (boolByte p.sprite0Hit <<< 6) ||| (boolByte p.spriteOverflow <<< 5) |||
    (p.openBus &&& 0x1F)

/-- Read of 0x2002 (R563). -/
def Ppu.readStatus (p : Ppu) : Byte × Ppu :=
  let val := p.statusByte
  (val, ({ p with vblank := false, w := false }).refresh val)

/-- Read of 0x2004 (R565). -/
def Ppu.readOam (p : Ppu) : Byte × Ppu :=
  let val := Memory.read p.oam p.oamAddr.toNat
  (val, p.refresh val)

/-- Read of 0x2007 (R569). -/
def Ppu.readData (c : Option Cart) (p : Ppu) : Byte × Ppu :=
  let a := p.vAddr
  if a.toNat < 0x3F00 then
    let val := p.readBuffer
    (val, ({ p with readBuffer := p.read c a }).advanceV.refresh val)
  else
    let val := (p.read c a &&& 0x3F) ||| (p.openBus &&& 0xC0)
    (val, ({ p with readBuffer := p.read c (a - 0x1000) }).advanceV.refresh val)

/-- `PpuRegRead(r)` (R561): the write-only registers return the latch and change nothing. -/
def Ppu.regRead (c : Option Cart) (p : Ppu) (r : BitVec 3) : Byte × Ppu :=
  match r.toNat with
  | 2 => p.readStatus
  | 4 => p.readOam
  | 7 => p.readData c
  | _ => (p.openBus, p)

/-- Write of 0x2000 (R564). -/
def Ppu.writeCtrl (p : Ppu) (val : Byte) : Ppu := { p with ctrl := val, t := putField p.t 10 (field val 0 2) }

/-- Write of 0x2001 (R566). -/
def Ppu.writeMask (p : Ppu) (val : Byte) : Ppu := { p with mask := val }

/-- Write of 0x2003 (R567). -/
def Ppu.writeOamAddr (p : Ppu) (val : Byte) : Ppu := { p with oamAddr := val }

/-- One byte into OAM at the current address, which then advances (R451, R568). -/
def Ppu.oamPut (p : Ppu) (val : Byte) : Ppu :=
  { p with oam := Memory.write p.oam p.oamAddr.toNat val, oamAddr := p.oamAddr + 1 }

/-- Write of 0x2005 (R570). -/
def Ppu.writeScroll (p : Ppu) (val : Byte) : Ppu :=
  if p.w then { p with t := putField (putField p.t 5 (field val 3 5)) 12 (field val 0 3), w := false }
  else { p with t := putField p.t 0 (field val 3 5), fineX := field val 0 3, w := true }

/-- Write of 0x2006 (R571). -/
def Ppu.writeAddr (p : Ppu) (val : Byte) : Ppu :=
  if p.w then
    let t := putField p.t 0 val
    { p with t := t, v := t, w := false }
  else { p with t := putField (putField p.t 8 (field val 0 6)) 14 (0 : BitVec 1), w := true }

/-- Write of 0x2007 (R572). -/
def Ppu.writeData (c : Option Cart) (p : Ppu) (val : Byte) : Option Cart × Ppu :=
  let r := p.write c p.vAddr val
  (r.1, r.2.advanceV)

/-- The registers whose writes are ignored during the reset-protection window (R562). -/
def protectedReg (r : BitVec 3) : Bool := r == 0 || r == 1 || r == 5 || r == 6

/-- `PpuRegWrite(r, val)` (R562): the latch is refreshed even by an ignored write. -/
def Ppu.regWrite (c : Option Cart) (p : Ppu) (r : BitVec 3) (val : Byte) : Option Cart × Ppu :=
  let p := p.refresh val
  if p.resetProtect && protectedReg r then (c, p)
  else
    match r.toNat with
    | 0 => (c, p.writeCtrl val)
    | 1 => (c, p.writeMask val)
    | 3 => (c, p.writeOamAddr val)
    | 4 => (c, p.oamPut val)
    | 5 => (c, p.writeScroll val)
    | 6 => (c, p.writeAddr val)
    | 7 => p.writeData c val
    | _ => (c, p)

/-! ## The renderer -/

/-- Write one element of a screen; outside it nothing is written. -/
def Screen.put {α : Type} (g : Screen α) (x y : Nat) (a : α) : Screen α :=
  if hy : y < 240 then (if hx : x < 256 then g.set y ((g[y]).set x a) else g) else g

/-- `bg_vis(x)` (R578). -/
def Ppu.bgVis (p : Ppu) (x : Nat) : Bool := bit p.mask 3 && (decide (8 ≤ x) || bit p.mask 1)

/-- `spr_vis(x)` (R578). -/
def Ppu.sprVis (p : Ppu) (x : Nat) : Bool := bit p.mask 4 && (decide (8 ≤ x) || bit p.mask 2)

/-- The two-bit colour index in two bit planes, pixel 0 leftmost (R574, R576). -/
def planeIndex (lo hi px : Nat) : Nat := (hi >>> (7 - px)) % 2 * 2 + (lo >>> (7 - px)) % 2

/-- The background pixel at (x, y): its colour index and its palette entry (R574). -/
def Ppu.bgPixel (c : Option Cart) (p : Ppu) (x y : Nat) : Nat × BitVec 6 :=
  let cx := (p.latchedT.extractLsb' 0 5).toNat
  let cy := (p.latchedT.extractLsb' 5 5).toNat
  let nt := (p.latchedT.extractLsb' 10 2).toNat
  let fy := (p.latchedT.extractLsb' 12 3).toNat
  let bx := (nt % 2 * 256 + cx * 8 + p.latchedFineX.toNat + x) % 512
  let by' := (nt / 2 * 240 + cy * 8 + fy + y) % 480
  let page := by' / 240 * 2 + bx / 256
  let col := bx % 256 / 8
  let row := by' % 240 / 8
  let px := bx % 8
  let py := by' % 8
  let tile := p.readAt c (0x2000 + page * 0x400 + row * 32 + col)
  let attr := p.readAt c (0x23C0 + page * 0x400 + row / 4 * 8 + col / 4)
  let palId := (attr >>> (row / 2 % 2 * 4 + col / 2 % 2 * 2)) % 4
  let base := if bit p.ctrl 4 then 0x1000 else 0
  let lo := p.readAt c (base + tile * 16 + py)
  let hi := p.readAt c (base + tile * 16 + py + 8)
  let ci := planeIndex lo hi px
  (ci, if ci = 0 then p.pal 0 else p.pal (palId * 4 + ci))

/-- The sprite height: 16 if `ctrl` bit 5 is 1, else 8 (R45, R579). -/
def Ppu.spriteHeight (p : Ppu) : Nat := if bit p.ctrl 5 then 16 else 8

/-- OAM byte `k` as a number. -/
def Ppu.oamAt (p : Ppu) (k : Nat) : Nat := (Memory.read p.oam k).toNat

/-- `InRange(b)` on scanline `y`: the sprite covers scanlines b + 1 to b + h (R579). -/
def Ppu.inRange (p : Ppu) (y b : Nat) : Bool := decide (b + 1 ≤ y) && decide (y < b + 1 + p.spriteHeight)

/-- Sprite evaluation (R579) over the sprites listed: the active ones, and the sprites left when eight are active. -/
def Ppu.findSprites (p : Ppu) (y : Nat) : List (Fin 64) → List (Fin 64) → List (Fin 64) × List (Fin 64)
  | found, [] => (found, [])
  | found, n :: rest =>
    if found.length < 8 then
      p.findSprites y (if p.inRange y (p.oamAt (4 * n.val)) then found ++ [n] else found) rest
    else (found, n :: rest)

/-- The overflow walk (R580) from OAM offset `a`: does it meet an in-range byte? Each visit raises `a`, so 256 visits are
enough. -/
def Ppu.overflowWalk (p : Ppu) (y : Nat) : Nat → Nat → Bool
  | 0, _ => false
  | fuel + 1, a =>
    if a < 256 then
      if p.inRange y (p.oamAt a) then true
      else p.overflowWalk y fuel (if a % 4 = 3 then a + 5 else a + 1)
    else false

/-- `EvaluateSprites(y)` (R579, R580). -/
def Ppu.evaluateSprites (p : Ppu) (y : Nat) : Ppu :=
  let r := p.findSprites y [] (List.finRange 64)
  let overflow := match r.2 with
    | [] => false
    | n :: _ => decide (r.1.length = 8) && p.overflowWalk y 256 (4 * n.val)
  { p with activeSprites := r.1, spriteOverflow := p.spriteOverflow || overflow }

/-- What the sprite search found at a pixel (R576). -/
structure SpritePixel where
  index : Fin 64
  entry : BitVec 6
  behind : Bool
  deriving DecidableEq, Repr

/-- The address of the first bit plane of row `r` of a sprite's tile (R576). -/
def Ppu.spriteAddr (p : Ppu) (tile : Nat) (r : Int) : Int :=
  if p.spriteHeight = 8 then (if bit p.ctrl 3 then 0x1000 else 0) + tile * 16 + r
  else (if tile % 2 = 1 then 0x1000 else 0) + ((tile / 2 * 2 : Nat) + r / 8) * 16 + r % 8

/-- The pixel of sprite `s` at (x, y), if the sprite covers it with a non-zero colour index (R576). OAM is read at the pixel,
as R576 says; what R832 says of OAM is said of the evaluation, which is at dot 1 (log entry 23). The row is an integer: it can
lie outside the sprite where `ctrl` or OAM changed since the evaluation (log entry 17). -/
def Ppu.spriteAt (c : Option Cart) (p : Ppu) (x y : Nat) (s : Fin 64) : Option SpritePixel :=
  let sx := p.oamAt (4 * s.val + 3)
  if sx ≤ x ∧ x - sx ≤ 7 then
    let at' := Memory.read p.oam (4 * s.val + 2)
    let col := if bit at' 6 then 7 - (x - sx) else x - sx
    let line : Int := (y : Int) - (p.oamAt (4 * s.val) + 1)
    let row : Int := if bit at' 7 then p.spriteHeight - 1 - line else line
    let addr := p.spriteAddr (p.oamAt (4 * s.val + 1)) row
    let ci := planeIndex (p.readAtInt c addr) (p.readAtInt c (addr + 8)) col
    if ci = 0 then none
    else some { index := s, entry := p.pal (palIndex (0x10 + (field at' 0 2).toNat * 4 + ci)), behind := bit at' 5 }
  else none

/-- The sprite pixel at (x, y): the first active sprite with a non-zero colour index (R576). -/
def Ppu.spritePixel (c : Option Cart) (p : Ppu) (x y : Nat) : Option SpritePixel :=
  p.activeSprites.findSome? (p.spriteAt c x y)

/-- The palette entry shown at a pixel (R577): `bg` is the background's colour index and entry. -/
def Ppu.composed (p : Ppu) (x : Nat) (bg : Nat × BitVec 6) (spr : Option SpritePixel) : BitVec 6 :=
  let under := if p.bgVis x && bg.1 != 0 then bg.2 else p.pal 0
  match spr with
  | none => under
  | some q => if p.sprVis x && !(q.behind && bg.1 != 0 && p.bgVis x) then q.entry else under

/-- The sprite-0 hit condition at a pixel (R575). -/
def Ppu.hits (p : Ppu) (x : Nat) (bg : Nat × BitVec 6) (spr : Option SpritePixel) : Bool :=
  match spr with
  | none => false
  | some q => q.index == 0 && bg.1 != 0 && decide (x < 255) && p.bgVis x && p.sprVis x

/-- `RenderPixel(x, y)` (R574 to R577). -/
def Ppu.renderPixel (c : Option Cart) (p : Ppu) (x y : Nat) : Ppu :=
  let bg := p.bgPixel c x y
  let spr := p.spritePixel c x y
  { p with
    bgOpaque := Screen.put p.bgOpaque x y (bg.1 != 0)
    sprite0Hit := p.sprite0Hit || p.hits x bg spr
    framebuffer := Screen.put p.framebuffer x y (some (p.composed x bg spr)) }

/-! ## One tick -/

/-- The events at scanline 241, dot 1: the vblank flag, and the NMI request if `ctrl` bit 7 is 1 (R547, R548). -/
def Ppu.vblankEvent (p : Ppu) : Ppu :=
  if p.scanline = 241 ∧ p.dot = 1 then { p with vblank := true, nmiLatched := p.nmiLatched || bit p.ctrl 7 } else p

/-- The events at scanline 261, dot 1: the status bits and the reset protection end (R549). -/
def Ppu.preRenderEvent (p : Ppu) : Ppu :=
  if p.scanline = 261 ∧ p.dot = 1 then
    { p with vblank := false, sprite0Hit := false, spriteOverflow := false, resetProtect := false }
  else p

/-- The per-scanline latch and the sprite evaluation at dot 1 of a visible scanline (R541, R573): the active sprites change
nowhere else, so an OAM write or DMA is seen by the evaluation of the next scanline on (R832). -/
def Ppu.scanlineEvent (p : Ppu) : Ppu :=
  if p.scanline ≤ 239 ∧ p.dot = 1 then
    ({ p with latchedT := p.t, latchedFineX := p.fineX }).evaluateSprites p.scanline
  else p

/-- The pixel of a visible dot (R541, R573). -/
def Ppu.pixelEvent (c : Option Cart) (p : Ppu) : Ppu :=
  if p.scanline ≤ 239 ∧ 1 ≤ p.dot ∧ p.dot ≤ 256 then p.renderPixel c (p.dot - 1) p.scanline else p

/-- Open-bus decay (R541, R543). -/
def Ppu.decay (p : Ppu) : Ppu :=
  let age := p.openBusAge + 1
  { p with openBusAge := age, openBus := if Config.ppuOpenBusDecayTicks ≤ age then 0 else p.openBus }

/-- The advance of the position, with frame completion at the wrap (R541, R545). -/
def Ppu.advance (p : Ppu) : Ppu :=
  let p := { p with ppuCycles := p.ppuCycles + 1 }
  if p.dot + 1 = 341 then
    if p.scanline + 1 = 262 then
      { p with dot := 0, scanline := 0, frameCount := p.frameCount + 1, drawnFrame := some p.framebuffer }
    else { p with dot := 0, scanline := p.scanline + 1 }
  else { p with dot := p.dot + 1 }

/-- `PpuTick()` (R541): the events of the current position, the decay, the advance. -/
def Ppu.tick (c : Option Cart) (p : Ppu) : Ppu :=
  ((p.vblankEvent.preRenderEvent.scanlineEvent.pixelEvent c).decay).advance

/-- The PPU's reset: OAM and palette RAM keep their contents (R803). -/
def Ppu.resetKeeping (p : Ppu) : Ppu := { Ppu.reset with oam := p.oam, palRam := p.palRam }

/-- The four bytes R, G, B, A of a framebuffer pixel: cleared is 0, 0, 0 with alpha 255, drawn is the system palette's
colour with alpha 255 (R40, R577). -/
def pixelRgba : Option (BitVec 6) → Byte × Byte × Byte × Byte
  | none => (0, 0, 0, 255)
  | some e =>
    let rgb := Config.systemPalette e
    (rgb.extractLsb' 16 8, rgb.extractLsb' 8 8, rgb.extractLsb' 0 8, 255)

end Sys2Proof.Machine
end

