-- ==== Sys2Proof/Machine/Bus.lean ====
section
/-! DEFINITION. The system bus: reads and writes of the CPU address space, the controller ports and OAM DMA (50_bus.md). The
CPU's registers are never touched here: every function leaves `State.cpu` as it is. -/

namespace Sys2Proof.Machine

/-! ## Controllers -/

/-- The shift register of a port after a read (R447). -/
def Port.afterRead (strobe : Bool) (p : Port) : Port :=
  if strobe then { p with shift := p.latch } else { p with shift := (p.shift >>> 1) ||| 0x80 }

/-- The bit a read of a port returns: the latch's bit 0 while strobe is high, else the shift register's (R447). -/
def Port.bitOut (strobe : Bool) (p : Port) : Bool := bit (if strobe then p.latch else p.shift) 0

/-- `ControllerRead(i)` for the port at 0x4016 (`second = false`) or 0x4017 (R447): bits 7:1 are the open-bus latch. -/
def Bus.controllerRead (b : Bus) (second : Bool) : Byte × Bus :=
  let port := if second then b.ctl1 else b.ctl0
  let val := (b.openBus &&& 0xFE) ||| boolByte (port.bitOut b.ctlStrobe)
  let port := port.afterRead b.ctlStrobe
  (val, if second then { b with ctl1 := port } else { b with ctl0 := port })

/-- A port's shift register reloaded from its latch (R448). -/
def Port.reload (p : Port) : Port := { p with shift := p.latch }

/-- `ControllerStrobe(v)` (R448). -/
def Bus.controllerStrobe (b : Bus) (v : Byte) : Bus :=
  let old := b.ctlStrobe
  let b := { b with ctlStrobe := bit v 0 }
  if b.ctlStrobe || old then { b with ctl0 := b.ctl0.reload, ctl1 := b.ctl1.reload } else b

/-! ## Reads -/

/-- The byte the cartridge answers a CPU read with, if one is present and accepts the address (R433, R484). -/
def State.cartAnswer (s : State) (a : Word) : Option Byte := s.cart.bind fun c => c.cpuRead a

/-- The index into work RAM of an address below 0x2000 (R35, R434). -/
def ramIndex (a : Word) : Nat := a.toNat % 0x800

/-- The PPU register an address in 0x2000 to 0x3FFF names (R434). -/
def ppuReg (a : Word) : BitVec 3 := a.setWidth 3

/-- The arms of `BusRead`, in the order of R431, without the latch update. -/
def busAnswer (a : Word) (s : State) : Byte × State :=
  if a = 0x4015 then
    let r := s.apu.readStatus s.bus.openBus
    (r.1, { s with apu := r.2 })
  else
    match s.cartAnswer a with
    | some v => (v, s)
    | none =>
      if a = 0x4016 ∨ a = 0x4017 then
        let r := s.bus.controllerRead (a == 0x4017)
        (r.1, { s with bus := r.2 })
      else if a.toNat ≤ 0x1FFF then (Memory.read s.bus.ram (ramIndex a), s)
      else if a.toNat ≤ 0x3FFF then
        let r := s.ppu.regRead s.cart (ppuReg a)
        (r.1, { s with ppu := r.2 })
      else if 0x4020 ≤ a.toNat ∧ s.cart.isNone then (0x00, s)
      else (s.bus.openBus, s)

/-- Set the CPU open-bus latch (R37, R438). -/
def State.latch (s : State) (v : Byte) : State := { s with bus := { s.bus with openBus := v } }

/-- `BusRead(addr)`, which is `MemRead(addr, 1)` (R431): the answer, and the latch set to it (R438). -/
def busRead (a : Word) (s : State) : Byte × State :=
  let r := busAnswer a s
  (r.1, r.2.latch r.1)

/-! ## OAM DMA -/

/-- One byte of the copy: a full bus read, and the byte into OAM at the current address (R451). -/
def oamDmaStep (page : Byte) (i : Nat) (s : State) : State :=
  let r := busRead (mkWord page (BitVec.ofNat 8 i)) s
  { r.2 with ppu := r.2.ppu.oamPut r.1 }

/-- The copy of `n` bytes, ending with byte 255 of the page (R451). -/
def oamDmaCopy (page : Byte) : Nat → State → State
  | 0, s => s
  | n + 1, s => oamDmaCopy page n (oamDmaStep page (255 - n) s)

/-- `OamDmaStall()`: 513 when `cycle_count` is even at the write, 514 when it is odd (R452). -/
def oamDmaStall (c : Cpu) : Nat := if c.cycleCount.getLsbD 0 then 514 else 513

/-- `OamDma(v)` (R451): the whole copy, then the stall is charged. -/
def oamDma (v : Byte) (s : State) : State :=
  let s := oamDmaCopy v 256 s
  { s with apu := { s.apu with stallPending := s.apu.stallPending + oamDmaStall s.cpu } }

/-! ## Writes -/

/-- The addresses offered to the APU (R440, R632). -/
def apuOffered (a : Word) : Bool :=
  (decide (0x4000 ≤ a.toNat) && decide (a.toNat ≤ 0x4013)) || a == 0x4015 || a == 0x4017

/-- The offer of a write to the APU (R440). -/
def State.offerApu (s : State) (a : Word) (v : Byte) : State :=
  if apuOffered a then { s with apu := s.apu.write s.params a v } else s

/-- The offer of a write to the cartridge (R440). -/
def State.offerCart (s : State) (a : Word) (v : Byte) : State :=
  { s with cart := s.cart.map fun c => c.cpuWrite a v }

/-- The bus-local writes: work RAM, PPU registers, OAM DMA, controller strobe (R440). -/
def State.localWrite (s : State) (a : Word) (v : Byte) : State :=
  if a.toNat ≤ 0x1FFF then { s with bus := { s.bus with ram := Memory.write s.bus.ram (ramIndex a) v } }
  else if a.toNat ≤ 0x3FFF then
    let r := s.ppu.regWrite s.cart (ppuReg a) v
    { s with cart := r.1, ppu := r.2 }
  else if a = 0x4014 then oamDma v s
  else if a = 0x4016 then { s with bus := s.bus.controllerStrobe v }
  else s

/-- `BusWrite(addr, v)`, which is `MemWrite(addr, 1, v)` (R440). -/
def busWrite (a : Word) (v : Byte) (s : State) : State :=
  (((s.latch v).offerApu a v).offerCart a v).localWrite a v

/-! ## Storage as a program's memory -/

/-- The byte of plain storage a CPU address shows: work RAM, PRG-RAM or PRG-ROM; `none` where a device, a closed PRG-RAM
window or nothing answers. Reading it has no effect; it is the view in which statements say what memory holds. -/
def State.storage (s : State) (a : Word) : Option Byte :=
  if a.toNat ≤ 0x1FFF then some (Memory.read s.bus.ram (ramIndex a))
  else
    match s.cart with
    | none => none
    | some c =>
      match c.mapRead a with
      | .prgRam off => some (Memory.read c.prgRam off)
      | .prgRom off => some (Memory.read c.prgRom off)
      | .notMine => none
      | .zero => none

end Sys2Proof.Machine
end

