-- ==== Sys2Proof/Machine/Flags.lean ====
section
/-! DEFINITION. The status register's flags and every flag computation the instructions use (R24, R25, R270). -/

namespace Sys2Proof.Machine

/-- The flags of P (R24). -/
inductive Flag where
  | c | z | i | d | b | u | v | n
  deriving DecidableEq, Repr

/-- The bit of P that holds a flag (R24). -/
def Flag.bitNo : Flag → Nat
  | .c => 0
  | .z => 1
  | .i => 2
  | .d => 3
  | .b => 4
  | .u => 5
  | .v => 6
  | .n => 7

/-- A flag's value. -/
def getFlag (p : Byte) (f : Flag) : Bool := p.getLsbD f.bitNo

/-- P with one flag replaced. -/
def setFlag (p : Byte) (f : Flag) (x : Bool) : Byte :=
  if x then p ||| (1#8 <<< f.bitNo) else p &&& ~~~(1#8 <<< f.bitNo)

/-- `SetNZ(v)` (R10). -/
def setNZ (v : Byte) (p : Byte) : Byte := setFlag (setFlag p .z (v == 0)) .n (bit v 7)

/-- An 8-bit sum with carry-in: the result, the carry out of bit 7 and the signed overflow (R250, R270). -/
structure Sum where
  result : Byte
  carry : Bool
  overflow : Bool
  deriving DecidableEq, Repr

/-- The addition of ADC, and of SBC with the complemented operand (R250, R251). -/
def addWithCarry (a m : Byte) (c : Bool) : Sum :=
  let sum := a.toNat + m.toNat + c.toNat
  let r := BitVec.ofNat 8 sum
  { result := r, carry := decide (0xFF < sum), overflow := (~~~(a ^^^ m) &&& (a ^^^ r) &&& 0x80) != 0 }

/-- The body of ADC with operand `m` (R250). D is not read. -/
def adcBody (m : Byte) (cpu : Cpu) : Cpu :=
  let s := addWithCarry cpu.a m (getFlag cpu.p .c)
  { cpu with a := s.result, p := setNZ s.result (setFlag (setFlag cpu.p .c s.carry) .v s.overflow) }

/-- The body of SBC: an add of the complement (R251). -/
def sbcBody (m : Byte) (cpu : Cpu) : Cpu := adcBody (m ^^^ 0xFF) cpu

/-- The body of a compare of `r` with `m` (R255 to R257): no register and no V changes. -/
def compareBody (r m : Byte) (cpu : Cpu) : Cpu :=
  { cpu with p := setNZ (r - m) (setFlag cpu.p .c (decide (m.toNat ≤ r.toNat))) }

/-- The flags of BIT (R258). -/
def bitBody (m : Byte) (cpu : Cpu) : Cpu :=
  { cpu with p := setFlag (setFlag (setFlag cpu.p .z ((cpu.a &&& m) == 0)) .n (bit m 7)) .v (bit m 6) }

/-- The result of a shift or rotate and the carry it leaves. -/
structure Shifted where
  result : Byte
  carry : Bool
  deriving DecidableEq, Repr

/-- ASL's `f` (R265). -/
def aslOf (old : Byte) : Shifted := { result := old <<< 1, carry := bit old 7 }

/-- LSR's `f` (R266). -/
def lsrOf (old : Byte) : Shifted := { result := old >>> 1, carry := bit old 0 }

/-- ROL's `f` with the carry before it (R267). -/
def rolOf (c : Bool) (old : Byte) : Shifted := { result := (old <<< 1) ||| boolByte c, carry := bit old 7 }

/-- ROR's `f` with the carry before it (R268). -/
def rorOf (c : Bool) (old : Byte) : Shifted := { result := (old >>> 1) ||| (boolByte c <<< 7), carry := bit old 0 }

/-- The P a pull leaves: bits 7, 6, 3, 2, 1, 0 of the pulled byte, B 0, U 1 (R25, R216, R304). -/
def pulledP (m : Byte) : Byte := (m &&& 0xCF) ||| 0x20

/-- The status byte BRK and PHP push (R25, R214, R305). -/
def breakP (p : Byte) : Byte := p ||| 0x30

/-- The status byte NMI and IRQ entry push (R25, R770). -/
def interruptP (p : Byte) : Byte := (p &&& 0xEF) ||| 0x20

end Sys2Proof.Machine
end

