-- ==== Sys2Proof/Machine/Ops.lean ====
section
/-! DEFINITION. The named operations the instructions are made of: the stack, the timing and the IRQ poll of an instruction,
and taking an exception with the return from one beside it (R10, R764, R770, R775). -/

namespace Sys2Proof.Machine

/-- A change of the CPU's registers alone. -/
def State.mapCpu (s : State) (f : Cpu → Cpu) : State := { s with cpu := f s.cpu }

/-! ## The stack -/

/-- The stack address SP designates: page 1 (R23). -/
def stackAddr (sp : Byte) : Word := mkWord 0x01 sp

/-- `Push(v)`: write, then decrement SP (R10, R23). -/
def push (v : Byte) (s : State) : State :=
  (busWrite (stackAddr s.cpu.sp) v s).mapCpu fun c => { c with sp := c.sp - 1 }

/-- `Pull()`: increment SP, then read (R10, R23). -/
def pull (s : State) : Byte × State :=
  let s := s.mapCpu fun c => { c with sp := c.sp + 1 }
  busRead (stackAddr s.cpu.sp) s

/-- The two bytes of an address pushed, the high byte first (R106, R302, R770). -/
def pushWord (w : Word) (s : State) : State := push (loByte w) (push (hiByte w) s)

/-- An address pulled, the low byte first (R303, R304). -/
def pullWord (s : State) : Word × State :=
  let lo := pull s
  let hi := pull lo.2
  (mkWord hi.1 lo.1, hi.2)

/-- A 16-bit value read from an address and the next one, low byte first (R106): the vectors. -/
def readVector (a : Word) (s : State) : Word × State :=
  let lo := busRead a s
  let hi := busRead (a + 1) lo.2
  (mkWord hi.1 lo.1, hi.2)

/-- The byte at PC, and PC advanced (R151). -/
def fetchByte (s : State) : Byte × State :=
  let r := busRead s.cpu.pc s
  (r.1, r.2.mapCpu fun c => { c with pc := c.pc + 1 })

/-! ## Timing and the IRQ poll -/

/-- `Poll()` (R764): sets the latch, never clears it. -/
def Cpu.poll (c : Cpu) : Cpu :=
  { c with latchedIrq := c.latchedIrq || (c.irqLine && !getFlag c.p .i) }

/-- The poll of an instruction of two clocks: at the start of its first clock, before its effects (R764). The opcode and
operand reads that come after it change neither `irq_line` nor P (log entry 9). -/
def Cpu.pollFirst (n : Nat) (c : Cpu) : Cpu := if n ≤ 2 then c.poll else c

/-- The length of the instruction or sequence begun in this clock, and the later clocks that begin with a poll (R27, R150). -/
def Cpu.setTiming (n : Nat) (pollAt : List Nat) (c : Cpu) : Cpu :=
  { c with cyclesRemaining := n, totalCycles := n, pollAt := pollAt }

/-- The general poll point of an instruction of `n` clocks that comes after its first clock: clock n - 1 (R764). -/
def generalPoll (n : Nat) : List Nat := if n ≤ 2 then [] else [n - 1]

/-- The timing of an instruction of `n` clocks with the general poll point (R150, R764). -/
def Cpu.setGeneral (n : Nat) (c : Cpu) : Cpu := c.setTiming n (generalPoll n)

/-- An instruction that touches only the CPU's registers and takes `n` clocks. -/
def registerOp (n : Nat) (f : Cpu → Cpu) (s : State) : State :=
  s.mapCpu fun c => (f (c.pollFirst n)).setGeneral n

/-- The number of the clock of the current instruction that begins now: clock 1 begins with all of them left. -/
def Cpu.clockNo (c : Cpu) : Nat := c.totalCycles + 1 - c.cyclesRemaining

/-- How every clock ends (R150, R743). -/
def Cpu.endClock (c : Cpu) : Cpu :=
  { c with cyclesRemaining := c.cyclesRemaining - 1, cycleCount := c.cycleCount + 1 }

/-! ## Taking an exception and returning from one -/

/-- The events that enter through a vector (R761). -/
inductive Event where
  | nmi
  | irq
  | brk
  deriving DecidableEq, Repr

/-- The vector's address (R104, R761). -/
def Event.vector : Event → Word
  | .nmi => 0xFFFA
  | .irq => 0xFFFE
  | .brk => 0xFFFE

/-- The status byte the entry pushes: bit 4 tells BRK from the interrupts (R25, R305, R761, R770). -/
def Event.pushedP (e : Event) (p : Byte) : Byte :=
  match e with
  | .nmi => interruptP p
  | .irq => interruptP p
  | .brk => breakP p

/-- Taking an exception (R770; R305 for BRK, whose PC is already past its padding byte): PC and status pushed, I set, PC
from the vector. -/
def takeEvent (e : Event) (s : State) : State :=
  let s := pushWord s.cpu.pc s
  let s := push (e.pushedP s.cpu.p) s
  let s := s.mapCpu fun c => { c with p := setFlag c.p .i true }
  let v := readVector e.vector s
  v.2.mapCpu fun c => { c with pc := v.1 }

/-- The interrupt sequence: the entry, and seven clocks without a poll (R767, R770). -/
def interruptEntry (e : Event) (s : State) : State :=
  (takeEvent e s).mapCpu fun c => c.setTiming 7 []

/-- The return from an exception: P, then PC low, then PC high (R304, R775). -/
def returnFromEvent (s : State) : State :=
  let m := pull s
  let s := m.2.mapCpu fun c => { c with p := pulledP m.1 }
  let w := pullWord s
  w.2.mapCpu fun c => { c with pc := w.1 }

end Sys2Proof.Machine
end

