-- ==== Sys2Proof/Machine/HostOps.lean ====
section
/-! DEFINITION. What the host does to the machine between driver ticks (R6, R745): reset, power-on, inserting and removing a
cartridge, the controller latches, draining audio and taking the drawn frame. `step` never calls these. -/

namespace Sys2Proof.Machine

/-! ## Reset -/

/-- A port after reset: the latch is host input and stays (R805). -/
def Port.resetKeeping (p : Port) : Port := { p with shift := 0 }

/-- Bus reset: work RAM and the controller latches stay (R805). -/
def Bus.resetKeeping (b : Bus) : Bus :=
  { b with ctl0 := b.ctl0.resetKeeping, ctl1 := b.ctl1.resetKeeping, ctlStrobe := false, openBus := 0 }

/-- The reset vector (R104, R802). -/
def resetVector : Word := 0xFFFC

/-- CPU reset: the vector is read through the bus at once, and eight idle clocks follow (R802). The other fields of `sh`
are don't-care and stay (R807). -/
def cpuReset (s : State) : State :=
  let v := readVector resetVector s
  v.2.mapCpu fun c => { Cpu.reset v.1 with sh := { c.sh with active := false } }

/-- Console reset: mapper, bus, PPU, APU, CPU (R800). -/
def consoleReset (s : State) : State :=
  cpuReset { s with
    cart := s.cart.map Cart.resetHook
    bus := s.bus.resetKeeping
    ppu := s.ppu.resetKeeping
    apu := Apu.reset }

/-- The launch values of the machine's own memories (R8, R801): `RAM_INIT`, `OAM_INIT`, `PALETTE_INIT`. A cartridge brings
its own `PRG_RAM_INIT` and `CHR_RAM_INIT`. -/
structure Launch where
  ram : Memory
  oam : Memory
  palRam : Vector (BitVec 6) 32
  deriving DecidableEq, Repr

/-- Power-on of the instance whose parameters are `k` (R8): the memories take their launch values, then a console reset
(R801). -/
def powerOn (k : Params) (l : Launch) (cart : Option Cart) : State :=
  consoleReset
    { cpu := Cpu.reset 0, bus := { Bus.reset with ram := l.ram }
      ppu := { Ppu.reset with oam := l.oam, palRam := l.palRam }, apu := Apu.reset, cart := cart, params := k }

/-! ## Cartridge creation from an iNES image -/

/-- Why creation is refused (R482). -/
inductive ImageError where
  | badMagic
  | nes20
  | truncated
  | unsupportedMapper (id : Byte)
  | noPrgBanks
  deriving DecidableEq, Repr

/-- The header byte at an index; 0 past the end of the image. -/
def headerByte (image : List Byte) (i : Nat) : Byte := image.getD i 0

/-- `mapper_id` (R481). -/
def imageMapperId (image : List Byte) : Byte := (headerByte image 7 &&& 0xF0) ||| (headerByte image 6 >>> 4)

/-- The length of the header and, if the image has one, the trainer (R481). -/
def imageBodyStart (image : List Byte) : Nat := if bit (headerByte image 6) 2 then 16 + 512 else 16

/-- The size of PRG-ROM (R481). -/
def imagePrgSize (image : List Byte) : Nat := (headerByte image 4).toNat * 16384

/-- The size of CHR-ROM; 0 where the image has none (R481). -/
def imageChrRomSize (image : List Byte) : Nat := (headerByte image 5).toNat * 8192

/-- The header's mirroring mode (R481). -/
def imageMirroring (image : List Byte) : Mirroring :=
  if bit (headerByte image 6) 3 then .fourScreen
  else if bit (headerByte image 6) 0 then .vertical
  else .horizontal

/-- The mapper an id names, its registers at reset (R1, R62 to R64, R482). -/
def imageMapper (id : Byte) : Option Mapper :=
  match id.toNat with
  | 0 => some .nrom
  | 1 => some (.mmc1 { shift := 0x10, control := 0x0C, chrBank0 := 0, chrBank1 := 0, prgBank := 0 })
  | 2 => some (.uxrom 0)
  | 3 => some (.cnrom 0)
  | 4 =>
    some (.mmc3 { bankSelect := 0, r := Vector.replicate 8 0, prgRamEnable := true, prgRamWriteProtect := false })
  | _ => none

/-- The magic of an iNES image (R481). -/
def imageMagic : List Byte := [0x4E, 0x45, 0x53, 0x1A]

/-- The cartridge's bytes from an index on, as an array. -/
def imageSlice (image : List Byte) (start size : Nat) : Memory := Memory.ofBytes ((image.drop start).take size)

/-- Cartridge creation (R480 to R482), with the launch contents of PRG-RAM and, where CHR is RAM, of CHR. R482 lists the
refusals and does not say which error the host gets for an image with several faults: the model reports the first of bad
magic, NES 2.0, truncated, unsupported mapper, no PRG bank (DESIGN CHOICE, log entry 21). -/
def createCart (image : List Byte) (prgRamInit chrRamInit : Memory) : Except ImageError Cart :=
  if image.take 4 ≠ imageMagic then .error .badMagic
  else if field (headerByte image 7) 2 2 = 2 then .error .nes20
  else if image.length < imageBodyStart image + imagePrgSize image + imageChrRomSize image then .error .truncated
  else
    match imageMapper (imageMapperId image) with
    | none => .error (.unsupportedMapper (imageMapperId image))
    | some mapper =>
      if headerByte image 4 = 0 then .error .noPrgBanks
      else
        let chrIsRam := headerByte image 5 == 0
        let prgStart := imageBodyStart image
        .ok {
          prgBanks := (headerByte image 4).toNat
          prgRom := imageSlice image prgStart (imagePrgSize image)
          chrSize := if chrIsRam then 8192 else imageChrRomSize image
          chrIsRam := chrIsRam
          headerMirroring := imageMirroring image
          prgRam := prgRamInit
          chr := if chrIsRam then chrRamInit else imageSlice image (prgStart + imagePrgSize image) (imageChrRomSize image)
          mirroring := imageMirroring image
          mapper := mapper }

/-- Insert a cartridge: created, then a console reset; a refused image inserts nothing (R482, R745, R800). -/
def insertCartridge (image : List Byte) (prgRamInit chrRamInit : Memory) (s : State) : Except ImageError State :=
  (createCart image prgRamInit chrRamInit).map fun c => consoleReset { s with cart := some c }

/-- Remove the cartridge (R745). -/
def removeCartridge (s : State) : State := { s with cart := none }

/-! ## Controllers, audio, frames -/

/-- The host pushes a player's button mask; a player index outside {0, 1} is ignored (R6, R446). -/
def setController (player : Nat) (mask : Byte) (s : State) : State :=
  match player with
  | 0 => { s with bus := { s.bus with ctl0 := { s.bus.ctl0 with latch := mask } } }
  | 1 => { s with bus := { s.bus with ctl1 := { s.bus.ctl1 with latch := mask } } }
  | _ => s

/-- The most samples one drain removes (R721). -/
def drainLimit : Nat := 4096

/-- `drain_audio`: up to `max`, at most 4096, of the oldest samples (R721). -/
def drainAudio (max : Nat) (s : State) : List Rat × State :=
  let n := min max drainLimit
  (s.apu.pcmQueue.take n, { s with apu := { s.apu with pcmQueue := s.apu.pcmQueue.drop n } })

/-- The host takes the frame the last completion handed over, if there is one (R6, R545). -/
def takeFrame (s : State) : Option (Screen (Option (BitVec 6))) × State :=
  (s.ppu.drawnFrame, { s with ppu := { s.ppu with drawnFrame := none } })

end Sys2Proof.Machine
end

