-- ==== Sys2Proof/Syntax.lean ====
section
/-! DEFINITION. The instructions as syntax: one constructor for each pair (mnemonic, rule) of spec/opcode_table.json. The
rows of one such pair differ only in the operand form (the table's `format`) or in the opcode byte: they are the operand
forms of one instruction and are told apart by the constructor's arguments, so that the 256 rows of the table are 256
different shapes of term. Which forms an instruction has is `Instr.wf` (WellFormed.lean). -/

namespace Sys2Proof

/-- A memory operand form with its operand bytes (R155, R156, R158, R159). -/
inductive MemMode where
  | zp (z : Byte)       -- zero-page
  | zpx (z : Byte)      -- zero-page,X
  | zpy (z : Byte)      -- zero-page,Y
  | abs (w : Word)      -- absolute
  | abx (w : Word)      -- absolute,X
  | aby (w : Word)      -- absolute,Y
  | izx (z : Byte)      -- (zero-page,X)
  | izy (z : Byte)      -- (zero-page),Y
  deriving DecidableEq, Repr

/-- The operand of a `read`-kind instruction: an immediate byte (R154) or a memory operand. -/
inductive ReadMode where
  | imm (v : Byte)
  | mem (m : MemMode)
  deriving DecidableEq, Repr

/-- The operand of a shift or rotate: the accumulator (R153) or a memory operand. -/
inductive ShiftMode where
  | acc
  | mem (m : MemMode)
  deriving DecidableEq, Repr

/-- The instructions (R2, R160). -/
inductive Instr where
  -- 40_load_store_transfer.md
  | lda (m : ReadMode)             -- R201
  | ldx (m : ReadMode)             -- R202
  | ldy (m : ReadMode)             -- R203
  | sta (m : MemMode)              -- R204
  | stx (m : MemMode)              -- R205
  | sty (m : MemMode)              -- R206
  | tax                            -- R207
  | tay                            -- R208
  | txa                            -- R209
  | tya                            -- R210
  | tsx                            -- R211
  | txs                            -- R212
  | pha                            -- R213
  | php                            -- R214
  | pla                            -- R215
  | plp                            -- R216
  -- 41_arithmetic_logic.md
  | adc (m : ReadMode)             -- R250
  | sbc (m : ReadMode)             -- R251
  | and (m : ReadMode)             -- R252
  | ora (m : ReadMode)             -- R253
  | eor (m : ReadMode)             -- R254
  | cmp (m : ReadMode)             -- R255
  | cpx (m : ReadMode)             -- R256
  | cpy (m : ReadMode)             -- R257
  | bit (m : MemMode)              -- R258
  | inc (m : MemMode)              -- R259
  | dec (m : MemMode)              -- R260
  | inx                            -- R261
  | iny                            -- R262
  | dex                            -- R263
  | dey                            -- R264
  | asl (m : ShiftMode)            -- R265
  | lsr (m : ShiftMode)            -- R266
  | rol (m : ShiftMode)            -- R267
  | ror (m : ShiftMode)            -- R268
  -- 42_control_flow_flags.md
  | jmp (target : Word)            -- R300
  | jmpInd (ptr : Word)            -- R301
  | jsr (target : Word)            -- R302
  | rts                            -- R303
  | rti                            -- R304
  | brk                            -- R305
  | bpl (off : Byte)               -- R307
  | bmi (off : Byte)               -- R308
  | bvc (off : Byte)               -- R309
  | bvs (off : Byte)               -- R310
  | bcc (off : Byte)               -- R311
  | bcs (off : Byte)               -- R312
  | bne (off : Byte)               -- R313
  | beq (off : Byte)               -- R314
  | clc                            -- R315
  | sec                            -- R316
  | cli                            -- R317
  | sei                            -- R318
  | cld                            -- R319
  | sed                            -- R320
  | clv                            -- R321
  | nop                            -- R322, 0xEA
  -- 43_unofficial.md; `op` is the opcode byte where several bytes are one instruction (R166: "this spec names the byte")
  | slo (m : MemMode)              -- R350
  | rla (m : MemMode)              -- R351
  | sre (m : MemMode)              -- R352
  | rra (m : MemMode)              -- R353
  | sax (m : MemMode)              -- R354
  | lax (m : MemMode)              -- R355
  | dcp (m : MemMode)              -- R356
  | isc (m : MemMode)              -- R357
  | anc (op : Byte) (v : Byte)     -- R358, 0x0B and 0x2B
  | asr (v : Byte)                 -- R359
  | arr (v : Byte)                 -- R360
  | ane (v : Byte)                 -- R361
  | lxa (v : Byte)                 -- R362
  | axs (v : Byte)                 -- R363
  | sbcMirror (v : Byte)           -- R364, 0xEB
  | lae (base : Word)              -- R365
  | nopImplied (op : Byte)         -- R366
  | nopImm (op : Byte) (v : Byte)  -- R367
  | nopRead (op : Byte) (m : MemMode)  -- R368
  | nopAbx (op : Byte) (base : Word)   -- R369
  | nopUnknown (op : Byte)         -- R370, the table's NOP*
  -- 44_unstable_stores.md
  | shaIzy (z : Byte)              -- R404
  | shaAby (base : Word)           -- R405
  | shx (base : Word)              -- R406
  | shy (base : Word)              -- R407
  | shs (base : Word)              -- R408
  deriving DecidableEq, Repr

end Sys2Proof
end

