-- ==== Sys2Proof/WellFormed.lean ====
section
/-! DEFINITION. Which terms of `Instr` are instructions: the operand forms each instruction has (the encodings listed in
its rule, 40 to 44, and the `format` column of spec/opcode_table.json) and, where one instruction has several opcode
bytes, that the byte named is one of them. -/

namespace Sys2Proof

/-- The form of a memory operand without its bytes. -/
inductive MemForm where
  | zp | zpx | zpy | abs | abx | aby | izx | izy
  deriving DecidableEq, Repr

/-- The form of a memory operand. -/
def MemMode.form : MemMode → MemForm
  | .zp _ => .zp
  | .zpx _ => .zpx
  | .zpy _ => .zpy
  | .abs _ => .abs
  | .abx _ => .abx
  | .aby _ => .aby
  | .izx _ => .izx
  | .izy _ => .izy

/-- The operand's form is one of the forms listed. -/
def MemMode.isIn (m : MemMode) (forms : List MemForm) : Bool := forms.contains m.form

/-- The seven memory forms of the accumulator instructions and of the combined read-modify-write ones (all but
zero-page,Y). -/
def aluForms : List MemForm := [.zp, .zpx, .abs, .abx, .aby, .izx, .izy]

/-- The four memory forms of INC, DEC, the shifts and the rotates. -/
def rmwForms : List MemForm := [.zp, .zpx, .abs, .abx]

/-- Immediate, or a memory operand in one of the forms listed. -/
def ReadMode.isIn (m : ReadMode) (forms : List MemForm) : Bool :=
  match m with
  | .imm _ => true
  | .mem m => m.isIn forms

/-- Accumulator, or a memory operand in one of the forms listed. -/
def ShiftMode.isIn (m : ShiftMode) (forms : List MemForm) : Bool :=
  match m with
  | .acc => true
  | .mem m => m.isIn forms

/-- The two opcode bytes of ANC (R358). -/
def ancOpcodes : List Byte := [0x0B, 0x2B]

/-- The opcode bytes of the unofficial implied NOP (R366). -/
def nopImpliedOpcodes : List Byte := [0x1A, 0x3A, 0x5A, 0x7A, 0xDA, 0xFA]

/-- The opcode bytes of the immediate NOP (R367). -/
def nopImmOpcodes : List Byte := [0x80, 0x82, 0x89, 0xC2, 0xE2]

/-- The opcode bytes of the zero-page NOP (R368). -/
def nopZpOpcodes : List Byte := [0x04, 0x44, 0x64]

/-- The opcode bytes of the zero-page,X NOP (R368). -/
def nopZpxOpcodes : List Byte := [0x14, 0x34, 0x54, 0x74, 0xD4, 0xF4]

/-- The opcode bytes of the absolute,X NOP (R369). -/
def nopAbxOpcodes : List Byte := [0x1C, 0x3C, 0x5C, 0x7C, 0xDC, 0xFC]

/-- The twelve unknown opcodes (R164, R370). -/
def unknownOpcodes : List Byte :=
  [0x02, 0x12, 0x22, 0x32, 0x42, 0x52, 0x62, 0x72, 0x92, 0xB2, 0xD2, 0xF2]

/-- The opcode byte and the form of a reading NOP agree (R368). -/
def nopReadOk (op : Byte) : MemMode → Bool
  | .zp _ => nopZpOpcodes.contains op
  | .zpx _ => nopZpxOpcodes.contains op
  | .abs _ => op == 0x0C
  | _ => false

/-- The term is an instruction: its operand form exists and its opcode byte, where it names one, is one of its own. -/
def Instr.wf : Instr → Bool
  | .lda m => m.isIn aluForms
  | .ldx m => m.isIn [.zp, .zpy, .abs, .aby]
  | .ldy m => m.isIn [.zp, .zpx, .abs, .abx]
  | .sta m => m.isIn aluForms
  | .stx m => m.isIn [.zp, .zpy, .abs]
  | .sty m => m.isIn [.zp, .zpx, .abs]
  | .tax => true
  | .tay => true
  | .txa => true
  | .tya => true
  | .tsx => true
  | .txs => true
  | .pha => true
  | .php => true
  | .pla => true
  | .plp => true
  | .adc m => m.isIn aluForms
  | .sbc m => m.isIn aluForms
  | .and m => m.isIn aluForms
  | .ora m => m.isIn aluForms
  | .eor m => m.isIn aluForms
  | .cmp m => m.isIn aluForms
  | .cpx m => m.isIn [.zp, .abs]
  | .cpy m => m.isIn [.zp, .abs]
  | .bit m => m.isIn [.zp, .abs]
  | .inc m => m.isIn rmwForms
  | .dec m => m.isIn rmwForms
  | .inx => true
  | .iny => true
  | .dex => true
  | .dey => true
  | .asl m => m.isIn rmwForms
  | .lsr m => m.isIn rmwForms
  | .rol m => m.isIn rmwForms
  | .ror m => m.isIn rmwForms
  | .jmp _ => true
  | .jmpInd _ => true
  | .jsr _ => true
  | .rts => true
  | .rti => true
  | .brk => true
  | .bpl _ => true
  | .bmi _ => true
  | .bvc _ => true
  | .bvs _ => true
  | .bcc _ => true
  | .bcs _ => true
  | .bne _ => true
  | .beq _ => true
  | .clc => true
  | .sec => true
  | .cli => true
  | .sei => true
  | .cld => true
  | .sed => true
  | .clv => true
  | .nop => true
  | .slo m => m.isIn aluForms
  | .rla m => m.isIn aluForms
  | .sre m => m.isIn aluForms
  | .rra m => m.isIn aluForms
  | .sax m => m.isIn [.zp, .zpy, .abs, .izx]
  | .lax m => m.isIn [.zp, .zpy, .abs, .aby, .izx, .izy]
  | .dcp m => m.isIn aluForms
  | .isc m => m.isIn aluForms
  | .anc op _ => ancOpcodes.contains op
  | .asr _ => true
  | .arr _ => true
  | .ane _ => true
  | .lxa _ => true
  | .axs _ => true
  | .sbcMirror _ => true
  | .lae _ => true
  | .nopImplied op => nopImpliedOpcodes.contains op
  | .nopImm op _ => nopImmOpcodes.contains op
  | .nopRead op m => nopReadOk op m
  | .nopAbx op _ => nopAbxOpcodes.contains op
  | .nopUnknown op => unknownOpcodes.contains op
  | .shaIzy _ => true
  | .shaAby _ => true
  | .shx _ => true
  | .shy _ => true
  | .shs _ => true

end Sys2Proof
end

