-- ==== Sys2Proof/Decode.lean ====
section
/-! DEFINITION. The decoder, written from the opcode map (R160), and after it the encoder, written from the encodings each
instruction's own rule lists (40 to 44). All eight bits of the first byte are the opcode, the opcode alone gives the length
(R152, R165), and no opcode byte is refused (R164). -/

namespace Sys2Proof

open Sys2Proof.Machine (mkWord loByte hiByte byteOf)

/-- One cell of the opcode map: the instruction as a function of its operand bytes, in one of the three formats of R152. -/
inductive Row where
  | f1 (i : Instr)            -- F1, one byte
  | f2 (f : Byte → Instr)     -- F2, one operand byte
  | f3 (f : Word → Instr)     -- F3, two operand bytes, the low one first

/-- How many operand bytes follow the opcode (R152). -/
def Row.operandCount : Row → Nat
  | .f1 _ => 0
  | .f2 _ => 1
  | .f3 _ => 2

/-- The instruction of a cell with its operand bytes; the operand of F3 is `byte2:byte1` (R106, R152). -/
def Row.apply (r : Row) (b1 b2 : Byte) : Instr :=
  match r with
  | .f1 i => i
  | .f2 f => f b1
  | .f3 f => f (mkWord b2 b1)

/-- Row 0x of the opcode map (R160). -/
def mapRow0 : List Row := [
  .f1 .brk,
  .f2 (fun x => .ora (.mem (.izx x))),
  .f1 (.nopUnknown 0x02),
  .f2 (fun x => .slo (.izx x)),
  .f2 (fun x => .nopRead 0x04 (.zp x)),
  .f2 (fun x => .ora (.mem (.zp x))),
  .f2 (fun x => .asl (.mem (.zp x))),
  .f2 (fun x => .slo (.zp x)),
  .f1 .php,
  .f2 (fun v => .ora (.imm v)),
  .f1 (.asl .acc),
  .f2 (.anc 0x0B),
  .f3 (fun x => .nopRead 0x0C (.abs x)),
  .f3 (fun x => .ora (.mem (.abs x))),
  .f3 (fun x => .asl (.mem (.abs x))),
  .f3 (fun x => .slo (.abs x))]

/-- Row 1x of the opcode map (R160). -/
def mapRow1 : List Row := [
  .f2 .bpl,
  .f2 (fun x => .ora (.mem (.izy x))),
  .f1 (.nopUnknown 0x12),
  .f2 (fun x => .slo (.izy x)),
  .f2 (fun x => .nopRead 0x14 (.zpx x)),
  .f2 (fun x => .ora (.mem (.zpx x))),
  .f2 (fun x => .asl (.mem (.zpx x))),
  .f2 (fun x => .slo (.zpx x)),
  .f1 .clc,
  .f3 (fun x => .ora (.mem (.aby x))),
  .f1 (.nopImplied 0x1A),
  .f3 (fun x => .slo (.aby x)),
  .f3 (.nopAbx 0x1C),
  .f3 (fun x => .ora (.mem (.abx x))),
  .f3 (fun x => .asl (.mem (.abx x))),
  .f3 (fun x => .slo (.abx x))]

/-- Row 2x of the opcode map (R160). -/
def mapRow2 : List Row := [
  .f3 .jsr,
  .f2 (fun x => .and (.mem (.izx x))),
  .f1 (.nopUnknown 0x22),
  .f2 (fun x => .rla (.izx x)),
  .f2 (fun x => .bit (.zp x)),
  .f2 (fun x => .and (.mem (.zp x))),
  .f2 (fun x => .rol (.mem (.zp x))),
  .f2 (fun x => .rla (.zp x)),
  .f1 .plp,
  .f2 (fun v => .and (.imm v)),
  .f1 (.rol .acc),
  .f2 (.anc 0x2B),
  .f3 (fun x => .bit (.abs x)),
  .f3 (fun x => .and (.mem (.abs x))),
  .f3 (fun x => .rol (.mem (.abs x))),
  .f3 (fun x => .rla (.abs x))]

/-- Row 3x of the opcode map (R160). -/
def mapRow3 : List Row := [
  .f2 .bmi,
  .f2 (fun x => .and (.mem (.izy x))),
  .f1 (.nopUnknown 0x32),
  .f2 (fun x => .rla (.izy x)),
  .f2 (fun x => .nopRead 0x34 (.zpx x)),
  .f2 (fun x => .and (.mem (.zpx x))),
  .f2 (fun x => .rol (.mem (.zpx x))),
  .f2 (fun x => .rla (.zpx x)),
  .f1 .sec,
  .f3 (fun x => .and (.mem (.aby x))),
  .f1 (.nopImplied 0x3A),
  .f3 (fun x => .rla (.aby x)),
  .f3 (.nopAbx 0x3C),
  .f3 (fun x => .and (.mem (.abx x))),
  .f3 (fun x => .rol (.mem (.abx x))),
  .f3 (fun x => .rla (.abx x))]

/-- Row 4x of the opcode map (R160). -/
def mapRow4 : List Row := [
  .f1 .rti,
  .f2 (fun x => .eor (.mem (.izx x))),
  .f1 (.nopUnknown 0x42),
  .f2 (fun x => .sre (.izx x)),
  .f2 (fun x => .nopRead 0x44 (.zp x)),
  .f2 (fun x => .eor (.mem (.zp x))),
  .f2 (fun x => .lsr (.mem (.zp x))),
  .f2 (fun x => .sre (.zp x)),
  .f1 .pha,
  .f2 (fun v => .eor (.imm v)),
  .f1 (.lsr .acc),
  .f2 .asr,
  .f3 .jmp,
  .f3 (fun x => .eor (.mem (.abs x))),
  .f3 (fun x => .lsr (.mem (.abs x))),
  .f3 (fun x => .sre (.abs x))]

/-- Row 5x of the opcode map (R160). -/
def mapRow5 : List Row := [
  .f2 .bvc,
  .f2 (fun x => .eor (.mem (.izy x))),
  .f1 (.nopUnknown 0x52),
  .f2 (fun x => .sre (.izy x)),
  .f2 (fun x => .nopRead 0x54 (.zpx x)),
  .f2 (fun x => .eor (.mem (.zpx x))),
  .f2 (fun x => .lsr (.mem (.zpx x))),
  .f2 (fun x => .sre (.zpx x)),
  .f1 .cli,
  .f3 (fun x => .eor (.mem (.aby x))),
  .f1 (.nopImplied 0x5A),
  .f3 (fun x => .sre (.aby x)),
  .f3 (.nopAbx 0x5C),
  .f3 (fun x => .eor (.mem (.abx x))),
  .f3 (fun x => .lsr (.mem (.abx x))),
  .f3 (fun x => .sre (.abx x))]

/-- Row 6x of the opcode map (R160). -/
def mapRow6 : List Row := [
  .f1 .rts,
  .f2 (fun x => .adc (.mem (.izx x))),
  .f1 (.nopUnknown 0x62),
  .f2 (fun x => .rra (.izx x)),
  .f2 (fun x => .nopRead 0x64 (.zp x)),
  .f2 (fun x => .adc (.mem (.zp x))),
  .f2 (fun x => .ror (.mem (.zp x))),
  .f2 (fun x => .rra (.zp x)),
  .f1 .pla,
  .f2 (fun v => .adc (.imm v)),
  .f1 (.ror .acc),
  .f2 .arr,
  .f3 .jmpInd,
  .f3 (fun x => .adc (.mem (.abs x))),
  .f3 (fun x => .ror (.mem (.abs x))),
  .f3 (fun x => .rra (.abs x))]

/-- Row 7x of the opcode map (R160). -/
def mapRow7 : List Row := [
  .f2 .bvs,
  .f2 (fun x => .adc (.mem (.izy x))),
  .f1 (.nopUnknown 0x72),
  .f2 (fun x => .rra (.izy x)),
  .f2 (fun x => .nopRead 0x74 (.zpx x)),
  .f2 (fun x => .adc (.mem (.zpx x))),
  .f2 (fun x => .ror (.mem (.zpx x))),
  .f2 (fun x => .rra (.zpx x)),
  .f1 .sei,
  .f3 (fun x => .adc (.mem (.aby x))),
  .f1 (.nopImplied 0x7A),
  .f3 (fun x => .rra (.aby x)),
  .f3 (.nopAbx 0x7C),
  .f3 (fun x => .adc (.mem (.abx x))),
  .f3 (fun x => .ror (.mem (.abx x))),
  .f3 (fun x => .rra (.abx x))]

/-- Row 8x of the opcode map (R160). -/
def mapRow8 : List Row := [
  .f2 (.nopImm 0x80),
  .f2 (fun x => .sta (.izx x)),
  .f2 (.nopImm 0x82),
  .f2 (fun x => .sax (.izx x)),
  .f2 (fun x => .sty (.zp x)),
  .f2 (fun x => .sta (.zp x)),
  .f2 (fun x => .stx (.zp x)),
  .f2 (fun x => .sax (.zp x)),
  .f1 .dey,
  .f2 (.nopImm 0x89),
  .f1 .txa,
  .f2 .ane,
  .f3 (fun x => .sty (.abs x)),
  .f3 (fun x => .sta (.abs x)),
  .f3 (fun x => .stx (.abs x)),
  .f3 (fun x => .sax (.abs x))]

/-- Row 9x of the opcode map (R160). -/
def mapRow9 : List Row := [
  .f2 .bcc,
  .f2 (fun x => .sta (.izy x)),
  .f1 (.nopUnknown 0x92),
  .f2 .shaIzy,
  .f2 (fun x => .sty (.zpx x)),
  .f2 (fun x => .sta (.zpx x)),
  .f2 (fun x => .stx (.zpy x)),
  .f2 (fun x => .sax (.zpy x)),
  .f1 .tya,
  .f3 (fun x => .sta (.aby x)),
  .f1 .txs,
  .f3 .shs,
  .f3 .shy,
  .f3 (fun x => .sta (.abx x)),
  .f3 .shx,
  .f3 .shaAby]

/-- Row Ax of the opcode map (R160). -/
def mapRowA : List Row := [
  .f2 (fun v => .ldy (.imm v)),
  .f2 (fun x => .lda (.mem (.izx x))),
  .f2 (fun v => .ldx (.imm v)),
  .f2 (fun x => .lax (.izx x)),
  .f2 (fun x => .ldy (.mem (.zp x))),
  .f2 (fun x => .lda (.mem (.zp x))),
  .f2 (fun x => .ldx (.mem (.zp x))),
  .f2 (fun x => .lax (.zp x)),
  .f1 .tay,
  .f2 (fun v => .lda (.imm v)),
  .f1 .tax,
  .f2 .lxa,
  .f3 (fun x => .ldy (.mem (.abs x))),
  .f3 (fun x => .lda (.mem (.abs x))),
  .f3 (fun x => .ldx (.mem (.abs x))),
  .f3 (fun x => .lax (.abs x))]

/-- Row Bx of the opcode map (R160). -/
def mapRowB : List Row := [
  .f2 .bcs,
  .f2 (fun x => .lda (.mem (.izy x))),
  .f1 (.nopUnknown 0xB2),
  .f2 (fun x => .lax (.izy x)),
  .f2 (fun x => .ldy (.mem (.zpx x))),
  .f2 (fun x => .lda (.mem (.zpx x))),
  .f2 (fun x => .ldx (.mem (.zpy x))),
  .f2 (fun x => .lax (.zpy x)),
  .f1 .clv,
  .f3 (fun x => .lda (.mem (.aby x))),
  .f1 .tsx,
  .f3 .lae,
  .f3 (fun x => .ldy (.mem (.abx x))),
  .f3 (fun x => .lda (.mem (.abx x))),
  .f3 (fun x => .ldx (.mem (.aby x))),
  .f3 (fun x => .lax (.aby x))]

/-- Row Cx of the opcode map (R160). -/
def mapRowC : List Row := [
  .f2 (fun v => .cpy (.imm v)),
  .f2 (fun x => .cmp (.mem (.izx x))),
  .f2 (.nopImm 0xC2),
  .f2 (fun x => .dcp (.izx x)),
  .f2 (fun x => .cpy (.mem (.zp x))),
  .f2 (fun x => .cmp (.mem (.zp x))),
  .f2 (fun x => .dec (.zp x)),
  .f2 (fun x => .dcp (.zp x)),
  .f1 .iny,
  .f2 (fun v => .cmp (.imm v)),
  .f1 .dex,
  .f2 .axs,
  .f3 (fun x => .cpy (.mem (.abs x))),
  .f3 (fun x => .cmp (.mem (.abs x))),
  .f3 (fun x => .dec (.abs x)),
  .f3 (fun x => .dcp (.abs x))]

/-- Row Dx of the opcode map (R160). -/
def mapRowD : List Row := [
  .f2 .bne,
  .f2 (fun x => .cmp (.mem (.izy x))),
  .f1 (.nopUnknown 0xD2),
  .f2 (fun x => .dcp (.izy x)),
  .f2 (fun x => .nopRead 0xD4 (.zpx x)),
  .f2 (fun x => .cmp (.mem (.zpx x))),
  .f2 (fun x => .dec (.zpx x)),
  .f2 (fun x => .dcp (.zpx x)),
  .f1 .cld,
  .f3 (fun x => .cmp (.mem (.aby x))),
  .f1 (.nopImplied 0xDA),
  .f3 (fun x => .dcp (.aby x)),
  .f3 (.nopAbx 0xDC),
  .f3 (fun x => .cmp (.mem (.abx x))),
  .f3 (fun x => .dec (.abx x)),
  .f3 (fun x => .dcp (.abx x))]

/-- Row Ex of the opcode map (R160). -/
def mapRowE : List Row := [
  .f2 (fun v => .cpx (.imm v)),
  .f2 (fun x => .sbc (.mem (.izx x))),
  .f2 (.nopImm 0xE2),
  .f2 (fun x => .isc (.izx x)),
  .f2 (fun x => .cpx (.mem (.zp x))),
  .f2 (fun x => .sbc (.mem (.zp x))),
  .f2 (fun x => .inc (.zp x)),
  .f2 (fun x => .isc (.zp x)),
  .f1 .inx,
  .f2 (fun v => .sbc (.imm v)),
  .f1 .nop,
  .f2 .sbcMirror,
  .f3 (fun x => .cpx (.mem (.abs x))),
  .f3 (fun x => .sbc (.mem (.abs x))),
  .f3 (fun x => .inc (.abs x)),
  .f3 (fun x => .isc (.abs x))]

/-- Row Fx of the opcode map (R160). -/
def mapRowF : List Row := [
  .f2 .beq,
  .f2 (fun x => .sbc (.mem (.izy x))),
  .f1 (.nopUnknown 0xF2),
  .f2 (fun x => .isc (.izy x)),
  .f2 (fun x => .nopRead 0xF4 (.zpx x)),
  .f2 (fun x => .sbc (.mem (.zpx x))),
  .f2 (fun x => .inc (.zpx x)),
  .f2 (fun x => .isc (.zpx x)),
  .f1 .sed,
  .f3 (fun x => .sbc (.mem (.aby x))),
  .f1 (.nopImplied 0xFA),
  .f3 (fun x => .isc (.aby x)),
  .f3 (.nopAbx 0xFC),
  .f3 (fun x => .sbc (.mem (.abx x))),
  .f3 (fun x => .inc (.abx x)),
  .f3 (fun x => .isc (.abx x))]

/-- The opcode map (R160), by high and then low nibble of the opcode. -/
def opcodeMap : List (List Row) :=
  [mapRow0, mapRow1, mapRow2, mapRow3, mapRow4, mapRow5, mapRow6, mapRow7,
   mapRow8, mapRow9, mapRowA, mapRowB, mapRowC, mapRowD, mapRowE, mapRowF]

/-- The cell of an opcode byte. The map has 16 rows of 16 cells, so the default cells are never read. -/
def rowOf (op : Byte) : Row :=
  ((opcodeMap.getD (op.toNat / 16) []).getD (op.toNat % 16) (.f1 .nop))

/-- How many operand bytes the instruction with this opcode has (R152). -/
def operandCount (op : Byte) : Nat := (rowOf op).operandCount

/-- The instruction that an opcode and the two bytes after it stand for: total (R164, R165). -/
def decodeBytes (op b1 b2 : Byte) : Instr := (rowOf op).apply b1 b2

/-- Why bytes are no instruction. No opcode is illegal (R164), so the bytes can only run out. -/
inductive DecodeError where
  | empty                   -- no byte at all
  | truncated (op : Byte)   -- fewer operand bytes than the opcode has
  deriving DecidableEq, Repr

/-- Decoding of a byte stream: the first instruction and the bytes after it. -/
def decode : List Byte → Except DecodeError (Instr × List Byte)
  | [] => .error .empty
  | op :: rest =>
    match rowOf op, rest with
    | .f1 i, _ => .ok (i, rest)
    | .f2 f, b1 :: rest => .ok (f b1, rest)
    | .f3 f, b1 :: b2 :: rest => .ok (f (mkWord b2 b1), rest)
    | _, _ => .error (.truncated op)

/-- The opcode of a memory form in an instruction's list of encodings; 0 where the instruction has no such form. -/
def MemMode.pick (m : MemMode) (l : List (MemForm × Byte)) : Byte := (l.lookup m.form).getD 0

/-- The opcode of a `read` operand: the immediate form's, or the memory form's. -/
def ReadMode.pick (m : ReadMode) (imm : Byte) (l : List (MemForm × Byte)) : Byte :=
  match m with
  | .imm _ => imm
  | .mem m => m.pick l

/-- The opcode of a shift's operand: the accumulator form's, or the memory form's. -/
def ShiftMode.pick (m : ShiftMode) (acc : Byte) (l : List (MemForm × Byte)) : Byte :=
  match m with
  | .acc => acc
  | .mem m => m.pick l

/-- A 16-bit operand as it lies in memory: low byte first (R106, R152). -/
def wordBytes (w : Word) : List Byte := [loByte w, hiByte w]

/-- The operand bytes of a memory form. -/
def MemMode.bytes : MemMode → List Byte
  | .zp z => [z]
  | .zpx z => [z]
  | .zpy z => [z]
  | .abs w => wordBytes w
  | .abx w => wordBytes w
  | .aby w => wordBytes w
  | .izx z => [z]
  | .izy z => [z]

/-- The operand bytes of a `read` operand. -/
def ReadMode.bytes : ReadMode → List Byte
  | .imm v => [v]
  | .mem m => m.bytes

/-- The operand bytes of a shift's operand. -/
def ShiftMode.bytes : ShiftMode → List Byte
  | .acc => []
  | .mem m => m.bytes

/-- The opcode byte of an instruction, from the encodings its rule lists. -/
def Instr.opcode : Instr → Byte
  | .lda m => m.pick 0xA9 [(.zp, 0xA5), (.zpx, 0xB5), (.abs, 0xAD), (.abx, 0xBD), (.aby, 0xB9), (.izx, 0xA1), (.izy, 0xB1)]
  | .ldx m => m.pick 0xA2 [(.zp, 0xA6), (.zpy, 0xB6), (.abs, 0xAE), (.aby, 0xBE)]
  | .ldy m => m.pick 0xA0 [(.zp, 0xA4), (.zpx, 0xB4), (.abs, 0xAC), (.abx, 0xBC)]
  | .sta m => m.pick [(.zp, 0x85), (.zpx, 0x95), (.abs, 0x8D), (.abx, 0x9D), (.aby, 0x99), (.izx, 0x81), (.izy, 0x91)]
  | .stx m => m.pick [(.zp, 0x86), (.zpy, 0x96), (.abs, 0x8E)]
  | .sty m => m.pick [(.zp, 0x84), (.zpx, 0x94), (.abs, 0x8C)]
  | .tax => 0xAA
  | .tay => 0xA8
  | .txa => 0x8A
  | .tya => 0x98
  | .tsx => 0xBA
  | .txs => 0x9A
  | .pha => 0x48
  | .php => 0x08
  | .pla => 0x68
  | .plp => 0x28
  | .adc m => m.pick 0x69 [(.zp, 0x65), (.zpx, 0x75), (.abs, 0x6D), (.abx, 0x7D), (.aby, 0x79), (.izx, 0x61), (.izy, 0x71)]
  | .sbc m => m.pick 0xE9 [(.zp, 0xE5), (.zpx, 0xF5), (.abs, 0xED), (.abx, 0xFD), (.aby, 0xF9), (.izx, 0xE1), (.izy, 0xF1)]
  | .and m => m.pick 0x29 [(.zp, 0x25), (.zpx, 0x35), (.abs, 0x2D), (.abx, 0x3D), (.aby, 0x39), (.izx, 0x21), (.izy, 0x31)]
  | .ora m => m.pick 0x09 [(.zp, 0x05), (.zpx, 0x15), (.abs, 0x0D), (.abx, 0x1D), (.aby, 0x19), (.izx, 0x01), (.izy, 0x11)]
  | .eor m => m.pick 0x49 [(.zp, 0x45), (.zpx, 0x55), (.abs, 0x4D), (.abx, 0x5D), (.aby, 0x59), (.izx, 0x41), (.izy, 0x51)]
  | .cmp m => m.pick 0xC9 [(.zp, 0xC5), (.zpx, 0xD5), (.abs, 0xCD), (.abx, 0xDD), (.aby, 0xD9), (.izx, 0xC1), (.izy, 0xD1)]
  | .cpx m => m.pick 0xE0 [(.zp, 0xE4), (.abs, 0xEC)]
  | .cpy m => m.pick 0xC0 [(.zp, 0xC4), (.abs, 0xCC)]
  | .bit m => m.pick [(.zp, 0x24), (.abs, 0x2C)]
  | .inc m => m.pick [(.zp, 0xE6), (.zpx, 0xF6), (.abs, 0xEE), (.abx, 0xFE)]
  | .dec m => m.pick [(.zp, 0xC6), (.zpx, 0xD6), (.abs, 0xCE), (.abx, 0xDE)]
  | .inx => 0xE8
  | .iny => 0xC8
  | .dex => 0xCA
  | .dey => 0x88
  | .asl m => m.pick 0x0A [(.zp, 0x06), (.zpx, 0x16), (.abs, 0x0E), (.abx, 0x1E)]
  | .lsr m => m.pick 0x4A [(.zp, 0x46), (.zpx, 0x56), (.abs, 0x4E), (.abx, 0x5E)]
  | .rol m => m.pick 0x2A [(.zp, 0x26), (.zpx, 0x36), (.abs, 0x2E), (.abx, 0x3E)]
  | .ror m => m.pick 0x6A [(.zp, 0x66), (.zpx, 0x76), (.abs, 0x6E), (.abx, 0x7E)]
  | .jmp _ => 0x4C
  | .jmpInd _ => 0x6C
  | .jsr _ => 0x20
  | .rts => 0x60
  | .rti => 0x40
  | .brk => 0x00
  | .bpl _ => 0x10
  | .bmi _ => 0x30
  | .bvc _ => 0x50
  | .bvs _ => 0x70
  | .bcc _ => 0x90
  | .bcs _ => 0xB0
  | .bne _ => 0xD0
  | .beq _ => 0xF0
  | .clc => 0x18
  | .sec => 0x38
  | .cli => 0x58
  | .sei => 0x78
  | .cld => 0xD8
  | .sed => 0xF8
  | .clv => 0xB8
  | .nop => 0xEA
  | .slo m => m.pick [(.zp, 0x07), (.zpx, 0x17), (.abs, 0x0F), (.abx, 0x1F), (.aby, 0x1B), (.izx, 0x03), (.izy, 0x13)]
  | .rla m => m.pick [(.zp, 0x27), (.zpx, 0x37), (.abs, 0x2F), (.abx, 0x3F), (.aby, 0x3B), (.izx, 0x23), (.izy, 0x33)]
  | .sre m => m.pick [(.zp, 0x47), (.zpx, 0x57), (.abs, 0x4F), (.abx, 0x5F), (.aby, 0x5B), (.izx, 0x43), (.izy, 0x53)]
  | .rra m => m.pick [(.zp, 0x67), (.zpx, 0x77), (.abs, 0x6F), (.abx, 0x7F), (.aby, 0x7B), (.izx, 0x63), (.izy, 0x73)]
  | .sax m => m.pick [(.zp, 0x87), (.zpy, 0x97), (.abs, 0x8F), (.izx, 0x83)]
  | .lax m => m.pick [(.zp, 0xA7), (.zpy, 0xB7), (.abs, 0xAF), (.aby, 0xBF), (.izx, 0xA3), (.izy, 0xB3)]
  | .dcp m => m.pick [(.zp, 0xC7), (.zpx, 0xD7), (.abs, 0xCF), (.abx, 0xDF), (.aby, 0xDB), (.izx, 0xC3), (.izy, 0xD3)]
  | .isc m => m.pick [(.zp, 0xE7), (.zpx, 0xF7), (.abs, 0xEF), (.abx, 0xFF), (.aby, 0xFB), (.izx, 0xE3), (.izy, 0xF3)]
  | .anc op _ => op
  | .asr _ => 0x4B
  | .arr _ => 0x6B
  | .ane _ => 0x8B
  | .lxa _ => 0xAB
  | .axs _ => 0xCB
  | .sbcMirror _ => 0xEB
  | .lae _ => 0xBB
  | .nopImplied op => op
  | .nopImm op _ => op
  | .nopRead op _ => op
  | .nopAbx op _ => op
  | .nopUnknown op => op
  | .shaIzy _ => 0x93
  | .shaAby _ => 0x9F
  | .shx _ => 0x9E
  | .shy _ => 0x9C
  | .shs _ => 0x9B

/-- The operand bytes of an instruction. -/
def Instr.operands : Instr → List Byte
  | .lda m => m.bytes
  | .ldx m => m.bytes
  | .ldy m => m.bytes
  | .sta m => m.bytes
  | .stx m => m.bytes
  | .sty m => m.bytes
  | .tax => []
  | .tay => []
  | .txa => []
  | .tya => []
  | .tsx => []
  | .txs => []
  | .pha => []
  | .php => []
  | .pla => []
  | .plp => []
  | .adc m => m.bytes
  | .sbc m => m.bytes
  | .and m => m.bytes
  | .ora m => m.bytes
  | .eor m => m.bytes
  | .cmp m => m.bytes
  | .cpx m => m.bytes
  | .cpy m => m.bytes
  | .bit m => m.bytes
  | .inc m => m.bytes
  | .dec m => m.bytes
  | .inx => []
  | .iny => []
  | .dex => []
  | .dey => []
  | .asl m => m.bytes
  | .lsr m => m.bytes
  | .rol m => m.bytes
  | .ror m => m.bytes
  | .jmp target => wordBytes target
  | .jmpInd ptr => wordBytes ptr
  | .jsr target => wordBytes target
  | .rts => []
  | .rti => []
  | .brk => []
  | .bpl off => [off]
  | .bmi off => [off]
  | .bvc off => [off]
  | .bvs off => [off]
  | .bcc off => [off]
  | .bcs off => [off]
  | .bne off => [off]
  | .beq off => [off]
  | .clc => []
  | .sec => []
  | .cli => []
  | .sei => []
  | .cld => []
  | .sed => []
  | .clv => []
  | .nop => []
  | .slo m => m.bytes
  | .rla m => m.bytes
  | .sre m => m.bytes
  | .rra m => m.bytes
  | .sax m => m.bytes
  | .lax m => m.bytes
  | .dcp m => m.bytes
  | .isc m => m.bytes
  | .anc _ v => [v]
  | .asr v => [v]
  | .arr v => [v]
  | .ane v => [v]
  | .lxa v => [v]
  | .axs v => [v]
  | .sbcMirror v => [v]
  | .lae base => wordBytes base
  | .nopImplied _ => []
  | .nopImm _ v => [v]
  | .nopRead _ m => m.bytes
  | .nopAbx _ base => wordBytes base
  | .nopUnknown _ => []
  | .shaIzy z => [z]
  | .shaAby base => wordBytes base
  | .shx base => wordBytes base
  | .shy base => wordBytes base
  | .shs base => wordBytes base

/-- The bytes of a well-formed instruction, the opcode first (R152); an ill-formed term has no encoding. -/
def encode (i : Instr) : List Byte := if i.wf then i.opcode :: i.operands else []

/-- The instruction the decoder reads from an instruction whose bits are `w`, bit 0 the least significant bit of the first
byte, bits 15:8 the second byte, bits 23:16 the third; the bits above `nbits` are 0. -/
def decodeTableWord (nbits w : Nat) : Option Instr :=
  let u := w % 2 ^ nbits
  match decode [byteOf u 0, byteOf u 1, byteOf u 2] with
  | .ok (i, _) => some i
  | .error _ => none

end Sys2Proof
end

