-- ==== Sys2Proof/Machine/Operands.lean ====
section
/-! DEFINITION. The operand forms: effective addresses, dummy accesses, the three uses of an operand, and cycle counts
(R153 to R163). -/

namespace Sys2Proof.Machine

/-- An effective address with what its index addition did (30_encoding.md section 4). -/
structure Ea where
  ea : Word
  base : Word
  indexed : Bool      -- absolute,X, absolute,Y or (zero-page),Y
  deriving DecidableEq, Repr

/-- `crossed`: the index addition crossed a page (R156). -/
def Ea.crossed (e : Ea) : Bool := hiByte e.ea != hiByte e.base

/-- The un-carried address: high byte of the base, low byte of the sum (R156). -/
def Ea.uncarried (e : Ea) : Word := mkWord (hiByte e.base) (loByte e.ea)

/-- An effective address that no index addition made. -/
def Ea.plain (a : Word) : Ea := { ea := a, base := a, indexed := false }

/-- An indexed effective address: the sum wraps modulo 2^16 (R156, R159). -/
def Ea.index (base : Word) (i : Byte) : Ea := { ea := base + zext i, base := base, indexed := true }

/-- A pointer in the zero page, its second byte wrapping inside the page (R158, R159). -/
def readPointer (z : Byte) (s : State) : Word × State :=
  let lo := busRead (zext z) s
  let hi := busRead (zext (z + 1)) lo.2
  (mkWord hi.1 lo.1, hi.2)

/-- The effective address of a memory operand, with the accesses made to find it (R155, R156, R158, R159). -/
def resolve (m : MemMode) (s : State) : Ea × State :=
  match m with
  | .zp z => (Ea.plain (zext z), s)
  | .zpx z => (Ea.plain (zext (z + s.cpu.x)), s)
  | .zpy z => (Ea.plain (zext (z + s.cpu.y)), s)
  | .abs w => (Ea.plain w, s)
  | .abx w => (Ea.index w s.cpu.x, s)
  | .aby w => (Ea.index w s.cpu.y, s)
  | .izx z =>
    let r := readPointer (z + s.cpu.x) s
    (Ea.plain r.1, r.2)
  | .izy z =>
    let r := readPointer z s
    (Ea.index r.1 r.2.cpu.y, r.2)

/-- A dummy read (R11): a bus read whose value is discarded. -/
def dummyRead (a : Word) (s : State) : State := (busRead a s).2

/-- The dummy read of the un-carried address, where the condition holds (R162). -/
def dummyIf (cond : Bool) (e : Ea) (s : State) : State := if cond then dummyRead e.uncarried s else s

/-- Cycles of a `read` instruction with a memory operand (R163). -/
def readCycles (m : MemMode) (crossed : Bool) : Nat :=
  match m with
  | .zp _ => 3
  | .zpx _ => 4
  | .zpy _ => 4
  | .abs _ => 4
  | .abx _ => 4 + crossed.toNat
  | .aby _ => 4 + crossed.toNat
  | .izx _ => 6
  | .izy _ => 5 + crossed.toNat

/-- Cycles of a `write` instruction (R163). -/
def writeCycles : MemMode → Nat
  | .zp _ => 3
  | .zpx _ => 4
  | .zpy _ => 4
  | .abs _ => 4
  | .abx _ => 5
  | .aby _ => 5
  | .izx _ => 6
  | .izy _ => 6

/-- Cycles of a read-modify-write instruction (R163). -/
def rmwCycles : MemMode → Nat
  | .zp _ => 5
  | .zpx _ => 6
  | .zpy _ => 6
  | .abs _ => 6
  | .abx _ => 7
  | .aby _ => 7
  | .izx _ => 8
  | .izy _ => 8

/-- What reading an operand gives: the value, the instruction's cycles, and the state after the accesses. -/
structure Operand where
  value : Byte
  cycles : Nat
  state : State
  deriving DecidableEq, Repr

/-- `ReadOperand()` (R162 item 1): the dummy read only where an indexed form crosses a page. -/
def readOperand (m : MemMode) (s : State) : Operand :=
  let e := resolve m s
  let r := busRead e.1.ea (dummyIf (e.1.indexed && e.1.crossed) e.1 e.2)
  { value := r.1, cycles := readCycles m e.1.crossed, state := r.2 }

/-- The operand of a `read` instruction, immediate (R154) or in memory; the immediate byte was read with the opcode. -/
def readMode (m : ReadMode) (s : State) : Operand :=
  match m with
  | .imm v => { value := v, cycles := 2, state := s }
  | .mem m => readOperand m s

/-- `WriteOperand(v)` (R162 item 2): an indexed form always makes the dummy read. -/
def writeOperand (m : MemMode) (v : Byte) (s : State) : State :=
  let e := resolve m s
  busWrite e.1.ea v (dummyIf e.1.indexed e.1 e.2)

/-- `RmwOperand(f)` (R162 items 3 and 4): the dummy read of an indexed form, the read, the old value written back, the new
value written. The value is the old one. -/
def rmwOperand (m : MemMode) (f : Byte → Byte) (s : State) : Operand :=
  let e := resolve m s
  let r := busRead e.1.ea (dummyIf e.1.indexed e.1 e.2)
  { value := r.1, cycles := rmwCycles m, state := busWrite e.1.ea (f r.1) (busWrite e.1.ea r.1 r.2) }

/-- An instruction that reads an operand and then changes CPU registers by `f`. -/
def readOp (m : ReadMode) (f : Byte → Cpu → Cpu) (s : State) : State :=
  let o := readMode m s
  o.state.mapCpu fun c => (f o.value (c.pollFirst o.cycles)).setGeneral o.cycles

/-- An instruction that writes a value to its operand. -/
def writeOp (m : MemMode) (v : Byte) (s : State) : State :=
  (writeOperand m v s).mapCpu fun c => c.setGeneral (writeCycles m)

/-- An instruction that modifies its operand by `f` and then changes CPU registers by `g`, given the old value. -/
def rmwOp (m : MemMode) (f : Byte → Byte) (g : Byte → Cpu → Cpu) (s : State) : State :=
  let o := rmwOperand m f s
  o.state.mapCpu fun c => (g o.value c).setGeneral o.cycles

end Sys2Proof.Machine
end

