-- ==== Sys2Proof/Machine/LoadStore.lean ====
section
/-! DEFINITION. The meanings of the load, store, transfer and stack instructions (40_load_store_transfer.md). A meaning is
given the state after the opcode and its operand bytes have been read, PC advanced past them (R151). -/

namespace Sys2Proof.Machine

/-- What a meaning answers. -/
abbrev Answer := Host.Outcome State Fault Refusal

/-- `A <- v; SetNZ(A)`. -/
def Cpu.loadA (v : Byte) (c : Cpu) : Cpu := { c with a := v, p := setNZ v c.p }

/-- `X <- v; SetNZ(X)`. -/
def Cpu.loadX (v : Byte) (c : Cpu) : Cpu := { c with x := v, p := setNZ v c.p }

/-- `Y <- v; SetNZ(Y)`. -/
def Cpu.loadY (v : Byte) (c : Cpu) : Cpu := { c with y := v, p := setNZ v c.p }

/-- LDA (R201). -/
def execLda (m : ReadMode) (s : State) : Answer := .next (readOp m Cpu.loadA s)

/-- LDX (R202). -/
def execLdx (m : ReadMode) (s : State) : Answer := .next (readOp m Cpu.loadX s)

/-- LDY (R203). -/
def execLdy (m : ReadMode) (s : State) : Answer := .next (readOp m Cpu.loadY s)

/-- STA (R204). -/
def execSta (m : MemMode) (s : State) : Answer := .next (writeOp m s.cpu.a s)

/-- STX (R205). -/
def execStx (m : MemMode) (s : State) : Answer := .next (writeOp m s.cpu.x s)

/-- STY (R206). -/
def execSty (m : MemMode) (s : State) : Answer := .next (writeOp m s.cpu.y s)

/-- TAX (R207). -/
def execTax (s : State) : Answer := .next (registerOp 2 (fun c => c.loadX c.a) s)

/-- TAY (R208). -/
def execTay (s : State) : Answer := .next (registerOp 2 (fun c => c.loadY c.a) s)

/-- TXA (R209). -/
def execTxa (s : State) : Answer := .next (registerOp 2 (fun c => c.loadA c.x) s)

/-- TYA (R210). -/
def execTya (s : State) : Answer := .next (registerOp 2 (fun c => c.loadA c.y) s)

/-- TSX (R211). -/
def execTsx (s : State) : Answer := .next (registerOp 2 (fun c => c.loadX c.sp) s)

/-- TXS: the one transfer that sets no flag (R212). -/
def execTxs (s : State) : Answer := .next (registerOp 2 (fun c => { c with sp := c.x }) s)

/-- PHA (R213). -/
def execPha (s : State) : Answer := .next ((push s.cpu.a s).mapCpu (Cpu.setGeneral 3))

/-- PHP: the pushed byte has Break and Unused 1, P is unchanged (R214). -/
def execPhp (s : State) : Answer := .next ((push (breakP s.cpu.p) s).mapCpu (Cpu.setGeneral 3))

/-- PLA (R215). -/
def execPla (s : State) : Answer :=
  let r := pull s
  .next (r.2.mapCpu fun c => (c.loadA r.1).setGeneral 4)

/-- PLP: its one poll is made before the flags change (R216, R765). -/
def execPlp (s : State) : Answer :=
  let r := pull (s.mapCpu Cpu.poll)
  .next (r.2.mapCpu fun c => ({ c with p := pulledP r.1 }).setTiming 4 [])

end Sys2Proof.Machine
end

