-- ==== Sys2Proof/Machine/ControlFlow.lean ====
section
/-! DEFINITION. The meanings of the control transfer, flag and no-operation instructions (42_control_flow_flags.md). -/

namespace Sys2Proof.Machine

/-- JMP absolute (R300). -/
def execJmp (target : Word) (s : State) : Answer := .next (registerOp 3 (fun c => { c with pc := target }) s)

/-- The address of an indirect pointer's high byte: it wraps inside the page (R157). -/
def indirectHigh (ptr : Word) : Word := mkWord (hiByte ptr) (loByte ptr + 1)

/-- JMP indirect (R157, R301). -/
def execJmpInd (ptr : Word) (s : State) : Answer :=
  let lo := busRead ptr s
  let hi := busRead (indirectHigh ptr) lo.2
  .next (hi.2.mapCpu fun c => ({ c with pc := mkWord hi.1 lo.1 }).setGeneral 5)

/-- JSR (R302). Its low operand byte was read with the opcode, so PC addresses the third byte, which is read after the
pushes: the target's high byte is the byte the bus answers then, not the one the decoded instruction shows (log entry
10). -/
def execJsr (target : Word) (s : State) : Answer :=
  let s := dummyRead (stackAddr s.cpu.sp) s
  let s := pushWord s.cpu.pc s
  let hi := busRead s.cpu.pc s
  .next (hi.2.mapCpu fun c => ({ c with pc := mkWord hi.1 (loByte target) }).setGeneral 6)

/-- RTS (R303), wherever it runs: it does not check who pushed the bytes. R775 remarks of a handler that ends in RTS that it
leaves P on the stack and returns to PC + 1; R303's two pulls on the stack of R770 give another address, and the model follows
R303 (log entry 22). -/
def execRts (s : State) : Answer :=
  let w := pullWord s
  .next (w.2.mapCpu fun c => ({ c with pc := w.1 + 1 }).setGeneral 6)

/-- RTI: the general poll at clock 5 already sees the restored I (R304, R764, R775). -/
def execRti (s : State) : Answer := .next ((returnFromEvent s).mapCpu (Cpu.setGeneral 6))

/-- BRK: the padding byte is skipped and not read (R305). -/
def execBrk (s : State) : Answer :=
  .next ((takeEvent .brk (s.mapCpu fun c => { c with pc := c.pc + 1 })).mapCpu (Cpu.setGeneral 7))

/-- The target of a branch: PC is the address of the next instruction (R161). -/
def branchTarget (next : Word) (off : Byte) : Word := next + sext off

/-- The rule common to the eight branches, with their poll points (R306, R766). -/
def branchIf (cond : Bool) (off : Byte) (s : State) : State :=
  if cond then
    let target := branchTarget s.cpu.pc off
    if hiByte target != hiByte s.cpu.pc then s.mapCpu fun c => ({ c with pc := target }).setTiming 4 [2, 4]
    else registerOp 3 (fun c => { c with pc := target }) s
  else registerOp 2 id s

/-- BPL (R307). -/
def execBpl (off : Byte) (s : State) : Answer := .next (branchIf (!getFlag s.cpu.p .n) off s)

/-- BMI (R308). -/
def execBmi (off : Byte) (s : State) : Answer := .next (branchIf (getFlag s.cpu.p .n) off s)

/-- BVC (R309). -/
def execBvc (off : Byte) (s : State) : Answer := .next (branchIf (!getFlag s.cpu.p .v) off s)

/-- BVS (R310). -/
def execBvs (off : Byte) (s : State) : Answer := .next (branchIf (getFlag s.cpu.p .v) off s)

/-- BCC (R311). -/
def execBcc (off : Byte) (s : State) : Answer := .next (branchIf (!getFlag s.cpu.p .c) off s)

/-- BCS (R312). -/
def execBcs (off : Byte) (s : State) : Answer := .next (branchIf (getFlag s.cpu.p .c) off s)

/-- BNE (R313). -/
def execBne (off : Byte) (s : State) : Answer := .next (branchIf (!getFlag s.cpu.p .z) off s)

/-- BEQ (R314). -/
def execBeq (off : Byte) (s : State) : Answer := .next (branchIf (getFlag s.cpu.p .z) off s)

/-- One flag of P replaced. -/
def Cpu.withFlag (f : Flag) (x : Bool) (c : Cpu) : Cpu := { c with p := setFlag c.p f x }

/-- CLC (R315). -/
def execClc (s : State) : Answer := .next (registerOp 2 (Cpu.withFlag .c false) s)

/-- SEC (R316). -/
def execSec (s : State) : Answer := .next (registerOp 2 (Cpu.withFlag .c true) s)

/-- CLI: the poll is made with the old I (R317, R765). -/
def execCli (s : State) : Answer := .next (registerOp 2 (Cpu.withFlag .i false) s)

/-- SEI: the poll is made with the old I (R318, R765). -/
def execSei (s : State) : Answer := .next (registerOp 2 (Cpu.withFlag .i true) s)

/-- CLD (R319). -/
def execCld (s : State) : Answer := .next (registerOp 2 (Cpu.withFlag .d false) s)

/-- SED (R320). -/
def execSed (s : State) : Answer := .next (registerOp 2 (Cpu.withFlag .d true) s)

/-- CLV (R321). -/
def execClv (s : State) : Answer := .next (registerOp 2 (Cpu.withFlag .v false) s)

/-- NOP 0xEA (R322). -/
def execNop (s : State) : Answer := .next (registerOp 2 id s)

end Sys2Proof.Machine
end

