-- ==== Sys2Proof/Machine/Arithmetic.lean ====
section
/-! DEFINITION. The meanings of the arithmetic, logic, compare, increment and shift instructions (41_arithmetic_logic.md). -/

namespace Sys2Proof.Machine

/-- ADC (R250). -/
def execAdc (m : ReadMode) (s : State) : Answer := .next (readOp m adcBody s)

/-- SBC (R251). -/
def execSbc (m : ReadMode) (s : State) : Answer := .next (readOp m sbcBody s)

/-- AND (R252). -/
def execAnd (m : ReadMode) (s : State) : Answer := .next (readOp m (fun v c => c.loadA (c.a &&& v)) s)

/-- ORA (R253). -/
def execOra (m : ReadMode) (s : State) : Answer := .next (readOp m (fun v c => c.loadA (c.a ||| v)) s)

/-- EOR (R254). -/
def execEor (m : ReadMode) (s : State) : Answer := .next (readOp m (fun v c => c.loadA (c.a ^^^ v)) s)

/-- CMP (R255). -/
def execCmp (m : ReadMode) (s : State) : Answer := .next (readOp m (fun v c => compareBody c.a v c) s)

/-- CPX (R256). -/
def execCpx (m : ReadMode) (s : State) : Answer := .next (readOp m (fun v c => compareBody c.x v c) s)

/-- CPY (R257). -/
def execCpy (m : ReadMode) (s : State) : Answer := .next (readOp m (fun v c => compareBody c.y v c) s)

/-- BIT (R258). -/
def execBit (m : MemMode) (s : State) : Answer := .next (readOp (.mem m) bitBody s)

/-- `SetNZ(v)` and no register. -/
def Cpu.flagsOf (v : Byte) (c : Cpu) : Cpu := { c with p := setNZ v c.p }

/-- INC (R259). -/
def execInc (m : MemMode) (s : State) : Answer :=
  .next (rmwOp m (fun old => old + 1) (fun old => Cpu.flagsOf (old + 1)) s)

/-- DEC (R260). -/
def execDec (m : MemMode) (s : State) : Answer :=
  .next (rmwOp m (fun old => old - 1) (fun old => Cpu.flagsOf (old - 1)) s)

/-- INX (R261). -/
def execInx (s : State) : Answer := .next (registerOp 2 (fun c => c.loadX (c.x + 1)) s)

/-- INY (R262). -/
def execIny (s : State) : Answer := .next (registerOp 2 (fun c => c.loadY (c.y + 1)) s)

/-- DEX (R263). -/
def execDex (s : State) : Answer := .next (registerOp 2 (fun c => c.loadX (c.x - 1)) s)

/-- DEY (R264). -/
def execDey (s : State) : Answer := .next (registerOp 2 (fun c => c.loadY (c.y - 1)) s)

/-- The flags of a shift or rotate: C from the bit shifted out, N and Z from the result. -/
def shiftFlags (r : Shifted) (p : Byte) : Byte := setNZ r.result (setFlag p .c r.carry)

/-- A shift or rotate of A (two clocks) or of memory (R265 to R268). -/
def shiftOp (m : ShiftMode) (f : Byte → Shifted) (s : State) : State :=
  match m with
  | .acc => registerOp 2 (fun c => { c with a := (f c.a).result, p := shiftFlags (f c.a) c.p }) s
  | .mem m => rmwOp m (fun old => (f old).result) (fun old c => { c with p := shiftFlags (f old) c.p }) s

/-- ASL (R265). -/
def execAsl (m : ShiftMode) (s : State) : Answer := .next (shiftOp m aslOf s)

/-- LSR (R266). -/
def execLsr (m : ShiftMode) (s : State) : Answer := .next (shiftOp m lsrOf s)

/-- ROL (R267). -/
def execRol (m : ShiftMode) (s : State) : Answer := .next (shiftOp m (rolOf (getFlag s.cpu.p .c)) s)

/-- ROR (R268). -/
def execRor (m : ShiftMode) (s : State) : Answer := .next (shiftOp m (rorOf (getFlag s.cpu.p .c)) s)

end Sys2Proof.Machine
end

