-- ==== Sys2Proof/Machine/Unofficial.lean ====
section
/-! DEFINITION. The meanings of the unofficial instructions, the NOP variants and the unknown opcodes (43_unofficial.md). -/

namespace Sys2Proof.Machine

/-- C replaced. -/
def Cpu.withCarry (x : Bool) (c : Cpu) : Cpu := { c with p := setFlag c.p .c x }

/-- A shift or rotate of memory, and then A combined with the new value by `g` (R350 to R352). -/
def shiftCombine (m : MemMode) (f : Byte → Shifted) (g : Byte → Byte → Byte) (s : State) : State :=
  rmwOp m (fun old => (f old).result)
    (fun old c => (c.withCarry (f old).carry).loadA (g c.a (f old).result)) s

/-- SLO (R350). -/
def execSlo (m : MemMode) (s : State) : Answer := .next (shiftCombine m aslOf (fun a new => a ||| new) s)

/-- RLA (R351). -/
def execRla (m : MemMode) (s : State) : Answer :=
  .next (shiftCombine m (rolOf (getFlag s.cpu.p .c)) (fun a new => a &&& new) s)

/-- SRE (R352). -/
def execSre (m : MemMode) (s : State) : Answer := .next (shiftCombine m lsrOf (fun a new => a ^^^ new) s)

/-- RRA: the add uses the carry the rotate just produced (R353). -/
def execRra (m : MemMode) (s : State) : Answer :=
  let f := rorOf (getFlag s.cpu.p .c)
  .next (rmwOp m (fun old => (f old).result)
    (fun old c => adcBody (f old).result (c.withCarry (f old).carry)) s)

/-- SAX (R354). -/
def execSax (m : MemMode) (s : State) : Answer := .next (writeOp m (s.cpu.a &&& s.cpu.x) s)

/-- LAX (R355). -/
def execLax (m : MemMode) (s : State) : Answer :=
  .next (readOp (.mem m) (fun v c => { c with a := v, x := v, p := setNZ v c.p }) s)

/-- DCP (R356). -/
def execDcp (m : MemMode) (s : State) : Answer :=
  .next (rmwOp m (fun old => old - 1) (fun old c => compareBody c.a (old - 1) c) s)

/-- ISC (R357). -/
def execIsc (m : MemMode) (s : State) : Answer :=
  .next (rmwOp m (fun old => old + 1) (fun old => sbcBody (old + 1)) s)

/-- ANC: C is the result's bit 7 (R358). -/
def execAnc (v : Byte) (s : State) : Answer :=
  .next (readOp (.imm v) (fun m c => (c.loadA (c.a &&& m)).withCarry (bit (c.a &&& m) 7)) s)

/-- ASR (R359). -/
def execAsr (v : Byte) (s : State) : Answer :=
  .next (readOp (.imm v) (fun m c => (c.withCarry (bit (c.a &&& m) 0)).loadA ((c.a &&& m) >>> 1)) s)

/-- ARR's result: the AND rotated right through C (R360). -/
def arrResult (c : Cpu) (m : Byte) : Byte := ((c.a &&& m) >>> 1) ||| (boolByte (getFlag c.p .c) <<< 7)

/-- ARR's flags: C is bit 6 of the result, V is bit 6 xor bit 5 (R360). -/
def arrBody (m : Byte) (c : Cpu) : Cpu :=
  let r := arrResult c m
  { c with a := r, p := setFlag (setFlag (setNZ r c.p) .c (bit r 6)) .v (bit r 6 ^^ bit r 5) }

/-- ARR (R360). -/
def execArr (v : Byte) (s : State) : Answer := .next (readOp (.imm v) arrBody s)

/-- ANE, with the open constant (R361). -/
def execAne (v : Byte) (s : State) : Answer :=
  .next (readOp (.imm v) (fun m c => c.loadA ((c.a ||| Config.aneConst) &&& c.x &&& m)) s)

/-- LXA, with the open constant (R362). -/
def execLxa (v : Byte) (s : State) : Answer :=
  .next (readOp (.imm v) (fun m c =>
    let r := (c.a ||| Config.lxaConst) &&& m
    { c with a := r, x := r, p := setNZ r c.p }) s)

/-- AXS: a compare of A AND X with the operand, the difference going to X (R363). -/
def axsBody (m : Byte) (c : Cpu) : Cpu :=
  let t := c.a &&& c.x
  { c with x := t - m, p := setNZ (t - m) (setFlag c.p .c (decide (m.toNat ≤ t.toNat))) }

/-- AXS (R363). -/
def execAxs (v : Byte) (s : State) : Answer := .next (readOp (.imm v) axsBody s)

/-- SBC 0xEB (R364). -/
def execSbcMirror (v : Byte) (s : State) : Answer := .next (readOp (.imm v) sbcBody s)

/-- LAE (R365). -/
def execLae (base : Word) (s : State) : Answer :=
  .next (readOp (.mem (.aby base)) (fun m c =>
    let r := m &&& c.sp
    { c with a := r, x := r, sp := r, p := setNZ r c.p }) s)

/-- The unofficial implied NOP (R366). -/
def execNopImplied (s : State) : Answer := .next (registerOp 2 id s)

/-- The immediate NOP: its operand byte was read with the opcode (R367). -/
def execNopImm (v : Byte) (s : State) : Answer := .next (readOp (.imm v) (fun _ c => c) s)

/-- The NOP that reads its zero-page, zero-page,X or absolute operand (R368). -/
def execNopRead (m : MemMode) (s : State) : Answer := .next (readOp (.mem m) (fun _ c => c) s)

/-- The absolute,X NOP, with the dummy read of a page cross (R369). -/
def execNopAbx (base : Word) (s : State) : Answer := .next (readOp (.mem (.abx base)) (fun _ c => c) s)

/-- The unknown opcodes (R370). -/
def execNopUnknown (s : State) : Answer := .next (registerOp 2 id s)

end Sys2Proof.Machine
end

