-- ==== Sys2Proof/Machine/UnstableStores.lean ====
section
/-! DEFINITION. The five unstable stores: their micro-sequencer, its steps, and the meanings, which only start it
(44_unstable_stores.md). -/

namespace Sys2Proof.Machine

/-- `W`, the number of steps (R400). -/
def ShOp.steps : ShOp → Nat
  | .shaIzy => 6
  | .shaAby => 5
  | .shx => 5
  | .shy => 5
  | .shs => 5

/-- `idx` (R401). -/
def ShOp.index (op : ShOp) (c : Cpu) : Byte :=
  match op with
  | .shy => c.x
  | .shaIzy => c.y
  | .shaAby => c.y
  | .shx => c.y
  | .shs => c.y

/-- `raw` (R403). -/
def ShOp.raw (op : ShOp) (c : Cpu) : Byte :=
  match op with
  | .shaIzy => c.a &&& c.x
  | .shaAby => c.a &&& c.x
  | .shs => c.a &&& c.x
  | .shx => c.x
  | .shy => c.y

/-- The effective address of the store from the operand gathered so far (R401). -/
def Cpu.shEa (c : Cpu) : Ea := Ea.index (mkWord c.sh.hi c.sh.lo) (c.sh.op.index c)

/-- `hsrc`: the carried high byte, or the base high byte after a halt two steps before the write (R403). -/
def Cpu.shSource (c : Cpu) : Byte := if c.sh.rdyTwoBefore then c.sh.hi else c.sh.hi + 1

/-- The stored value (R403). -/
def Cpu.shValue (c : Cpu) : Byte := c.sh.op.raw c &&& c.shSource

/-- The address stored to: corrupted on a page cross (R403). -/
def Cpu.shAddr (c : Cpu) : Word := if c.shEa.crossed then mkWord c.shValue (loByte c.shEa.ea) else c.shEa.ea

/-- SHS sets SP to A AND X before the write (R403). -/
def Cpu.shsStack (c : Cpu) : Cpu := if c.sh.op = .shs then { c with sp := c.a &&& c.x } else c

/-- The micro-sequencer's context changed. -/
def Cpu.mapSh (f : Sh → Sh) (c : Cpu) : Cpu := { c with sh := f c.sh }

/-- The write step (R403), after which the micro-sequencer is inactive (R400). The value and the address do not depend on
SP. -/
def shWrite (s : State) : State :=
  (busWrite s.cpu.shAddr s.cpu.shValue (s.mapCpu Cpu.shsStack)).mapCpu
    (Cpu.mapSh fun h => { h with active := false })

/-- An operand byte at PC put into the context, PC advanced. -/
def shFetch (f : Byte → Sh → Sh) (s : State) : State :=
  let r := fetchByte s
  r.2.mapCpu (Cpu.mapSh (f r.1))

/-- A byte of the zero page put into the context. -/
def shLoad (z : Byte) (f : Byte → Sh → Sh) (s : State) : State :=
  let r := busRead (zext z) s
  r.2.mapCpu (Cpu.mapSh (f r.1))

/-- One step of the table of R401. Step 1 was the opcode fetch; no run reaches a step number outside the table. -/
def shStep (s : State) : State :=
  match s.cpu.sh.op, s.cpu.sh.step with
  | .shaIzy, 2 => shFetch (fun v h => { h with ptr := v }) s
  | .shaIzy, 3 => shLoad s.cpu.sh.ptr (fun v h => { h with lo := v }) s
  | .shaIzy, 4 => shLoad (s.cpu.sh.ptr + 1) (fun v h => { h with hi := v }) s
  | .shaIzy, 5 => dummyRead s.cpu.shEa.uncarried s
  | .shaIzy, 6 => shWrite s
  | .shaIzy, _ => s
  | _, 2 => shFetch (fun v h => { h with lo := v }) s
  | _, 3 => shFetch (fun v h => { h with hi := v }) s
  | _, 4 => dummyRead s.cpu.shEa.uncarried s
  | _, 5 => shWrite s
  | _, _ => s

/-- One CPU clock of the micro-sequencer without the clock's end: the poll at the start of step W - 1 (R401, R764), the
step, and the step counter (R400). -/
def shClock (s : State) : State :=
  let s := if s.cpu.sh.step + 1 = s.cpu.sh.op.steps then s.mapCpu Cpu.poll else s
  (shStep s).mapCpu (Cpu.mapSh fun h => { h with step := h.step + 1 })

/-- A halt cycle's two special cases while the micro-sequencer is active (R402). -/
def shHalt (s : State) : State :=
  let s := if s.cpu.sh.step + 2 = s.cpu.sh.op.steps then
      s.mapCpu (Cpu.mapSh fun h => { h with rdyTwoBefore := true }) else s
  if s.cpu.sh.step = s.cpu.sh.op.steps then (shWrite s).mapCpu fun c => { c with cyclesRemaining := 0 } else s

/-- The first clock of an unstable store: only the opcode has been read (R400). -/
def startSh (op : ShOp) (s : State) : State :=
  s.mapCpu fun c =>
    ({ c with sh := { c.sh with active := true, op := op, step := 2, rdyTwoBefore := false } }).setTiming op.steps []

/-- SHA (zero-page),Y (R400, R404). The operand byte is read in a later clock (R401), so it is not used here (log entry
10). -/
def execShaIzy (s : State) : Answer := .next (startSh .shaIzy s)

/-- SHA absolute,Y (R400, R405). -/
def execShaAby (s : State) : Answer := .next (startSh .shaAby s)

/-- SHX absolute,Y (R400, R406). -/
def execShx (s : State) : Answer := .next (startSh .shx s)

/-- SHY absolute,X (R400, R407). -/
def execShy (s : State) : Answer := .next (startSh .shy s)

/-- SHS absolute,Y (R400, R408). -/
def execShs (s : State) : Answer := .next (startSh .shs s)

end Sys2Proof.Machine
end

