-- ==== Sys2Proof/Machine/Sequencer.lean ====
section
/-! DEFINITION. The clock fabric: the fetch of an instruction, the instruction boundary, one CPU clock, one halt cycle and one
driver tick (54_console_driver.md, 60_exceptions.md section 3). It stands in Machine/ so that a later repair may mend it;
Step.lean only calls it. -/

namespace Sys2Proof.Machine

/-- An answer's next state changed by `f`. -/
def mapNext (f : State → State) (r : Answer) : Answer :=
  match r with
  | .next s => .next (f s)
  | .fault e => .fault e
  | .refused e => .refused e

/-! ## Fetch -/

/-- The opcodes of the five unstable stores (R400). -/
def shOpcodes : List Byte := [0x93, 0x9F, 0x9B, 0x9C, 0x9E]

/-- How many operand bytes are read together with the opcode. JSR reads its second operand byte after its pushes (R302) and
the unstable stores read theirs in later clocks (R400, R401); every other instruction reads all of them (R151). -/
def earlyOperands (op : Byte) : Nat :=
  if op = 0x20 then 1 else if shOpcodes.contains op then 0 else operandCount op

/-- Operand byte number `k`, at PC if it is read now. One that the instruction itself reads later is only looked at, at the
address given, with no effect on any state (log entry 10). -/
def operandByte (early k : Nat) (at' : Word) (s : State) : Byte × State :=
  if k ≤ early then fetchByte s else ((busRead at' s).1, s)

/-- Opcode fetch, operand bytes and decoding (R150, R151). -/
def fetch (s : State) : Instr × State :=
  let op := fetchByte s
  let early := earlyOperands op.1
  let b1 := operandByte early 1 (s.cpu.pc + 1) op.2
  let b2 := operandByte early 2 (s.cpu.pc + 2) b1.2
  (decodeBytes op.1 b1.1 b2.1, b2.2)

/-! ## The CPU -/

/-- The NMI request and the latched IRQ are consumed when the NMI sequence starts (R762). -/
def Cpu.ackNmi (c : Cpu) : Cpu := { c with nmiPending := false, latchedIrq := false }

/-- The latched IRQ is consumed when the IRQ sequence starts (R762). -/
def Cpu.ackIrq (c : Cpu) : Cpu := { c with latchedIrq := false }

/-- The instruction boundary: NMI, then latched IRQ, then the next instruction (R762, R768). -/
def cpuBoundary (s : State) : Answer :=
  if s.cpu.nmiPending then .next (interruptEntry .nmi (s.mapCpu Cpu.ackNmi))
  else if s.cpu.latchedIrq then .next (interruptEntry .irq (s.mapCpu Cpu.ackIrq))
  else
    let r := fetch s
    exec r.1 r.2

/-- An idle clock: a poll if it is a poll clock (R743, R764). -/
def Cpu.idle (c : Cpu) : Cpu := if c.pollAt.contains c.clockNo then c.poll else c

/-- `CpuClock()` without the clock's end (R743). -/
def cpuWork (s : State) : Answer :=
  if s.cpu.sh.active then .next (shClock s)
  else if s.cpu.cyclesRemaining = 0 then cpuBoundary s
  else .next (s.mapCpu Cpu.idle)

/-- `CpuClock()` (R743). -/
def cpuClock (s : State) : Answer := mapNext (fun t => t.mapCpu Cpu.endClock) (cpuWork s)

/-- `CpuHaltCycle()` (R402, R742). -/
def cpuHalt (s : State) : State :=
  let s := s.mapCpu fun c => { c with cycleCount := c.cycleCount + 1 }
  if s.cpu.sh.active then shHalt s else s

/-- The CPU's turn in a driver tick: one halt cycle while a stall is pending, else one clock (R740). -/
def cpuPhase (s : State) : Answer :=
  if 0 < s.apu.stallPending then
    .next (cpuHalt { s with apu := { s.apu with stallPending := s.apu.stallPending - 1 } })
  else cpuClock s

/-! ## The other devices -/

/-- The NMI the PPU latched goes to the CPU; with none latched nothing changes (R741). -/
def consumeNmi (s : State) : State :=
  { s with
    ppu := { s.ppu with nmiLatched := false }
    cpu := { s.cpu with nmiPending := s.cpu.nmiPending || s.ppu.nmiLatched } }

/-- One PPU tick and the NMI consumption after it (R740, R741). -/
def ppuTurn (s : State) : State := consumeNmi { s with ppu := s.ppu.tick s.cart }

/-- The PPU's turn in a driver tick: three ticks (R740). -/
def ppuPhase (s : State) : State := ppuTurn (ppuTurn (ppuTurn s))

/-- The APU's turn, and the IRQ line after it (R740, R744). -/
def apuPhase (s : State) : State :=
  let u := s.apu.clock s.params s.cart s.bus.ram
  { s with apu := u, cpu := { s.cpu with irqLine := u.irqPending } }

/-- `DriverTick()` (R740). -/
def driverTick (s : State) : Answer := mapNext apuPhase (cpuPhase (ppuPhase s))

end Sys2Proof.Machine
end

