-- ==== Sys2Proof/Machine/Step.lean ====
section
/-! DEFINITION. The step of the machine, one driver tick (R740), and the placing of an instruction where the next step fetches
it. -/

namespace Sys2Proof.Machine

/-- One step is one driver tick (R740): three PPU ticks, the CPU's turn, one APU clock. -/
def step (s : State) : Host.Outcome State Fault Refusal := driverTick s

/-- The three bytes of an instruction written to work RAM from an address on. -/
def State.withBytesAt (s : State) (a u : Nat) : State :=
  { s with bus := { s.bus with
      ram := Memory.write (Memory.write (Memory.write s.bus.ram (a % 0x800) (byteOf u 0)) ((a + 1) % 0x800) (byteOf u 1))
        ((a + 2) % 0x800) (byteOf u 2) } }

/-- `s` made ready to begin an instruction in the next tick: at an instruction boundary with no stall, no unstable store
under way and no interrupt recognised (log entry 7). -/
def State.atBoundary (s : State) (pc : Word) : State :=
  { s with
    cpu := { s.cpu with
      pc := pc, cyclesRemaining := 0, nmiPending := false, latchedIrq := false, sh := { s.cpu.sh with active := false } }
    apu := { s.apu with stallPending := 0 } }

/-- The PPU reaches (241, 1) within the next three ticks. -/
def Ppu.vblankNear (p : Ppu) : Bool :=
  (p.scanline == 241 && decide (p.dot ≤ 1)) || (p.scanline == 240 && decide (339 ≤ p.dot))

/-- The PPU with no NMI request on its way within the next three ticks (log entry 7). -/
def Ppu.withoutNmi (p : Ppu) : Ppu :=
  { p with nmiLatched := false, ctrl := if p.vblankNear then p.ctrl &&& 0x7F else p.ctrl }

/-- `s` with an instruction of `nbits` bits placed where the next step fetches it: at PC, where PC and the two bytes after
it lie in the work RAM window, else at 0x0000 with PC moved there (log entry 7). -/
def State.withFetchWord (s : State) (nbits w : Nat) : State :=
  let pc : Word := if s.cpu.pc.toNat ≤ 0x1FFD then s.cpu.pc else 0
  let s := (s.atBoundary pc).withBytesAt pc.toNat (w % 2 ^ nbits)
  { s with ppu := s.ppu.withoutNmi }

end Sys2Proof.Machine
end

