-- ==== Sys2Proof/Safety.lean ====
section
/-! DEFINITION. The terms claims are stated in: one view of every byte array, what a bus write stores to, what an instruction
keeps, and the invariants that make a run a safe one. No state stops this machine (R760, R785), so a safe run is one whose
states all meet the invariant. -/

namespace Sys2Proof.Machine

/-! ## The machine's arrays in one view -/

/-- The byte arrays of the machine (R35, R40, R60), with palette RAM's 6-bit entries seen as bytes. -/
inductive Space where
  | ram
  | prgRam
  | prgRom
  | chr
  | nametable
  | palette
  | oam
  deriving DecidableEq, Repr

/-- A byte of the cartridge; 0 with no cartridge. -/
def State.peekCart (s : State) (f : Cart → Memory) (i : Nat) : Byte :=
  match s.cart with
  | none => 0
  | some c => Memory.read (f c) i

/-- One byte of one array, looked at without any effect. -/
def State.peek (s : State) : Space → Nat → Byte
  | .ram, i => Memory.read s.bus.ram i
  | .prgRam, i => s.peekCart Cart.prgRam i
  | .prgRom, i => s.peekCart Cart.prgRom i
  | .chr, i => s.peekCart Cart.chr i
  | .nametable, i => Memory.read s.ppu.ntRam i
  | .palette, i => (s.ppu.pal i).setWidth 8
  | .oam, i => Memory.read s.ppu.oam i

/-- Every byte of every array is the same. -/
def sameMemory (s t : State) : Prop := ∀ sp i, t.peek sp i = s.peek sp i

/-- The address is one of the PPU register `r` (R434). -/
def isPpuReg (a : Word) (r : BitVec 3) : Bool := decide (0x2000 ≤ a.toNat) && decide (a.toNat ≤ 0x3FFF) && ppuReg a == r

/-- The cell of CHR-RAM at a PPU address (R488). -/
def State.isChrCell (s : State) (a i : Nat) : Bool :=
  match s.cart with
  | none => false
  | some c => c.chrIsRam && c.chrOffset a == i

/-- The cell of PRG-RAM a CPU write stores to (R486, R487, R515). -/
def State.isPrgRamCell (s : State) (a : Word) (i : Nat) : Bool :=
  match s.cart with
  | none => false
  | some c => c.mapWrite a == .prgRam i

/-- The cells a bus write of one byte to `a` stores to in state `s`: work RAM, PRG-RAM, OAM by 0x2004 and by OAM DMA, and
the PPU memory that `v` addresses by 0x2007 (R440, R451, R486, R557, R568, R572). -/
def State.stores (s : State) (a : Word) : Space → Nat → Bool
  | .ram, i => decide (a.toNat ≤ 0x1FFF) && ramIndex a == i
  | .prgRam, i => s.isPrgRamCell a i
  | .prgRom, _ => false
  | .chr, i => isPpuReg a 7 && decide (s.ppu.vAddr.toNat ≤ 0x1FFF) && s.isChrCell s.ppu.vAddr.toNat i
  | .nametable, i =>
    isPpuReg a 7 && decide (0x2000 ≤ s.ppu.vAddr.toNat) && decide (s.ppu.vAddr.toNat ≤ 0x3EFF) &&
      ntIndex (cartMirroring s.cart) s.ppu.vAddr.toNat == i
  | .palette, i =>
    isPpuReg a 7 && decide (0x3F00 ≤ s.ppu.vAddr.toNat) && palIndex s.ppu.vAddr.toNat == i % 32
  | .oam, i => (isPpuReg a 4 && s.ppu.oamAddr.toNat == i) || a == 0x4014

/-! ## What an instruction keeps -/

/-- The general registers and SP (R20, R23). -/
inductive Reg where
  | a | x | y | sp
  deriving DecidableEq, Repr

/-- A register's value. -/
def Cpu.reg (c : Cpu) : Reg → Byte
  | .a => c.a
  | .x => c.x
  | .y => c.y
  | .sp => c.sp

/-- The CPU keeps every register but the ones listed and every flag but the ones listed; and the cycle counter, the NMI
request, the IRQ line and the micro-sequencer. -/
structure Keeps (regs : List Reg) (flags : List Flag) (s t : State) : Prop where
  regs : ∀ r, r ∉ regs → t.cpu.reg r = s.cpu.reg r
  flags : ∀ f, f ∉ flags → getFlag t.cpu.p f = getFlag s.cpu.p f
  cycleCount : t.cpu.cycleCount = s.cpu.cycleCount
  nmiPending : t.cpu.nmiPending = s.cpu.nmiPending
  irqLine : t.cpu.irqLine = s.cpu.irqLine
  sh : t.cpu.sh = s.cpu.sh

/-- Every device of `t` is as it is in `u`, and so are the parameters. -/
structure SameDevices (u t : State) : Prop where
  bus : t.bus = u.bus
  ppu : t.ppu = u.ppu
  apu : t.apu = u.apu
  cart : t.cart = u.cart
  params : t.params = u.params

/-- N and Z say what `v` is (R10 `SetNZ`). -/
def nzOf (v : Byte) (t : State) : Prop := getFlag t.cpu.p .z = (v == 0) ∧ getFlag t.cpu.p .n = v.getLsbD 7

/-- The instruction takes `n` clocks with the general poll point (R150, R764): the clocks are set, the later poll is placed,
and an instruction of two clocks has polled with the I it found. -/
structure Takes (n : Nat) (s t : State) : Prop where
  clocks : t.cpu.cyclesRemaining = n
  total : t.cpu.totalCycles = n
  polls : t.cpu.pollAt = if n ≤ 2 then [] else [n - 1]
  latched : t.cpu.latchedIrq =
    (s.cpu.latchedIrq || (decide (n ≤ 2) && s.cpu.irqLine && !getFlag s.cpu.p .i))

/-- The instruction answers a next state, and that state is as `post` says. -/
def runs (i : Instr) (s : State) (post : State → Prop) : Prop := ∃ t, exec i s = .next t ∧ post t

/-- The instruction touches only CPU registers: the ones and the flags listed; PC stays past its bytes; every device is as
it was. -/
structure RegistersOnly (regs : List Reg) (flags : List Flag) (n : Nat) (s t : State) : Prop where
  keeps : Keeps regs flags s t
  pc : t.cpu.pc = s.cpu.pc
  devices : SameDevices s t
  takes : Takes n s t

/-- The instruction reads its operand and then changes the registers and the flags listed: PC stays past its bytes, the
devices are as the operand's bus accesses leave them, and every byte of memory is as it was. -/
structure ReadsOperand (regs : List Reg) (flags : List Flag) (m : ReadMode) (s t : State) : Prop where
  keeps : Keeps regs flags s t
  pc : t.cpu.pc = s.cpu.pc
  devices : SameDevices (readMode m s).state t
  memory : sameMemory s t
  takes : Takes (readMode m s).cycles s t

/-- The state in which the first access to a stored operand itself is made: after the accesses that find its address and
the dummy read that an indexed form always makes (R162 items 2 and 4). -/
def beforeStore (m : MemMode) (s : State) : State :=
  dummyIf (resolve m s).1.indexed (resolve m s).1 (resolve m s).2

/-- The instruction stores `v` at its operand's address and does nothing else: no register, no flag, and no byte of memory
that this one write does not store to. -/
structure StoresOperand (m : MemMode) (v : Byte) (s t : State) : Prop where
  keeps : Keeps [] [] s t
  pc : t.cpu.pc = s.cpu.pc
  devices : SameDevices (busWrite (resolve m s).1.ea v (beforeStore m s)) t
  stored : (resolve m s).1.ea.toNat ≤ 0x1FFF → t.peek .ram (ramIndex (resolve m s).1.ea) = v
  memory : ∀ sp i, (beforeStore m s).stores (resolve m s).1.ea sp i = false → t.peek sp i = s.peek sp i
  takes : Takes (writeCycles m) s t

/-- The old value a read-modify-write instruction finds. -/
def rmwOld (m : MemMode) (s : State) : Byte := (busRead (resolve m s).1.ea (beforeStore m s)).1

/-- The state before a read-modify-write instruction's first write. -/
def rmwFirst (m : MemMode) (s : State) : State := (busRead (resolve m s).1.ea (beforeStore m s)).2

/-- The state between a read-modify-write instruction's two writes: the old value has been written back. -/
def rmwSecond (m : MemMode) (s : State) : State := busWrite (resolve m s).1.ea (rmwOld m s) (rmwFirst m s)

/-- The instruction reads its operand, writes the old value back, writes `new`, and then changes the registers and flags
listed: no byte of memory changes that neither write stores to. -/
structure ModifiesOperand (regs : List Reg) (flags : List Flag) (m : MemMode) (new : Byte) (s t : State) : Prop where
  keeps : Keeps regs flags s t
  pc : t.cpu.pc = s.cpu.pc
  devices : SameDevices (busWrite (resolve m s).1.ea new (rmwSecond m s)) t
  stored : (resolve m s).1.ea.toNat ≤ 0x1FFF → t.peek .ram (ramIndex (resolve m s).1.ea) = new
  memory : ∀ sp i, (rmwFirst m s).stores (resolve m s).1.ea sp i = false →
    (rmwSecond m s).stores (resolve m s).1.ea sp i = false → t.peek sp i = s.peek sp i
  takes : Takes (rmwCycles m) s t

/-- The instruction works on the stack page alone: work RAM keeps every byte but the cells listed, no other array changes,
the latch holds `last`, and every device but the bus is as it was. -/
structure StackOnly (cells : List Nat) (last : Byte) (s t : State) : Prop where
  bus : t.bus = { s.bus with ram := t.bus.ram, openBus := last }
  ppu : t.ppu = s.ppu
  apu : t.apu = s.apu
  cart : t.cart = s.cart
  params : t.params = s.params
  memory : ∀ sp i, ¬(sp = .ram ∧ i ∈ cells) → t.peek sp i = s.peek sp i

/-- The index in work RAM of the byte a stack pointer designates (R23). -/
def stackCell (sp : Byte) : Nat := ramIndex (stackAddr sp)

/-- The byte a stack pointer designates. -/
def State.onStack (s : State) (sp : Byte) : Byte := s.peek .ram (stackCell sp)

/-- Entry through a vector from `s` to `t` (R305, R770): the return address and the status byte are on the stack, SP is three
lower, I is set and no other register or flag changes, PC comes from the vector, and of memory only the three stack bytes
change. The vector is two reads of plain storage with a cartridge, and reads 0x0000 with none (R104). -/
structure Enters (vector ret : Word) (status : Byte) (s t : State) : Prop where
  high : t.onStack s.cpu.sp = hiByte ret
  low : t.onStack (s.cpu.sp - 1) = loByte ret
  status : t.onStack (s.cpu.sp - 2) = status
  sp : t.cpu.sp = s.cpu.sp - 3
  masked : getFlag t.cpu.p .i = true
  keeps : Keeps [.sp] [.i] s t
  rom : ∀ lo hi, s.storage vector = some lo → s.storage (vector + 1) = some hi → t.cpu.pc = mkWord hi lo
  absent : s.cart = none → t.cpu.pc = 0
  memory : ∀ sp i, ¬(sp = .ram ∧ i ∈ [stackCell s.cpu.sp, stackCell (s.cpu.sp - 1), stackCell (s.cpu.sp - 2)]) →
    t.peek sp i = s.peek sp i
  bus : t.bus = { s.bus with ram := t.bus.ram, openBus := t.bus.openBus }
  ppu : t.ppu = s.ppu
  apu : t.apu = s.apu
  cart : t.cart = s.cart
  params : t.params = s.params

/-- What a branch does (R306, R766): taken, PC goes to the target, and it takes three clocks, or four across a page; not
taken, two clocks. It polls before clock 1 if it is not taken, before clock 2 if it is, and before clock 4 too across a
page. -/
structure Branches (taken : Bool) (off : Byte) (s t : State) : Prop where
  pc : t.cpu.pc = if taken then s.cpu.pc + sext off else s.cpu.pc
  clocks : t.cpu.cyclesRemaining =
    if taken then (if hiByte (s.cpu.pc + sext off) = hiByte s.cpu.pc then 3 else 4) else 2
  total : t.cpu.totalCycles = t.cpu.cyclesRemaining
  polls : t.cpu.pollAt =
    if taken then (if hiByte (s.cpu.pc + sext off) = hiByte s.cpu.pc then [2] else [2, 4]) else []
  latched : t.cpu.latchedIrq =
    (s.cpu.latchedIrq || (!taken && s.cpu.irqLine && !getFlag s.cpu.p .i))
  keeps : Keeps [] [] s t
  devices : SameDevices s t

/-- An unstable store has been started and has done nothing else (R400). -/
structure StartsStore (op : ShOp) (s t : State) : Prop where
  active : t.cpu.sh.active = true
  which : t.cpu.sh.op = op
  step : t.cpu.sh.step = 2
  fresh : t.cpu.sh.rdyTwoBefore = false
  clocks : t.cpu.cyclesRemaining = op.steps
  regs : ∀ r, t.cpu.reg r = s.cpu.reg r
  status : t.cpu.p = s.cpu.p
  pc : t.cpu.pc = s.cpu.pc
  cycleCount : t.cpu.cycleCount = s.cpu.cycleCount
  interrupts : t.cpu.nmiPending = s.cpu.nmiPending ∧ t.cpu.irqLine = s.cpu.irqLine ∧
    t.cpu.latchedIrq = s.cpu.latchedIrq
  devices : SameDevices s t

/-! ## Several clocks, reads and ticks in a row -/

/-- `k` CPU clocks with nothing between them. -/
def cpuClocks : Nat → State → Answer
  | 0, s => .next s
  | k + 1, s =>
    match cpuClock s with
    | .next t => cpuClocks k t
    | .fault e => .fault e
    | .refused e => .refused e

/-- The state after `k` bus reads of one address. -/
def afterReads (a : Word) : Nat → State → State
  | 0, s => s
  | k + 1, s => afterReads a k (busRead a s).2

/-- The PPU after `k` ticks with nothing between them. -/
def ppuTicks (c : Option Cart) : Nat → Ppu → Ppu
  | 0, p => p
  | k + 1, p => ppuTicks c k (p.tick c)

/-- The PPU's position as one number: 341 dots to a scanline (R43). -/
def Ppu.place (p : Ppu) : Nat := p.scanline * 341 + p.dot

/-! ## Encodings -/

/-- Wherever these bytes stand, they decode to `i`, and what follows them is left. -/
def decodesTo (bytes : List Byte) (i : Instr) : Prop := ∀ rest, decode (bytes ++ rest) = .ok (i, rest)

/-- The form of a `read` operand; `none` is immediate. -/
def readFormOf : ReadMode → Option MemForm
  | .imm _ => none
  | .mem m => some m.form

/-- The form of a shift's operand; `none` is the accumulator. -/
def shiftFormOf : ShiftMode → Option MemForm
  | .acc => none
  | .mem m => some m.form

/-- The cycles of a `read` operand before the page-cross cycle (R163). -/
def readBase : ReadMode → Nat
  | .imm _ => 2
  | .mem m => readCycles m false

/-- The cycles of a shift (R163). -/
def shiftBase : ShiftMode → Nat
  | .acc => 2
  | .mem m => rmwCycles m

/-- One entry of a rule's list of encodings: form, opcode byte, cycles. -/
abbrev Cell (α : Type) := α × Byte × Nat

/-- The `read` instruction has exactly the encodings listed, with their cycles. -/
def readCells (f : ReadMode → Instr) (l : List (Cell (Option MemForm))) : Prop :=
  (∀ m, (f m).wf = true ↔ ∃ e ∈ l, e.1 = readFormOf m) ∧
    ∀ m, ∀ e ∈ l, e.1 = readFormOf m → decodesTo (e.2.1 :: m.bytes) (f m) ∧ readBase m = e.2.2

/-- The instruction with a memory operand has exactly the encodings listed; `cycles` gives its base cycles by form. -/
def memCells (f : MemMode → Instr) (cycles : MemMode → Nat) (l : List (Cell MemForm)) : Prop :=
  (∀ m, (f m).wf = true ↔ ∃ e ∈ l, e.1 = m.form) ∧
    ∀ m, ∀ e ∈ l, e.1 = m.form → decodesTo (e.2.1 :: m.bytes) (f m) ∧ cycles m = e.2.2

/-- The shift or rotate has exactly the encodings listed, with their cycles. -/
def shiftCells (f : ShiftMode → Instr) (l : List (Cell (Option MemForm))) : Prop :=
  (∀ m, (f m).wf = true ↔ ∃ e ∈ l, e.1 = shiftFormOf m) ∧
    ∀ m, ∀ e ∈ l, e.1 = shiftFormOf m → decodesTo (e.2.1 :: m.bytes) (f m) ∧ shiftBase m = e.2.2

/-! ## Invariants -/

/-- An array of `n` bytes is in canonical form and lists nothing outside itself. -/
def Memory.ok (n : Nat) (m : Memory) : Bool := Memory.wf m && Memory.within n m

/-- "Unused" reads 1 and Break reads 0 in P (R24, R25). -/
def Cpu.statusOk (c : Cpu) : Bool := getFlag c.p .u && !getFlag c.p .b

/-- While an unstable store is under way its pending step is one of 2 to W and the clocks left are the steps left (R400,
R401); no instruction is longer than eight clocks (R27, R163). -/
def Cpu.timingOk (c : Cpu) : Bool :=
  decide (c.cyclesRemaining ≤ 8) &&
    (!c.sh.active ||
      (decide (2 ≤ c.sh.step) && decide (c.sh.step ≤ c.sh.op.steps) &&
        c.cyclesRemaining + c.sh.step == c.sh.op.steps + 1))

/-- Work RAM is an array of 2048 bytes (R35). -/
def Bus.ok (b : Bus) : Bool := Memory.ok 2048 b.ram

/-- The PPU's position is one of 262 scanlines of 341 dots, and at most eight sprites are active (R40, R43). -/
def Ppu.placeOk (p : Ppu) : Bool :=
  decide (p.scanline < 262) && decide (p.dot < 341) && decide (p.activeSprites.length ≤ 8)

/-- The PPU's arrays (R40). -/
def Ppu.memoriesOk (p : Ppu) : Bool := Memory.ok 4096 p.ntRam && Memory.ok 256 p.oam

/-- The APU's constant tags (R52), its bounded counters and queue (R51, R52, R55), and a noise register that never locks up
at 0 (R54). The queue's capacity is SAMPLE_RATE / 4 (R51); a rate below 4 leaves room for the one sample just appended. -/
def Apu.ok (k : Params) (u : Apu) : Bool :=
  u.pulse1.onesComplement && !u.pulse2.onesComplement && decide (u.pcmQueue.length ≤ max 1 k.pcmCapacity) &&
    decide (u.pulse1.envelope.decay.toNat ≤ 15) && decide (u.pulse2.envelope.decay.toNat ≤ 15) &&
    decide (u.noise.envelope.decay.toNat ≤ 15) && decide (1 ≤ u.dmc.bitsRemaining.toNat) &&
    decide (u.dmc.bitsRemaining.toNat ≤ 8) && u.noise.lfsr != 0

/-- A cartridge that creation can have made (R60, R61, R481, R482): at least one PRG bank, a whole number of 8 KiB CHR
banks, its arrays inside their sizes, and a FourScreen header kept. -/
def Cart.ok (c : Cart) : Bool :=
  decide (0 < c.prgBanks) && decide (0 < c.chrSize) && c.chrSize % 8192 == 0 &&
    Memory.ok (c.prgBanks * 16384) c.prgRom && Memory.ok 8192 c.prgRam && Memory.ok c.chrSize c.chr &&
    (c.headerMirroring != .fourScreen || c.mirroring == .fourScreen)

/-- The cartridge, if there is one, is one that creation can have made. -/
def cartOk : Option Cart → Bool
  | none => true
  | some c => c.ok

/-- Every array of the machine is in canonical form inside its size. -/
def State.memoriesOk (s : State) : Bool := s.bus.ok && s.ppu.memoriesOk && cartOk s.cart

/-- The machine's invariant. -/
def State.ok (s : State) : Bool :=
  s.cpu.statusOk && s.cpu.timingOk && s.ppu.placeOk && s.apu.ok s.params && s.memoriesOk

end Sys2Proof.Machine
end

