-- ==== Sys2Proof/Certificates/Slice0/Obligations.lean ====
section
/-! DEFINITION. The statements for the provers: what the spec's numbered rules say, in the terms of Safety.lean. -/

section Statements

open Sys2Proof Sys2Proof.Machine

/-- O1. Decode and encode agree on every well-formed instruction (R152, R160, and the encoding lists of R201 to
R408). -/
def Obligations.DecodeOfEncode : Prop :=
  ∀ i : Instr, i.wf = true → decodesTo (encode i) i

/-- O2. R165: decoding is total and unambiguous, and the first byte alone gives the length. -/
def Obligations.EveryByteIsOneInstruction : Prop :=
  (∀ op b1 b2 rest, ∃ i : Instr, i.wf = true ∧ encode i = [op, b1, b2].take (1 + operandCount op) ∧
      decode (op :: b1 :: b2 :: rest) = .ok (i, (op :: b1 :: b2 :: rest).drop (1 + operandCount op))) ∧
    ∀ i j : Instr, i.wf = true → j.wf = true → encode i = encode j → i = j

/-- O3. The examples of R166 and of the source's programs, byte by byte. -/
def Obligations.DecodeOfWords : Prop :=
  decodesTo [0x18] .clc ∧ decodesTo [0x0A] (.asl .acc) ∧ decodesTo [0xA9, 0x00] (.lda (.imm 0x00)) ∧
      decodesTo [0xA5, 0x10] (.lda (.mem (.zp 0x10))) ∧ decodesTo [0x96, 0x10] (.stx (.zpy 0x10)) ∧
      decodesTo [0x8D, 0x14, 0x40] (.sta (.abs 0x4014)) ∧ decodesTo [0xBD, 0x00, 0x02] (.lda (.mem (.abx 0x0200))) ∧
      decodesTo [0x6C, 0xFF, 0x02] (.jmpInd 0x02FF) ∧ decodesTo [0xA1, 0x10] (.lda (.mem (.izx 0x10))) ∧
      decodesTo [0x91, 0x10] (.sta (.izy 0x10)) ∧ decodesTo [0xD0, 0xFB] (.bne 0xFB) ∧
      decodesTo [0x20, 0x06, 0x00] (.jsr 0x0006) ∧ decodesTo [0x60] .rts ∧ decodesTo [0x00] .brk ∧
      decodesTo [0x2B, 0x7F] (.anc 0x2B 0x7F) ∧ decodesTo [0x9F, 0xFF, 0xBF] (.shaAby 0xBFFF) ∧
      decodesTo [0x93, 0x10] (.shaIzy 0x10) ∧ decodesTo [0x02] (.nopUnknown 0x02) ∧
      decodesTo [0x1C, 0xFF, 0x20] (.nopAbx 0x1C 0x20FF)

/-- O4. R155 and R158. `State.peek .ram` is the byte of work RAM, which page 0 is. -/
def Obligations.ZeroPageOperands : Prop :=
  ∀ (z : Byte) (s : State),
      resolve (.zp z) s = ({ ea := zext z, base := zext z, indexed := false }, s) ∧
      resolve (.zpx z) s = ({ ea := zext (z + s.cpu.x), base := zext (z + s.cpu.x), indexed := false }, s) ∧
      resolve (.zpy z) s = ({ ea := zext (z + s.cpu.y), base := zext (z + s.cpu.y), indexed := false }, s) ∧
      (∀ b : Byte, (zext b).toNat = b.toNat ∧ hiByte (zext b) = 0) ∧
      (let lo := s.peek .ram (z + s.cpu.x).toNat
       let hi := s.peek .ram (z + s.cpu.x + 1).toNat
       resolve (.izx z) s = ({ ea := mkWord hi lo, base := mkWord hi lo, indexed := false }, s.latch hi)) ∧
      ∀ e b, e = ({ ea := b, base := b, indexed := false } : Ea) → e.crossed = false ∧ dummyIf e.indexed e s = s

/-- O5. R156 (its address part) and R159. -/
def Obligations.IndexedOperands : Prop :=
  ∀ (w : Word) (z : Byte) (s : State),
      resolve (.abs w) s = ({ ea := w, base := w, indexed := false }, s) ∧
      resolve (.abx w) s = ({ ea := w + zext s.cpu.x, base := w, indexed := true }, s) ∧
      resolve (.aby w) s = ({ ea := w + zext s.cpu.y, base := w, indexed := true }, s) ∧
      (let lo := s.peek .ram z.toNat
       let hi := s.peek .ram (z + 1).toNat
       resolve (.izy z) s =
         ({ ea := mkWord hi lo + zext s.cpu.y, base := mkWord hi lo, indexed := true }, s.latch hi)) ∧
      ∀ i : Byte,
        let e : Ea := { ea := w + zext i, base := w, indexed := true }
        (e.crossed = true ↔ 0x100 ≤ (loByte w).toNat + i.toNat) ∧ hiByte e.uncarried = hiByte w ∧
          loByte e.uncarried = loByte e.ea ∧ (e.crossed = false → e.uncarried = e.ea)

/-- O6. R162 items 1 to 4, the pseudocode of 30_encoding.md section 4, and the cycle counts of R163 by form. -/
def Obligations.OperandAccesses : Prop :=
  ∀ (m : MemMode) (v : Byte) (f : Byte → Byte) (s : State),
      let e := (resolve m s).1
      let u := (resolve m s).2
      let w := if e.indexed then (busRead e.uncarried u).2 else u
      let r := busRead e.ea (if e.indexed && e.crossed then (busRead e.uncarried u).2 else u)
      (e.indexed = true ↔ m.form ∈ [MemForm.abx, MemForm.aby, MemForm.izy]) ∧
        (readOperand m s).value = r.1 ∧ (readOperand m s).state = r.2 ∧
        (readOperand m s).cycles = readCycles m false + (if e.indexed && e.crossed then 1 else 0) ∧
        readCycles m false = (match m.form with | .zp => 3 | .izx => 6 | .izy => 5 | _ => 4) ∧
        writeOperand m v s = busWrite e.ea v w ∧
        (writeOp m v s).cpu.cyclesRemaining =
          (match m.form with | .zp => 3 | .abx => 5 | .aby => 5 | .izx => 6 | .izy => 6 | _ => 4) ∧
        (rmwOperand m f s).cycles =
          (match m.form with | .zp => 5 | .abx => 7 | .aby => 7 | .izx => 8 | .izy => 8 | _ => 6) ∧
        (rmwOperand m f s).value = (busRead e.ea w).1 ∧
        (rmwOperand m f s).state =
          busWrite e.ea (f (busRead e.ea w).1) (busWrite e.ea (busRead e.ea w).1 (busRead e.ea w).2) ∧
        readMode (.mem m) s = readOperand m s ∧
        ∀ b : Byte, (readMode (.imm b) s).value = b ∧ (readMode (.imm b) s).state = s ∧
          (readMode (.imm b) s).cycles = 2

/-- O7. R740, R743, R762, R150, R151. `earlyOperands` is the number of operand bytes read with the opcode: all, but
one for JSR (R302) and none for the unstable stores (R400); log entry 10. -/
def Obligations.StepRunsTheDecodedInstruction : Prop :=
  (∀ (s : State) (b0 b1 b2 : Byte) (i : Instr) (rest : List Byte),
      let u := ppuPhase s
      let pc := u.cpu.pc
      let n := 1 + earlyOperands b0
      u.apu.stallPending = 0 → u.cpu.sh.active = false → u.cpu.cyclesRemaining = 0 → u.cpu.nmiPending = false →
      u.cpu.latchedIrq = false → u.storage pc = some b0 → (1 ≤ operandCount b0 → u.storage (pc + 1) = some b1) →
      (2 ≤ operandCount b0 → u.storage (pc + 2) = some b2) →
      decode [b0, b1, b2] = .ok (i, rest) →
      step s =
        mapNext apuPhase
          (mapNext (fun t => t.mapCpu Cpu.endClock)
            (exec i
              ((u.latch (if n = 1 then b0 else if n = 2 then b1 else b2)).mapCpu
                fun c => { c with pc := pc + BitVec.ofNat 16 n })))) ∧
      (∀ op : Byte, earlyOperands op =
      if op = 0x20 then 1 else if op ∈ [0x93, 0x9F, 0x9B, 0x9C, 0x9E] then 0 else operandCount op)

/-- O8. R743, with the reset value of `cycles_remaining` that R743 names. -/
def Obligations.CpuClockCases : Prop :=
  ∀ s : State,
      let finish : State → State := fun t => t.mapCpu fun c =>
        { c with cyclesRemaining := c.cyclesRemaining - 1, cycleCount := c.cycleCount + 1 }
      (s.cpu.sh.active = true → cpuClock s = .next (finish (shClock s))) ∧
      (s.cpu.sh.active = false → s.cpu.cyclesRemaining = 0 → cpuClock s = mapNext finish (cpuBoundary s)) ∧
      (s.cpu.sh.active = false → 0 < s.cpu.cyclesRemaining →
        cpuClock s = .next (finish (s.mapCpu fun c =>
          if c.clockNo ∈ c.pollAt then { c with latchedIrq := c.latchedIrq || (c.irqLine && !getFlag c.p .i) } else c))) ∧
      (consoleReset s).cpu.cyclesRemaining = 8 ∧ (consoleReset s).cpu.sh.active = false

/-- O9. R150 (an n-cycle instruction occupies exactly n clocks), R743, R764. -/
def Obligations.IdleClocksOfAnInstruction : Prop :=
  ∀ (n : Nat) (s : State), s.cpu.sh.active = false → s.cpu.cyclesRemaining = n → n ≤ s.cpu.totalCycles →
      ∃ t, cpuClocks n s = .next t ∧ t.cpu.cyclesRemaining = 0 ∧ (∀ r, t.cpu.reg r = s.cpu.reg r) ∧
        t.cpu.p = s.cpu.p ∧ t.cpu.pc = s.cpu.pc ∧ t.cpu.cycleCount = s.cpu.cycleCount + BitVec.ofNat 64 n ∧
        t.cpu.sh = s.cpu.sh ∧ t.cpu.nmiPending = s.cpu.nmiPending ∧ t.cpu.irqLine = s.cpu.irqLine ∧ SameDevices s t ∧
        (t.cpu.latchedIrq = true ↔
          s.cpu.latchedIrq = true ∨ (s.cpu.irqLine = true ∧ getFlag s.cpu.p .i = false ∧
            ∃ k ∈ s.cpu.pollAt, s.cpu.totalCycles + 1 - n ≤ k ∧ k ≤ s.cpu.totalCycles))

/-- O10. R762. -/
def Obligations.BoundaryOrder : Prop :=
  ∀ s : State,
      (s.cpu.nmiPending = true →
        cpuBoundary s = .next (interruptEntry .nmi
          (s.mapCpu fun c => { c with nmiPending := false, latchedIrq := false }))) ∧
      (s.cpu.nmiPending = false → s.cpu.latchedIrq = true →
        cpuBoundary s = .next (interruptEntry .irq (s.mapCpu fun c => { c with latchedIrq := false }))) ∧
      (s.cpu.nmiPending = false → s.cpu.latchedIrq = false → cpuBoundary s = exec (fetch s).1 (fetch s).2) ∧
      (s.cpu.cyclesRemaining = 0 → s.cpu.sh.active = false →
        cpuClock s = mapNext (fun t => t.mapCpu Cpu.endClock) (cpuBoundary s))

/-- O11. R770, for NMI (vector 0xFFFA) and IRQ (vector 0xFFFE). -/
def Obligations.InterruptEntryEffect : Prop :=
  ∀ s : State,
      (let t := interruptEntry .nmi s
       Enters 0xFFFA s.cpu.pc ((s.cpu.p &&& 0xEF) ||| 0x20) s t ∧ t.cpu.cyclesRemaining = 7 ∧ t.cpu.pollAt = [] ∧
         t.cpu.latchedIrq = s.cpu.latchedIrq) ∧
      (let t := interruptEntry .irq s
       Enters 0xFFFE s.cpu.pc ((s.cpu.p &&& 0xEF) ||| 0x20) s t ∧ t.cpu.cyclesRemaining = 7 ∧ t.cpu.pollAt = [] ∧
         t.cpu.latchedIrq = s.cpu.latchedIrq)

/-- O12. R741. -/
def Obligations.NmiReachesTheCpuInTheSameTick : Prop :=
  ∀ s : State,
      (let t := ppuTurn s
       t.ppu = { s.ppu.tick s.cart with nmiLatched := false } ∧
         t.cpu = { s.cpu with nmiPending := s.cpu.nmiPending || (s.ppu.tick s.cart).nmiLatched } ∧
         t.bus = s.bus ∧ t.apu = s.apu ∧ t.cart = s.cart ∧ t.params = s.params) ∧
      (ppuPhase s).ppu.nmiLatched = false ∧
      (ppuPhase s) = ppuTurn (ppuTurn (ppuTurn s))

/-- O13. R744 and R656. -/
def Obligations.IrqLineFollowsTheApu : Prop :=
  ∀ s t : State, step s = .next t → t.cpu.irqLine = (t.apu.frameIrq || t.apu.dmc.irq)

/-- O14. R742 and R402. W is the number of steps (R400). -/
def Obligations.HaltCycles : Prop :=
  ∀ s : State,
      let counted := s.mapCpu fun c => { c with cycleCount := c.cycleCount + 1 }
      let w := s.cpu.sh.op.steps
      (0 < s.apu.stallPending →
        cpuPhase s = .next (cpuHalt { s with apu := { s.apu with stallPending := s.apu.stallPending - 1 } })) ∧
      (s.apu.stallPending = 0 → cpuPhase s = cpuClock s) ∧
      (s.cpu.sh.active = false → cpuHalt s = counted) ∧
      (s.cpu.sh.active = true → s.cpu.sh.step ≠ w → s.cpu.sh.step + 2 ≠ w → cpuHalt s = counted) ∧
      (s.cpu.sh.active = true → s.cpu.sh.step + 2 = w →
        cpuHalt s = counted.mapCpu fun c => { c with sh := { c.sh with rdyTwoBefore := true } }) ∧
      (s.cpu.sh.active = true → s.cpu.sh.step = w →
        cpuHalt s = (shWrite counted).mapCpu (fun c => { c with cyclesRemaining := 0 }) ∧
          (cpuHalt s).cpu.sh.active = false)

/-- O15. R201, R202, R203, R355, R365. The page-cross cycle is in `ReadsOperand.takes` by `OperandAccesses`. -/
def Obligations.LoadsPutTheirOperandInRegisters : Prop :=
  (readCells .lda [(none, 0xA9, 2), (some .zp, 0xA5, 3), (some .zpx, 0xB5, 4), (some .abs, 0xAD, 4),
    (some .abx, 0xBD, 4), (some .aby, 0xB9, 4), (some .izx, 0xA1, 6), (some .izy, 0xB1, 5)] ∧
      readCells .ldx [(none, 0xA2, 2), (some .zp, 0xA6, 3), (some .zpy, 0xB6, 4), (some .abs, 0xAE, 4),
        (some .aby, 0xBE, 4)] ∧
      readCells .ldy [(none, 0xA0, 2), (some .zp, 0xA4, 3), (some .zpx, 0xB4, 4), (some .abs, 0xAC, 4),
        (some .abx, 0xBC, 4)] ∧
      (∀ m s, runs (.lda m) s fun t =>
        let v := (readMode m s).value
        t.cpu.a = v ∧ nzOf v t ∧ ReadsOperand [.a] [.n, .z] m s t) ∧
      (∀ m s, runs (.ldx m) s fun t =>
        let v := (readMode m s).value
        t.cpu.x = v ∧ nzOf v t ∧ ReadsOperand [.x] [.n, .z] m s t) ∧
      (∀ m s, runs (.ldy m) s fun t =>
        let v := (readMode m s).value
        t.cpu.y = v ∧ nzOf v t ∧ ReadsOperand [.y] [.n, .z] m s t)) ∧
      (memCells .lax (fun m => readCycles m false) [(.izx, 0xA3, 6), (.zp, 0xA7, 3), (.abs, 0xAF, 4),
        (.izy, 0xB3, 5), (.zpy, 0xB7, 4), (.aby, 0xBF, 4)] ∧
      (∀ m s, runs (.lax m) s fun t =>
        let v := (readMode (.mem m) s).value
        t.cpu.a = v ∧ t.cpu.x = v ∧ nzOf v t ∧ ReadsOperand [.a, .x] [.n, .z] (.mem m) s t) ∧
      ∀ lo hi s, decodesTo [0xBB, lo, hi] (.lae (mkWord hi lo)) ∧ runs (.lae (mkWord hi lo)) s fun t =>
        let m : ReadMode := .mem (.aby (mkWord hi lo))
        let r := (readMode m s).value &&& s.cpu.sp
        t.cpu.a = r ∧ t.cpu.x = r ∧ t.cpu.sp = r ∧ nzOf r t ∧ ReadsOperand [.a, .x, .sp] [.n, .z] m s t)

/-- O16. R204, R205, R206, R354. The address is `(resolve m s).1.ea`, the meaning's own; `State.stores` says which
cells a write to it stores to. -/
def Obligations.StoresWriteOneByte : Prop :=
  memCells .sta writeCycles [(.zp, 0x85, 3), (.zpx, 0x95, 4), (.abs, 0x8D, 4), (.abx, 0x9D, 5), (.aby, 0x99, 5),
    (.izx, 0x81, 6), (.izy, 0x91, 6)] ∧
      memCells .stx writeCycles [(.zp, 0x86, 3), (.zpy, 0x96, 4), (.abs, 0x8E, 4)] ∧
      memCells .sty writeCycles [(.zp, 0x84, 3), (.zpx, 0x94, 4), (.abs, 0x8C, 4)] ∧
      memCells .sax writeCycles [(.izx, 0x83, 6), (.zp, 0x87, 3), (.abs, 0x8F, 4), (.zpy, 0x97, 4)] ∧
      ∀ m s, runs (.sta m) s (StoresOperand m s.cpu.a s) ∧ runs (.stx m) s (StoresOperand m s.cpu.x s) ∧
        runs (.sty m) s (StoresOperand m s.cpu.y s) ∧ runs (.sax m) s (StoresOperand m (s.cpu.a &&& s.cpu.x) s) ∧
        ((Instr.sax m).wf = true → (resolve m s).1.indexed = false)

/-- O17. R207 to R212 and R261 to R264. -/
def Obligations.TransfersAndRegisterCounts : Prop :=
  (decodesTo [0xAA] .tax ∧
      decodesTo [0xA8] .tay ∧
      decodesTo [0x8A] .txa ∧
      decodesTo [0x98] .tya ∧
      decodesTo [0xBA] .tsx ∧
      decodesTo [0x9A] .txs ∧
      (∀ s, runs .tax s fun t => t.cpu.x = s.cpu.a ∧ nzOf (s.cpu.a) t ∧ RegistersOnly [.x] [.n, .z] 2 s t) ∧
      (∀ s, runs .tay s fun t => t.cpu.y = s.cpu.a ∧ nzOf (s.cpu.a) t ∧ RegistersOnly [.y] [.n, .z] 2 s t) ∧
      (∀ s, runs .txa s fun t => t.cpu.a = s.cpu.x ∧ nzOf (s.cpu.x) t ∧ RegistersOnly [.a] [.n, .z] 2 s t) ∧
      (∀ s, runs .tya s fun t => t.cpu.a = s.cpu.y ∧ nzOf (s.cpu.y) t ∧ RegistersOnly [.a] [.n, .z] 2 s t) ∧
      (∀ s, runs .tsx s fun t => t.cpu.x = s.cpu.sp ∧ nzOf (s.cpu.sp) t ∧ RegistersOnly [.x] [.n, .z] 2 s t) ∧
      (∀ s, runs .txs s fun t => t.cpu.sp = s.cpu.x ∧ RegistersOnly [.sp] [] 2 s t)) ∧
      (decodesTo [0xE8] .inx ∧
      decodesTo [0xC8] .iny ∧
      decodesTo [0xCA] .dex ∧
      decodesTo [0x88] .dey ∧
      (∀ s, runs .inx s fun t => t.cpu.x = s.cpu.x + 1 ∧ nzOf (s.cpu.x + 1) t ∧ RegistersOnly [.x] [.n, .z] 2 s t) ∧
      (∀ s, runs .iny s fun t => t.cpu.y = s.cpu.y + 1 ∧ nzOf (s.cpu.y + 1) t ∧ RegistersOnly [.y] [.n, .z] 2 s t) ∧
      (∀ s, runs .dex s fun t => t.cpu.x = s.cpu.x - 1 ∧ nzOf (s.cpu.x - 1) t ∧ RegistersOnly [.x] [.n, .z] 2 s t) ∧
      (∀ s, runs .dey s fun t => t.cpu.y = s.cpu.y - 1 ∧ nzOf (s.cpu.y - 1) t ∧ RegistersOnly [.y] [.n, .z] 2 s t))

/-- O18. R213 to R216. `onStack` and `stackCell` go through the stack address the meaning uses; PLP's poll is
`latchedIrq` here, with no later poll point. -/
def Obligations.PushesAndPulls : Prop :=
  (decodesTo [0x48] .pha ∧
      decodesTo [0x08] .php ∧
      (∀ s, runs .pha s fun t => t.onStack s.cpu.sp = s.cpu.a ∧ t.cpu.sp = s.cpu.sp - 1 ∧ t.cpu.pc = s.cpu.pc ∧
        Keeps [.sp] [] s t ∧ StackOnly [stackCell s.cpu.sp] (s.cpu.a) s t ∧ Takes 3 s t) ∧
      (∀ s, runs .php s fun t => t.onStack s.cpu.sp = s.cpu.p ||| 0x30 ∧ t.cpu.sp = s.cpu.sp - 1 ∧
        t.cpu.pc = s.cpu.pc ∧
        Keeps [.sp] [] s t ∧ StackOnly [stackCell s.cpu.sp] (s.cpu.p ||| 0x30) s t ∧ Takes 3 s t)) ∧
      (decodesTo [0x68] .pla ∧
      decodesTo [0x28] .plp ∧
      (∀ s, runs .pla s fun t =>
        let v := s.onStack (s.cpu.sp + 1)
        t.cpu.a = v ∧ nzOf v t ∧ t.cpu.sp = s.cpu.sp + 1 ∧ t.cpu.pc = s.cpu.pc ∧ Keeps [.a, .sp] [.n, .z] s t ∧
          StackOnly [] v s t ∧ Takes 4 s t) ∧
      ∀ s, runs .plp s fun t =>
        let v := s.onStack (s.cpu.sp + 1)
        t.cpu.p = (v &&& 0xCF) ||| 0x20 ∧ t.cpu.sp = s.cpu.sp + 1 ∧ t.cpu.pc = s.cpu.pc ∧
          Keeps [.sp] [.n, .v, .b, .u, .d, .i, .z, .c] s t ∧ StackOnly [] v s t ∧
          t.cpu.cyclesRemaining = 4 ∧ t.cpu.totalCycles = 4 ∧ t.cpu.pollAt = [] ∧
          t.cpu.latchedIrq = (s.cpu.latchedIrq || (s.cpu.irqLine && !getFlag s.cpu.p .i)))

/-- O19. R250. D stands in no right side, so the result is the same with D set. -/
def Obligations.AdcAddsInBinary : Prop :=
  readCells .adc [(none, 0x69, 2), (some .zp, 0x65, 3), (some .zpx, 0x75, 4), (some .abs, 0x6D, 4),
    (some .abx, 0x7D, 4), (some .aby, 0x79, 4), (some .izx, 0x61, 6), (some .izy, 0x71, 5)] ∧
      (∀ m s, runs (.adc m) s fun t =>
        let v := (readMode m s).value
        let sum := s.cpu.a.toNat + v.toNat + (getFlag s.cpu.p .c).toNat
        t.cpu.a.toNat = sum % 256 ∧ getFlag t.cpu.p .c = decide (0xFF < sum) ∧ nzOf t.cpu.a t ∧
          getFlag t.cpu.p .v = ((s.cpu.a.getLsbD 7 == v.getLsbD 7) && (t.cpu.a.getLsbD 7 != s.cpu.a.getLsbD 7)) ∧
            ReadsOperand [.a] [.n, .v, .z, .c] m s t)

/-- O20. R251 and R364. -/
def Obligations.SbcSubtractsWithBorrow : Prop :=
  readCells .sbc [(none, 0xE9, 2), (some .zp, 0xE5, 3), (some .zpx, 0xF5, 4), (some .abs, 0xED, 4),
    (some .abx, 0xFD, 4), (some .aby, 0xF9, 4), (some .izx, 0xE1, 6), (some .izy, 0xF1, 5)] ∧
      (∀ m s, runs (.sbc m) s fun t =>
        let v := (readMode m s).value
        let minuend := s.cpu.a.toNat
        let subtrahend := v.toNat + (!getFlag s.cpu.p .c).toNat
        t.cpu.a.toNat = (minuend + 256 - subtrahend) % 256 ∧ getFlag t.cpu.p .c = decide (subtrahend ≤ minuend) ∧
          nzOf t.cpu.a t ∧
          getFlag t.cpu.p .v = ((s.cpu.a.getLsbD 7 != v.getLsbD 7) && (t.cpu.a.getLsbD 7 != s.cpu.a.getLsbD 7)) ∧
            ReadsOperand [.a] [.n, .v, .z, .c] m s t) ∧
      ∀ v s, decodesTo [0xEB, v] (.sbcMirror v) ∧ exec (.sbcMirror v) s = exec (.sbc (.imm v)) s

/-- O21. R252, R253, R254. -/
def Obligations.LogicCombinesWithA : Prop :=
  readCells .and [(none, 0x29, 2), (some .zp, 0x25, 3), (some .zpx, 0x35, 4), (some .abs, 0x2D, 4),
    (some .abx, 0x3D, 4), (some .aby, 0x39, 4), (some .izx, 0x21, 6), (some .izy, 0x31, 5)] ∧
      readCells .ora [(none, 0x09, 2), (some .zp, 0x05, 3), (some .zpx, 0x15, 4), (some .abs, 0x0D, 4),
        (some .abx, 0x1D, 4), (some .aby, 0x19, 4), (some .izx, 0x01, 6), (some .izy, 0x11, 5)] ∧
      readCells .eor [(none, 0x49, 2), (some .zp, 0x45, 3), (some .zpx, 0x55, 4), (some .abs, 0x4D, 4),
        (some .abx, 0x5D, 4), (some .aby, 0x59, 4), (some .izx, 0x41, 6), (some .izy, 0x51, 5)] ∧
      (∀ m s, runs (.and m) s fun t =>
        let v := (readMode m s).value
        t.cpu.a = s.cpu.a &&& v ∧ nzOf (s.cpu.a &&& v) t ∧ ReadsOperand [.a] [.n, .z] m s t) ∧
      (∀ m s, runs (.ora m) s fun t =>
        let v := (readMode m s).value
        t.cpu.a = s.cpu.a ||| v ∧ nzOf (s.cpu.a ||| v) t ∧ ReadsOperand [.a] [.n, .z] m s t) ∧
      (∀ m s, runs (.eor m) s fun t =>
        let v := (readMode m s).value
        t.cpu.a = s.cpu.a ^^^ v ∧ nzOf (s.cpu.a ^^^ v) t ∧ ReadsOperand [.a] [.n, .z] m s t)

/-- O22. R255 to R258. -/
def Obligations.ComparesAndBitSetOnlyFlags : Prop :=
  (readCells .cmp [(none, 0xC9, 2), (some .zp, 0xC5, 3), (some .zpx, 0xD5, 4), (some .abs, 0xCD, 4),
    (some .abx, 0xDD, 4), (some .aby, 0xD9, 4), (some .izx, 0xC1, 6), (some .izy, 0xD1, 5)] ∧
      readCells .cpx [(none, 0xE0, 2), (some .zp, 0xE4, 3), (some .abs, 0xEC, 4)] ∧
      readCells .cpy [(none, 0xC0, 2), (some .zp, 0xC4, 3), (some .abs, 0xCC, 4)] ∧
      (∀ m s, runs (.cmp m) s fun t =>
        let v := (readMode m s).value
        getFlag t.cpu.p .c = decide (v.toNat ≤ s.cpu.a.toNat) ∧ nzOf (s.cpu.a - v) t ∧
          (getFlag t.cpu.p .z = true ↔ s.cpu.a = v) ∧ ReadsOperand [] [.n, .z, .c] m s t) ∧
      (∀ m s, runs (.cpx m) s fun t =>
        let v := (readMode m s).value
        getFlag t.cpu.p .c = decide (v.toNat ≤ s.cpu.x.toNat) ∧ nzOf (s.cpu.x - v) t ∧
          (getFlag t.cpu.p .z = true ↔ s.cpu.x = v) ∧ ReadsOperand [] [.n, .z, .c] m s t) ∧
      (∀ m s, runs (.cpy m) s fun t =>
        let v := (readMode m s).value
        getFlag t.cpu.p .c = decide (v.toNat ≤ s.cpu.y.toNat) ∧ nzOf (s.cpu.y - v) t ∧
          (getFlag t.cpu.p .z = true ↔ s.cpu.y = v) ∧ ReadsOperand [] [.n, .z, .c] m s t)) ∧
      (memCells .bit (fun m => readCycles m false) [(.zp, 0x24, 3), (.abs, 0x2C, 4)] ∧
      (∀ m s, runs (.bit m) s fun t =>
        let v := (readMode (.mem m) s).value
        getFlag t.cpu.p .n = v.getLsbD 7 ∧ getFlag t.cpu.p .v = v.getLsbD 6 ∧
          getFlag t.cpu.p .z = ((s.cpu.a &&& v) == 0) ∧ ReadsOperand [] [.n, .v, .z] (.mem m) s t))

/-- O23. R259, R260. -/
def Obligations.IncDecMemory : Prop :=
  memCells .inc rmwCycles [(.zp, 0xE6, 5), (.zpx, 0xF6, 6), (.abs, 0xEE, 6), (.abx, 0xFE, 7)] ∧
      memCells .dec rmwCycles [(.zp, 0xC6, 5), (.zpx, 0xD6, 6), (.abs, 0xCE, 6), (.abx, 0xDE, 7)] ∧
      (∀ m s, runs (.inc m) s fun t =>
        let old := rmwOld m s
        let new : Byte := old + 1
        nzOf new t ∧ ModifiesOperand [] [.n, .z] m new s t) ∧
      (∀ m s, runs (.dec m) s fun t =>
        let old := rmwOld m s
        let new : Byte := old - 1
        nzOf new t ∧ ModifiesOperand [] [.n, .z] m new s t)

/-- O24. R265 to R268. -/
def Obligations.ShiftsMoveOneBit : Prop :=
  shiftCells .asl [(none, 0x0A, 2), (some .zp, 0x06, 5), (some .zpx, 0x16, 6), (some .abs, 0x0E, 6),
    (some .abx, 0x1E, 7)] ∧
      shiftCells .lsr [(none, 0x4A, 2), (some .zp, 0x46, 5), (some .zpx, 0x56, 6), (some .abs, 0x4E, 6),
        (some .abx, 0x5E, 7)] ∧
      shiftCells .rol [(none, 0x2A, 2), (some .zp, 0x26, 5), (some .zpx, 0x36, 6), (some .abs, 0x2E, 6),
        (some .abx, 0x3E, 7)] ∧
      shiftCells .ror [(none, 0x6A, 2), (some .zp, 0x66, 5), (some .zpx, 0x76, 6), (some .abs, 0x6E, 6),
        (some .abx, 0x7E, 7)] ∧
      (∀ s, runs (.asl .acc) s fun t =>
        let old := s.cpu.a
        let new : Byte := old <<< 1
        t.cpu.a = new ∧ nzOf new t ∧ getFlag t.cpu.p .c = old.getLsbD 7 ∧ RegistersOnly [.a] [.n, .z, .c] 2 s t) ∧
      (∀ s, runs (.lsr .acc) s fun t =>
        let old := s.cpu.a
        let new : Byte := old >>> 1
        t.cpu.a = new ∧ nzOf new t ∧ getFlag t.cpu.p .c = old.getLsbD 0 ∧ RegistersOnly [.a] [.n, .z, .c] 2 s t) ∧
      (∀ s, runs (.rol .acc) s fun t =>
        let old := s.cpu.a
        let new : Byte := (old <<< 1) ||| (if getFlag s.cpu.p .c then 1 else 0)
        t.cpu.a = new ∧ nzOf new t ∧ getFlag t.cpu.p .c = old.getLsbD 7 ∧ RegistersOnly [.a] [.n, .z, .c] 2 s t) ∧
      (∀ s, runs (.ror .acc) s fun t =>
        let old := s.cpu.a
        let new : Byte := (old >>> 1) ||| (if getFlag s.cpu.p .c then 0x80 else 0)
        t.cpu.a = new ∧ nzOf new t ∧ getFlag t.cpu.p .c = old.getLsbD 0 ∧ RegistersOnly [.a] [.n, .z, .c] 2 s t) ∧
      (∀ m s, runs (.asl (.mem m)) s fun t =>
        let old := rmwOld m s
        let new : Byte := old <<< 1
        nzOf new t ∧ getFlag t.cpu.p .c = old.getLsbD 7 ∧ ModifiesOperand [] [.n, .z, .c] m new s t) ∧
      (∀ m s, runs (.lsr (.mem m)) s fun t =>
        let old := rmwOld m s
        let new : Byte := old >>> 1
        nzOf new t ∧ getFlag t.cpu.p .c = old.getLsbD 0 ∧ ModifiesOperand [] [.n, .z, .c] m new s t) ∧
      (∀ m s, runs (.rol (.mem m)) s fun t =>
        let old := rmwOld m s
        let new : Byte := (old <<< 1) ||| (if getFlag s.cpu.p .c then 1 else 0)
        nzOf new t ∧ getFlag t.cpu.p .c = old.getLsbD 7 ∧ ModifiesOperand [] [.n, .z, .c] m new s t) ∧
      (∀ m s, runs (.ror (.mem m)) s fun t =>
        let old := rmwOld m s
        let new : Byte := (old >>> 1) ||| (if getFlag s.cpu.p .c then 0x80 else 0)
        nzOf new t ∧ getFlag t.cpu.p .c = old.getLsbD 0 ∧ ModifiesOperand [] [.n, .z, .c] m new s t)

/-- O25. R300, R301. -/
def Obligations.JumpsSetPc : Prop :=
  (∀ lo hi, decodesTo [0x4C, lo, hi] (.jmp (mkWord hi lo)) ∧ decodesTo [0x6C, lo, hi] (.jmpInd (mkWord hi lo))) ∧
      (∀ w s, runs (.jmp w) s fun t => t.cpu.pc = w ∧ Keeps [] [] s t ∧ SameDevices s t ∧ Takes 3 s t) ∧
      ∀ ptr s, runs (.jmpInd ptr) s fun t =>
        let r1 := busRead ptr s
        let r2 := busRead ((ptr &&& 0xFF00) ||| ((ptr + 1) &&& 0x00FF)) r1.2
        t.cpu.pc = mkWord r2.1 r1.1 ∧ Keeps [] [] s t ∧ SameDevices r2.2 t ∧ sameMemory s t ∧ Takes 5 s t

/-- O26. R302, R303. JSR's meaning is given the state in which the low operand byte has been read. -/
def Obligations.CallAndReturn : Prop :=
  ((∀ lo hi, decodesTo [0x20, lo, hi] (.jsr (mkWord hi lo))) ∧
      ∀ target s, runs (.jsr target) s fun t =>
        let sp := s.cpu.sp
        let u := pushWord s.cpu.pc (busRead (stackAddr sp) s).2
        let third := busRead s.cpu.pc u
        t.onStack sp = hiByte s.cpu.pc ∧ t.onStack (sp - 1) = loByte s.cpu.pc ∧ t.cpu.sp = sp - 2 ∧
          t.cpu.pc = mkWord third.1 (loByte target) ∧
          (s.storage s.cpu.pc = some (hiByte target) →
            (s.cpu.pc.toNat ≤ 0x1FFF → ramIndex s.cpu.pc ∉ [stackCell sp, stackCell (sp - 1)]) →
            t.cpu.pc = target) ∧
          (∀ q i, ¬(q = .ram ∧ i ∈ [stackCell sp, stackCell (sp - 1)]) → t.peek q i = s.peek q i) ∧
          Keeps [.sp] [] s t ∧ SameDevices third.2 t ∧ Takes 6 s t) ∧
      (decodesTo [0x60] .rts ∧
      ∀ s, runs .rts s fun t =>
        let lo := s.onStack (s.cpu.sp + 1)
        let hi := s.onStack (s.cpu.sp + 2)
        t.cpu.pc = mkWord hi lo + 1 ∧ t.cpu.sp = s.cpu.sp + 2 ∧ Keeps [.sp] [] s t ∧ StackOnly [] hi s t ∧
          Takes 6 s t)

/-- O27. R302 and R303 together: RTS adds back the one that JSR's pushed address lacks. -/
def Obligations.RtsUndoesJsr : Prop :=
  ∀ target s t, exec (.jsr target) s = .next t →
      runs .rts t fun u => u.cpu.pc = s.cpu.pc + 1 ∧ u.cpu.sp = s.cpu.sp

/-- O28. R304, R305. RTI's one poll, before clock 5, sees the restored I: no poll is made in the first clock. In
`s` PC is past BRK's opcode. -/
def Obligations.BreakAndReturnFromInterrupt : Prop :=
  (decodesTo [0x40] .rti ∧
      ∀ s, runs .rti s fun t =>
        let m := s.onStack (s.cpu.sp + 1)
        let lo := s.onStack (s.cpu.sp + 2)
        let hi := s.onStack (s.cpu.sp + 3)
        t.cpu.p = (m &&& 0xCF) ||| 0x20 ∧ t.cpu.pc = mkWord hi lo ∧ t.cpu.sp = s.cpu.sp + 3 ∧
          Keeps [.sp] [.n, .v, .b, .u, .d, .i, .z, .c] s t ∧ StackOnly [] hi s t ∧ Takes 6 s t) ∧
      (decodesTo [0x00] .brk ∧
      ∀ s, runs .brk s fun t => Enters 0xFFFE (s.cpu.pc + 1) (s.cpu.p ||| 0x30) s t ∧ Takes 7 s t)

/-- O29. R770, R775, R305. The premise is the invariant `Cpu.statusOk`. -/
def Obligations.RtiUndoesInterruptEntry : Prop :=
  ∀ s, s.cpu.statusOk = true →
      (∀ e, e = Event.nmi ∨ e = Event.irq → runs .rti (interruptEntry e s) fun u =>
        u.cpu.pc = s.cpu.pc ∧ u.cpu.sp = s.cpu.sp ∧ u.cpu.p = s.cpu.p) ∧
      ∀ t, exec .brk s = .next t → runs .rti t fun u =>
        u.cpu.pc = s.cpu.pc + 1 ∧ u.cpu.sp = s.cpu.sp ∧ u.cpu.p = s.cpu.p

/-- O30. R306 to R314 and R766. PC is the address of the next instruction in `s`. -/
def Obligations.BranchesTestOneFlag : Prop :=
  ∀ off s,
      decodesTo [0x10, off] (.bpl off) ∧ decodesTo [0x30, off] (.bmi off) ∧ decodesTo [0x50, off] (.bvc off) ∧
        decodesTo [0x70, off] (.bvs off) ∧
      decodesTo [0x90, off] (.bcc off) ∧ decodesTo [0xB0, off] (.bcs off) ∧ decodesTo [0xD0, off] (.bne off) ∧
        decodesTo [0xF0, off] (.beq off) ∧
      runs (.bpl off) s (Branches (!getFlag s.cpu.p .n) off s) ∧
      runs (.bmi off) s (Branches (getFlag s.cpu.p .n) off s) ∧
      runs (.bvc off) s (Branches (!getFlag s.cpu.p .v) off s) ∧
      runs (.bvs off) s (Branches (getFlag s.cpu.p .v) off s) ∧
      runs (.bcc off) s (Branches (!getFlag s.cpu.p .c) off s) ∧
      runs (.bcs off) s (Branches (getFlag s.cpu.p .c) off s) ∧
      runs (.bne off) s (Branches (!getFlag s.cpu.p .z) off s) ∧
      runs (.beq off) s (Branches (getFlag s.cpu.p .z) off s)

/-- O31. R315 to R322. `RegistersOnly` holds `Takes 2`, whose poll reads the I of `s`. -/
def Obligations.FlagInstructionsChangeOneFlag : Prop :=
  decodesTo [0x18] .clc ∧
      decodesTo [0x38] .sec ∧
      decodesTo [0x58] .cli ∧
      decodesTo [0x78] .sei ∧
      decodesTo [0xD8] .cld ∧
      decodesTo [0xF8] .sed ∧
      decodesTo [0xB8] .clv ∧
      decodesTo [0xEA] .nop ∧
      (∀ s, runs .clc s fun t => getFlag t.cpu.p .c = false ∧ RegistersOnly [] [.c] 2 s t) ∧
      (∀ s, runs .sec s fun t => getFlag t.cpu.p .c = true ∧ RegistersOnly [] [.c] 2 s t) ∧
      (∀ s, runs .cli s fun t => getFlag t.cpu.p .i = false ∧ RegistersOnly [] [.i] 2 s t) ∧
      (∀ s, runs .sei s fun t => getFlag t.cpu.p .i = true ∧ RegistersOnly [] [.i] 2 s t) ∧
      (∀ s, runs .cld s fun t => getFlag t.cpu.p .d = false ∧ RegistersOnly [] [.d] 2 s t) ∧
      (∀ s, runs .sed s fun t => getFlag t.cpu.p .d = true ∧ RegistersOnly [] [.d] 2 s t) ∧
      (∀ s, runs .clv s fun t => getFlag t.cpu.p .v = false ∧ RegistersOnly [] [.v] 2 s t) ∧
      ∀ s, runs .nop s fun t => RegistersOnly [] [] 2 s t

/-- O32. R350 to R353, R356, R357. For RRA the carry into the add is bit 0 of the old byte. -/
def Obligations.ModifyAndCombine : Prop :=
  (memCells .slo rmwCycles [(.izx, 0x03, 8), (.zp, 0x07, 5), (.abs, 0x0F, 6), (.izy, 0x13, 8), (.zpx, 0x17, 6),
    (.aby, 0x1B, 7), (.abx, 0x1F, 7)] ∧
      memCells .rla rmwCycles [(.izx, 0x23, 8), (.zp, 0x27, 5), (.abs, 0x2F, 6), (.izy, 0x33, 8), (.zpx, 0x37, 6),
        (.aby, 0x3B, 7), (.abx, 0x3F, 7)] ∧
      memCells .sre rmwCycles [(.izx, 0x43, 8), (.zp, 0x47, 5), (.abs, 0x4F, 6), (.izy, 0x53, 8), (.zpx, 0x57, 6),
        (.aby, 0x5B, 7), (.abx, 0x5F, 7)] ∧
      memCells .rra rmwCycles [(.izx, 0x63, 8), (.zp, 0x67, 5), (.abs, 0x6F, 6), (.izy, 0x73, 8), (.zpx, 0x77, 6),
        (.aby, 0x7B, 7), (.abx, 0x7F, 7)] ∧
      (∀ m s, runs (.slo m) s fun t =>
        let old := rmwOld m s
        let new : Byte := old <<< 1
        t.cpu.a = s.cpu.a ||| new ∧ nzOf (s.cpu.a ||| new) t ∧ getFlag t.cpu.p .c = old.getLsbD 7 ∧
          ModifiesOperand [.a] [.n, .z, .c] m new s t) ∧
      (∀ m s, runs (.rla m) s fun t =>
        let old := rmwOld m s
        let new : Byte := (old <<< 1) ||| (if getFlag s.cpu.p .c then 1 else 0)
        t.cpu.a = s.cpu.a &&& new ∧ nzOf (s.cpu.a &&& new) t ∧ getFlag t.cpu.p .c = old.getLsbD 7 ∧
          ModifiesOperand [.a] [.n, .z, .c] m new s t) ∧
      (∀ m s, runs (.sre m) s fun t =>
        let old := rmwOld m s
        let new : Byte := old >>> 1
        t.cpu.a = s.cpu.a ^^^ new ∧ nzOf (s.cpu.a ^^^ new) t ∧ getFlag t.cpu.p .c = old.getLsbD 0 ∧
          ModifiesOperand [.a] [.n, .z, .c] m new s t) ∧
      (∀ m s, runs (.rra m) s fun t =>
        let old := rmwOld m s
        let new : Byte := (old >>> 1) ||| (if getFlag s.cpu.p .c then 0x80 else 0)
        let sum := s.cpu.a.toNat + new.toNat + (old.getLsbD 0).toNat
        t.cpu.a.toNat = sum % 256 ∧ getFlag t.cpu.p .c = decide (0xFF < sum) ∧ nzOf t.cpu.a t ∧
          getFlag t.cpu.p .v = ((s.cpu.a.getLsbD 7 == new.getLsbD 7) && (t.cpu.a.getLsbD 7 != s.cpu.a.getLsbD 7)) ∧
            ModifiesOperand [.a] [.n, .v, .z, .c] m new s t)) ∧
      (memCells .dcp rmwCycles [(.izx, 0xC3, 8), (.zp, 0xC7, 5), (.abs, 0xCF, 6), (.izy, 0xD3, 8), (.zpx, 0xD7, 6),
        (.aby, 0xDB, 7), (.abx, 0xDF, 7)] ∧
      memCells .isc rmwCycles [(.izx, 0xE3, 8), (.zp, 0xE7, 5), (.abs, 0xEF, 6), (.izy, 0xF3, 8), (.zpx, 0xF7, 6),
        (.aby, 0xFB, 7), (.abx, 0xFF, 7)] ∧
      (∀ m s, runs (.dcp m) s fun t =>
        let old := rmwOld m s
        let new : Byte := old - 1
        getFlag t.cpu.p .c = decide (new.toNat ≤ s.cpu.a.toNat) ∧ nzOf (s.cpu.a - new) t ∧
          ModifiesOperand [] [.n, .z, .c] m new s t) ∧
      (∀ m s, runs (.isc m) s fun t =>
        let old := rmwOld m s
        let new : Byte := old + 1
        let minuend := s.cpu.a.toNat
        let subtrahend := new.toNat + (!getFlag s.cpu.p .c).toNat
        t.cpu.a.toNat = (minuend + 256 - subtrahend) % 256 ∧ getFlag t.cpu.p .c = decide (subtrahend ≤ minuend) ∧
          nzOf t.cpu.a t ∧
          getFlag t.cpu.p .v = ((s.cpu.a.getLsbD 7 != new.getLsbD 7) && (t.cpu.a.getLsbD 7 != s.cpu.a.getLsbD 7)) ∧
            ModifiesOperand [.a] [.n, .v, .z, .c] m new s t))

/-- O33. R358, R359, R360, R363. The byte was read with the opcode, so no device changes. -/
def Obligations.ImmediateCombinations : Prop :=
  ∀ m s,
      (decodesTo [0x0B, m] (.anc 0x0B m) ∧ decodesTo [0x2B, m] (.anc 0x2B m) ∧ decodesTo [0x4B, m] (.asr m) ∧
        decodesTo [0x6B, m] (.arr m) ∧ decodesTo [0xCB, m] (.axs m)) ∧
      (∀ op, runs (.anc op m) s fun t =>
        let r := s.cpu.a &&& m
        t.cpu.a = r ∧ nzOf r t ∧ getFlag t.cpu.p .c = r.getLsbD 7 ∧ RegistersOnly [.a] [.n, .z, .c] 2 s t) ∧
      (runs (.asr m) s fun t =>
        let r := (s.cpu.a &&& m) >>> 1
        t.cpu.a = r ∧ nzOf r t ∧ getFlag t.cpu.p .n = false ∧ getFlag t.cpu.p .c = (s.cpu.a &&& m).getLsbD 0 ∧
          RegistersOnly [.a] [.n, .z, .c] 2 s t) ∧
      (runs (.arr m) s fun t =>
        let r : Byte := ((s.cpu.a &&& m) >>> 1) ||| (if getFlag s.cpu.p .c then 0x80 else 0)
        t.cpu.a = r ∧ nzOf r t ∧ getFlag t.cpu.p .c = r.getLsbD 6 ∧
          getFlag t.cpu.p .v = (r.getLsbD 6 != r.getLsbD 5) ∧ RegistersOnly [.a] [.n, .v, .z, .c] 2 s t) ∧
      (runs (.axs m) s fun t =>
        let r := s.cpu.a &&& s.cpu.x
        t.cpu.x = r - m ∧ nzOf (r - m) t ∧ getFlag t.cpu.p .c = decide (m.toNat ≤ r.toNat) ∧
          RegistersOnly [.x] [.n, .z, .c] 2 s t)

/-- O34. R361, R362. The constants are free values of Config: this holds whatever they are. -/
def Obligations.OpenConstantInstructions : Prop :=
  ∀ m s,
      decodesTo [0x8B, m] (.ane m) ∧ decodesTo [0xAB, m] (.lxa m) ∧
      (runs (.ane m) s fun t =>
        let r := (s.cpu.a ||| Config.aneConst) &&& s.cpu.x &&& m
        t.cpu.a = r ∧ nzOf r t ∧ (m = 0 → t.cpu.a = 0) ∧ (s.cpu.a = 0xFF → t.cpu.a = s.cpu.x &&& m) ∧
          RegistersOnly [.a] [.n, .z] 2 s t) ∧
      (runs (.lxa m) s fun t =>
        let r := (s.cpu.a ||| Config.lxaConst) &&& m
        t.cpu.a = r ∧ t.cpu.x = r ∧ nzOf r t ∧ (m = 0 → t.cpu.a = 0) ∧ RegistersOnly [.a, .x] [.n, .z] 2 s t)

/-- O35. R366 to R370. What the reads do to a device is in `ReadsOperand.devices`. -/
def Obligations.NopVariantsChangeNothing : Prop :=
  (∀ op ∈ [0x1A, 0x3A, 0x5A, 0x7A, 0xDA, 0xFA], decodesTo [op] (.nopImplied op)) ∧
      (∀ op ∈ [0x80, 0x82, 0x89, 0xC2, 0xE2], ∀ v, decodesTo [op, v] (.nopImm op v)) ∧
      (∀ op ∈ [0x04, 0x44, 0x64], ∀ z, decodesTo [op, z] (.nopRead op (.zp z))) ∧
      (∀ op ∈ [0x14, 0x34, 0x54, 0x74, 0xD4, 0xF4], ∀ z, decodesTo [op, z] (.nopRead op (.zpx z))) ∧
      (∀ lo hi, decodesTo [0x0C, lo, hi] (.nopRead 0x0C (.abs (mkWord hi lo)))) ∧
      (∀ op ∈ [0x1C, 0x3C, 0x5C, 0x7C, 0xDC, 0xFC], ∀ lo hi, decodesTo [op, lo, hi] (.nopAbx op (mkWord hi lo))) ∧
      (∀ op ∈ [0x02, 0x12, 0x22, 0x32, 0x42, 0x52, 0x62, 0x72, 0x92, 0xB2, 0xD2, 0xF2],
        decodesTo [op] (.nopUnknown op)) ∧
      ∀ op v m w s,
        runs (.nopImplied op) s (RegistersOnly [] [] 2 s) ∧ runs (.nopUnknown op) s (RegistersOnly [] [] 2 s) ∧
        runs (.nopImm op v) s (RegistersOnly [] [] 2 s) ∧ runs (.nopRead op m) s (ReadsOperand [] [] (.mem m) s) ∧
        runs (.nopAbx op w) s (ReadsOperand [] [] (.mem (.abx w)) s) ∧
        exec (.nopImplied op) s = exec .nop s ∧ exec (.nopUnknown op) s = exec .nop s ∧
        (∀ z, readCycles (.zp z) false = 3 ∧ readCycles (.zpx z) false = 4) ∧
        readCycles (.abs w) false = 4 ∧ readCycles (.abx w) false = 4 ∧ readCycles (.abx w) true = 5

/-- O36. R400, with the five opcode bytes of R404 to R408. The clock's end is that of every clock
(`CpuClockCases`). -/
def Obligations.UnstableStoresStart : Prop :=
  (∀ z, decodesTo [0x93, z] (.shaIzy z)) ∧
      (∀ lo hi, decodesTo [0x9F, lo, hi] (.shaAby (mkWord hi lo)) ∧ decodesTo [0x9E, lo, hi] (.shx (mkWord hi lo)) ∧
        decodesTo [0x9C, lo, hi] (.shy (mkWord hi lo)) ∧ decodesTo [0x9B, lo, hi] (.shs (mkWord hi lo))) ∧
      (ShOp.shaIzy.steps = 6 ∧ ShOp.shaAby.steps = 5 ∧ ShOp.shx.steps = 5 ∧ ShOp.shy.steps = 5 ∧ ShOp.shs.steps = 5) ∧
      (∀ z w s, runs (.shaIzy z) s (StartsStore .shaIzy s) ∧ runs (.shaAby w) s (StartsStore .shaAby s) ∧
        runs (.shx w) s (StartsStore .shx s) ∧ runs (.shy w) s (StartsStore .shy s) ∧
        runs (.shs w) s (StartsStore .shs s)) ∧
      (∀ s, (shClock s).cpu.sh.step = s.cpu.sh.step + 1 ∧ (shClock s).cpu.sh.op = s.cpu.sh.op ∧
        (s.cpu.sh.step = s.cpu.sh.op.steps → (shClock s).cpu.sh.active = false) ∧
        (s.cpu.sh.step ≠ s.cpu.sh.op.steps → (shClock s).cpu.sh.active = s.cpu.sh.active)) ∧
      ∀ s t, s.cpu.sh.active = true → cpuClock s = .next t →
        t.cpu.cyclesRemaining = s.cpu.cyclesRemaining - 1 ∧ t.cpu.cycleCount = s.cpu.cycleCount + 1

/-- O37. R401 and R403 (with `rdy_two_before` = 0 as R400 sets it, or 1 as a halt left it). Two or one operand
bytes are read from PC. `u` is the state of the write's own clock, whose `cycle_count` OAM DMA reads (R452). In the
second part `operand`, `pointer`, `dummy` and `write` are the entries of R401's table. -/
def Obligations.UnstableStoresRun : Prop :=
  (∀ (s : State) (b1 b2 : Byte), s.cpu.sh.active = true → s.cpu.sh.step = 2 →
      s.cpu.cyclesRemaining = s.cpu.sh.op.steps - 1 →
      s.storage s.cpu.pc = some b1 → (s.cpu.sh.op ≠ .shaIzy → s.storage (s.cpu.pc + 1) = some b2) →
      let zp := decide (s.cpu.sh.op = .shaIzy)
      let lo := if zp then s.peek .ram b1.toNat else b1
      let hi := if zp then s.peek .ram (b1 + 1).toNat else b2
      let base := mkWord hi lo
      let idx := if s.cpu.sh.op = .shy then s.cpu.x else s.cpu.y
      let raw := if s.cpu.sh.op = .shx then s.cpu.x else if s.cpu.sh.op = .shy then s.cpu.y else s.cpu.a &&& s.cpu.x
      let ea := base + zext idx
      let value := raw &&& (if s.cpu.sh.rdyTwoBefore then hi else hi + 1)
      let addr := if hiByte ea = hiByte base then ea else mkWord value (loByte ea)
      let u := (busRead (mkWord hi (loByte ea)) (s.latch hi)).2.mapCpu fun c =>
        { c with cycleCount := c.cycleCount + BitVec.ofNat 64 (c.sh.op.steps - 2) }
      ∃ t, cpuClocks (s.cpu.sh.op.steps - 1) s = .next t ∧
          t.cpu.sh.active = false ∧ t.cpu.cyclesRemaining = 0 ∧
          t.cpu.cycleCount = s.cpu.cycleCount + BitVec.ofNat 64 (s.cpu.sh.op.steps - 1) ∧
          t.cpu.pc = s.cpu.pc + (if zp then 1 else 2) ∧ t.cpu.a = s.cpu.a ∧ t.cpu.x = s.cpu.x ∧ t.cpu.y = s.cpu.y ∧
          t.cpu.p = s.cpu.p ∧ t.cpu.sp = (if s.cpu.sh.op = .shs then s.cpu.a &&& s.cpu.x else s.cpu.sp) ∧
          t.cpu.nmiPending = s.cpu.nmiPending ∧ t.cpu.irqLine = s.cpu.irqLine ∧
          t.cpu.latchedIrq = (s.cpu.latchedIrq || (s.cpu.irqLine && !getFlag s.cpu.p .i)) ∧
          SameDevices (busWrite addr value u) t ∧
          (∀ sp i, u.stores addr sp i = false → t.peek sp i = s.peek sp i) ∧
          (addr.toNat ≤ 0x1FFF → t.peek .ram (ramIndex addr) = value)) ∧
      ∀ s : State,
        let h := s.cpu.sh
        let idx := if h.op = .shy then s.cpu.x else s.cpu.y
        let raw := if h.op = .shx then s.cpu.x else if h.op = .shy then s.cpu.y else s.cpu.a &&& s.cpu.x
        let ea := mkWord h.hi h.lo + zext idx
        let value := raw &&& (if h.rdyTwoBefore then h.hi else h.hi + 1)
        let addr := if hiByte ea = h.hi then ea else mkWord value (loByte ea)
        let polled := s.mapCpu fun c => { c with latchedIrq := c.latchedIrq || (c.irqLine && !getFlag c.p .i) }
        let does := fun (u : State) (g : Sh → Sh) =>
          shClock s = u.mapCpu fun c => { c with sh := { g c.sh with step := h.step + 1 } }
        let operand := fun (g : Byte → Sh → Sh) =>
          does ((busRead s.cpu.pc s).2.mapCpu fun c => { c with pc := c.pc + 1 }) (g (busRead s.cpu.pc s).1)
        let pointer := fun (z : Byte) (g : Byte → Sh → Sh) => does (busRead (zext z) s).2 (g (busRead (zext z) s).1)
        let dummy := does (busRead (mkWord h.hi (h.lo + idx)) polled).2 id
        let write := does
          (busWrite addr value (if h.op = .shs then s.mapCpu fun c => { c with sp := c.a &&& c.x } else s))
          (fun k => { k with active := false })
        (h.op ≠ .shaIzy →
          (h.step = 2 → operand fun v k => { k with lo := v }) ∧
            (h.step = 3 → operand fun v k => { k with hi := v }) ∧
          (h.step = 4 → dummy) ∧ (h.step = 5 → write)) ∧
        (h.op = .shaIzy →
          (h.step = 2 → operand fun v k => { k with ptr := v }) ∧
          (h.step = 3 → pointer h.ptr fun v k => { k with lo := v }) ∧
          (h.step = 4 → pointer (h.ptr + 1) fun v k => { k with hi := v }) ∧
          (h.step = 5 → dummy) ∧ (h.step = 6 → write))

/-- O38. R431, R434, R436, R437, R438, R447. The bits of the APU's status byte are in `ApuStatusAndChannelWrites`,
the PPU registers in `PpuStatusRead`, `PpuDataPort` and `PpuRegisterWritesAndResetProtection`, the mappers' offsets
in `BankWindowsOfMappers`. -/
def Obligations.BusReadMap : Prop :=
  ∀ (a : Word) (s : State),
      let returns := fun (v : Byte) (t : State) => busRead a s = (v, t.latch v)
      let bit := fun (p : Port) => (if s.bus.ctlStrobe then p.latch else p.shift).getLsbD 0
      let portByte := fun (p : Port) => (s.bus.openBus &&& 0xFE) ||| (if bit p then 1 else 0)
      let after := fun (p : Port) =>
        ({ p with shift := if s.bus.ctlStrobe then p.latch else (p.shift >>> 1) ||| 0x80 } : Port)
      (busRead a s).2.bus.openBus = (busRead a s).1 ∧ (busRead a s).2.cpu = s.cpu ∧ sameMemory s (busRead a s).2 ∧
      (a = 0x4015 →
        returns (s.apu.readStatus s.bus.openBus).1 { s with apu := { s.apu with frameIrq := false } }) ∧
      (∀ c, s.cart = some c → 0x6000 ≤ a.toNat → a.toNat ≤ 0x7FFF →
        returns (if c.prgRamReadable then Memory.read c.prgRam (a.toNat - 0x6000) else 0) s) ∧
      (∀ c, s.cart = some c → 0x8000 ≤ a.toNat → returns (Memory.read c.prgRom (c.prgRomOffset a.toNat)) s) ∧
      (a = 0x4016 → returns (portByte s.bus.ctl0) { s with bus := { s.bus with ctl0 := after s.bus.ctl0 } }) ∧
      (a = 0x4017 → returns (portByte s.bus.ctl1) { s with bus := { s.bus with ctl1 := after s.bus.ctl1 } }) ∧
      (a.toNat ≤ 0x1FFF → returns (s.peek .ram (a.toNat % 0x800)) s) ∧
      (0x2000 ≤ a.toNat → a.toNat ≤ 0x3FFF →
        let r := s.ppu.regRead s.cart (BitVec.ofNat 3 (a.toNat % 8))
        returns r.1 { s with ppu := r.2 }) ∧
      (s.cart = none → 0x4020 ≤ a.toNat → returns 0 s) ∧
      (((0x4000 ≤ a.toNat ∧ a.toNat ≤ 0x4014) ∨ (0x4018 ≤ a.toNat ∧ a.toNat ≤ 0x401F) ∨
          (s.cart ≠ none ∧ 0x4020 ≤ a.toNat ∧ a.toNat ≤ 0x5FFF)) →
        busRead a s = (s.bus.openBus, s))

/-- O39. R440, R441, R448, and R434 for the reads back. What a PPU register, an APU register, a mapper register and
the OAM DMA do is in `PpuRegisterWritesAndResetProtection`, `ScrollAndAddressWrites`, `PpuDataPort`,
`ApuStatusAndChannelWrites`, `ApuClockAndFrameCounter`, `DmcRegistersAndFetch`, `BankWindowsOfMappers` and
`OamDmaCopiesAPage`. -/
def Obligations.BusWriteMapAndWorkRamMirrors : Prop :=
  (∀ (a : Word) (v : Byte) (s : State),
        let writes := fun (t : State) => busWrite a v s = t.latch v
        let reload := v.getLsbD 0 || s.bus.ctlStrobe
        let port := fun (p : Port) => ({ p with shift := if reload then p.latch else p.shift } : Port)
        (a.toNat ≤ 0x1FFF → writes { s with bus := { s.bus with ram := Memory.write s.bus.ram (a.toNat % 0x800) v } }) ∧
        (0x2000 ≤ a.toNat → a.toNat ≤ 0x3FFF →
          let r := s.ppu.regWrite s.cart (BitVec.ofNat 3 (a.toNat % 8)) v
          writes { s with cart := r.1, ppu := r.2 }) ∧
        ((0x4000 ≤ a.toNat ∧ a.toNat ≤ 0x4013) ∨ a = 0x4015 ∨ a = 0x4017 →
          writes { s with apu := s.apu.write s.params a v }) ∧
        (a = 0x4014 → busWrite a v s = oamDma v (s.latch v)) ∧
        (a = 0x4016 → writes { s with bus := { s.bus with
          ctlStrobe := v.getLsbD 0, ctl0 := port s.bus.ctl0, ctl1 := port s.bus.ctl1 } }) ∧
        (∀ c, s.cart = some c → 0x6000 ≤ a.toNat → a.toNat ≤ 0x7FFF → 
          let stored : Cart := { c with prgRam := Memory.write c.prgRam (a.toNat - 0x6000) v }
          writes { s with cart := some (if c.prgRamWritable then stored else c) }) ∧
        (∀ c, s.cart = some c → 0x8000 ≤ a.toNat → writes { s with cart := some (c.cpuWrite a v) }) ∧
        ((0x4018 ≤ a.toNat ∧ a.toNat ≤ 0x5FFF) ∨ (s.cart = none ∧ 0x6000 ≤ a.toNat) → busWrite a v s = s.latch v)) ∧
      ∀ (a b : Word) (v : Byte) (s : State), a.toNat ≤ 0x1FFF → b.toNat ≤ 0x1FFF →
        let t := busWrite a v s
        (busRead b t).1 = (if a.toNat % 0x800 = b.toNat % 0x800 then v else (busRead b s).1) ∧
        (∀ sp i, ¬(sp = .ram ∧ i = a.toNat % 0x800) → t.peek sp i = s.peek sp i) ∧
        t.bus = { s.bus with ram := t.bus.ram, openBus := v } ∧
        t.cpu = s.cpu ∧ t.ppu = s.ppu ∧ t.apu = s.apu ∧ t.cart = s.cart ∧ t.params = s.params

/-- O40. R449. Reads are counted from 0. -/
def Obligations.ControllersShiftOutTheirLatch : Prop :=
  (∀ (s : State) (v w : Byte) (n : Nat), v.getLsbD 0 = true → w.getLsbD 0 = false →
        let u := busWrite 0x4016 w (busWrite 0x4016 v s)
        (busRead 0x4016 (afterReads 0x4016 n u)).1.getLsbD 0 = (if n < 8 then s.bus.ctl0.latch.getLsbD n else true) ∧
          (busRead 0x4017 (afterReads 0x4017 n u)).1.getLsbD 0 = (if n < 8 then s.bus.ctl1.latch.getLsbD n else true)) ∧
      ∀ (s : State) (n : Nat), s.bus.ctlStrobe = false →
        (s.bus.ctl0.shift = 0 → (busRead 0x4016 (afterReads 0x4016 n s)).1.getLsbD 0 = decide (8 ≤ n)) ∧
        (s.bus.ctl1.shift = 0 → (busRead 0x4017 (afterReads 0x4017 n s)).1.getLsbD 0 = decide (8 ≤ n))

/-- O41. R451, R452, R455, for pages of work RAM, PRG-RAM and PRG-ROM. -/
def Obligations.OamDmaCopiesAPage : Prop :=
  ∀ (v : Byte) (s : State) (page : Byte → Byte), (∀ i, s.storage (mkWord v i) = some (page i)) →
      let t := busWrite 0x4014 v s
      (∀ i : Byte, t.peek .oam (s.ppu.oamAddr + i).toNat = page i) ∧ t.ppu.oamAddr = s.ppu.oamAddr ∧
        t.apu.stallPending =
          s.apu.stallPending + (if s.cpu.cycleCount.getLsbD 0 then 514 else 513) ∧
        t.cpu = s.cpu ∧ (∀ sp i, sp ≠ .oam → t.peek sp i = s.peek sp i) ∧ t.bus.openBus = page 255

/-- O42. R486, R487, R488, R515. -/
def Obligations.PrgRamKeepsWhatIsWritten : Prop :=
  ∀ (a : Word) (v : Byte) (s : State) (c : Cart), s.cart = some c →
      (0x6000 ≤ a.toNat → a.toNat ≤ 0x7FFF → c.prgRamWritable = true →
        (busRead a (busWrite a v s)).1 = v ∧
          ∀ b, b ≠ a → 0x6000 ≤ b.toNat → b.toNat ≤ 0x7FFF → (busRead b (busWrite a v s)).1 = (busRead b s).1) ∧
      (0x6000 ≤ a.toNat → a.toNat ≤ 0x7FFF → c.prgRamWritable = false → sameMemory s (busWrite a v s)) ∧
      (0x6000 ≤ a.toNat → a.toNat ≤ 0x7FFF → c.prgRamReadable = false → (busRead a s).1 = 0) ∧
      (∀ i, (busWrite a v s).peek .prgRom i = s.peek .prgRom i) ∧
      (c.chrIsRam = false → ∀ i, (busWrite a v s).peek .chr i = s.peek .chr i) ∧
      (∀ r, c.mapper = .mmc3 r →
        c.prgRamReadable = r.prgRamEnable ∧ c.prgRamWritable = (r.prgRamEnable && !r.prgRamWriteProtect)) ∧
      ((∀ r, c.mapper ≠ .mmc3 r) → c.prgRamReadable = true ∧ c.prgRamWritable = true)

/-- O43. The modulo of R483 (all bank indices are taken modulo the bank count) with the formulas of R490 to R513;
the identifier byte of R483 with the header field of R481. -/
def Obligations.MapperOffsetsStayInside : Prop :=
  ∀ (c : Cart), c.ok = true →
      (∀ a : Word, 0x8000 ≤ a.toNat → c.prgRomOffset a.toNat < c.prgBanks * 16384) ∧
      (∀ a, a < 0x2000 → c.chrOffset a < c.chrSize) ∧
      c.mapperId.toNat ≤ 4 ∧ c.resetHook.mapperId = c.mapperId ∧
      (∀ a v, (c.cpuWrite a v).mapperId = c.mapperId) ∧
      (∀ a v d, cartPpuWrite (some c) a v = some d → d.mapperId = c.mapperId) ∧
      ∀ image prgRam chrRam d, createCart image prgRam chrRam = .ok d →
        d.mapperId = (image.getD 7 0 &&& 0xF0) ||| (image.getD 6 0 >>> 4)

/-- O44. R497, with the mirroring codes of R496 and FourScreen kept (R61). -/
def Obligations.Mmc1LoadsAfterFiveWrites : Prop :=
  ∀ (c : Cart) (r : Mmc1) (a : Word) (v : Byte), c.mapper = .mmc1 r → 0x8000 ≤ a.toNat →
      let load : BitVec 5 := (r.shift >>> 1) ||| (if v.getLsbD 0 then 0x10 else 0)
      let d := c.cpuWrite a v
      (v.getLsbD 7 = true → d = { c with mapper := .mmc1 { r with shift := 0x10, control := r.control ||| 0x0C } }) ∧
      (v.getLsbD 7 = false → r.shift.getLsbD 0 = false → d = { c with mapper := .mmc1 { r with shift := load } }) ∧
      (v.getLsbD 7 = false → r.shift.getLsbD 0 = true →
        (a.toNat / 0x2000 % 4 = 0 →
          d.mapper = .mmc1 { r with shift := 0x10, control := load } ∧
          d.mirroring = (if c.headerMirroring = .fourScreen then c.mirroring
            else [Mirroring.oneScreenLower, .oneScreenUpper, .vertical, .horizontal].getD (load.toNat % 4) .horizontal)) ∧
        (a.toNat / 0x2000 % 4 = 1 → d = { c with mapper := .mmc1 { r with shift := 0x10, chrBank0 := load } }) ∧
        (a.toNat / 0x2000 % 4 = 2 → d = { c with mapper := .mmc1 { r with shift := 0x10, chrBank1 := load } }) ∧
        (a.toNat / 0x2000 % 4 = 3 → d = { c with mapper := .mmc1 { r with shift := 0x10, prgBank := load } })) ∧
      ∀ (b0 b1 b2 b3 b4 : Byte) (a1 a2 a3 a4 : Word),
        (∀ b ∈ [b0, b1, b2, b3, b4], b.getLsbD 7 = false) → (∀ x ∈ [a1, a2, a3, a4], 0x8000 ≤ x.toNat) →
        r.shift = 0x10 → 0xE000 ≤ a4.toNat →
        ∃ value : BitVec 5, (∀ k, k < 5 → value.getLsbD k = ([b0, b1, b2, b3, b4].getD k 0).getLsbD 0) ∧
          ((((((c.cpuWrite a b0).cpuWrite a1 b1).cpuWrite a2 b2).cpuWrite a3 b3).cpuWrite a4 b4)) =
            { c with mapper := .mmc1 { r with shift := 0x10, prgBank := value } }

/-- O45. R490, R492, R494, R498, R499, R510, R511, R512, R513. Mapper 1's writes are in `Mmc1LoadsAfterFiveWrites`. -/
def Obligations.BankWindowsOfMappers : Prop :=
  ∀ (c : Cart) (a : Word) (v : Byte), 0x8000 ≤ a.toNat →
      let fixed := (a.toNat - 0x8000) % (c.prgBanks * 16384)
      let show16 := fun (bank : Nat) => c.prgRomOffset a.toNat = (bank % c.prgBanks) * 16384 + a.toNat % 0x4000
      (c.mapper = .nrom → c.prgRomOffset a.toNat = fixed ∧ c.cpuWrite a v = c ∧ (∀ p, c.chrOffset p = p % c.chrSize) ∧
        c.resetHook.mapper = .nrom) ∧
      (∀ bank, c.mapper = .uxrom bank →
        c.cpuWrite a v = { c with mapper := .uxrom (BitVec.ofNat 4 (v.toNat % 16)) } ∧
        (a.toNat < 0xC000 → show16 bank.toNat) ∧
        (0xC000 ≤ a.toNat → 0 < c.prgBanks →
          c.prgRomOffset a.toNat = (c.prgBanks - 1) * 16384 + a.toNat % 0x4000) ∧
        (∀ p, c.chrOffset p = p % c.chrSize) ∧ c.resetHook.mapper = .uxrom 0) ∧
      (∀ bank, c.mapper = .cnrom bank →
        c.cpuWrite a v = { c with mapper := .cnrom v } ∧ c.prgRomOffset a.toNat = fixed ∧
        (∀ p, p < 0x2000 → c.chrOffset p = (bank.toNat % (c.chrSize / 8192)) * 8192 + p) ∧
        c.resetHook.mapper = .cnrom 0) ∧
      (∀ r, c.mapper = .mmc1 r →
        let bank := r.prgBank.toNat % 16
        let mode := r.control.toNat / 4 % 4
        (mode < 2 → show16 (bank / 2 * 2 + (if a.toNat < 0xC000 then 0 else 1))) ∧
        (mode = 2 → show16 (if a.toNat < 0xC000 then 0 else bank)) ∧
        (mode = 3 → show16 (if a.toNat < 0xC000 then bank else c.prgBanks - 1)) ∧
        ∀ p, p < 0x2000 →
          let chrBank := if r.control.toNat < 16 then r.chrBank0.toNat / 2 * 2 + (if p < 0x1000 then 0 else 1)
            else if p < 0x1000 then r.chrBank0.toNat else r.chrBank1.toNat
          c.chrOffset p = (chrBank % (c.chrSize / 4096)) * 4096 + p % 0x1000) ∧
      ∀ r, c.mapper = .mmc3 r →
        let nb8 := 2 * c.prgBanks
        let show8 := fun (bank : Nat) => c.prgRomOffset a.toNat = (bank % nb8) * 8192 + a.toNat % 0x2000
        let mode := r.bankSelect.getLsbD 6
        let odd := decide (a.toNat % 2 = 1)
        (a.toNat < 0xA000 → show8 (if mode then nb8 - 2 else (r.r[6]).toNat)) ∧
        (0xA000 ≤ a.toNat → a.toNat < 0xC000 → show8 (r.r[7]).toNat) ∧
        (0xC000 ≤ a.toNat → a.toNat < 0xE000 → show8 (if mode then (r.r[6]).toNat else nb8 - 2)) ∧
        (0xE000 ≤ a.toNat → show8 (nb8 - 1)) ∧
        (∀ p, p < 0x2000 →
          let s := (p / 0x400 + (if r.bankSelect.getLsbD 7 then 4 else 0)) % 8
          let even := fun (b : Byte) => b.toNat / 2 * 2
          let chrBank := [even r.r[0], even r.r[0] + 1, even r.r[1], even r.r[1] + 1, (r.r[2]).toNat, (r.r[3]).toNat,
            (r.r[4]).toNat, (r.r[5]).toNat].getD s 0
          c.chrOffset p = (chrBank % (c.chrSize / 1024)) * 1024 + p % 0x400) ∧
        (a.toNat < 0xA000 → odd = false → c.cpuWrite a v = { c with mapper := .mmc3 { r with bankSelect := v } }) ∧
        (a.toNat < 0xA000 → odd = true → c.cpuWrite a v =
          { c with mapper := .mmc3 { r with r := r.r.setIfInBounds (r.bankSelect.toNat % 8) v } }) ∧
        (0xA000 ≤ a.toNat → a.toNat < 0xC000 → odd = false → c.cpuWrite a v = { c with
          mirroring := if c.headerMirroring = .fourScreen then c.mirroring else if v.getLsbD 0 then .horizontal else .vertical }) ∧
        (0xA000 ≤ a.toNat → a.toNat < 0xC000 → odd = true → c.cpuWrite a v =
          { c with mapper := .mmc3 { r with prgRamEnable := v.getLsbD 7, prgRamWriteProtect := v.getLsbD 6 } }) ∧
        (0xC000 ≤ a.toNat → c.cpuWrite a v = c)

/-- O46. R563, through the bus. -/
def Obligations.PpuStatusRead : Prop :=
  ∀ (a : Word) (s : State), 0x2000 ≤ a.toNat → a.toNat ≤ 0x3FFF → a.toNat % 8 = 2 →
      let p := s.ppu
      let r := busRead a s
      r.1.getLsbD 7 = p.vblank ∧ r.1.getLsbD 6 = p.sprite0Hit ∧ r.1.getLsbD 5 = p.spriteOverflow ∧
        (∀ k, k < 5 → r.1.getLsbD k = p.openBus.getLsbD k) ∧
        r.2 = ({ s with ppu := { p with vblank := false, w := false, openBus := r.1, openBusAge := 0 } } : State).latch r.1

/-- O47. R569 and R572, with `v & 0x3FFF` as the address. -/
def Obligations.PpuDataPort : Prop :=
  ∀ (c : Option Cart) (p : Ppu) (val : Byte),
      let a : BitVec 14 := BitVec.ofNat 14 (p.v.toNat % 0x4000)
      let v' : BitVec 15 := BitVec.ofNat 15 (p.v.toNat + (if p.ctrl.getLsbD 2 then 32 else 1))
      (a.toNat < 0x3F00 → p.regRead c 7 =
        (p.readBuffer, { p with readBuffer := p.read c a, v := v', openBus := p.readBuffer, openBusAge := 0 })) ∧
      (0x3F00 ≤ a.toNat →
        let got := (p.read c a &&& 0x3F) ||| (p.openBus &&& 0xC0)
        p.regRead c 7 =
          (got, { p with readBuffer := p.read c (BitVec.ofNat 14 (a.toNat - 0x1000)), v := v', openBus := got, openBusAge := 0 })) ∧
      (p.regWrite c 7 val).1 = (p.write c a val).1 ∧
      (p.regWrite c 7 val).2 = { (p.write c a val).2 with v := v', openBus := val, openBusAge := 0 }

/-- O48. R551, R553, R556, R557. CHR is the cartridge's (R488). -/
def Obligations.PaletteAliasesAndSixBits : Prop :=
  ∀ (c : Option Cart) (p : Ppu) (a b : BitVec 14) (val : Byte),
      let w := p.write c a val
      (∀ n, palIndex n = if n % 32 ∈ [0x10, 0x14, 0x18, 0x1C] then n % 32 - 0x10 else n % 32) ∧
      (0x3F00 ≤ a.toNat → 0x3F00 ≤ b.toNat →
        w.1 = c ∧ w.2.read c b = (if palIndex a.toNat = palIndex b.toNat then val &&& 0x3F else p.read c b)) ∧
      (0x3F00 ≤ a.toNat → b.toNat < 0x3F00 → w.2.read c b = p.read c b) ∧
      (0x2000 ≤ a.toNat → a.toNat < 0x3F00 → 0x2000 ≤ b.toNat → b.toNat < 0x3F00 →
        w.1 = c ∧ w.2.read c b =
          (if ntIndex (cartMirroring c) a.toNat = ntIndex (cartMirroring c) b.toNat then val else p.read c b)) ∧
      (0x2000 ≤ a.toNat → a.toNat < 0x3F00 → 0x3F00 ≤ b.toNat → w.2.read c b = p.read c b) ∧
      (a.toNat < 0x2000 → w = (cartPpuWrite c a.toNat val, p)) ∧
      (a.toNat < 0x2000 → p.read c a = cartPpuRead c a.toNat) ∧
      (0x3F00 ≤ a.toNat → (p.read c a).toNat < 64) ∧
      (∀ n, ntIndex .horizontal n = n / 0x400 % 4 / 2 * 0x400 + n % 0x400 ∧
        ntIndex .vertical n = n / 0x400 % 2 * 0x400 + n % 0x400 ∧ ntIndex .oneScreenLower n = n % 0x400 ∧
        ntIndex .oneScreenUpper n = 0x400 + n % 0x400 ∧ ntIndex .fourScreen n = n % 0x1000) ∧
      cartMirroring none = .horizontal ∧ ∀ k : Cart, cartMirroring (some k) = k.mirroring

/-- O49. R570 and R571, outside the reset-protection window. -/
def Obligations.ScrollAndAddressWrites : Prop :=
  ∀ (c : Option Cart) (p : Ppu) (val : Byte), p.resetProtect = false →
      let q5 := (p.regWrite c 5 val).2
      let q6 := (p.regWrite c 6 val).2
      (p.regWrite c 5 val).1 = c ∧ (p.regWrite c 6 val).1 = c ∧
      (∀ k, k < 15 → q5.t.getLsbD k =
        if p.w then (if 5 ≤ k ∧
          k < 10 then val.getLsbD (k - 2) else if 12 ≤ k then val.getLsbD (k - 12) else p.t.getLsbD k)
        else (if k < 5 then val.getLsbD (k + 3) else p.t.getLsbD k)) ∧
      q5 = { p with t := q5.t, fineX := (if p.w then p.fineX else BitVec.ofNat 3 (val.toNat % 8)), w := !p.w,
                    openBus := val, openBusAge := 0 } ∧
      (∀ k, k < 15 → q6.t.getLsbD k =
        if p.w then (if k < 8 then val.getLsbD k else p.t.getLsbD k)
        else (if k < 8 then p.t.getLsbD k else if k < 14 then val.getLsbD (k - 8) else false)) ∧
      q6 = { p with t := q6.t, v := (if p.w then q6.t else p.v), w := !p.w, openBus := val, openBusAge := 0 }

/-- O50. R562, R564 to R568; the tick's clause is R549's and the reads of the write-only registers are R561's,
which are not cited since they say more. The writes of registers 5, 6 and 7 are in `ScrollAndAddressWrites` and
`PpuDataPort`. -/
def Obligations.PpuRegisterWritesAndResetProtection : Prop :=
  ∀ (c : Option Cart) (p : Ppu) (val : Byte) (r : BitVec 3),
      let q0 := (p.regWrite c 0 val).2
      let q4 := (p.regWrite c 4 val).2
      let oamByte := Memory.read p.oam p.oamAddr.toNat
      (p.resetProtect = true →
        ((r = 0 ∨ r = 1 ∨ r = 5 ∨ r = 6) → p.regWrite c r val = (c, { p with openBus := val, openBusAge := 0 })) ∧
        (¬(r = 0 ∨ r = 1 ∨ r = 5 ∨ r = 6) →
          p.regWrite c r val =
            ((({ p with resetProtect := false } : Ppu).regWrite c r val).1,
              { (({ p with resetProtect := false } : Ppu).regWrite c r val).2 with resetProtect := true }))) ∧
      (p.resetProtect = false →
        (p.regWrite c 0 val).1 = c ∧ q0 = { p with ctrl := val, t := q0.t, openBus := val, openBusAge := 0 } ∧
        (∀ k, k < 15 → q0.t.getLsbD k = if 10 ≤ k ∧ k < 12 then val.getLsbD (k - 10) else p.t.getLsbD k) ∧
        p.regWrite c 1 val = (c, { p with mask := val, openBus := val, openBusAge := 0 })) ∧
      p.regWrite c 2 val = (c, { p with openBus := val, openBusAge := 0 }) ∧
      p.regWrite c 3 val = (c, { p with oamAddr := val, openBus := val, openBusAge := 0 }) ∧
      (p.regWrite c 4 val).1 = c ∧
      q4 = { p with oam := q4.oam, oamAddr := BitVec.ofNat 8 (p.oamAddr.toNat + 1), openBus := val, openBusAge := 0 } ∧
      (∀ i, Memory.read q4.oam i = if i = p.oamAddr.toNat then val else Memory.read p.oam i) ∧
      p.regRead c 4 = (oamByte, { p with openBus := oamByte, openBusAge := 0 }) ∧
      (r ≠ 2 → r ≠ 4 → r ≠ 7 → p.regRead c r = (p.openBus, p)) ∧
      (p.regWrite c r val).2.resetProtect = p.resetProtect ∧ (p.regRead c r).2.resetProtect = p.resetProtect ∧
      (p.tick c).resetProtect = (p.resetProtect && !(p.scanline == 261 && p.dot == 1))

/-- O51. R547, R548, R549. -/
def Obligations.VblankAndNmiAtTheirDot : Prop :=
  ∀ (c : Option Cart) (p : Ppu),
      (p.scanline = 241 → p.dot = 1 →
        (p.tick c).vblank = true ∧ (p.tick c).nmiLatched = (p.nmiLatched || p.ctrl.getLsbD 7)) ∧
      (p.scanline = 261 → p.dot = 1 →
        (p.tick c).vblank = false ∧ (p.tick c).sprite0Hit = false ∧ (p.tick c).spriteOverflow = false ∧
          (p.tick c).resetProtect = false ∧ (p.tick c).nmiLatched = p.nmiLatched) ∧
      (¬(p.scanline = 241 ∧ p.dot = 1) → ¬(p.scanline = 261 ∧ p.dot = 1) →
        (p.tick c).vblank = p.vblank ∧ (p.tick c).nmiLatched = p.nmiLatched ∧
          (p.tick c).resetProtect = p.resetProtect) ∧
      ∀ r v, (p.regWrite c r v).2.nmiLatched = p.nmiLatched ∧ (p.regRead c r).2.nmiLatched = p.nmiLatched

/-- O52. R540, R541, R545, R573, R579, R747: OAM written after dot 1 is seen by the next scanline's evaluation
(R832). -/
def Obligations.PpuTicksCountFramesAndLatchScanlines : Prop :=
  (∀ (c : Option Cart) (k : Nat) (p : Ppu), p.scanline < 262 → p.dot < 341 →
        let q := ppuTicks c k p
        q.place = (p.place + k) % 89342 ∧ q.scanline < 262 ∧ q.dot < 341 ∧
          q.frameCount = p.frameCount + (p.place + k) / 89342 ∧ q.ppuCycles = p.ppuCycles + k) ∧
      ∀ (c : Option Cart) (p : Ppu) (v t : BitVec 15) (x : BitVec 3),
        let q := p.tick c
        let latches := p.scanline ≤ 239 ∧ p.dot = 1
        q.v = p.v ∧ q.t = p.t ∧ q.fineX = p.fineX ∧ q.oam = p.oam ∧ q.ntRam = p.ntRam ∧
        ({ p with v := v } : Ppu).tick c = { q with v := v } ∧
        (latches → q.latchedT = p.t ∧ q.latchedFineX = p.fineX ∧
          q.activeSprites = ((List.finRange 64).filter fun n =>
            let b := (Memory.read p.oam (4 * n.val)).toNat
            decide (b + 1 ≤ p.scanline ∧ p.scanline < b + 1 + (if p.ctrl.getLsbD 5 then 16 else 8))).take 8) ∧
        (¬latches → q.latchedT = p.latchedT ∧ q.latchedFineX = p.latchedFineX ∧ q.activeSprites = p.activeSprites ∧
          ({ p with t := t, fineX := x } : Ppu).tick c = { q with t := t, fineX := x })

/-- O53. R633 to R642, R646, R648, through the bus. That a disabled channel still restarts its sequencer and
envelope and sets its reload flag (0x4003, 0x4007, 0x400B, 0x400F) is the model's choice (log entry 24).
LENGTH_TABLE is any instance's (`params`, log entry 1). -/
def Obligations.ApuStatusAndChannelWrites : Prop :=
  ∀ (s : State) (v : Byte),
      let u := s.apu
      let r := busRead 0x4015 s
      let writes := fun (a : Word) (w : Apu) => busWrite a v s = ({ s with apu := w } : State).latch v
      let length := s.params.lengthTable.toList.getD (v.toNat / 8) 0
      let control := fun (p : Pulse) =>
        ({ p with duty := BitVec.ofNat 2 (v.toNat / 64), halt := v.getLsbD 5, constVol := v.getLsbD 4,
                  volPeriod := BitVec.ofNat 4 (v.toNat % 16) } : Pulse)
      let sweep := fun (p : Pulse) =>
        ({ p with sweep := { enabled := v.getLsbD 7, period := BitVec.ofNat 3 (v.toNat / 16 % 8), negate := v.getLsbD 3,
                             shift := BitVec.ofNat 3 (v.toNat % 8), divider := p.sweep.divider, reload := true } } : Pulse)
      let low := fun (t : BitVec 11) => BitVec.ofNat 11 (t.toNat / 256 * 256 + v.toNat)
      let high := fun (t : BitVec 11) => BitVec.ofNat 11 (v.toNat % 8 * 256 + t.toNat % 256)
      let timerLow := fun (p : Pulse) => ({ p with timerReload := low p.timerReload } : Pulse)
      let timerHigh := fun (p : Pulse) =>
        ({ p with timerReload := high p.timerReload, length := (if p.enabled then length else p.length), seqStep := 0,
                  envelope := { p.envelope with start := true } } : Pulse)
      let gate := fun (k : Nat) (l : Byte) => if v.getLsbD k then l else 0
      (r.1.getLsbD 0 = decide (0 < u.pulse1.length.toNat) ∧ r.1.getLsbD 1 = decide (0 < u.pulse2.length.toNat) ∧
        r.1.getLsbD 2 = decide (0 < u.triangle.length.toNat) ∧ r.1.getLsbD 3 = decide (0 < u.noise.length.toNat) ∧
        r.1.getLsbD 4 = decide (0 < u.dmc.bytesRemaining.toNat) ∧ r.1.getLsbD 5 = s.bus.openBus.getLsbD 5 ∧
        r.1.getLsbD 6 = u.frameIrq ∧ r.1.getLsbD 7 = u.dmc.irq ∧
        r.2 = ({ s with apu := { u with frameIrq := false } } : State).latch r.1) ∧
      writes 0x4000 { u with pulse1 := control u.pulse1 } ∧ writes 0x4004 { u with pulse2 := control u.pulse2 } ∧
      writes 0x4001 { u with pulse1 := sweep u.pulse1 } ∧ writes 0x4005 { u with pulse2 := sweep u.pulse2 } ∧
      writes 0x4002 { u with pulse1 := timerLow u.pulse1 } ∧ writes 0x4006 { u with pulse2 := timerLow u.pulse2 } ∧
      writes 0x4003 { u with pulse1 := timerHigh u.pulse1 } ∧ writes 0x4007 { u with pulse2 := timerHigh u.pulse2 } ∧
      writes 0x4008 { u with triangle := { u.triangle with
        control := v.getLsbD 7, linearReloadValue := BitVec.ofNat 7 (v.toNat % 128) } } ∧
      writes 0x400A { u with triangle := { u.triangle with timerReload := low u.triangle.timerReload } } ∧
      writes 0x400B { u with triangle := { u.triangle with
        timerReload := high u.triangle.timerReload, length := (if u.triangle.enabled then length else u.triangle.length),
        linearReloadFlag := true } } ∧
      writes 0x400C { u with noise := { u.noise with
        halt := v.getLsbD 5, constVol := v.getLsbD 4, volPeriod := BitVec.ofNat 4 (v.toNat % 16) } } ∧
      writes 0x400E { u with noise := { u.noise with
        mode := v.getLsbD 7, periodIndex := BitVec.ofNat 4 (v.toNat % 16) } } ∧
      writes 0x400F { u with noise := { u.noise with
        length := (if u.noise.enabled then length else u.noise.length),
        envelope := { u.noise.envelope with start := true } } } ∧
      writes 0x4009 u ∧ writes 0x400D u ∧
      writes 0x4015 { u with
        pulse1 := { u.pulse1 with enabled := v.getLsbD 0, length := gate 0 u.pulse1.length }
        pulse2 := { u.pulse2 with enabled := v.getLsbD 1, length := gate 1 u.pulse2.length }
        triangle := { u.triangle with enabled := v.getLsbD 2, length := gate 2 u.triangle.length }
        noise := { u.noise with enabled := v.getLsbD 3, length := gate 3 u.noise.length }
        dmc := { u.dmc with
          irq := false
          bytesRemaining := if v.getLsbD 4 = false then 0
            else if u.dmc.bytesRemaining = 0 then u.dmc.sampleLength else u.dmc.bytesRemaining
          curAddr := if v.getLsbD 4 = true ∧ u.dmc.bytesRemaining = 0 then u.dmc.sampleStart else u.dmc.curAddr } }

/-- O54. R631, R740, R647, R650 (the default lists; log entry 1), R651, R654, R655. That of several rows with one
count the first is performed is the model's choice (log entry 25). Quarter and half frames are `quarterFrame` and
`halfFrame` (R652, R653). -/
def Obligations.ApuClockAndFrameCounter : Prop :=
  (∀ s t : State, step s = .next t → ∃ u, cpuPhase (ppuPhase s) = .next u ∧
        let w := u.apu.clock u.params u.cart u.bus.ram
        t = { u with apu := w, cpu := { u.cpu with irqLine := w.frameIrq || w.dmc.irq } }) ∧
      (∀ (k : Params) (c : Option Cart) (ram : Memory) (u : Apu),
        let f := u.frameCounterStep k
        let timed : Apu := { f with
          triangle := f.triangle.timerTick
          pulse1 := if u.parity then f.pulse1.timerTick else f.pulse1
          pulse2 := if u.parity then f.pulse2.timerTick else f.pulse2
          noise := if u.parity then f.noise.timerTick k else f.noise
          dmc := f.dmc.clock k c ram }
        let sampled := timed.sampleStep k
        let clears := u.parity && u.irqClearScheduled
        let w := u.clock k c ram
        w = { sampled with
          parity := !u.parity, frameIrq := sampled.frameIrq && !clears
          irqClearScheduled := u.irqClearScheduled && !clears
          stallPending := sampled.stallPending + sampled.dmc.stallRequested
          dmc := { sampled.dmc with stallRequested := 0 } } ∧
        w.fcCount = f.fcCount ∧ w.fcFiveStep = u.fcFiveStep ∧ w.fcInhibit = u.fcInhibit ∧
          w.frameIrq = (f.frameIrq && !clears)) ∧
      ∀ (k : Params) (u : Apu) (v : Byte),
      let n := u.fcCount + 1
      let counted : Apu := { u with fcCount := n }
      let list := fun (k : Params) => if u.fcFiveStep then k.fcSteps5 else k.fcSteps4
      ((∀ x ∈ list k, x.count ≠ n) → u.frameCounterStep k = counted) ∧
      (∀ before x after, list k = before ++ x :: after → x.count = n → (∀ y ∈ before, y.count ≠ n) →
        let w := if x.quarter then counted.quarterFrame else counted
        let w := if x.half then w.halfFrame else w
        u.frameCounterStep k = { w with
          frameIrq := u.frameIrq || (x.irq && !u.fcFiveStep && !u.fcInhibit)
          fcCount := if x.reset then 0 else n }) ∧
      (u.frameCounterStep .default).frameIrq =
        (u.frameIrq || (!u.fcFiveStep && u.fcCount + 1 == 14915 && !u.fcInhibit)) ∧
      (u.frameCounterStep .default).fcCount =
        (if u.fcCount + 1 = (if u.fcFiveStep then 18641 else 14915) then 0 else u.fcCount + 1) ∧
      ((u.frameCounterStep k).frameIrq = true → u.frameIrq = true ∨ (u.fcFiveStep = false ∧ u.fcInhibit = false)) ∧
      let set : Apu := { u with
        fcFiveStep := v.getLsbD 7, fcInhibit := v.getLsbD 6, fcCount := 0
        irqClearScheduled := u.irqClearScheduled || v.getLsbD 6 }
      u.write k 0x4017 v = if v.getLsbD 7 then set.quarterFrame.halfFrame else set

/-- O55. R453, R643, R644, R645, R707 and R709. `d.fetch b` is the fetch with `b` the byte `DmcRead` gave;
`outputTick` is the rest of R701's clock. -/
def Obligations.DmcRegistersAndFetch : Prop :=
  (∀ (k : Params) (u : Apu) (v : Byte),
        u.write k 0x4010 v = { u with dmc := { u.dmc with
          irqEnable := v.getLsbD 7, loop := v.getLsbD 6, rateIndex := BitVec.ofNat 4 (v.toNat % 16)
          irq := u.dmc.irq && v.getLsbD 7 } } ∧
        u.write k 0x4011 v = { u with dmc := { u.dmc with level := BitVec.ofNat 7 (v.toNat % 128) } } ∧
        u.write k 0x4012 v = { u with dmc := { u.dmc with sampleStart := BitVec.ofNat 16 (0xC000 + v.toNat * 64) } } ∧
        u.write k 0x4013 v = { u with dmc := { u.dmc with sampleLength := BitVec.ofNat 12 (v.toNat * 16 + 1) } }) ∧
      (∀ (d : Dmc) (b : Byte),
        let e := d.fetch b
        let left := d.bytesRemaining - 1
        let next : Word := if d.curAddr = 0xFFFF then 0x8000 else d.curAddr + 1
        e.buffer = b ∧ e.bufferEmpty = false ∧ e.stallRequested = d.stallRequested + 4 ∧
          (left ≠ 0 → e.bytesRemaining = left ∧ e.curAddr = next ∧ e.irq = d.irq) ∧
          (left = 0 → d.loop = true → e.bytesRemaining = d.sampleLength ∧ e.curAddr = d.sampleStart ∧ e.irq = d.irq) ∧
          (left = 0 → d.loop = false → e.bytesRemaining = 0 ∧ e.curAddr = next ∧ e.irq = (d.irq || d.irqEnable))) ∧
      (∀ (k : Params) (c : Option Cart) (ram : Memory) (d : Dmc),
        (d.bufferEmpty = true → d.bytesRemaining ≠ 0 →
          d.clock k c ram = (d.fetch (dmcRead c ram d.curAddr)).outputTick k) ∧
        (¬(d.bufferEmpty = true ∧ d.bytesRemaining ≠ 0) → d.clock k c ram = d.outputTick k)) ∧
      (∀ (c : Cart) (ram : Memory) (a : Word),
        (0x8000 ≤ a.toNat → dmcRead (some c) ram a = Memory.read c.prgRom (c.prgRomOffset a.toNat)) ∧
        (0x6000 ≤ a.toNat → a.toNat ≤ 0x7FFF →
          dmcRead (some c) ram a = if c.prgRamReadable then Memory.read c.prgRam (a.toNat - 0x6000) else 0) ∧
        (a.toNat ≤ 0x5FFF → dmcRead (some c) ram a = dmcRead none ram a) ∧
        dmcRead none ram a = if a.toNat ≤ 0x1FFF then Memory.read ram (a.toNat % 0x800) else 0) ∧
      ∀ (k : Params) (c : Option Cart) (ram : Memory) (u : Apu),
        (u.clock k c ram).dmc.stallRequested = 0 ∧
          (u.clock k c ram).stallPending = u.stallPending + u.dmc.stallRequested +
            (if u.dmc.bufferEmpty = true ∧ u.dmc.bytesRemaining ≠ 0 then 4 else 0)

/-- O56. R802 to R806, R62 to R64. Two values are the model's choice and no rule's: no poll point is left
(`pollAt`, log entry 15), and no drawn frame is kept for the host (`drawnFrame`, log entry 13). `none` in the
framebuffer is a cleared pixel (log entry 4). The vector reads set the CPU-side latch last (R802). -/
def Obligations.ResetLeavesTheStatedState : Prop :=
  ∀ s : State,
      let t := consoleReset s
      t.cpu.a = 0 ∧ t.cpu.x = 0 ∧ t.cpu.y = 0 ∧ t.cpu.sp = 0xFD ∧ t.cpu.p = 0x24 ∧ t.cpu.cyclesRemaining = 8 ∧
        t.cpu.cycleCount = 0 ∧ t.cpu.nmiPending = false ∧ t.cpu.irqLine = false ∧ t.cpu.latchedIrq = false ∧
        t.cpu.sh.active = false ∧ t.cpu.pollAt = [] ∧
        (s.cart = none → t.cpu.pc = 0) ∧
        (∀ c, s.cart = some c → t.cpu.pc = mkWord (Memory.read c.prgRom (c.resetHook.prgRomOffset 0xFFFD))
          (Memory.read c.prgRom (c.resetHook.prgRomOffset 0xFFFC))) ∧
        t.ppu = {
          ntRam := [], palRam := s.ppu.palRam, oam := s.ppu.oam
          framebuffer := Vector.replicate 240 (Vector.replicate 256 none)
          bgOpaque := Vector.replicate 240 (Vector.replicate 256 false)
          activeSprites := [], ctrl := 0, mask := 0, vblank := false, sprite0Hit := false, spriteOverflow := false
          oamAddr := 0, fineX := 0, w := false, readBuffer := 0, openBus := 0, openBusAge := 0, v := 0, t := 0
          latchedT := 0, latchedFineX := 0, scanline := 0, dot := 0, frameCount := 0, ppuCycles := 0
          nmiLatched := false, resetProtect := true, drawnFrame := none } ∧
        t.apu = {
          fcCount := 0, fcFiveStep := false, fcInhibit := false, frameIrq := false, parity := false
          irqClearScheduled := false, stallPending := 0, sampleAcc := 0, hpPrevIn := 0, hpPrevOut := 0, lpPrevOut := 0
          pcmQueue := []
          pulse1 := {
            duty := 0, timerReload := 0, timer := 0, seqStep := 0, length := 0, enabled := false, halt := false,
            constVol := false, volPeriod := 0, envelope := { start := false, divider := 0, decay := 0 },
            sweep := { enabled := false, negate := false, shift := 0, period := 0, divider := 0, reload := false },
            onesComplement := true }
          pulse2 := {
            duty := 0, timerReload := 0, timer := 0, seqStep := 0, length := 0, enabled := false, halt := false,
            constVol := false, volPeriod := 0, envelope := { start := false, divider := 0, decay := 0 },
            sweep := { enabled := false, negate := false, shift := 0, period := 0, divider := 0, reload := false },
            onesComplement := false }
          triangle := {
            timerReload := 0, timer := 0, seqStep := 0, linear := 0, linearReloadValue := 0,
            linearReloadFlag := false, control := false, length := 0, enabled := false }
          noise := {
            lfsr := 1, mode := false, periodIndex := 0, timer := 0, length := 0, enabled := false, halt := false,
            constVol := false, volPeriod := 0, envelope := { start := false, divider := 0, decay := 0 } }
          dmc := {
            level := 0, rateIndex := 0, timer := 0, sampleStart := 0xC000, sampleLength := 1, curAddr := 0,
            bytesRemaining := 0, shift := 0, bitsRemaining := 8, buffer := 0, bufferEmpty := true, silence := true,
            irqEnable := false, loop := false, irq := false, stallRequested := 0 } } ∧
        t.bus = { s.bus with
          ctl0 := { s.bus.ctl0 with shift := 0 }, ctl1 := { s.bus.ctl1 with shift := 0 }, ctlStrobe := false,
          openBus := hiByte t.cpu.pc } ∧
        t.cart = s.cart.map (fun c => { c with
          mirroring := c.headerMirroring
          mapper := match c.mapper with
            | .nrom => .nrom
            | .mmc1 _ => .mmc1 { shift := 0x10, control := 0x0C, chrBank0 := 0, chrBank1 := 0, prgBank := 0 }
            | .uxrom _ => .uxrom 0
            | .cnrom _ => .cnrom 0
            | .mmc3 _ => .mmc3 {
                bankSelect := 0, r := #v[0, 0, 0, 0, 0, 0, 0, 0], prgRamEnable := true,
                prgRamWriteProtect := false } }) ∧
        t.params = s.params ∧
        (∀ sp i, sp ≠ .nametable → t.peek sp i = s.peek sp i) ∧ ∀ i, t.peek .nametable i = 0

/-- O57. R24, R25, R27, R35, R40, R43, R51, R52, R54, R55, R60, R61, R400, R401. Every step answers a next state
(`StepAlwaysAnswers`), so this is about every step. -/
def Obligations.StepKeepsTheInvariant : Prop :=
  ∀ s t : State, s.ok = true → step s = .next t → t.ok = true ∧ t.params = s.params

/-- O58. Log entry 16 (DEDUCED), from R785 (no instruction can stop the CPU) and R111 (no access fails); no rule
says it in these words. -/
def Obligations.StepAlwaysAnswers : Prop :=
  ∀ s : State, ∃ t, step s = .next t

/-- O59. The launch contents of the memories and the absence of a cartridge are the model's choice (log entries 5
and 7), not the spec's. -/
def Obligations.ResetMeetsTheInvariant : Prop :=
  State.reset.ok = true

/-- O60. R6, R480 to R482, R721, R745, R800. A created cartridge is one `Cart.ok` describes. -/
def Obligations.HostOperationsKeepTheInvariant : Prop :=
  ∀ (s : State), s.ok = true →
      let kept := fun (t : State) => t.ok = true ∧ t.params = s.params
      kept (consoleReset s) ∧ kept (removeCartridge s) ∧ (∀ n m, kept (setController n m s)) ∧
      (∀ n, kept (drainAudio n s).2) ∧ kept (takeFrame s).2 ∧
      ∀ image prgRam chrRam t, Memory.ok 8192 prgRam = true → Memory.ok 8192 chrRam = true →
        insertCartridge image prgRam chrRam s = .ok t → kept t

end Statements
end

