-- ==== Sys2Proof/Laws/Apu.lean ====
section
/-! SUPPORT. What each access and each clock of the APU keeps of the invariant `Apu.ok`. -/

namespace Sys2Proof.Machine

theorem Envelope.tick_decay {e : Envelope} (h : e.decay.toNat ≤ 15) (p : BitVec 4) (halt : Bool) :
    (e.tick p halt).decay.toNat ≤ 15 := by
  have h15 : (15 : BitVec 5).toNat ≤ 15 := by decide
  unfold Envelope.tick
  split
  · exact h15
  split
  · dsimp only
    split
    · next hn =>
      have : e.decay ≠ 0 := by simpa using hn
      have : e.decay.toNat ≠ 0 := fun h => this (BitVec.eq_of_toNat_eq h)
      rw [BitVec.toNat_sub_of_le (by rw [BitVec.le_def]; show 1 ≤ _; omega)]
      omega
    split
    · exact h15
    · exact h
  · exact h

/-- What `Apu.ok` looks at under the parameters `k`, kept from `u` to `v` if it held. -/
structure ApuKeeps (k : Params) (u v : Apu) : Prop where
  tag1 : v.pulse1.onesComplement = u.pulse1.onesComplement
  tag2 : v.pulse2.onesComplement = u.pulse2.onesComplement
  queue : u.pcmQueue.length ≤ max 1 k.pcmCapacity → v.pcmQueue.length ≤ max 1 k.pcmCapacity
  decay1 : u.pulse1.envelope.decay.toNat ≤ 15 → v.pulse1.envelope.decay.toNat ≤ 15
  decay2 : u.pulse2.envelope.decay.toNat ≤ 15 → v.pulse2.envelope.decay.toNat ≤ 15
  decayN : u.noise.envelope.decay.toNat ≤ 15 → v.noise.envelope.decay.toNat ≤ 15
  bits : 1 ≤ u.dmc.bitsRemaining.toNat ∧ u.dmc.bitsRemaining.toNat ≤ 8 →
    1 ≤ v.dmc.bitsRemaining.toNat ∧ v.dmc.bitsRemaining.toNat ≤ 8
  lfsr : u.noise.lfsr ≠ 0 → v.noise.lfsr ≠ 0

theorem ApuKeeps.refl (k : Params) (u : Apu) : ApuKeeps k u u := ⟨rfl, rfl, id, id, id, id, id, id⟩

theorem ApuKeeps.trans {p : Params} {u v w : Apu} (h : ApuKeeps p u v) (k : ApuKeeps p v w) : ApuKeeps p u w :=
  ⟨k.tag1.trans h.tag1, k.tag2.trans h.tag2, k.queue ∘ h.queue, k.decay1 ∘ h.decay1, k.decay2 ∘ h.decay2,
    k.decayN ∘ h.decayN, k.bits ∘ h.bits, k.lfsr ∘ h.lfsr⟩

theorem ApuKeeps.ok {p : Params} {u v : Apu} (k : ApuKeeps p u v) (h : u.ok p = true) : v.ok p = true := by
  simp only [Apu.ok, Bool.and_eq_true, decide_eq_true_eq, Bool.not_eq_true', bne_iff_ne] at h ⊢
  obtain ⟨⟨⟨⟨⟨⟨⟨⟨h1, h2⟩, h3⟩, h4⟩, h5⟩, h6⟩, h7⟩, h8⟩, h9⟩ := h
  have hb := k.bits ⟨h7, h8⟩
  exact ⟨⟨⟨⟨⟨⟨⟨⟨k.tag1.trans h1, k.tag2.trans h2⟩, k.queue h3⟩, k.decay1 h4⟩, k.decay2 h5⟩, k.decayN h6⟩, hb.1⟩, hb.2⟩,
    k.lfsr h9⟩

theorem Apu.quarterFrame_keeps (k : Params) (u : Apu) : ApuKeeps k u u.quarterFrame :=
  ⟨rfl, rfl, id, fun h => Envelope.tick_decay h _ _, fun h => Envelope.tick_decay h _ _, fun h => Envelope.tick_decay h _ _,
    id, id⟩

theorem Pulse.half_tag (p : Pulse) : p.half.onesComplement = p.onesComplement ∧ p.half.envelope = p.envelope := by
  unfold Pulse.half Pulse.sweepTick
  dsimp only
  split <;> exact ⟨rfl, rfl⟩

theorem Apu.halfFrame_keeps (k : Params) (u : Apu) : ApuKeeps k u u.halfFrame :=
  ⟨(Pulse.half_tag _).1, (Pulse.half_tag _).1, id,
    fun h => by show (u.pulse1.half.envelope).decay.toNat ≤ 15; rw [(Pulse.half_tag _).2]; exact h,
    fun h => by show (u.pulse2.half.envelope).decay.toNat ≤ 15; rw [(Pulse.half_tag _).2]; exact h, id, id, id⟩

theorem Apu.fcActions_keeps (k : Params) (u : Apu) (s : FcStep) : ApuKeeps k u (u.fcActions s) := by
  unfold Apu.fcActions
  have k1 : ApuKeeps k u (if s.quarter then u.quarterFrame else u) := by
    split
    · exact Apu.quarterFrame_keeps k u
    · exact .refl k u
  generalize (if s.quarter then u.quarterFrame else u) = v at k1
  have k2 : ApuKeeps k v (if s.half then v.halfFrame else v) := by
    split
    · exact Apu.halfFrame_keeps k v
    · exact .refl k v
  dsimp only
  generalize (if s.half then v.halfFrame else v) = w at k2
  refine (k1.trans k2).trans ?_
  split <;> split <;> exact ⟨rfl, rfl, id, id, id, id, id, id⟩

theorem Apu.frameCounterStep_keeps (k : Params) (u : Apu) : ApuKeeps k u (u.frameCounterStep k) := by
  unfold Apu.frameCounterStep
  dsimp only
  split
  · exact ApuKeeps.trans (v := { u with fcCount := u.fcCount + 1 }) ⟨rfl, rfl, id, id, id, id, id, id⟩
      (Apu.fcActions_keeps _ _ _)
  · exact ⟨rfl, rfl, id, id, id, id, id, id⟩

/-- A shift with the feedback of bit 0 and another bit leaves 0 only from 0. -/
theorem lfsr_step_ne_zero {x : BitVec 15} (hx : x ≠ 0) (j : Nat) :
    (x >>> 1) ||| (if x.getLsbD 0 ^^ x.getLsbD (j + 1) then 0x4000 else 0) ≠ 0 := by
  intro hz
  apply hx
  have h00 : ∀ k, (0 : BitVec 15).getLsbD k = false := fun _ => BitVec.getLsbD_zero
  have hbit : ∀ k, (x >>> 1).getLsbD k = false ∧
      (if x.getLsbD 0 ^^ x.getLsbD (j + 1) then (0x4000 : BitVec 15) else 0).getLsbD k = false := by
    intro k
    have := congrArg (fun y => y.getLsbD k) hz
    simpa only [BitVec.getLsbD_or, h00, Bool.or_eq_false_iff] using this
  have hs : ∀ k, x.getLsbD (k + 1) = false := by
    intro k
    have := (hbit k).1
    rwa [BitVec.getLsbD_ushiftRight, Nat.add_comm] at this
  have h0 : x.getLsbD 0 = false := by
    have := (hbit 14).2
    rw [hs j, Bool.xor_false] at this
    cases h : x.getLsbD 0
    · rfl
    · rw [h] at this
      exact absurd this (by decide)
  apply BitVec.eq_of_getLsbD_eq
  intro i _
  cases i with
  | zero => rw [h0, h00]
  | succ k => rw [hs k, h00]

theorem Noise.timerTick_lfsr (k : Params) {n : Noise} (h : n.lfsr ≠ 0) : (n.timerTick k).lfsr ≠ 0 := by
  unfold Noise.timerTick
  split
  · dsimp only
    split
    · exact lfsr_step_ne_zero h 5
    · exact lfsr_step_ne_zero h 0
  · exact h

theorem Dmc.outputTick_bits (k : Params) {d : Dmc} (h : 1 ≤ d.bitsRemaining.toNat ∧ d.bitsRemaining.toNat ≤ 8) :
    1 ≤ (d.outputTick k).bitsRemaining.toNat ∧ (d.outputTick k).bitsRemaining.toNat ≤ 8 := by
  unfold Dmc.outputTick
  split
  · dsimp only
    split
    · have h8 : 1 ≤ (8 : BitVec 4).toNat ∧ (8 : BitVec 4).toNat ≤ 8 := by decide
      split <;> exact h8
    · next hn =>
      have hne : (d.bitsRemaining - 1).toNat ≠ 0 := fun h => hn (BitVec.eq_of_toNat_eq h)
      have hs : (d.bitsRemaining - 1).toNat = d.bitsRemaining.toNat - 1 :=
        BitVec.toNat_sub_of_le (by rw [BitVec.le_def]; exact h.1)
      dsimp only
      omega
  · exact h

theorem Dmc.fetch_bits (d : Dmc) (b : Byte) : (d.fetch b).bitsRemaining = d.bitsRemaining := by
  unfold Dmc.fetch Dmc.restart
  dsimp only
  split
  · split <;> rfl
  · rfl

theorem Dmc.clock_bits (k : Params) {d : Dmc} (c : Option Cart) (ram : Memory)
    (h : 1 ≤ d.bitsRemaining.toNat ∧ d.bitsRemaining.toNat ≤ 8) :
    1 ≤ (d.clock k c ram).bitsRemaining.toNat ∧ (d.clock k c ram).bitsRemaining.toNat ≤ 8 := by
  unfold Dmc.clock
  apply Dmc.outputTick_bits
  split
  · rw [Dmc.fetch_bits]; exact h
  · exact h

theorem Pulse.timerTick_keeps (p : Pulse) :
    p.timerTick.onesComplement = p.onesComplement ∧ p.timerTick.envelope = p.envelope := by
  unfold Pulse.timerTick
  split <;> exact ⟨rfl, rfl⟩

theorem Apu.slowTimers_keeps (k : Params) (u : Apu) : ApuKeeps k u (u.slowTimers k) := by
  unfold Apu.slowTimers
  split
  · refine ⟨(Pulse.timerTick_keeps _).1, (Pulse.timerTick_keeps _).1, id, fun h => ?_, fun h => ?_, fun h => ?_, id,
      Noise.timerTick_lfsr k⟩
    · show (u.pulse1.timerTick.envelope).decay.toNat ≤ 15; rw [(Pulse.timerTick_keeps _).2]; exact h
    · show (u.pulse2.timerTick.envelope).decay.toNat ≤ 15; rw [(Pulse.timerTick_keeps _).2]; exact h
    · show ((u.noise.timerTick k).envelope).decay.toNat ≤ 15
      unfold Noise.timerTick
      split <;> exact h
  · exact .refl k u

theorem Apu.emit_queue (k : Params) {u : Apu} (h : u.pcmQueue.length ≤ max 1 k.pcmCapacity) (x : Rat) :
    (u.emit k x).pcmQueue.length ≤ max 1 k.pcmCapacity := by
  unfold Apu.emit
  dsimp only
  rw [List.length_append, List.length_singleton]
  split
  · rw [List.length_drop]; omega
  · omega

theorem Apu.sampleStep_keeps (k : Params) (u : Apu) : ApuKeeps k u (u.sampleStep k) := by
  unfold Apu.sampleStep
  dsimp only
  split
  · refine ApuKeeps.trans (v := ({ u with sampleAcc := u.sampleAcc + k.sampleRate - k.cpuFreq } : Apu).filter _)
      ⟨rfl, rfl, id, id, id, id, id, id⟩ ⟨rfl, rfl, fun h => Apu.emit_queue k h _, id, id, id, id, id⟩
  · exact ⟨rfl, rfl, id, id, id, id, id, id⟩

theorem Apu.toggleParity_keeps (k : Params) (u : Apu) : ApuKeeps k u u.toggleParity := by
  unfold Apu.toggleParity
  dsimp only
  split <;> exact ⟨rfl, rfl, id, id, id, id, id, id⟩

theorem Apu.clock_keeps (k : Params) (u : Apu) (c : Option Cart) (ram : Memory) : ApuKeeps k u (u.clock k c ram) := by
  unfold Apu.clock
  refine (u.frameCounterStep_keeps k).trans ?_
  generalize u.frameCounterStep k = u1
  dsimp only
  refine ApuKeeps.trans (v := { u1 with triangle := u1.triangle.timerTick }) ⟨rfl, rfl, id, id, id, id, id, id⟩ ?_
  generalize { u1 with triangle := u1.triangle.timerTick } = u2
  refine (u2.slowTimers_keeps k).trans ?_
  generalize u2.slowTimers k = u3
  refine ApuKeeps.trans (v := { u3 with dmc := u3.dmc.clock k c ram }) ⟨rfl, rfl, id, id, id, id, Dmc.clock_bits k c ram, id⟩ ?_
  generalize { u3 with dmc := u3.dmc.clock k c ram } = u4
  refine (u4.sampleStep_keeps k).trans ?_
  refine (Apu.toggleParity_keeps _ _).trans ?_
  generalize (u4.sampleStep k).toggleParity = u5
  exact ⟨rfl, rfl, id, id, id, id, id, id⟩

theorem Apu.write_keeps (k : Params) (u : Apu) (a : Word) (v : Byte) : ApuKeeps k u (u.write k a v) := by
  unfold Apu.write
  split
  all_goals first
    | exact ⟨rfl, rfl, id, id, id, id, id, id⟩
    | skip
  · refine ⟨rfl, rfl, id, id, id, id, fun h => ?_, id⟩
    show 1 ≤ (u.dmc.writeEnable _).bitsRemaining.toNat ∧ (u.dmc.writeEnable _).bitsRemaining.toNat ≤ 8
    unfold Dmc.writeEnable Dmc.restart
    dsimp only
    split
    · split <;> exact h
    · exact h
  · unfold Apu.writeFrameCounter
    dsimp only
    split
    · refine ApuKeeps.trans (v := { u with fcFiveStep := bit v 7, fcInhibit := bit v 6, fcCount := 0 })
        ⟨rfl, rfl, id, id, id, id, id, id⟩ ?_
      refine (Apu.quarterFrame_keeps _ _).trans ((Apu.halfFrame_keeps _ _).trans ?_)
      exact ⟨rfl, rfl, id, id, id, id, id, id⟩
    · exact ⟨rfl, rfl, id, id, id, id, id, id⟩
end Sys2Proof.Machine
end

