-- ==== Sys2Proof/Laws/Memory.lean ====
section
/-! SUPPORT. The laws of the byte arrays: a read after a write, and the canonical form kept. -/

namespace Sys2Proof.Machine

@[simp] theorem Memory.read_nil (a : Nat) : Memory.read [] a = Memory.unlisted := rfl

theorem Memory.read_erase (m : Memory) (a b : Nat) :
    Memory.read (Memory.erase m a) b = if a = b then Memory.unlisted else Memory.read m b := by
  induction m with
  | nil => simp [Memory.erase, Memory.read]
  | cons c m ih =>
    obtain ⟨k, v⟩ := c
    unfold Memory.erase
    by_cases hk : k = a
    · subst hk
      rw [if_pos rfl, ih]
      by_cases hb : k = b <;> simp [Memory.read, hb]
    · rw [if_neg hk]
      by_cases hb : k = b
      · subst hb
        simp [Memory.read, Ne.symm hk]
      · simp [Memory.read, hb, ih]

theorem Memory.read_insert (m : Memory) (a b : Nat) (v : Byte) (h : Memory.read m a = Memory.unlisted)
    (hm : ∀ c ∈ m, c.1 ≠ a) :
    Memory.read (Memory.insert m a v) b = if a = b then v else Memory.read m b := by
  induction m with
  | nil => simp [Memory.insert, Memory.read]
  | cons c m ih =>
    obtain ⟨k, w⟩ := c
    have hk : k ≠ a := hm (k, w) (by simp)
    unfold Memory.insert
    split
    · simp [Memory.read]
    · have ih' := ih (by simpa [Memory.read, hk] using h) (fun c hc => hm c (by simp [hc]))
      by_cases hb : k = b
      · subst hb
        simp [Memory.read, Ne.symm hk]
      · simp [Memory.read, hb, ih']

theorem Memory.not_mem_erase (m : Memory) (a : Nat) : ∀ c ∈ Memory.erase m a, c.1 ≠ a := by
  induction m with
  | nil => simp [Memory.erase]
  | cons c m ih =>
    obtain ⟨k, v⟩ := c
    unfold Memory.erase
    split
    · exact ih
    · intro c hc
      rcases List.mem_cons.1 hc with rfl | hc
      · assumption
      · exact ih c hc

/-- The one law of arrays: a write is seen at its own index and nowhere else. -/
theorem Memory.read_write (m : Memory) (a b : Nat) (v : Byte) :
    Memory.read (Memory.write m a v) b = if a = b then v else Memory.read m b := by
  unfold Memory.write
  split
  · next h => subst h; exact Memory.read_erase m a b
  · rw [Memory.read_insert _ _ _ _ (by simp [Memory.read_erase]) (Memory.not_mem_erase m a), Memory.read_erase]
    split <;> rfl

@[simp] theorem Memory.read_write_self (m : Memory) (a : Nat) (v : Byte) : Memory.read (Memory.write m a v) a = v := by
  simp [Memory.read_write]

theorem Memory.read_write_ne (m : Memory) {a b : Nat} (v : Byte) (h : a ≠ b) :
    Memory.read (Memory.write m a v) b = Memory.read m b := by
  simp [Memory.read_write, h]

/-! ## The canonical form -/

theorem Memory.above_trans {lo : Option Nat} {k a : Nat} (h : Memory.above lo k = true) (hk : k < a) :
    Memory.above lo a = true := by
  cases lo with
  | none => rfl
  | some lo => simp only [Memory.above, decide_eq_true_eq] at *; omega

theorem Memory.wfFrom_weaken {lo : Option Nat} {k : Nat} {m : Memory} (h : Memory.wfFrom (some k) m = true)
    (hk : Memory.above lo k = true) : Memory.wfFrom lo m = true := by
  cases m with
  | nil => simp [Memory.wfFrom]
  | cons c m =>
    obtain ⟨j, v⟩ := c
    simp only [Memory.wfFrom, Bool.and_eq_true] at h ⊢
    refine ⟨⟨?_, h.1.2⟩, h.2⟩
    have := h.1.1
    exact Memory.above_trans hk (by simpa [Memory.above] using this)

theorem Memory.wfFrom_erase {m : Memory} (a : Nat) : ∀ {lo : Option Nat}, Memory.wfFrom lo m = true →
    Memory.wfFrom lo (Memory.erase m a) = true := by
  induction m with
  | nil => intro lo _; simp [Memory.erase, Memory.wfFrom]
  | cons c m ih =>
    obtain ⟨k, v⟩ := c
    intro lo h
    simp only [Memory.wfFrom, Bool.and_eq_true] at h
    unfold Memory.erase
    split
    · exact ih (Memory.wfFrom_weaken h.2 h.1.1)
    · simp only [Memory.wfFrom, Bool.and_eq_true]
      exact ⟨h.1, ih h.2⟩

theorem Memory.wfFrom_insert {m : Memory} (a : Nat) (v : Byte) (hv : v ≠ Memory.unlisted) :
    ∀ {lo : Option Nat}, Memory.wfFrom lo m = true → Memory.above lo a = true → (∀ c ∈ m, c.1 ≠ a) →
    Memory.wfFrom lo (Memory.insert m a v) = true := by
  induction m with
  | nil =>
    intro lo _ ha _
    simp [Memory.insert, Memory.wfFrom, ha, hv]
  | cons c m ih =>
    obtain ⟨k, w⟩ := c
    intro lo h ha hm
    have hk : k ≠ a := hm (k, w) (by simp)
    simp only [Memory.wfFrom, Bool.and_eq_true] at h
    unfold Memory.insert
    split
    · next hlt =>
      simp only [Memory.wfFrom, Bool.and_eq_true]
      refine ⟨⟨ha, by simpa using hv⟩, ⟨?_, h.1.2⟩, h.2⟩
      simp [Memory.above, hlt]
    · next hlt =>
      simp only [Memory.wfFrom, Bool.and_eq_true]
      refine ⟨h.1, ih h.2 ?_ (fun c hc => hm c (by simp [hc]))⟩
      simp only [Memory.above, decide_eq_true_eq]
      omega

/-- A write keeps the canonical form. -/
theorem Memory.wf_write {m : Memory} (h : Memory.wf m = true) (a : Nat) (v : Byte) :
    Memory.wf (Memory.write m a v) = true := by
  unfold Memory.wf Memory.write at *
  split
  · exact Memory.wfFrom_erase a h
  · next hv => exact Memory.wfFrom_insert a v hv (Memory.wfFrom_erase a h) rfl (Memory.not_mem_erase m a)

theorem Memory.within_erase {n : Nat} {m : Memory} (h : Memory.within n m = true) (a : Nat) :
    Memory.within n (Memory.erase m a) = true := by
  induction m with
  | nil => simp [Memory.erase, Memory.within]
  | cons c m ih =>
    obtain ⟨k, v⟩ := c
    simp only [Memory.within, List.all_cons, Bool.and_eq_true] at h ih
    unfold Memory.erase
    split
    · simpa [Memory.within] using ih h.2
    · simp only [Memory.within, List.all_cons, Bool.and_eq_true]
      exact ⟨h.1, ih h.2⟩

theorem Memory.within_insert {n : Nat} {m : Memory} (h : Memory.within n m = true) {a : Nat} (ha : a < n) (v : Byte) :
    Memory.within n (Memory.insert m a v) = true := by
  induction m with
  | nil => simp [Memory.insert, Memory.within, ha]
  | cons c m ih =>
    obtain ⟨k, w⟩ := c
    simp only [Memory.within, List.all_cons, Bool.and_eq_true] at h ih
    unfold Memory.insert
    split
    · simp only [Memory.within, List.all_cons, Bool.and_eq_true]
      exact ⟨by simpa using ha, h⟩
    · simp only [Memory.within, List.all_cons, Bool.and_eq_true]
      exact ⟨h.1, ih h.2⟩

/-- A write inside an array stays inside it. -/
theorem Memory.within_write {n : Nat} {m : Memory} (h : Memory.within n m = true) {a : Nat} (ha : a < n) (v : Byte) :
    Memory.within n (Memory.write m a v) = true := by
  unfold Memory.write
  split
  · exact Memory.within_erase h a
  · exact Memory.within_insert (Memory.within_erase h a) ha v

/-- A write inside a well-formed array of `n` bytes leaves a well-formed array of `n` bytes. -/
theorem Memory.ok_write {n : Nat} {m : Memory} (h : Memory.ok n m = true) {a : Nat} (ha : a < n) (v : Byte) :
    Memory.ok n (Memory.write m a v) = true := by
  simp only [Memory.ok, Bool.and_eq_true] at *
  exact ⟨Memory.wf_write h.1 a v, Memory.within_write h.2 ha v⟩

/-- The empty array is well formed at every size. -/
@[simp] theorem Memory.ok_nil (n : Nat) : Memory.ok n [] = true := rfl

theorem Memory.above_of_lt {i k : Nat} (h : i < k) : Memory.above (some i) k = true := by
  simp [Memory.above, h]

theorem Memory.wfFrom_ofBytesFrom (bs : List Byte) : ∀ (i : Nat) (lo : Option Nat), Memory.above lo i = true →
    Memory.wfFrom lo (Memory.ofBytesFrom i bs) = true := by
  induction bs with
  | nil => intro i lo _; simp [Memory.ofBytesFrom, Memory.wfFrom]
  | cons b bs ih =>
    intro i lo h
    unfold Memory.ofBytesFrom
    split
    · exact ih (i + 1) lo (Memory.above_trans h (by omega))
    · next hb =>
      simp only [Memory.wfFrom, Bool.and_eq_true]
      exact ⟨⟨h, by simpa using hb⟩, ih (i + 1) (some i) (Memory.above_of_lt (by omega))⟩

/-- An array made from bytes is in canonical form. -/
theorem Memory.wf_ofBytes (bs : List Byte) : Memory.wf (Memory.ofBytes bs) = true :=
  Memory.wfFrom_ofBytesFrom bs 0 none rfl

theorem Memory.within_ofBytesFrom (bs : List Byte) : ∀ i n, i + bs.length ≤ n →
    Memory.within n (Memory.ofBytesFrom i bs) = true := by
  induction bs with
  | nil => intro i n _; simp [Memory.ofBytesFrom, Memory.within]
  | cons b bs ih =>
    intro i n h
    simp only [List.length_cons] at h
    unfold Memory.ofBytesFrom
    split
    · exact ih (i + 1) n (by omega)
    · simp only [Memory.within, List.all_cons, Bool.and_eq_true, decide_eq_true_eq]
      exact ⟨by omega, by simpa [Memory.within] using ih (i + 1) n (by omega)⟩

/-- An array made from bytes lists nothing past them. -/
theorem Memory.within_ofBytes (bs : List Byte) : Memory.within bs.length (Memory.ofBytes bs) = true :=
  Memory.within_ofBytesFrom bs 0 bs.length (by omega)

end Sys2Proof.Machine
end

