-- ==== Sys2Proof/Laws/State.lean ====
section
/-! SUPPORT. What each update of a state leaves alone, one lemma a field, so that no proof unfolds a record update. -/

namespace Sys2Proof.Machine

/-! ## `mapCpu` -/

@[simp] theorem State.mapCpu_cpu (s : State) (f : Cpu → Cpu) : (s.mapCpu f).cpu = f s.cpu := rfl
@[simp] theorem State.mapCpu_bus (s : State) (f : Cpu → Cpu) : (s.mapCpu f).bus = s.bus := rfl
@[simp] theorem State.mapCpu_ppu (s : State) (f : Cpu → Cpu) : (s.mapCpu f).ppu = s.ppu := rfl
@[simp] theorem State.mapCpu_apu (s : State) (f : Cpu → Cpu) : (s.mapCpu f).apu = s.apu := rfl
@[simp] theorem State.mapCpu_cart (s : State) (f : Cpu → Cpu) : (s.mapCpu f).cart = s.cart := rfl
@[simp] theorem State.mapCpu_params (s : State) (f : Cpu → Cpu) : (s.mapCpu f).params = s.params := rfl
@[simp] theorem State.mapCpu_mapCpu (s : State) (f g : Cpu → Cpu) :
    (s.mapCpu f).mapCpu g = s.mapCpu fun c => g (f c) := rfl
@[simp] theorem State.mapCpu_id (s : State) : s.mapCpu id = s := rfl

/-! ## `latch` -/

@[simp] theorem State.latch_cpu (s : State) (v : Byte) : (s.latch v).cpu = s.cpu := rfl
@[simp] theorem State.latch_ppu (s : State) (v : Byte) : (s.latch v).ppu = s.ppu := rfl
@[simp] theorem State.latch_apu (s : State) (v : Byte) : (s.latch v).apu = s.apu := rfl
@[simp] theorem State.latch_cart (s : State) (v : Byte) : (s.latch v).cart = s.cart := rfl
@[simp] theorem State.latch_params (s : State) (v : Byte) : (s.latch v).params = s.params := rfl
@[simp] theorem State.latch_ram (s : State) (v : Byte) : (s.latch v).bus.ram = s.bus.ram := rfl
@[simp] theorem State.latch_openBus (s : State) (v : Byte) : (s.latch v).bus.openBus = v := rfl

/-! ## The CPU's timing fields -/

@[simp] theorem Cpu.setTiming_reg (c : Cpu) (n : Nat) (l : List Nat) (r : Reg) : (c.setTiming n l).reg r = c.reg r := by
  cases r <;> rfl
@[simp] theorem Cpu.setTiming_a (c : Cpu) (n : Nat) (l : List Nat) : (c.setTiming n l).a = c.a := rfl
@[simp] theorem Cpu.setTiming_x (c : Cpu) (n : Nat) (l : List Nat) : (c.setTiming n l).x = c.x := rfl
@[simp] theorem Cpu.setTiming_y (c : Cpu) (n : Nat) (l : List Nat) : (c.setTiming n l).y = c.y := rfl
@[simp] theorem Cpu.setTiming_sp (c : Cpu) (n : Nat) (l : List Nat) : (c.setTiming n l).sp = c.sp := rfl
@[simp] theorem Cpu.setTiming_p (c : Cpu) (n : Nat) (l : List Nat) : (c.setTiming n l).p = c.p := rfl
@[simp] theorem Cpu.setTiming_pc (c : Cpu) (n : Nat) (l : List Nat) : (c.setTiming n l).pc = c.pc := rfl
@[simp] theorem Cpu.setTiming_cyclesRemaining (c : Cpu) (n : Nat) (l : List Nat) :
    (c.setTiming n l).cyclesRemaining = n := rfl
@[simp] theorem Cpu.setTiming_totalCycles (c : Cpu) (n : Nat) (l : List Nat) : (c.setTiming n l).totalCycles = n := rfl
@[simp] theorem Cpu.setTiming_pollAt (c : Cpu) (n : Nat) (l : List Nat) : (c.setTiming n l).pollAt = l := rfl
@[simp] theorem Cpu.setTiming_cycleCount (c : Cpu) (n : Nat) (l : List Nat) :
    (c.setTiming n l).cycleCount = c.cycleCount := rfl
@[simp] theorem Cpu.setTiming_nmiPending (c : Cpu) (n : Nat) (l : List Nat) :
    (c.setTiming n l).nmiPending = c.nmiPending := rfl
@[simp] theorem Cpu.setTiming_irqLine (c : Cpu) (n : Nat) (l : List Nat) : (c.setTiming n l).irqLine = c.irqLine := rfl
@[simp] theorem Cpu.setTiming_latchedIrq (c : Cpu) (n : Nat) (l : List Nat) :
    (c.setTiming n l).latchedIrq = c.latchedIrq := rfl
@[simp] theorem Cpu.setTiming_sh (c : Cpu) (n : Nat) (l : List Nat) : (c.setTiming n l).sh = c.sh := rfl

theorem Cpu.setGeneral_eq (n : Nat) (c : Cpu) : c.setGeneral n = c.setTiming n (generalPoll n) := rfl

@[simp] theorem Cpu.poll_a (c : Cpu) : c.poll.a = c.a := rfl
@[simp] theorem Cpu.poll_x (c : Cpu) : c.poll.x = c.x := rfl
@[simp] theorem Cpu.poll_y (c : Cpu) : c.poll.y = c.y := rfl
@[simp] theorem Cpu.poll_sp (c : Cpu) : c.poll.sp = c.sp := rfl
@[simp] theorem Cpu.poll_p (c : Cpu) : c.poll.p = c.p := rfl
@[simp] theorem Cpu.poll_pc (c : Cpu) : c.poll.pc = c.pc := rfl
@[simp] theorem Cpu.poll_sh (c : Cpu) : c.poll.sh = c.sh := rfl
@[simp] theorem Cpu.poll_irqLine (c : Cpu) : c.poll.irqLine = c.irqLine := rfl
@[simp] theorem Cpu.poll_nmiPending (c : Cpu) : c.poll.nmiPending = c.nmiPending := rfl
@[simp] theorem Cpu.poll_cycleCount (c : Cpu) : c.poll.cycleCount = c.cycleCount := rfl
@[simp] theorem Cpu.poll_cyclesRemaining (c : Cpu) : c.poll.cyclesRemaining = c.cyclesRemaining := rfl
@[simp] theorem Cpu.poll_latchedIrq (c : Cpu) :
    c.poll.latchedIrq = (c.latchedIrq || (c.irqLine && !getFlag c.p .i)) := rfl

/-- The poll of the first clock changes only the latched IRQ. -/
theorem Cpu.pollFirst_eq (n : Nat) (c : Cpu) :
    c.pollFirst n =
      { c with latchedIrq := (c.latchedIrq || (decide (n ≤ 2) && c.irqLine && !getFlag c.p .i)) } := by
  unfold Cpu.pollFirst Cpu.poll
  split <;> simp [*]

@[simp] theorem Cpu.pollFirst_a (n : Nat) (c : Cpu) : (c.pollFirst n).a = c.a := by rw [Cpu.pollFirst_eq]
@[simp] theorem Cpu.pollFirst_x (n : Nat) (c : Cpu) : (c.pollFirst n).x = c.x := by rw [Cpu.pollFirst_eq]
@[simp] theorem Cpu.pollFirst_y (n : Nat) (c : Cpu) : (c.pollFirst n).y = c.y := by rw [Cpu.pollFirst_eq]
@[simp] theorem Cpu.pollFirst_sp (n : Nat) (c : Cpu) : (c.pollFirst n).sp = c.sp := by rw [Cpu.pollFirst_eq]
@[simp] theorem Cpu.pollFirst_p (n : Nat) (c : Cpu) : (c.pollFirst n).p = c.p := by rw [Cpu.pollFirst_eq]
@[simp] theorem Cpu.pollFirst_pc (n : Nat) (c : Cpu) : (c.pollFirst n).pc = c.pc := by rw [Cpu.pollFirst_eq]
@[simp] theorem Cpu.pollFirst_sh (n : Nat) (c : Cpu) : (c.pollFirst n).sh = c.sh := by rw [Cpu.pollFirst_eq]
@[simp] theorem Cpu.pollFirst_irqLine (n : Nat) (c : Cpu) : (c.pollFirst n).irqLine = c.irqLine := by
  rw [Cpu.pollFirst_eq]
@[simp] theorem Cpu.pollFirst_nmiPending (n : Nat) (c : Cpu) : (c.pollFirst n).nmiPending = c.nmiPending := by
  rw [Cpu.pollFirst_eq]
@[simp] theorem Cpu.pollFirst_cycleCount (n : Nat) (c : Cpu) : (c.pollFirst n).cycleCount = c.cycleCount := by
  rw [Cpu.pollFirst_eq]
@[simp] theorem Cpu.pollFirst_latchedIrq (n : Nat) (c : Cpu) :
    (c.pollFirst n).latchedIrq = (c.latchedIrq || (decide (n ≤ 2) && c.irqLine && !getFlag c.p .i)) := by
  rw [Cpu.pollFirst_eq]

/-! ## What the body of an instruction leaves alone -/

/-- `g` changes registers and flags only. -/
structure Cpu.Body (g : Cpu → Cpu) : Prop where
  cycleCount : ∀ c, (g c).cycleCount = c.cycleCount
  nmiPending : ∀ c, (g c).nmiPending = c.nmiPending
  irqLine : ∀ c, (g c).irqLine = c.irqLine
  latchedIrq : ∀ c, (g c).latchedIrq = c.latchedIrq
  sh : ∀ c, (g c).sh = c.sh

/-! ## `mapNext` -/

@[simp] theorem mapNext_next (f : State → State) (s : State) : mapNext f (.next s) = .next (f s) := rfl

/-- An answer mapped is a next state exactly if the answer was one. -/
theorem mapNext_eq_next {f : State → State} {r : Answer} {t : State} (h : mapNext f r = .next t) :
    ∃ s, r = .next s ∧ t = f s := by
  cases r with
  | next s => exact ⟨s, rfl, by simpa [mapNext] using h.symm⟩
  | fault e => cases e
  | refused e => simp [mapNext] at h

end Sys2Proof.Machine
end

