-- ==== Sys2Proof/Laws/Bus.lean ====
section
/-! SUPPORT. What a bus read and a bus write can do, said once (50_bus.md). -/

namespace Sys2Proof.Machine

/-! ## Devices -/

/-- What a read of a PPU register leaves alone: its memories, its position, and every register but the ones R109 lists. -/
structure PpuQuiet (p q : Ppu) : Prop where
  ntRam : q.ntRam = p.ntRam
  palRam : q.palRam = p.palRam
  oam : q.oam = p.oam
  framebuffer : q.framebuffer = p.framebuffer
  bgOpaque : q.bgOpaque = p.bgOpaque
  activeSprites : q.activeSprites = p.activeSprites
  ctrl : q.ctrl = p.ctrl
  mask : q.mask = p.mask
  sprite0Hit : q.sprite0Hit = p.sprite0Hit
  spriteOverflow : q.spriteOverflow = p.spriteOverflow
  oamAddr : q.oamAddr = p.oamAddr
  fineX : q.fineX = p.fineX
  t : q.t = p.t
  latchedT : q.latchedT = p.latchedT
  latchedFineX : q.latchedFineX = p.latchedFineX
  scanline : q.scanline = p.scanline
  dot : q.dot = p.dot
  frameCount : q.frameCount = p.frameCount
  ppuCycles : q.ppuCycles = p.ppuCycles
  nmiLatched : q.nmiLatched = p.nmiLatched
  resetProtect : q.resetProtect = p.resetProtect
  drawnFrame : q.drawnFrame = p.drawnFrame

theorem PpuQuiet.refl (p : Ppu) : PpuQuiet p p := by constructor <;> rfl

theorem PpuQuiet.trans {p q r : Ppu} (h : PpuQuiet p q) (k : PpuQuiet q r) : PpuQuiet p r := by
  constructor
  · exact k.ntRam.trans h.ntRam
  · exact k.palRam.trans h.palRam
  · exact k.oam.trans h.oam
  · exact k.framebuffer.trans h.framebuffer
  · exact k.bgOpaque.trans h.bgOpaque
  · exact k.activeSprites.trans h.activeSprites
  · exact k.ctrl.trans h.ctrl
  · exact k.mask.trans h.mask
  · exact k.sprite0Hit.trans h.sprite0Hit
  · exact k.spriteOverflow.trans h.spriteOverflow
  · exact k.oamAddr.trans h.oamAddr
  · exact k.fineX.trans h.fineX
  · exact k.t.trans h.t
  · exact k.latchedT.trans h.latchedT
  · exact k.latchedFineX.trans h.latchedFineX
  · exact k.scanline.trans h.scanline
  · exact k.dot.trans h.dot
  · exact k.frameCount.trans h.frameCount
  · exact k.ppuCycles.trans h.ppuCycles
  · exact k.nmiLatched.trans h.nmiLatched
  · exact k.resetProtect.trans h.resetProtect
  · exact k.drawnFrame.trans h.drawnFrame

/-- A read of a PPU register is quiet (R561, R563, R565, R569). -/
theorem Ppu.regRead_quiet (c : Option Cart) (p : Ppu) (r : BitVec 3) : PpuQuiet p (p.regRead c r).2 := by
  unfold Ppu.regRead
  split
  · constructor <;> rfl
  · constructor <;> rfl
  · unfold Ppu.readData
    dsimp only
    split <;> constructor <;> rfl
  · exact PpuQuiet.refl p

/-- What a read of 0x4015 leaves: only the frame IRQ is cleared (R636). -/
theorem Apu.readStatus_snd (u : Apu) (b : Byte) : (u.readStatus b).2 = { u with frameIrq := false } := rfl

/-- A controller read keeps work RAM (R447). -/
@[simp] theorem Bus.controllerRead_ram (b : Bus) (second : Bool) : (b.controllerRead second).2.ram = b.ram := by
  unfold Bus.controllerRead
  cases second <;> rfl

/-! ## Reads -/

/-- Everything a bus read can do: the CPU, the cartridge and the parameters stay, work RAM stays, the PPU is quiet, the APU loses at most its
frame IRQ (R109). -/
structure ReadOnly (s t : State) : Prop where
  cpu : t.cpu = s.cpu
  cart : t.cart = s.cart
  ram : t.bus.ram = s.bus.ram
  ppu : PpuQuiet s.ppu t.ppu
  apu : t.apu = s.apu ∨ t.apu = { s.apu with frameIrq := false }
  params : t.params = s.params

theorem ReadOnly.refl (s : State) : ReadOnly s s := ⟨rfl, rfl, rfl, PpuQuiet.refl _, .inl rfl, rfl⟩

theorem ReadOnly.trans {s t u : State} (h : ReadOnly s t) (k : ReadOnly t u) : ReadOnly s u := by
  refine ⟨k.cpu.trans h.cpu, k.cart.trans h.cart, k.ram.trans h.ram, h.ppu.trans k.ppu, ?_, k.params.trans h.params⟩
  rcases h.apu with h1 | h1 <;> rcases k.apu with k1 | k1 <;> simp [h1, k1]

theorem ReadOnly.latch (s : State) (v : Byte) : ReadOnly s (s.latch v) :=
  ⟨rfl, rfl, rfl, PpuQuiet.refl _, .inl rfl, rfl⟩

theorem busAnswer_readOnly (a : Word) (s : State) : ReadOnly s (busAnswer a s).2 := by
  unfold busAnswer
  split
  · exact ⟨rfl, rfl, rfl, PpuQuiet.refl _, .inr rfl, rfl⟩
  · split
    · exact ReadOnly.refl s
    · split
      · exact ⟨rfl, rfl, Bus.controllerRead_ram _ _, PpuQuiet.refl _, .inl rfl, rfl⟩
      · split
        · exact ReadOnly.refl s
        · split
          · exact ⟨rfl, rfl, rfl, Ppu.regRead_quiet _ _ _, .inl rfl, rfl⟩
          · split
            · exact ReadOnly.refl s
            · exact ReadOnly.refl s

/-- A bus read does no more than `ReadOnly` says. -/
theorem busRead_readOnly (a : Word) (s : State) : ReadOnly s (busRead a s).2 :=
  (busAnswer_readOnly a s).trans (ReadOnly.latch _ _)

@[simp] theorem busRead_cpu (a : Word) (s : State) : (busRead a s).2.cpu = s.cpu := (busRead_readOnly a s).cpu
@[simp] theorem busRead_cart (a : Word) (s : State) : (busRead a s).2.cart = s.cart := (busRead_readOnly a s).cart
@[simp] theorem busRead_ram (a : Word) (s : State) : (busRead a s).2.bus.ram = s.bus.ram := (busRead_readOnly a s).ram

@[simp] theorem busRead_params (a : Word) (s : State) : (busRead a s).2.params = s.params := (busRead_readOnly a s).params

/-- The latch holds the value a read returned (R438). -/
@[simp] theorem busRead_openBus (a : Word) (s : State) : (busRead a s).2.bus.openBus = (busRead a s).1 := rfl

/-- Nothing a read-only change does shows in an array. -/
theorem ReadOnly.sameMemory {s t : State} (h : ReadOnly s t) : sameMemory s t := by
  intro sp i
  cases sp <;> simp [State.peek, State.peekCart, Ppu.pal, h.ram, h.cart, h.ppu.ntRam, h.ppu.palRam, h.ppu.oam]

/-- Read-only changes do not move storage. -/
theorem ReadOnly.storage {s t : State} (h : ReadOnly s t) (a : Word) : t.storage a = s.storage a := by
  simp [State.storage, h.ram, h.cart]

theorem sameMemory.refl (s : State) : sameMemory s s := fun _ _ => rfl

theorem sameMemory.trans {s t u : State} (h : sameMemory s t) (k : sameMemory t u) : sameMemory s u :=
  fun sp i => (k sp i).trans (h sp i)

/-- A read of work RAM returns its byte and changes the latch alone (R434, R438). -/
theorem busRead_lowRam {a : Word} {s : State} (h : a.toNat ≤ 0x1FFF) :
    busRead a s = (Memory.read s.bus.ram (ramIndex a), s.latch (Memory.read s.bus.ram (ramIndex a))) := by
  have h15 : a ≠ 0x4015 := by rintro rfl; simp at h
  have h16 : ¬(a = 0x4016 ∨ a = 0x4017) := by rintro (rfl | rfl) <;> simp at h
  have hc : s.cartAnswer a = none := by
    unfold State.cartAnswer
    cases s.cart with
    | none => rfl
    | some c =>
      have : a.toNat < 0x6000 := by omega
      simp [Cart.cpuRead, Cart.mapRead, this]
  have : busAnswer a s = (Memory.read s.bus.ram (ramIndex a), s) := by
    unfold busAnswer
    rw [if_neg h15, hc]
    simp only [if_neg h16, if_pos h]
  simp [busRead, this]

/-- The CPU map of an address below 0x6000: not the cartridge's (R485). -/
theorem Cart.cpuRead_low (c : Cart) {a : Word} (h : a.toNat < 0x6000) : c.cpuRead a = none := by
  simp [Cart.cpuRead, Cart.mapRead, h]

/-- A read of plain storage returns its byte and changes the latch alone (R433, R434, R438, R484). -/
theorem busRead_storage {a : Word} {s : State} {v : Byte} (h : s.storage a = some v) : busRead a s = (v, s.latch v) := by
  unfold State.storage at h
  split at h
  · next hlow => simp only [Option.some.injEq] at h; subst h; exact busRead_lowRam hlow
  · next hlow =>
    cases hc : s.cart with
    | none => simp [hc] at h
    | some c =>
      simp only [hc] at h
      have hv : c.cpuRead a = some v := by
        unfold Cart.cpuRead
        cases hm : c.mapRead a <;> simp_all
      have h60 : ¬ a.toNat < 0x6000 := by
        intro hlt
        rw [Cart.cpuRead_low c hlt] at hv
        cases hv
      have h15 : a ≠ 0x4015 := by rintro rfl; simp at h60
      have : busAnswer a s = (v, s) := by
        unfold busAnswer
        rw [if_neg h15]
        simp [State.cartAnswer, hc, hv]
      simp [busRead, this]

/-! ## Writes -/

@[simp] theorem State.offerApu_cpu (s : State) (a : Word) (v : Byte) : (s.offerApu a v).cpu = s.cpu := by
  unfold State.offerApu; split <;> rfl
@[simp] theorem State.offerApu_bus (s : State) (a : Word) (v : Byte) : (s.offerApu a v).bus = s.bus := by
  unfold State.offerApu; split <;> rfl
@[simp] theorem State.offerApu_ppu (s : State) (a : Word) (v : Byte) : (s.offerApu a v).ppu = s.ppu := by
  unfold State.offerApu; split <;> rfl
@[simp] theorem State.offerApu_cart (s : State) (a : Word) (v : Byte) : (s.offerApu a v).cart = s.cart := by
  unfold State.offerApu; split <;> rfl
@[simp] theorem State.offerCart_cpu (s : State) (a : Word) (v : Byte) : (s.offerCart a v).cpu = s.cpu := rfl
@[simp] theorem State.offerCart_bus (s : State) (a : Word) (v : Byte) : (s.offerCart a v).bus = s.bus := rfl
@[simp] theorem State.offerCart_ppu (s : State) (a : Word) (v : Byte) : (s.offerCart a v).ppu = s.ppu := rfl
@[simp] theorem State.offerCart_apu (s : State) (a : Word) (v : Byte) : (s.offerCart a v).apu = s.apu := rfl
@[simp] theorem State.offerCart_cart (s : State) (a : Word) (v : Byte) :
    (s.offerCart a v).cart = s.cart.map fun c => c.cpuWrite a v := rfl

/-! ### OAM DMA -/

/-- What the copy of OAM DMA leaves alone: the CPU, work RAM, the cartridge and the parameters (R451). -/
structure DmaOnly (s t : State) : Prop where
  cpu : t.cpu = s.cpu
  cart : t.cart = s.cart
  ram : t.bus.ram = s.bus.ram
  ntRam : t.ppu.ntRam = s.ppu.ntRam
  palRam : t.ppu.palRam = s.ppu.palRam
  params : t.params = s.params

theorem DmaOnly.trans {s t u : State} (h : DmaOnly s t) (k : DmaOnly t u) : DmaOnly s u :=
  ⟨k.cpu.trans h.cpu, k.cart.trans h.cart, k.ram.trans h.ram, k.ntRam.trans h.ntRam, k.palRam.trans h.palRam,
    k.params.trans h.params⟩

theorem oamDmaStep_only (page : Byte) (i : Nat) (s : State) : DmaOnly s (oamDmaStep page i s) := by
  have h := busRead_readOnly (mkWord page (BitVec.ofNat 8 i)) s
  exact ⟨h.cpu, h.cart, h.ram, h.ppu.ntRam, h.ppu.palRam, h.params⟩

theorem oamDmaCopy_only (page : Byte) : ∀ (n : Nat) (s : State), DmaOnly s (oamDmaCopy page n s)
  | 0, _ => ⟨rfl, rfl, rfl, rfl, rfl, rfl⟩
  | n + 1, s => (oamDmaStep_only page (255 - n) s).trans (oamDmaCopy_only page n _)

theorem oamDma_only (v : Byte) (s : State) : DmaOnly s (oamDma v s) := by
  have h := oamDmaCopy_only v 256 s
  exact ⟨h.cpu, h.cart, h.ram, h.ntRam, h.palRam, h.params⟩

theorem State.localWrite_cpu (s : State) (a : Word) (v : Byte) : (s.localWrite a v).cpu = s.cpu := by
  unfold State.localWrite
  split
  · rfl
  split
  · rfl
  split
  · exact (oamDma_only v s).cpu
  split <;> rfl

/-- A bus write never touches the CPU. -/
@[simp] theorem busWrite_cpu (a : Word) (v : Byte) (s : State) : (busWrite a v s).cpu = s.cpu := by
  simp [busWrite, State.localWrite_cpu]

@[simp] theorem State.offerApu_params (s : State) (a : Word) (v : Byte) : (s.offerApu a v).params = s.params := by
  unfold State.offerApu; split <;> rfl
@[simp] theorem State.offerCart_params (s : State) (a : Word) (v : Byte) : (s.offerCart a v).params = s.params := rfl

theorem State.localWrite_params (s : State) (a : Word) (v : Byte) : (s.localWrite a v).params = s.params := by
  unfold State.localWrite
  split
  · rfl
  split
  · rfl
  split
  · exact (oamDma_only v s).params
  split <;> rfl

/-- A bus write never touches the parameters. -/
@[simp] theorem busWrite_params (a : Word) (v : Byte) (s : State) : (busWrite a v s).params = s.params := by
  simp [busWrite, State.localWrite_params]

/-- A cartridge write below 0x6000 does nothing (R485, R486). -/
theorem Cart.cpuWrite_low (c : Cart) {a : Word} (v : Byte) (h : a.toNat < 0x6000) : c.cpuWrite a v = c := by
  have h8 : ¬ 0x8000 ≤ a.toNat := by omega
  simp [Cart.cpuWrite, Cart.mapWrite, h, h8]

theorem State.offerCart_low (s : State) {a : Word} (v : Byte) (h : a.toNat < 0x6000) : s.offerCart a v = s := by
  unfold State.offerCart
  have : (s.cart.map fun c => c.cpuWrite a v) = s.cart := by
    cases s.cart with
    | none => rfl
    | some c => simp [Cart.cpuWrite_low c v h]
  rw [this]

theorem apuOffered_low {a : Word} (h : a.toNat < 0x4000) : apuOffered a = false := by
  have h1 : a ≠ 0x4015 := by rintro rfl; simp at h
  have h2 : a ≠ 0x4017 := by rintro rfl; simp at h
  have h3 : ¬ 0x4000 ≤ a.toNat := by omega
  simp only [apuOffered, h3, decide_false, Bool.false_and, Bool.false_or, Bool.or_eq_false_iff, beq_eq_false_iff_ne]
  exact ⟨h1, h2⟩

/-- A write of work RAM stores one byte and sets the latch (R35, R440). -/
theorem busWrite_lowRam {a : Word} (v : Byte) (s : State) (h : a.toNat ≤ 0x1FFF) :
    busWrite a v s =
      { s with bus := { s.bus with ram := Memory.write s.bus.ram (ramIndex a) v, openBus := v } } := by
  have hl : (s.latch v).offerApu a v = s.latch v := by
    simp [State.offerApu, apuOffered_low (show a.toNat < 0x4000 by omega)]
  simp only [busWrite, hl, State.offerCart_low _ v (show a.toNat < 0x6000 by omega), State.localWrite, if_pos h]
  rfl

/-! ### The stack page is work RAM -/

theorem stackAddr_toNat (sp : Byte) : (stackAddr sp).toNat = 0x100 + sp.toNat := by
  have h := sp.isLt
  simp only [stackAddr, mkWord, BitVec.toNat_append]
  rw [← Nat.shiftLeft_add_eq_or_of_lt h]
  simp

theorem stackAddr_low (sp : Byte) : (stackAddr sp).toNat ≤ 0x1FFF := by
  have := sp.isLt
  rw [stackAddr_toNat]
  omega

/-- The index of the byte a stack pointer designates (R23). -/
theorem stackCell_eq (sp : Byte) : stackCell sp = 0x100 + sp.toNat := by
  have := sp.isLt
  simp only [stackCell, ramIndex, stackAddr_toNat]
  omega

@[simp] theorem ramIndex_stackAddr (sp : Byte) : ramIndex (stackAddr sp) = stackCell sp := rfl

/-- Different stack pointers designate different bytes. -/
@[simp] theorem stackCell_inj {p q : Byte} : stackCell p = stackCell q ↔ p = q := by
  rw [stackCell_eq, stackCell_eq, ← BitVec.toNat_inj]
  omega

/-- The stack page lies inside work RAM. -/
theorem stackCell_lt (sp : Byte) : stackCell sp < 2048 := by
  have := sp.isLt
  rw [stackCell_eq]
  omega

theorem zext_toNat (z : Byte) : (zext z).toNat = z.toNat := by
  have := z.isLt
  simp only [zext, BitVec.toNat_setWidth]
  omega

theorem zext_low (z : Byte) : (zext z).toNat ≤ 0x1FFF := by
  have := z.isLt
  rw [zext_toNat]
  omega

@[simp] theorem ramIndex_zext (z : Byte) : ramIndex (zext z) = z.toNat := by
  have := z.isLt
  simp only [ramIndex, zext_toNat]
  omega

/-! ### A write stores where `State.stores` says and nowhere else -/

theorem Cart.registerWrite_arrays (c : Cart) (a : Word) (v : Byte) :
    (c.registerWrite a v).prgRam = c.prgRam ∧ (c.registerWrite a v).prgRom = c.prgRom ∧
      (c.registerWrite a v).chr = c.chr := by
  unfold Cart.registerWrite
  split
  · exact ⟨rfl, rfl, rfl⟩
  · unfold Cart.mmc1Write Cart.setMirroring
    dsimp only
    split
    · exact ⟨rfl, rfl, rfl⟩
    split
    · split
      · split <;> exact ⟨rfl, rfl, rfl⟩
      · exact ⟨rfl, rfl, rfl⟩
      · exact ⟨rfl, rfl, rfl⟩
      · exact ⟨rfl, rfl, rfl⟩
    · exact ⟨rfl, rfl, rfl⟩
  · exact ⟨rfl, rfl, rfl⟩
  · exact ⟨rfl, rfl, rfl⟩
  · unfold Cart.mmc3Write Cart.setMirroring
    dsimp only
    split
    · split <;> exact ⟨rfl, rfl, rfl⟩
    split
    · split
      · exact ⟨rfl, rfl, rfl⟩
      · split <;> exact ⟨rfl, rfl, rfl⟩
    · exact ⟨rfl, rfl, rfl⟩

theorem Cart.cpuWrite_rom (c : Cart) (a : Word) (v : Byte) : (c.cpuWrite a v).prgRom = c.prgRom := by
  unfold Cart.cpuWrite
  dsimp only
  split
  · rw [(Cart.registerWrite_arrays _ a v).2.1]; split <;> rfl
  · split <;> rfl

theorem Cart.cpuWrite_chr (c : Cart) (a : Word) (v : Byte) : (c.cpuWrite a v).chr = c.chr := by
  unfold Cart.cpuWrite
  dsimp only
  split
  · rw [(Cart.registerWrite_arrays _ a v).2.2]; split <;> rfl
  · split <;> rfl

/-- PRG-RAM after a CPU write: the byte at the mapper's offset, if the mapper gives one (R486). -/
theorem Cart.cpuWrite_prgRam (c : Cart) (a : Word) (v : Byte) :
    (c.cpuWrite a v).prgRam =
      match c.mapWrite a with
      | .prgRam off => Memory.write c.prgRam off v
      | _ => c.prgRam := by
  unfold Cart.cpuWrite
  dsimp only
  split
  · rw [(Cart.registerWrite_arrays _ a v).1]; cases c.mapWrite a <;> rfl
  · cases c.mapWrite a <;> rfl

/-- A write of a PPU register other than 0x2004 and 0x2007 touches no array (R562). -/
theorem Ppu.regWrite_quiet (c : Option Cart) (p : Ppu) {r : BitVec 3} (v : Byte) (h4 : r.toNat ≠ 4) (h7 : r.toNat ≠ 7) :
    (p.regWrite c r v).1 = c ∧ (p.regWrite c r v).2.ntRam = p.ntRam ∧ (p.regWrite c r v).2.palRam = p.palRam ∧
      (p.regWrite c r v).2.oam = p.oam := by
  unfold Ppu.regWrite
  dsimp only
  split
  · exact ⟨rfl, rfl, rfl, rfl⟩
  split
  · exact ⟨rfl, rfl, rfl, rfl⟩
  · exact ⟨rfl, rfl, rfl, rfl⟩
  · exact ⟨rfl, rfl, rfl, rfl⟩
  · next h => exact absurd h h4
  · unfold Ppu.writeScroll; split <;> exact ⟨rfl, rfl, rfl, rfl⟩
  · unfold Ppu.writeAddr; split <;> exact ⟨rfl, rfl, rfl, rfl⟩
  · next h => exact absurd h h7
  · exact ⟨rfl, rfl, rfl, rfl⟩

/-- A write of 0x2004 (R562, R568). -/
theorem Ppu.regWrite_oam (c : Option Cart) (p : Ppu) (v : Byte) :
    p.regWrite c 4 v = (c, (p.refresh v).oamPut v) := by
  simp [Ppu.regWrite, protectedReg]

/-- A write of 0x2007 (R562, R572). -/
theorem Ppu.regWrite_data (c : Option Cart) (p : Ppu) (v : Byte) :
    p.regWrite c 7 v = (p.refresh v).writeData c v := by
  simp [Ppu.regWrite, protectedReg]

theorem isPpuReg_of {a : Word} (h1 : 0x2000 ≤ a.toNat) (h2 : a.toNat ≤ 0x3FFF) (r : BitVec 3) :
    isPpuReg a r = (ppuReg a == r) := by
  simp [isPpuReg, h1, h2]

theorem mapWrite_low (c : Cart) {a : Word} (h : a.toNat < 0x6000) : c.mapWrite a = .notMine := by
  simp [Cart.mapWrite, h]

theorem State.pal_set (p : Ppu) (i j : Nat) (e : BitVec 6) (h : i % 32 ≠ j % 32) : (p.setPal i e).pal j = p.pal j := by
  simp only [Ppu.setPal, Ppu.pal]
  exact Vector.getElem_set_ne _ _ h

theorem palIndex_lt (a : Nat) : palIndex a < 32 := by
  unfold palIndex
  dsimp only
  split <;> omega

/-- What a PPU memory write stores to, and nothing else (R557). -/
theorem Ppu.write_frame (s : State) (p : Ppu) (v : Byte) (hn : p.ntRam = s.ppu.ntRam) (hp : p.palRam = s.ppu.palRam)
    (ho : p.oam = s.ppu.oam) (hv : p.v = s.ppu.v) {a : Word} (ha : isPpuReg a 7 = true) (sp : Space) (i : Nat)
    (hs : s.stores a sp i = false) (t : State)
    (ht : t.bus.ram = s.bus.ram) (hc : t.cart = (p.write s.cart p.vAddr v).1)
    (htn : t.ppu.ntRam = (p.write s.cart p.vAddr v).2.ntRam) (htp : t.ppu.palRam = (p.write s.cart p.vAddr v).2.palRam)
    (hto : t.ppu.oam = (p.write s.cart p.vAddr v).2.oam) : t.peek sp i = s.peek sp i := by
  have hva : p.vAddr = s.ppu.vAddr := by simp [Ppu.vAddr, hv]
  rw [hva] at hc htn htp hto
  unfold Ppu.write at hc htn htp hto
  by_cases h1 : s.ppu.vAddr.toNat ≤ 0x1FFF
  · simp only [if_pos h1] at hc htn htp hto
    cases sp with
    | ram => simp [State.peek, ht]
    | nametable => simp [State.peek, htn, hn]
    | palette => simp [State.peek, Ppu.pal, htp, hp]
    | oam => simp [State.peek, hto, ho]
    | prgRam =>
      cases hcs : s.cart with
      | none => simp [State.peek, State.peekCart, hc, hcs, cartPpuWrite]
      | some c => simp only [State.peek, State.peekCart, hc, hcs, cartPpuWrite]; split <;> rfl
    | prgRom =>
      cases hcs : s.cart with
      | none => simp [State.peek, State.peekCart, hc, hcs, cartPpuWrite]
      | some c => simp only [State.peek, State.peekCart, hc, hcs, cartPpuWrite]; split <;> rfl
    | chr =>
      cases hcs : s.cart with
      | none => simp [State.peek, State.peekCart, hc, hcs, cartPpuWrite]
      | some c =>
        simp only [State.stores, ha, h1, State.isChrCell, hcs, decide_true, Bool.true_and, Bool.and_eq_false_iff,
          beq_eq_false_iff_ne] at hs
        simp only [State.peek, State.peekCart, hc, hcs, cartPpuWrite]
        split
        · next hr =>
          rcases hs with hs | hs
          · simp [hr] at hs
          · exact Memory.read_write_ne _ _ hs
        · rfl
  · simp only [if_neg h1] at hc htn htp hto
    by_cases h2 : s.ppu.vAddr.toNat ≤ 0x3EFF
    · simp only [if_pos h2] at hc htn htp hto
      cases sp with
      | ram => simp [State.peek, ht]
      | palette => simp [State.peek, Ppu.pal, htp, hp]
      | oam => simp [State.peek, hto, ho]
      | prgRam => simp [State.peek, State.peekCart, hc]
      | prgRom => simp [State.peek, State.peekCart, hc]
      | chr => simp [State.peek, State.peekCart, hc]
      | nametable =>
        have h1' : 0x2000 ≤ s.ppu.vAddr.toNat := by omega
        simp only [State.stores, ha, h1', h2, decide_true, Bool.true_and, beq_eq_false_iff_ne] at hs
        simp only [State.peek, htn, hn]
        exact Memory.read_write_ne _ _ hs
    · simp only [if_neg h2] at hc htn htp hto
      cases sp with
      | ram => simp [State.peek, ht]
      | nametable => simp [State.peek, htn, Ppu.setPal, hn]
      | oam => simp [State.peek, hto, Ppu.setPal, ho]
      | prgRam => simp [State.peek, State.peekCart, hc]
      | prgRom => simp [State.peek, State.peekCart, hc]
      | chr => simp [State.peek, State.peekCart, hc]
      | palette =>
        have h2' : 0x3F00 ≤ s.ppu.vAddr.toNat := by omega
        simp only [State.stores, ha, h2', decide_true, Bool.true_and, beq_eq_false_iff_ne] at hs
        have hlt := palIndex_lt s.ppu.vAddr.toNat
        have : (p.setPal (palIndex s.ppu.vAddr.toNat) (v.setWidth 6)).pal i = p.pal i :=
          State.pal_set _ _ _ _ (by rw [Nat.mod_eq_of_lt hlt]; exact hs)
        simp only [State.peek]
        congr 1
        simp only [Ppu.pal, htp] at this ⊢
        rw [this]
        simp [hp]

/-- A write that is neither the PPU's nor OAM DMA's reaches work RAM, the bus, the APU and the cartridge only. -/
theorem busWrite_arrays_frame (a : Word) (v : Byte) (s : State) (h : a.toNat ≤ 0x1FFF ∨ 0x4000 ≤ a.toNat) (h14 : a ≠ 0x4014) :
    (busWrite a v s).ppu = s.ppu ∧ (busWrite a v s).cart = (s.cart.map fun c => c.cpuWrite a v) ∧
      (busWrite a v s).bus.ram =
        if a.toNat ≤ 0x1FFF then Memory.write s.bus.ram (ramIndex a) v else s.bus.ram := by
  unfold busWrite State.localWrite
  split
  · exact ⟨by simp, by simp, by simp⟩
  · next h1 =>
    have h2 : ¬ a.toNat ≤ 0x3FFF := by omega
    simp only [if_neg h2]
    split
    · refine ⟨by simp, by simp, ?_⟩
      simp only [Bus.controllerStrobe]
      split <;> simp
    · exact ⟨by simp, by simp, by simp⟩

/-- A bus write stores where `State.stores` says, and nowhere else (R440). -/
theorem busWrite_frame (a : Word) (v : Byte) (s : State) (sp : Space) (i : Nat) (hs : s.stores a sp i = false) :
    (busWrite a v s).peek sp i = s.peek sp i := by
  by_cases hp : 0x2000 ≤ a.toNat ∧ a.toNat ≤ 0x3FFF
  · obtain ⟨hp1, hp2⟩ := hp
    have hl : (s.latch v).offerApu a v = s.latch v := by
      simp [State.offerApu, apuOffered_low (show a.toNat < 0x4000 by omega)]
    have h1 : ¬ a.toNat ≤ 0x1FFF := by omega
    simp only [busWrite, hl, State.offerCart_low _ v (show a.toNat < 0x6000 by omega), State.localWrite, if_neg h1,
      if_pos hp2]
    by_cases h7 : ppuReg a = 7
    · rw [h7, Ppu.regWrite_data]
      have ha : isPpuReg a 7 = true := by simp [isPpuReg_of hp1 hp2, h7]
      exact Ppu.write_frame s (s.ppu.refresh v) v rfl rfl rfl rfl ha sp i hs _ rfl rfl rfl rfl rfl
    · by_cases h4 : ppuReg a = 4
      · rw [h4, Ppu.regWrite_oam]
        cases sp with
        | oam =>
          simp only [State.stores, isPpuReg_of hp1 hp2, h4, beq_self_eq_true, Bool.true_and, Bool.or_eq_false_iff,
            beq_eq_false_iff_ne] at hs
          exact Memory.read_write_ne _ _ hs.1
        | _ => rfl
      · have h4' : (ppuReg a).toNat ≠ 4 := fun h => h4 (BitVec.eq_of_toNat_eq h)
        have h7' : (ppuReg a).toNat ≠ 7 := fun h => h7 (BitVec.eq_of_toNat_eq h)
        obtain ⟨q1, q2, q3, q4⟩ := Ppu.regWrite_quiet s.cart s.ppu v h4' h7'
        cases sp <;> simp [State.peek, State.peekCart, Ppu.pal, q1, q2, q3, q4]
  · have hout : a.toNat ≤ 0x1FFF ∨ 0x4000 ≤ a.toNat := by omega
    by_cases h14 : a = 0x4014
    · subst h14
      have hd : busWrite 0x4014 v s = oamDma v (((s.latch v).offerApu 0x4014 v).offerCart 0x4014 v) := by
        simp [busWrite, State.localWrite]
      have hc : (((s.latch v).offerApu 0x4014 v).offerCart 0x4014 v).cart = s.cart := by
        rw [State.offerCart_low _ v (by decide)]; simp
      have ho := oamDma_only v (((s.latch v).offerApu 0x4014 v).offerCart 0x4014 v)
      rw [hd]
      have e1 := ho.cart.trans hc
      have e2 := ho.ram
      have e3 := ho.ntRam
      have e4 := ho.palRam
      cases sp with
      | oam => simp [State.stores] at hs
      | _ => simp_all [State.peek, State.peekCart, Ppu.pal]
    · obtain ⟨e1, e2, e3⟩ := busWrite_arrays_frame a v s hout h14
      cases sp with
      | nametable => simp [State.peek, e1]
      | palette => simp [State.peek, e1]
      | oam => simp [State.peek, e1]
      | ram =>
        simp only [State.peek, e3]
        split
        · next hl =>
          simp only [State.stores, hl, decide_true, Bool.true_and, beq_eq_false_iff_ne] at hs
          exact Memory.read_write_ne _ _ hs
        · rfl
      | prgRom =>
        cases hc : s.cart with
        | none => simp [State.peek, State.peekCart, e2, hc]
        | some c => simp [State.peek, State.peekCart, e2, hc, Cart.cpuWrite_rom]
      | chr =>
        cases hc : s.cart with
        | none => simp [State.peek, State.peekCart, e2, hc]
        | some c => simp [State.peek, State.peekCart, e2, hc, Cart.cpuWrite_chr]
      | prgRam =>
        cases hc : s.cart with
        | none => simp [State.peek, State.peekCart, e2, hc]
        | some c =>
          simp only [State.peek, State.peekCart, e2, hc, Option.map_some, Cart.cpuWrite_prgRam]
          simp only [State.stores, State.isPrgRamCell, hc, beq_eq_false_iff_ne] at hs
          split
          · next off hm =>
            exact Memory.read_write_ne _ _ (fun h => hs (by rw [hm, h]))
          · rfl

end Sys2Proof.Machine
end

