-- ==== Sys2Proof/Laws/Decode.lean ====
section
/-! SUPPORT. What the decoder reads, by the format of the opcode's cell, and its inverse on operand bytes. -/

namespace Sys2Proof

open Sys2Proof.Machine

theorem decode_f1 {op : Byte} {i : Instr} (h : rowOf op = .f1 i) (rest : List Byte) :
    decode (op :: rest) = .ok (i, rest) := by
  simp [decode, h]

theorem decode_f2 {op : Byte} {f : Byte → Instr} (h : rowOf op = .f2 f) (b1 : Byte) (rest : List Byte) :
    decode (op :: b1 :: rest) = .ok (f b1, rest) := by
  simp [decode, h]

theorem decode_f3 {op : Byte} {f : Word → Instr} (h : rowOf op = .f3 f) (b1 b2 : Byte) (rest : List Byte) :
    decode (op :: b1 :: b2 :: rest) = .ok (f (mkWord b2 b1), rest) := by
  simp [decode, h]

/-- A 16-bit operand is read back from its two bytes. -/
theorem decode_word {op : Byte} {f : Word → Instr} (h : rowOf op = .f3 f) (w : Word) (rest : List Byte) :
    decode (op :: (wordBytes w ++ rest)) = .ok (f w, rest) := by
  simp [wordBytes, decode_f3 h]

/-- With three bytes at hand the decoder never runs out. -/
theorem decode_three (op b1 b2 : Byte) (rest : List Byte) :
    decode (op :: b1 :: b2 :: rest) =
      .ok (decodeBytes op b1 b2, (op :: b1 :: b2 :: rest).drop (1 + operandCount op)) := by
  cases hr : rowOf op with
  | f1 i => simp [decode_f1 hr, decodeBytes, operandCount, hr, Row.apply, Row.operandCount]
  | f2 f => simp [decode_f2 hr, decodeBytes, operandCount, hr, Row.apply, Row.operandCount]
  | f3 f => simp [decode_f3 hr, decodeBytes, operandCount, hr, Row.apply, Row.operandCount]

end Sys2Proof
end

