-- ==== Sys2Proof/Laws/Flags.lean ====
section
/-! SUPPORT. The laws of the status register's flags. -/

namespace Sys2Proof.Machine

/-- A flag set is seen in its own bit and in no other. -/
theorem getFlag_setFlag (p : Byte) (f g : Flag) (x : Bool) :
    getFlag (setFlag p f x) g = if g = f then x else getFlag p g := by
  cases f <;> cases g <;> cases x <;> simp [getFlag, setFlag, Flag.bitNo]

@[simp] theorem getFlag_setFlag_self (p : Byte) (f : Flag) (x : Bool) : getFlag (setFlag p f x) f = x := by
  simp [getFlag_setFlag]

theorem getFlag_setFlag_ne (p : Byte) {f g : Flag} (x : Bool) (h : g ≠ f) : getFlag (setFlag p f x) g = getFlag p g := by
  simp [getFlag_setFlag, h]

/-- `SetNZ` changes N and Z alone (R10). -/
theorem getFlag_setNZ (v p : Byte) (g : Flag) :
    getFlag (setNZ v p) g = if g = .n then bit v 7 else if g = .z then (v == 0) else getFlag p g := by
  simp only [setNZ, getFlag_setFlag]

/-- Two status bytes with the same flags are the same byte. -/
theorem status_ext {p q : Byte} (h : ∀ f, getFlag p f = getFlag q f) : p = q := by
  apply BitVec.eq_of_getLsbD_eq
  intro i hi
  have h8 : i = 0 ∨ i = 1 ∨ i = 2 ∨ i = 3 ∨ i = 4 ∨ i = 5 ∨ i = 6 ∨ i = 7 := by omega
  rcases h8 with rfl | rfl | rfl | rfl | rfl | rfl | rfl | rfl
  · exact h .c
  · exact h .z
  · exact h .i
  · exact h .d
  · exact h .b
  · exact h .u
  · exact h .v
  · exact h .n

/-- What a pull leaves in P: Break 0, Unused 1, the rest from the byte (R25). -/
theorem getFlag_pulledP (m : Byte) (g : Flag) :
    getFlag (pulledP m) g = if g = .b then false else if g = .u then true else getFlag m g := by
  cases g <;> simp [getFlag, pulledP, Flag.bitNo]

/-- What BRK and PHP push: Break and Unused 1, the rest from P (R25). -/
theorem getFlag_breakP (p : Byte) (g : Flag) :
    getFlag (breakP p) g = if g = .b then true else if g = .u then true else getFlag p g := by
  cases g <;> simp [getFlag, breakP, Flag.bitNo]

/-- What NMI and IRQ entry push: Break 0, Unused 1, the rest from P (R25). -/
theorem getFlag_interruptP (p : Byte) (g : Flag) :
    getFlag (interruptP p) g = if g = .b then false else if g = .u then true else getFlag p g := by
  cases g <;> simp [getFlag, interruptP, Flag.bitNo]

end Sys2Proof.Machine
end

