-- ==== Sys2Proof/Laws/Ops.lean ====
section
/-! SUPPORT. One lemma for each shared operation that says everything it does: the stack, the vectors, the fetch, the operand
forms, taking an exception. -/

namespace Sys2Proof.Machine

/-! ## The bus does not look at the CPU's registers -/

/-- A bus read neither looks at the CPU nor touches it. -/
theorem busRead_mapCpu (a : Word) (s : State) (f : Cpu → Cpu) :
    busRead a (s.mapCpu f) = ((busRead a s).1, (busRead a s).2.mapCpu f) := by
  have h : busAnswer a (s.mapCpu f) = ((busAnswer a s).1, (busAnswer a s).2.mapCpu f) := by
    obtain ⟨cpu, bus, ppu, apu, cart⟩ := s
    unfold busAnswer State.cartAnswer State.mapCpu
    dsimp only
    split
    · rfl
    split
    · rfl
    split
    · rfl
    split
    · rfl
    split
    · rfl
    split <;> rfl
  simp only [busRead, h]
  rfl

theorem oamDmaCopy_mapCpu (page : Byte) (f : Cpu → Cpu) : ∀ (n : Nat) (s : State),
    oamDmaCopy page n (s.mapCpu f) = (oamDmaCopy page n s).mapCpu f
  | 0, _ => rfl
  | n + 1, s => by
    rw [oamDmaCopy, oamDmaCopy, ← oamDmaCopy_mapCpu page f n]
    simp only [oamDmaStep, busRead_mapCpu]
    rfl

/-- A bus write looks at nothing of the CPU but `cycle_count`, which OAM DMA's stall depends on (R452). -/
theorem busWrite_mapCpu (a : Word) (v : Byte) (s : State) (f : Cpu → Cpu) (hf : (f s.cpu).cycleCount = s.cpu.cycleCount) :
    busWrite a v (s.mapCpu f) = (busWrite a v s).mapCpu f := by
  have e : (((s.mapCpu f).latch v).offerApu a v).offerCart a v = (((s.latch v).offerApu a v).offerCart a v).mapCpu f := by
    unfold State.offerApu State.offerCart
    split <;> rfl
  have hc : (((s.latch v).offerApu a v).offerCart a v).cpu = s.cpu := by simp
  unfold busWrite
  rw [e]
  generalize ((s.latch v).offerApu a v).offerCart a v = u at hc
  unfold State.localWrite
  split
  · rfl
  split
  · rfl
  split
  · have hd := (oamDmaCopy_only v 256 u).cpu
    simp only [oamDma, oamDmaCopy_mapCpu, State.mapCpu_cpu, State.mapCpu_apu, oamDmaStall, hd, hc, hf]
    rfl
  split <;> rfl

/-! ## The stack -/

/-- The byte a stack pointer designates is a byte of work RAM. -/
theorem State.onStack_eq (s : State) (sp : Byte) : s.onStack sp = Memory.read s.bus.ram (stackCell sp) := rfl

/-- The state after work RAM, the latch and SP change. -/
def State.afterStack (s : State) (ram : Memory) (bus sp : Byte) : State :=
  { s with bus := { s.bus with ram := ram, openBus := bus }, cpu := { s.cpu with sp := sp } }

/-- A push stores its byte in page 1 of work RAM and lowers SP (R10, R23). -/
theorem push_eq (v : Byte) (s : State) :
    push v s = s.afterStack (Memory.write s.bus.ram (stackCell s.cpu.sp) v) v (s.cpu.sp - 1) := by
  simp [push, busWrite_lowRam v s (stackAddr_low s.cpu.sp), State.mapCpu, State.afterStack]

/-- A pull raises SP and reads its byte (R10, R23). -/
theorem pull_eq (s : State) :
    pull s = (s.onStack (s.cpu.sp + 1), s.afterStack s.bus.ram (s.onStack (s.cpu.sp + 1)) (s.cpu.sp + 1)) := by
  unfold pull
  simp only [State.mapCpu_cpu, busRead_lowRam (stackAddr_low _), ramIndex_stackAddr, State.mapCpu_bus]
  rfl

@[simp] theorem State.afterStack_ppu (s : State) (m : Memory) (b sp : Byte) : (s.afterStack m b sp).ppu = s.ppu := rfl
@[simp] theorem State.afterStack_apu (s : State) (m : Memory) (b sp : Byte) : (s.afterStack m b sp).apu = s.apu := rfl
@[simp] theorem State.afterStack_cart (s : State) (m : Memory) (b sp : Byte) : (s.afterStack m b sp).cart = s.cart := rfl
@[simp] theorem State.afterStack_params (s : State) (m : Memory) (b sp : Byte) : (s.afterStack m b sp).params = s.params := rfl
@[simp] theorem State.afterStack_ram (s : State) (m : Memory) (b sp : Byte) : (s.afterStack m b sp).bus.ram = m := rfl
@[simp] theorem State.afterStack_openBus (s : State) (m : Memory) (b sp : Byte) :
    (s.afterStack m b sp).bus.openBus = b := rfl
@[simp] theorem State.afterStack_cpu (s : State) (m : Memory) (b sp : Byte) :
    (s.afterStack m b sp).cpu = { s.cpu with sp := sp } := rfl
@[simp] theorem State.afterStack_afterStack (s : State) (m n : Memory) (b c sp sq : Byte) :
    (s.afterStack m b sp).afterStack n c sq = s.afterStack n c sq := rfl

/-- An address pushed: two bytes, the high one at the higher address (R106). -/
theorem pushWord_eq (w : Word) (s : State) :
    pushWord w s =
      s.afterStack
        (Memory.write (Memory.write s.bus.ram (stackCell s.cpu.sp) (hiByte w)) (stackCell (s.cpu.sp - 1))
          (loByte w))
        (loByte w) (s.cpu.sp - 1 - 1) := by
  simp [pushWord, push_eq]

/-- An address pulled. -/
theorem pullWord_eq (s : State) :
    pullWord s =
      (mkWord (s.onStack (s.cpu.sp + 1 + 1)) (s.onStack (s.cpu.sp + 1)),
        s.afterStack s.bus.ram (s.onStack (s.cpu.sp + 1 + 1)) (s.cpu.sp + 1 + 1)) := by
  simp [pullWord, pull_eq, State.onStack_eq]

/-! ## Vectors and fetching -/

/-- Reading a vector is two bus reads and nothing else. -/
theorem readVector_readOnly (a : Word) (s : State) : ReadOnly s (readVector a s).2 :=
  (busRead_readOnly a s).trans (busRead_readOnly (a + 1) _)

@[simp] theorem readVector_cpu (a : Word) (s : State) : (readVector a s).2.cpu = s.cpu := (readVector_readOnly a s).cpu
@[simp] theorem readVector_ram (a : Word) (s : State) : (readVector a s).2.bus.ram = s.bus.ram :=
  (readVector_readOnly a s).ram
@[simp] theorem readVector_cart (a : Word) (s : State) : (readVector a s).2.cart = s.cart := (readVector_readOnly a s).cart
@[simp] theorem readVector_params (a : Word) (s : State) : (readVector a s).2.params = s.params :=
  (readVector_readOnly a s).params

/-- A byte fetched from plain storage (R151). -/
theorem fetchByte_storage {s : State} {v : Byte} (h : s.storage s.cpu.pc = some v) :
    fetchByte s = (v, (s.latch v).mapCpu fun c => { c with pc := c.pc + 1 }) := by
  simp [fetchByte, busRead_storage h]

@[simp] theorem State.storage_latch (s : State) (v : Byte) (a : Word) : (s.latch v).storage a = s.storage a := rfl
@[simp] theorem State.storage_mapCpu (s : State) (f : Cpu → Cpu) (a : Word) : (s.mapCpu f).storage a = s.storage a := rfl

/-! ## Operand forms -/

/-- Finding an effective address only reads. -/
theorem resolve_readOnly (m : MemMode) (s : State) : ReadOnly s (resolve m s).2 := by
  cases m with
  | izx z => exact (busRead_readOnly _ s).trans (busRead_readOnly _ _)
  | izy z => exact (busRead_readOnly _ s).trans (busRead_readOnly _ _)
  | _ => exact ReadOnly.refl s

theorem dummyIf_readOnly (b : Bool) (e : Ea) (s : State) : ReadOnly s (dummyIf b e s) := by
  unfold dummyIf
  split
  · exact busRead_readOnly _ s
  · exact ReadOnly.refl s

/-- Reading an operand only reads. -/
theorem readOperand_readOnly (m : MemMode) (s : State) : ReadOnly s (readOperand m s).state :=
  ((resolve_readOnly m s).trans (dummyIf_readOnly _ _ _)).trans (busRead_readOnly _ _)

theorem readMode_readOnly (m : ReadMode) (s : State) : ReadOnly s (readMode m s).state := by
  cases m with
  | imm v => exact ReadOnly.refl s
  | mem m => exact readOperand_readOnly m s

@[simp] theorem resolve_cpu (m : MemMode) (s : State) : (resolve m s).2.cpu = s.cpu := (resolve_readOnly m s).cpu
@[simp] theorem dummyIf_cpu (b : Bool) (e : Ea) (s : State) : (dummyIf b e s).cpu = s.cpu := (dummyIf_readOnly b e s).cpu
@[simp] theorem readOperand_cpu (m : MemMode) (s : State) : (readOperand m s).state.cpu = s.cpu :=
  (readOperand_readOnly m s).cpu
@[simp] theorem readMode_cpu (m : ReadMode) (s : State) : (readMode m s).state.cpu = s.cpu := (readMode_readOnly m s).cpu
@[simp] theorem dummyIf_params (b : Bool) (e : Ea) (s : State) : (dummyIf b e s).params = s.params :=
  (dummyIf_readOnly b e s).params
@[simp] theorem resolve_params (m : MemMode) (s : State) : (resolve m s).2.params = s.params := (resolve_readOnly m s).params
@[simp] theorem readMode_params (m : ReadMode) (s : State) : (readMode m s).state.params = s.params :=
  (readMode_readOnly m s).params

theorem beforeStore_readOnly (m : MemMode) (s : State) : ReadOnly s (beforeStore m s) :=
  (resolve_readOnly m s).trans (dummyIf_readOnly _ _ _)

theorem writeOperand_eq (m : MemMode) (v : Byte) (s : State) :
    writeOperand m v s = busWrite (resolve m s).1.ea v (beforeStore m s) := rfl

@[simp] theorem writeOperand_cpu (m : MemMode) (v : Byte) (s : State) : (writeOperand m v s).cpu = s.cpu := by
  rw [writeOperand_eq, busWrite_cpu, (beforeStore_readOnly m s).cpu]

@[simp] theorem rmwOperand_cpu (m : MemMode) (f : Byte → Byte) (s : State) : (rmwOperand m f s).state.cpu = s.cpu := by
  simp [rmwOperand]

@[simp] theorem writeOperand_params (m : MemMode) (v : Byte) (s : State) : (writeOperand m v s).params = s.params := by
  rw [writeOperand_eq, busWrite_params, (beforeStore_readOnly m s).params]

@[simp] theorem rmwOperand_params (m : MemMode) (f : Byte → Byte) (s : State) :
    (rmwOperand m f s).state.params = s.params := by simp [rmwOperand]

/-! ## Taking an exception and returning from one -/

/-- The state in which the entry reads its vector: PC and status pushed, I set (R305, R770). -/
def State.entered (e : Event) (s : State) : State :=
  (s.afterStack
    (Memory.write
      (Memory.write (Memory.write s.bus.ram (stackCell s.cpu.sp) (hiByte s.cpu.pc)) (stackCell (s.cpu.sp - 1))
        (loByte s.cpu.pc))
      (stackCell (s.cpu.sp - 1 - 1)) (e.pushedP s.cpu.p))
    (e.pushedP s.cpu.p) (s.cpu.sp - 1 - 1 - 1)).mapCpu fun c => { c with p := setFlag c.p .i true }

/-- Everything taking an exception does (R305, R770). -/
theorem takeEvent_eq (e : Event) (s : State) :
    takeEvent e s =
      (readVector e.vector (s.entered e)).2.mapCpu fun c => { c with pc := (readVector e.vector (s.entered e)).1 } := by
  simp only [takeEvent, pushWord_eq, push_eq, State.afterStack_afterStack, State.afterStack_cpu, State.afterStack_ram]
  rfl

/-- Everything the return from an exception does (R304, R775). -/
theorem returnFromEvent_eq (s : State) :
    returnFromEvent s =
      (s.afterStack s.bus.ram (s.onStack (s.cpu.sp + 1 + 1 + 1)) (s.cpu.sp + 1 + 1 + 1)).mapCpu fun c =>
        { c with
          p := pulledP (s.onStack (s.cpu.sp + 1))
          pc := mkWord (s.onStack (s.cpu.sp + 1 + 1 + 1)) (s.onStack (s.cpu.sp + 1 + 1)) } := by
  simp only [returnFromEvent, pullWord_eq, pull_eq]
  rfl

@[simp] theorem push_params (v : Byte) (s : State) : (push v s).params = s.params := by rw [push_eq, State.afterStack_params]
@[simp] theorem pull_params (s : State) : (pull s).2.params = s.params := by rw [pull_eq]; rfl
@[simp] theorem pushWord_params (w : Word) (s : State) : (pushWord w s).params = s.params := by rw [pushWord_eq]; rfl
@[simp] theorem pullWord_params (s : State) : (pullWord s).2.params = s.params := by rw [pullWord_eq]; rfl
@[simp] theorem takeEvent_params (e : Event) (s : State) : (takeEvent e s).params = s.params := by
  rw [takeEvent_eq, State.mapCpu_params, readVector_params]; rfl
@[simp] theorem returnFromEvent_params (s : State) : (returnFromEvent s).params = s.params := by
  rw [returnFromEvent_eq]; rfl

end Sys2Proof.Machine
end

