-- ==== Sys2Proof/Laws/Clock.lean ====
section
/-! SUPPORT. The laws of the clock fabric: what each turn of a driver tick does to each device (54_console_driver.md). -/

namespace Sys2Proof.Machine

/-- The consumption of the NMI latch (R741). -/
theorem consumeNmi_eq (s : State) :
    consumeNmi s =
      { s with
        ppu := { s.ppu with nmiLatched := false }
        cpu := { s.cpu with nmiPending := s.cpu.nmiPending || s.ppu.nmiLatched } } := rfl

@[simp] theorem ppuTurn_ppu (s : State) : (ppuTurn s).ppu = { s.ppu.tick s.cart with nmiLatched := false } := by
  rw [ppuTurn, consumeNmi_eq]

@[simp] theorem ppuTurn_cpu (s : State) :
    (ppuTurn s).cpu = { s.cpu with nmiPending := s.cpu.nmiPending || (s.ppu.tick s.cart).nmiLatched } := by
  rw [ppuTurn, consumeNmi_eq]

@[simp] theorem ppuTurn_bus (s : State) : (ppuTurn s).bus = s.bus := by rw [ppuTurn, consumeNmi_eq]
@[simp] theorem ppuTurn_apu (s : State) : (ppuTurn s).apu = s.apu := by rw [ppuTurn, consumeNmi_eq]
@[simp] theorem ppuTurn_cart (s : State) : (ppuTurn s).cart = s.cart := by rw [ppuTurn, consumeNmi_eq]

@[simp] theorem ppuTurn_params (s : State) : (ppuTurn s).params = s.params := by rw [ppuTurn, consumeNmi_eq]

@[simp] theorem ppuPhase_params (s : State) : (ppuPhase s).params = s.params := by simp [ppuPhase]
@[simp] theorem ppuPhase_bus (s : State) : (ppuPhase s).bus = s.bus := by simp [ppuPhase]
@[simp] theorem ppuPhase_apu (s : State) : (ppuPhase s).apu = s.apu := by simp [ppuPhase]
@[simp] theorem ppuPhase_cart (s : State) : (ppuPhase s).cart = s.cart := by simp [ppuPhase]

/-- The PPU's turn touches the CPU's NMI request alone (R741). -/
theorem ppuPhase_cpu (s : State) : ∃ b, (ppuPhase s).cpu = { s.cpu with nmiPending := b } := by
  simp only [ppuPhase, ppuTurn_cpu]
  exact ⟨_, rfl⟩

/-! ## The CPU's turn -/

/-- At an instruction boundary with nothing recognised, the CPU's turn runs the fetched instruction (R743, R762). -/
theorem cpuPhase_boundary {u : State} (h1 : u.apu.stallPending = 0) (h2 : u.cpu.sh.active = false)
    (h3 : u.cpu.cyclesRemaining = 0) (h4 : u.cpu.nmiPending = false) (h5 : u.cpu.latchedIrq = false) :
    cpuPhase u = mapNext (fun t => t.mapCpu Cpu.endClock) (exec (fetch u).1 (fetch u).2) := by
  have h1' : ¬ 0 < u.apu.stallPending := by omega
  simp only [cpuPhase, if_neg h1', cpuClock, cpuWork, h2, h3, cpuBoundary, h4, h5, Bool.false_eq_true, if_false, if_true]

theorem operandCount_le (op : Byte) : operandCount op ≤ 2 := by
  unfold operandCount
  cases rowOf op <;> simp [Row.operandCount]

theorem earlyOperands_le (op : Byte) : earlyOperands op ≤ operandCount op := by
  unfold earlyOperands
  split
  · next h => subst h; decide
  · split
    · exact Nat.zero_le _
    · exact Nat.le_refl _

theorem State.latch_latch (s : State) (v w : Byte) : (s.latch v).latch w = s.latch w := rfl

theorem State.latch_mapCpu (s : State) (f : Cpu → Cpu) (v : Byte) : (s.mapCpu f).latch v = (s.latch v).mapCpu f := rfl

/-- An operand byte that is read now from plain storage. -/
theorem operandByte_now {u : State} {v : Byte} {early k : Nat} (a : Word) (hk : k ≤ early)
    (h : u.storage u.cpu.pc = some v) :
    operandByte early k a u = (v, (u.latch v).mapCpu fun c => { c with pc := c.pc + 1 }) := by
  rw [operandByte, if_pos hk, fetchByte_storage h]

/-- An operand byte that the instruction reads later is only looked at. -/
theorem operandByte_later {u : State} {early k : Nat} (a : Word) (hk : ¬ k ≤ early) :
    operandByte early k a u = ((busRead a u).1, u) := by
  rw [operandByte, if_neg hk]

/-- The operand bytes an instruction does not have do not matter. -/
theorem decodeBytes_congr {op b1 b2 c1 c2 : Byte} (h1 : 1 ≤ operandCount op → b1 = c1)
    (h2 : 2 ≤ operandCount op → b2 = c2) : decodeBytes op b1 b2 = decodeBytes op c1 c2 := by
  unfold operandCount at h1 h2
  unfold decodeBytes
  cases hr : rowOf op <;> simp [hr, Row.operandCount, Row.apply] at h1 h2 ⊢
  · rw [h1]
  · rw [h1, h2]

/-- Fetching from plain storage: the instruction of the bytes, the early ones read and PC past them (R150, R151; log entry
10). -/
theorem fetch_storage {u : State} {b0 b1 b2 : Byte} (h0 : u.storage u.cpu.pc = some b0)
    (h1 : 1 ≤ operandCount b0 → u.storage (u.cpu.pc + 1) = some b1)
    (h2 : 2 ≤ operandCount b0 → u.storage (u.cpu.pc + 2) = some b2) :
    fetch u =
      (decodeBytes b0 b1 b2,
        (u.latch (if earlyOperands b0 = 0 then b0 else if earlyOperands b0 = 1 then b1 else b2)).mapCpu
          fun c => { c with pc := c.pc + BitVec.ofNat 16 (1 + earlyOperands b0) }) := by
  have hle := earlyOperands_le b0
  have hle2 := operandCount_le b0
  have f0 := fetchByte_storage h0
  have e2 : u.cpu.pc + 1 + 1 = u.cpu.pc + 2 := by bv_omega
  have a1 : ∀ w : State, (∀ a, w.storage a = u.storage a) → 1 ≤ operandCount b0 → (busRead (u.cpu.pc + 1) w).1 = b1 :=
    fun w hw h => by rw [busRead_storage ((hw _).trans (h1 h))]
  have a2 : ∀ w : State, (∀ a, w.storage a = u.storage a) → 2 ≤ operandCount b0 → (busRead (u.cpu.pc + 2) w).1 = b2 :=
    fun w hw h => by rw [busRead_storage ((hw _).trans (h2 h))]
  unfold fetch
  simp only [f0]
  rcases Nat.lt_or_ge (earlyOperands b0) 1 with he | he
  · have hz : earlyOperands b0 = 0 := by omega
    rw [operandByte_later _ (by omega), operandByte_later _ (by omega)]
    simp only [hz, if_true]
    exact Prod.ext (decodeBytes_congr (a1 _ fun _ => rfl) (a2 _ fun _ => rfl)) rfl
  · have hs1 := h1 (by omega)
    rw [operandByte_now (v := b1) _ he (by simpa using hs1)]
    rcases Nat.lt_or_ge (earlyOperands b0) 2 with he2 | he2
    · have hz : earlyOperands b0 = 1 := by omega
      rw [operandByte_later _ (by omega)]
      simp only [hz, if_true]
      refine Prod.ext (decodeBytes_congr (fun _ => rfl) (a2 _ fun _ => rfl)) ?_
      simp only [State.latch_mapCpu, State.latch_latch, State.mapCpu_mapCpu]
      congr 1
      funext c
      congr 1
      bv_omega
    · have hz : earlyOperands b0 = 2 := by omega
      have hs2 := h2 (by omega)
      rw [operandByte_now (v := b2) _ he2 (by rw [← e2] at hs2; simpa using hs2)]
      simp only [hz]
      refine Prod.ext rfl ?_
      simp only [State.latch_mapCpu, State.latch_latch, State.mapCpu_mapCpu]
      congr 1
      funext c
      congr 1
      bv_omega

/-! ## The APU's turn -/

@[simp] theorem apuPhase_apu (s : State) : (apuPhase s).apu = s.apu.clock s.params s.cart s.bus.ram := by rw [apuPhase]
@[simp] theorem apuPhase_bus (s : State) : (apuPhase s).bus = s.bus := by rw [apuPhase]
@[simp] theorem apuPhase_ppu (s : State) : (apuPhase s).ppu = s.ppu := by rw [apuPhase]
@[simp] theorem apuPhase_cart (s : State) : (apuPhase s).cart = s.cart := by rw [apuPhase]
@[simp] theorem apuPhase_params (s : State) : (apuPhase s).params = s.params := by rw [apuPhase]
theorem apuPhase_cpu (s : State) :
    (apuPhase s).cpu = { s.cpu with irqLine := (apuPhase s).apu.irqPending } := by rw [apuPhase]

/-- A driver tick taken apart (R740). -/
theorem step_eq_next {s t : State} (h : step s = .next t) : ∃ u, cpuPhase (ppuPhase s) = .next u ∧ t = apuPhase u := by
  unfold step driverTick at h
  exact mapNext_eq_next h

end Sys2Proof.Machine
end

