-- ==== Sys2Proof/Laws/Invariant.lean ====
section
/-! SUPPORT. The parts of the invariant `State.ok` that each operation keeps: the arrays' canonical form by every access, the
PPU's position by a tick, the APU's bounds by its accesses. -/

namespace Sys2Proof.Machine

/-! ## The cartridge -/

theorem Cart.ok_sizes {c : Cart} (h : c.ok = true) : 0 < c.prgBanks ∧ 0 < c.chrSize ∧ c.chrSize % 8192 = 0 := by
  simp only [Cart.ok, Bool.and_eq_true, decide_eq_true_eq, beq_iff_eq] at h
  exact ⟨h.1.1.1.1.1.1, h.1.1.1.1.1.2, h.1.1.1.1.2⟩

/-- A bank index below the bank count gives an offset inside the array. -/
theorem bank_lt {q k o n : Nat} (hq : q < k) (ho : o < n) : q * n + o < k * n := by
  have := Nat.mul_le_mul_right n (Nat.succ_le_of_lt hq)
  rw [Nat.succ_mul] at this
  omega

/-- The mappers' CHR offsets lie inside CHR (R483, R490, R492, R494, R499, R513). -/
theorem Cart.chrOffset_lt {c : Cart} (h : c.ok = true) {a : Nat} (ha : a < 0x2000) : c.chrOffset a < c.chrSize := by
  obtain ⟨-, h2, h3⟩ := Cart.ok_sizes h
  unfold Cart.chrOffset
  split
  · exact Nat.mod_lt _ h2
  · exact Nat.lt_of_lt_of_eq (bank_lt (Nat.mod_lt _ (by omega)) (Nat.mod_lt a (by decide))) (by omega)
  · exact Nat.mod_lt _ h2
  · exact Nat.lt_of_lt_of_eq (bank_lt (Nat.mod_lt _ (by omega)) ha) (by omega)
  · exact Nat.lt_of_lt_of_eq (bank_lt (Nat.mod_lt _ (by omega)) (Nat.mod_lt a (by decide))) (by omega)

/-- What `Cart.ok` looks at: a change of the mapper's registers alone keeps it. -/
theorem Cart.ok_mapper {c : Cart} (h : c.ok = true) (m : Mapper) : ({ c with mapper := m } : Cart).ok = true := h

theorem Cart.ok_setMirroring {c : Cart} (h : c.ok = true) (m : Mirroring) : (c.setMirroring m).ok = true := by
  unfold Cart.setMirroring
  split
  · exact h
  · next hf =>
    simp only [Cart.ok, Bool.and_eq_true] at h ⊢
    refine ⟨h.1, ?_⟩
    simp [hf]

theorem Cart.ok_registerWrite {c : Cart} (h : c.ok = true) (a : Word) (v : Byte) : (c.registerWrite a v).ok = true := by
  unfold Cart.registerWrite
  split
  · exact h
  · unfold Cart.mmc1Write
    dsimp only
    split
    · exact h
    split
    · split
      · exact Cart.ok_setMirroring (Cart.ok_mapper h _) _
      · exact h
      · exact h
      · exact h
    · exact h
  · exact h
  · exact h
  · unfold Cart.mmc3Write
    dsimp only
    split
    · split <;> exact h
    split
    · split
      · exact h
      · exact Cart.ok_setMirroring h _
    · exact h

/-- A CPU write keeps the cartridge well formed (R486). -/
theorem Cart.ok_cpuWrite {c : Cart} (h : c.ok = true) (a : Word) (v : Byte) : (c.cpuWrite a v).ok = true := by
  have hs : (match c.mapWrite a with
      | .prgRam off => { c with prgRam := Memory.write c.prgRam off v }
      | .notMine => c
      | .zero => c
      | .prgRom _ => c : Cart).ok = true := by
    split
    · next off hm =>
      have hoff : off < 8192 := by
        unfold Cart.mapWrite at hm
        split at hm
        · cases hm
        split at hm
        · next h1 h2 =>
          split at hm
          · injection hm with hm; omega
          · cases hm
        · cases hm
      simp only [Cart.ok, Bool.and_eq_true] at h ⊢
      have hw := Memory.ok_write h.1.1.2 hoff v
      exact ⟨⟨⟨h.1.1.1, hw⟩, h.1.2⟩, h.2⟩
    · exact h
    · exact h
    · exact h
  unfold Cart.cpuWrite
  dsimp only
  split
  · exact Cart.ok_registerWrite hs a v
  · exact hs

/-- A PPU write keeps the cartridge well formed (R488). -/
theorem cartOk_ppuWrite {c : Option Cart} (h : cartOk c = true) {a : Nat} (ha : a < 0x2000) (v : Byte) :
    cartOk (cartPpuWrite c a v) = true := by
  cases c with
  | none => rfl
  | some c =>
    simp only [cartPpuWrite, cartOk] at h ⊢
    split
    · have hlt := Cart.chrOffset_lt h ha
      simp only [Cart.ok, Bool.and_eq_true] at h ⊢
      exact ⟨⟨h.1.1, Memory.ok_write h.1.2 hlt v⟩, h.2⟩
    · exact h

/-! ## The PPU's memories -/

theorem ntIndex_lt (m : Mirroring) (a : Nat) : ntIndex m a < 4096 := by
  have h1 : ntPage m (a / 0x400 % 4) < 4 := by
    have := Nat.mod_lt (a / 0x400) (show 0 < 4 by decide)
    cases m <;> simp only [ntPage] <;> omega
  exact bank_lt h1 (Nat.mod_lt a (by decide))

/-- What `Ppu.memoriesOk` looks at. -/
theorem Ppu.memoriesOk_of {p q : Ppu} (h : p.memoriesOk = true) (h1 : q.ntRam = p.ntRam) (h2 : q.oam = p.oam) :
    q.memoriesOk = true := by
  simp only [Ppu.memoriesOk, h1, h2] at h ⊢
  exact h

theorem Ppu.memoriesOk_oamPut {p : Ppu} (h : p.memoriesOk = true) (v : Byte) : (p.oamPut v).memoriesOk = true := by
  have hlt := p.oamAddr.isLt
  simp only [Ppu.memoriesOk, Bool.and_eq_true] at h ⊢
  exact ⟨h.1, Memory.ok_write h.2 hlt v⟩

/-- A write of the PPU's address space keeps every array well formed (R557). -/
theorem Ppu.ok_write {c : Option Cart} {p : Ppu} (hc : cartOk c = true) (hp : p.memoriesOk = true) (a : BitVec 14)
    (v : Byte) : cartOk (p.write c a v).1 = true ∧ (p.write c a v).2.memoriesOk = true := by
  unfold Ppu.write
  split
  · exact ⟨cartOk_ppuWrite hc (by omega) v, hp⟩
  split
  · refine ⟨hc, ?_⟩
    simp only [Ppu.memoriesOk, Bool.and_eq_true] at hp ⊢
    exact ⟨Memory.ok_write hp.1 (ntIndex_lt _ _) v, hp.2⟩
  · exact ⟨hc, hp⟩

/-- A write of a PPU register keeps every array well formed (R562). -/
theorem Ppu.ok_regWrite {c : Option Cart} {p : Ppu} (hc : cartOk c = true) (hp : p.memoriesOk = true) (r : BitVec 3)
    (v : Byte) : cartOk (p.regWrite c r v).1 = true ∧ (p.regWrite c r v).2.memoriesOk = true := by
  by_cases h7 : r = 7
  · subst h7
    rw [Ppu.regWrite_data]
    have := Ppu.ok_write (p := p.refresh v) hc (Ppu.memoriesOk_of hp rfl rfl) (p.refresh v).vAddr v
    exact ⟨this.1, Ppu.memoriesOk_of this.2 rfl rfl⟩
  · by_cases h4 : r = 4
    · subst h4
      rw [Ppu.regWrite_oam]
      exact ⟨hc, Ppu.memoriesOk_oamPut (Ppu.memoriesOk_of hp rfl rfl) v⟩
    · have h4' : r.toNat ≠ 4 := fun h => h4 (BitVec.eq_of_toNat_eq h)
      have h7' : r.toNat ≠ 7 := fun h => h7 (BitVec.eq_of_toNat_eq h)
      obtain ⟨q1, q2, -, q4⟩ := Ppu.regWrite_quiet c p v h4' h7'
      exact ⟨by rw [q1]; exact hc, Ppu.memoriesOk_of hp q2 q4⟩

/-! ## The bus -/

/-- Every array of the machine is well formed after a bus read. -/
theorem ReadOnly.memoriesOk {s t : State} (h : ReadOnly s t) (hs : s.memoriesOk = true) : t.memoriesOk = true := by
  simp only [State.memoriesOk, Bus.ok, Ppu.memoriesOk, h.ram, h.cart, h.ppu.ntRam, h.ppu.oam] at hs ⊢
  exact hs

theorem oamDmaCopy_memoriesOk (page : Byte) : ∀ (n : Nat) {s : State}, s.memoriesOk = true →
    (oamDmaCopy page n s).memoriesOk = true
  | 0, _, h => h
  | n + 1, s, h => by
    refine oamDmaCopy_memoriesOk page n ?_
    have hr := (busRead_readOnly (mkWord page (BitVec.ofNat 8 (255 - n))) s).memoriesOk h
    simp only [State.memoriesOk, Bool.and_eq_true] at hr ⊢
    exact ⟨⟨hr.1.1, Ppu.memoriesOk_oamPut hr.1.2 _⟩, hr.2⟩

theorem oamDma_memoriesOk (v : Byte) {s : State} (h : s.memoriesOk = true) : (oamDma v s).memoriesOk = true := by
  have hc := oamDmaCopy_memoriesOk v 256 h
  simp only [State.memoriesOk, oamDma] at hc ⊢
  exact hc

/-- Every array of the machine is well formed after a bus write (R440). -/
theorem busWrite_memoriesOk {s : State} (h : s.memoriesOk = true) (a : Word) (v : Byte) :
    (busWrite a v s).memoriesOk = true := by
  have hu : (((s.latch v).offerApu a v).offerCart a v).memoriesOk = true := by
    simp only [State.memoriesOk, Bool.and_eq_true] at h ⊢
    refine ⟨⟨by simpa [Bus.ok] using h.1.1, by simpa using h.1.2⟩, ?_⟩
    have hc := h.2
    cases hcs : s.cart with
    | none => simp [hcs, cartOk]
    | some c =>
      simp only [hcs, cartOk] at hc
      simp [hcs, cartOk, Cart.ok_cpuWrite hc]
  unfold busWrite
  generalize ((s.latch v).offerApu a v).offerCart a v = u at hu
  unfold State.localWrite
  split
  · have hlt : ramIndex a < 2048 := Nat.mod_lt _ (by decide)
    simp only [State.memoriesOk, Bool.and_eq_true, Bus.ok] at hu ⊢
    have hw := Memory.ok_write hu.1.1 hlt v
    exact ⟨⟨hw, hu.1.2⟩, hu.2⟩
  split
  · simp only [State.memoriesOk, Bool.and_eq_true] at hu ⊢
    have := Ppu.ok_regWrite hu.2 hu.1.2 (ppuReg a) v
    exact ⟨⟨hu.1.1, this.2⟩, this.1⟩
  split
  · exact oamDma_memoriesOk v hu
  split
  · simp only [State.memoriesOk, Bool.and_eq_true, Bus.ok] at hu ⊢
    refine ⟨⟨?_, hu.1.2⟩, hu.2⟩
    unfold Bus.controllerStrobe
    dsimp only
    split <;> exact hu.1.1
  · exact hu

/-! ## A PPU tick -/

theorem Ppu.evaluateSprites_length (p : Ppu) (y : Nat) : ∀ (l found : List (Fin 64)), found.length ≤ 8 →
    (p.findSprites y found l).1.length ≤ 8
  | [], _, h => h
  | n :: rest, found, h => by
    unfold Ppu.findSprites
    split
    · refine Ppu.evaluateSprites_length p y rest _ ?_
      split
      · simp only [List.length_append, List.length_singleton]; omega
      · exact h
    · exact h

/-- The active sprites the evaluation finds: those in range, in OAM order, up to eight (R579). -/
theorem Ppu.findSprites_found (p : Ppu) (y : Nat) : ∀ (l found : List (Fin 64)), found.length ≤ 8 →
    (p.findSprites y found l).1 =
      found ++ (l.filter fun n => p.inRange y (p.oamAt (4 * n.val))).take (8 - found.length)
  | [], found, _ => by simp [Ppu.findSprites]
  | n :: l, found, h => by
    unfold Ppu.findSprites
    split
    · next hl =>
      by_cases hr : p.inRange y (p.oamAt (4 * n.val)) = true
      · obtain ⟨k, hk⟩ : ∃ k, 8 - found.length = k + 1 := ⟨7 - found.length, by omega⟩
        have hk' : 8 - (found ++ [n]).length = k := by simp; omega
        rw [if_pos hr, findSprites_found p y l _ (by simp; omega), hk', hk,
          List.filter_cons_of_pos (p := fun n : Fin 64 => p.inRange y (p.oamAt (4 * n.val))) hr, List.take_succ_cons]
        simp
      · rw [if_neg hr, findSprites_found p y l _ h,
          List.filter_cons_of_neg (p := fun n : Fin 64 => p.inRange y (p.oamAt (4 * n.val))) hr]
    · have : 8 - found.length = 0 := by omega
      simp [this]

/-- What a tick does before its advance leaves the position and the memories alone, and at most eight sprites active. -/
structure PpuInPlace (p q : Ppu) : Prop where
  ntRam : q.ntRam = p.ntRam
  oam : q.oam = p.oam
  scanline : q.scanline = p.scanline
  dot : q.dot = p.dot
  sprites : p.activeSprites.length ≤ 8 → q.activeSprites.length ≤ 8

theorem PpuInPlace.refl (p : Ppu) : PpuInPlace p p := ⟨rfl, rfl, rfl, rfl, id⟩

theorem PpuInPlace.trans {p q r : Ppu} (h : PpuInPlace p q) (k : PpuInPlace q r) : PpuInPlace p r :=
  ⟨k.ntRam.trans h.ntRam, k.oam.trans h.oam, k.scanline.trans h.scanline, k.dot.trans h.dot,
    fun x => k.sprites (h.sprites x)⟩

theorem Ppu.vblankEvent_inPlace (p : Ppu) : PpuInPlace p p.vblankEvent := by
  unfold Ppu.vblankEvent
  split
  · exact ⟨rfl, rfl, rfl, rfl, id⟩
  · exact PpuInPlace.refl p

theorem Ppu.preRenderEvent_inPlace (p : Ppu) : PpuInPlace p p.preRenderEvent := by
  unfold Ppu.preRenderEvent
  split
  · exact ⟨rfl, rfl, rfl, rfl, id⟩
  · exact PpuInPlace.refl p

theorem Ppu.scanlineEvent_inPlace (p : Ppu) : PpuInPlace p p.scanlineEvent := by
  unfold Ppu.scanlineEvent
  split
  · exact ⟨rfl, rfl, rfl, rfl, fun _ => Ppu.evaluateSprites_length _ _ _ _ (Nat.zero_le _)⟩
  · exact PpuInPlace.refl p

theorem Ppu.pixelEvent_inPlace (c : Option Cart) (p : Ppu) : PpuInPlace p (p.pixelEvent c) := by
  unfold Ppu.pixelEvent
  split
  · exact ⟨rfl, rfl, rfl, rfl, id⟩
  · exact PpuInPlace.refl p

/-- Everything a tick does before its advance (R541). -/
theorem Ppu.beforeAdvance_inPlace (c : Option Cart) (p : Ppu) :
    PpuInPlace p ((p.vblankEvent.preRenderEvent.scanlineEvent.pixelEvent c).decay) :=
  ((((Ppu.vblankEvent_inPlace p).trans (Ppu.preRenderEvent_inPlace _)).trans (Ppu.scanlineEvent_inPlace _)).trans
    (Ppu.pixelEvent_inPlace c _)).trans ⟨rfl, rfl, rfl, rfl, id⟩

/-- A tick keeps the PPU's position legal and its memories (R541, R545). -/
theorem Ppu.tick_placeOk {p : Ppu} (c : Option Cart) (h : p.placeOk = true) : (p.tick c).placeOk = true := by
  unfold Ppu.tick
  have hp := Ppu.beforeAdvance_inPlace c p
  generalize (p.vblankEvent.preRenderEvent.scanlineEvent.pixelEvent c).decay = q at hp
  simp only [Ppu.placeOk, Bool.and_eq_true, decide_eq_true_eq] at h ⊢
  obtain ⟨⟨h1, h2⟩, h3⟩ := h
  rw [← hp.scanline] at h1
  rw [← hp.dot] at h2
  have h4 := hp.sprites h3
  unfold Ppu.advance
  dsimp only
  split
  · split
    · exact ⟨⟨Nat.zero_lt_succ _, Nat.zero_lt_succ _⟩, h4⟩
    · exact ⟨⟨by dsimp only; omega, Nat.zero_lt_succ _⟩, h4⟩
  · exact ⟨⟨h1, by dsimp only; omega⟩, h4⟩

theorem Ppu.tick_memoriesOk {p : Ppu} (c : Option Cart) (h : p.memoriesOk = true) : (p.tick c).memoriesOk = true := by
  unfold Ppu.tick
  have hp := Ppu.beforeAdvance_inPlace c p
  generalize (p.vblankEvent.preRenderEvent.scanlineEvent.pixelEvent c).decay = q at hp
  unfold Ppu.advance
  dsimp only
  split
  · split <;> exact Ppu.memoriesOk_of h hp.ntRam hp.oam
  · exact Ppu.memoriesOk_of h hp.ntRam hp.oam

/-! ## All devices together -/

/-- The part of the invariant that is about the devices. -/
def State.devicesOk (s : State) : Prop := s.ppu.placeOk = true ∧ s.apu.ok s.params = true ∧ s.memoriesOk = true

/-- The invariant is that of the devices, that of P, and that of the clocks left. -/
theorem State.ok_iff (s : State) :
    s.ok = true ↔ s.devicesOk ∧ s.cpu.statusOk = true ∧ s.cpu.timingOk = true := by
  simp only [State.ok, State.devicesOk, Bool.and_eq_true]
  exact ⟨fun h => ⟨⟨h.1.1.2, h.1.2, h.2⟩, h.1.1.1.1, h.1.1.1.2⟩, fun h => ⟨⟨⟨⟨h.2.1, h.2.2⟩, h.1.1⟩, h.1.2.1⟩, h.1.2.2⟩⟩

/-- What `Ppu.placeOk` looks at. -/
theorem Ppu.placeOk_of {p q : Ppu} (h : p.placeOk = true) (h1 : q.scanline = p.scanline) (h2 : q.dot = p.dot)
    (h3 : q.activeSprites = p.activeSprites) : q.placeOk = true := by
  simp only [Ppu.placeOk, h1, h2, h3] at h ⊢
  exact h

@[simp] theorem State.devicesOk_mapCpu (s : State) (f : Cpu → Cpu) : (s.mapCpu f).devicesOk ↔ s.devicesOk := Iff.rfl
@[simp] theorem State.devicesOk_latch (s : State) (v : Byte) : (s.latch v).devicesOk ↔ s.devicesOk := Iff.rfl

theorem ReadOnly.devicesOk {s t : State} (h : ReadOnly s t) (hs : s.devicesOk) : t.devicesOk := by
  refine ⟨Ppu.placeOk_of hs.1 h.ppu.scanline h.ppu.dot h.ppu.activeSprites, ?_, h.memoriesOk hs.2.2⟩
  rw [h.params]
  rcases h.apu with h1 | h1 <;> rw [h1] <;> exact hs.2.1

theorem Ppu.write_place (c : Option Cart) (p : Ppu) (a : BitVec 14) (v : Byte) :
    (p.write c a v).2.scanline = p.scanline ∧ (p.write c a v).2.dot = p.dot ∧
      (p.write c a v).2.activeSprites = p.activeSprites := by
  unfold Ppu.write
  split
  · exact ⟨rfl, rfl, rfl⟩
  split <;> exact ⟨rfl, rfl, rfl⟩

theorem Ppu.regWrite_place (c : Option Cart) (p : Ppu) (r : BitVec 3) (v : Byte) :
    (p.regWrite c r v).2.scanline = p.scanline ∧ (p.regWrite c r v).2.dot = p.dot ∧
      (p.regWrite c r v).2.activeSprites = p.activeSprites := by
  by_cases h7 : r = 7
  · subst h7
    rw [Ppu.regWrite_data]
    exact Ppu.write_place c (p.refresh v) _ v
  unfold Ppu.regWrite
  dsimp only
  split
  · exact ⟨rfl, rfl, rfl⟩
  have h7' : r.toNat ≠ 7 := fun h => h7 (BitVec.eq_of_toNat_eq h)
  split
  · exact ⟨rfl, rfl, rfl⟩
  · exact ⟨rfl, rfl, rfl⟩
  · exact ⟨rfl, rfl, rfl⟩
  · exact ⟨rfl, rfl, rfl⟩
  · unfold Ppu.writeScroll; split <;> exact ⟨rfl, rfl, rfl⟩
  · unfold Ppu.writeAddr; split <;> exact ⟨rfl, rfl, rfl⟩
  · next h => exact absurd h h7'
  · exact ⟨rfl, rfl, rfl⟩

theorem oamDmaCopy_place (page : Byte) : ∀ (n : Nat) {s : State},
    (oamDmaCopy page n s).ppu.scanline = s.ppu.scanline ∧ (oamDmaCopy page n s).ppu.dot = s.ppu.dot ∧
      (oamDmaCopy page n s).ppu.activeSprites = s.ppu.activeSprites
  | 0, _ => ⟨rfl, rfl, rfl⟩
  | n + 1, s => by
    have hr := (busRead_readOnly (mkWord page (BitVec.ofNat 8 (255 - n))) s).ppu
    have h := oamDmaCopy_place page n (s := oamDmaStep page (255 - n) s)
    exact ⟨h.1.trans hr.scanline, h.2.1.trans hr.dot, h.2.2.trans hr.activeSprites⟩

theorem oamDmaCopy_apuOk (k : Params) (page : Byte) : ∀ (n : Nat) {s : State}, s.apu.ok k = true → (oamDmaCopy page n s).apu.ok k = true
  | 0, _, h => h
  | n + 1, s, h => by
    refine oamDmaCopy_apuOk k page n ?_
    have hr := (busRead_readOnly (mkWord page (BitVec.ofNat 8 (255 - n))) s).apu
    show (busRead (mkWord page (BitVec.ofNat 8 (255 - n))) s).2.apu.ok k = true
    rcases hr with h1 | h1 <;> rw [h1] <;> exact h

theorem oamDma_place (v : Byte) (s : State) :
    (oamDma v s).ppu.scanline = s.ppu.scanline ∧ (oamDma v s).ppu.dot = s.ppu.dot ∧
      (oamDma v s).ppu.activeSprites = s.ppu.activeSprites := by
  have h := oamDmaCopy_place v 256 (s := s)
  unfold oamDma
  generalize oamDmaCopy v 256 s = u at h
  exact h

theorem oamDma_apuOk (k : Params) (v : Byte) {s : State} (h : s.apu.ok k = true) : (oamDma v s).apu.ok k = true := by
  have := oamDmaCopy_apuOk k v 256 h
  unfold oamDma
  generalize oamDmaCopy v 256 s = u at this
  exact this

/-- The devices stay well formed through a bus write (R440). -/
theorem busWrite_devicesOk {s : State} (h : s.devicesOk) (a : Word) (v : Byte) : (busWrite a v s).devicesOk := by
  have hm := busWrite_memoriesOk h.2.2 a v
  have hu : (((s.latch v).offerApu a v).offerCart a v).ppu.placeOk = true ∧
      (((s.latch v).offerApu a v).offerCart a v).apu.ok s.params = true := by
    refine ⟨by simpa using h.1, ?_⟩
    simp only [State.offerCart_apu]
    unfold State.offerApu
    split
    · exact (Apu.write_keeps _ _ a v).ok h.2.1
    · exact h.2.1
  refine ⟨?_, ?_, hm⟩
  on_goal 2 => rw [busWrite_params]
  all_goals unfold busWrite
  all_goals generalize ((s.latch v).offerApu a v).offerCart a v = u at hu
  all_goals unfold State.localWrite
  · split
    · exact hu.1
    split
    · have := Ppu.regWrite_place u.cart u.ppu (ppuReg a) v
      exact Ppu.placeOk_of hu.1 this.1 this.2.1 this.2.2
    split
    · have := oamDma_place v u
      exact Ppu.placeOk_of hu.1 this.1 this.2.1 this.2.2
    split <;> exact hu.1
  · split
    · exact hu.2
    split
    · exact hu.2
    split
    · exact oamDma_apuOk _ v hu.2
    split <;> exact hu.2

end Sys2Proof.Machine
end

