-- ==== Sys2Proof/Laws/PerInstr.lean ====
section
/-! SUPPORT. One lemma per instruction: the operand bytes its own rule lists are as many as the opcode map gives its opcode
byte (R152, R160). -/

namespace Sys2Proof.Laws.OpcodeRow

/-- A well-formed instruction has as many operand bytes as its opcode byte says (R152: the opcode alone gives the
length). -/
def Statement (i : Instr) : Prop := i.wf = true → i.operands.length = operandCount i.opcode

/-- How many operand bytes a memory form has (R155, R156, R158, R159). -/
def formCount (f : MemForm) : Nat := if f = .abs ∨ f = .abx ∨ f = .aby then 2 else 1

theorem bytes_length (m : MemMode) : m.bytes.length = formCount m.form := by
  cases m <;> rfl

/-- A list of encodings whose opcode bytes all have the operand count of their form. -/
theorem count_of_pick (l : List (MemForm × Byte)) (m : MemMode) (h : m.isIn (l.map Prod.fst) = true)
    (hl : l.all (fun e => operandCount e.2 == formCount e.1) = true) : m.bytes.length = operandCount (m.pick l) := by
  rw [bytes_length, MemMode.pick]
  rw [MemMode.isIn] at h
  generalize m.form = f at h
  induction l with
  | nil => simp at h
  | cons e l ih =>
    simp only [List.all_cons, Bool.and_eq_true, beq_iff_eq] at hl
    rw [List.lookup_cons]
    by_cases hf : f = e.1
    · subst hf
      simp [hl.1]
    · rw [beq_eq_false_iff_ne.mpr hf]
      exact ih hl.2 (by simpa [hf] using h)

/-- A list that an opcode byte is in, each of whose bytes has the count `n`. -/
theorem count_of_mem {l : List Byte} {op : Byte} {n : Nat} (h : l.contains op = true)
    (hl : l.all (fun b => operandCount b == n) = true) : n = operandCount op :=
  (beq_iff_eq.mp (List.all_eq_true.mp hl op (List.contains_iff_mem.mp h))).symm

theorem lda (m : ReadMode) : Statement (.lda m) := by
  cases m with
  | imm v => exact fun _ => show 1 = operandCount 0xA9 by decide
  | mem m =>
    exact fun h => count_of_pick
      [(.zp, 0xA5), (.zpx, 0xB5), (.abs, 0xAD), (.abx, 0xBD), (.aby, 0xB9), (.izx, 0xA1), (.izy, 0xB1)] m h (by decide)

theorem ldx (m : ReadMode) : Statement (.ldx m) := by
  cases m with
  | imm v => exact fun _ => show 1 = operandCount 0xA2 by decide
  | mem m =>
    exact fun h => count_of_pick
      [(.zp, 0xA6), (.zpy, 0xB6), (.abs, 0xAE), (.aby, 0xBE)] m h (by decide)

theorem ldy (m : ReadMode) : Statement (.ldy m) := by
  cases m with
  | imm v => exact fun _ => show 1 = operandCount 0xA0 by decide
  | mem m =>
    exact fun h => count_of_pick
      [(.zp, 0xA4), (.zpx, 0xB4), (.abs, 0xAC), (.abx, 0xBC)] m h (by decide)

theorem sta (m : MemMode) : Statement (.sta m) := fun h =>
  count_of_pick [(.zp, 0x85), (.zpx, 0x95), (.abs, 0x8D), (.abx, 0x9D), (.aby, 0x99), (.izx, 0x81), (.izy, 0x91)] m h (by decide)

theorem stx (m : MemMode) : Statement (.stx m) := fun h =>
  count_of_pick [(.zp, 0x86), (.zpy, 0x96), (.abs, 0x8E)] m h (by decide)

theorem sty (m : MemMode) : Statement (.sty m) := fun h =>
  count_of_pick [(.zp, 0x84), (.zpx, 0x94), (.abs, 0x8C)] m h (by decide)

theorem tax : Statement .tax := fun _ =>
  show 0 = operandCount 0xAA by decide

theorem tay : Statement .tay := fun _ =>
  show 0 = operandCount 0xA8 by decide

theorem txa : Statement .txa := fun _ =>
  show 0 = operandCount 0x8A by decide

theorem tya : Statement .tya := fun _ =>
  show 0 = operandCount 0x98 by decide

theorem tsx : Statement .tsx := fun _ =>
  show 0 = operandCount 0xBA by decide

theorem txs : Statement .txs := fun _ =>
  show 0 = operandCount 0x9A by decide

theorem pha : Statement .pha := fun _ =>
  show 0 = operandCount 0x48 by decide

theorem php : Statement .php := fun _ =>
  show 0 = operandCount 0x08 by decide

theorem pla : Statement .pla := fun _ =>
  show 0 = operandCount 0x68 by decide

theorem plp : Statement .plp := fun _ =>
  show 0 = operandCount 0x28 by decide

theorem adc (m : ReadMode) : Statement (.adc m) := by
  cases m with
  | imm v => exact fun _ => show 1 = operandCount 0x69 by decide
  | mem m =>
    exact fun h => count_of_pick
      [(.zp, 0x65), (.zpx, 0x75), (.abs, 0x6D), (.abx, 0x7D), (.aby, 0x79), (.izx, 0x61), (.izy, 0x71)] m h (by decide)

theorem sbc (m : ReadMode) : Statement (.sbc m) := by
  cases m with
  | imm v => exact fun _ => show 1 = operandCount 0xE9 by decide
  | mem m =>
    exact fun h => count_of_pick
      [(.zp, 0xE5), (.zpx, 0xF5), (.abs, 0xED), (.abx, 0xFD), (.aby, 0xF9), (.izx, 0xE1), (.izy, 0xF1)] m h (by decide)

theorem and (m : ReadMode) : Statement (.and m) := by
  cases m with
  | imm v => exact fun _ => show 1 = operandCount 0x29 by decide
  | mem m =>
    exact fun h => count_of_pick
      [(.zp, 0x25), (.zpx, 0x35), (.abs, 0x2D), (.abx, 0x3D), (.aby, 0x39), (.izx, 0x21), (.izy, 0x31)] m h (by decide)

theorem ora (m : ReadMode) : Statement (.ora m) := by
  cases m with
  | imm v => exact fun _ => show 1 = operandCount 0x09 by decide
  | mem m =>
    exact fun h => count_of_pick
      [(.zp, 0x05), (.zpx, 0x15), (.abs, 0x0D), (.abx, 0x1D), (.aby, 0x19), (.izx, 0x01), (.izy, 0x11)] m h (by decide)

theorem eor (m : ReadMode) : Statement (.eor m) := by
  cases m with
  | imm v => exact fun _ => show 1 = operandCount 0x49 by decide
  | mem m =>
    exact fun h => count_of_pick
      [(.zp, 0x45), (.zpx, 0x55), (.abs, 0x4D), (.abx, 0x5D), (.aby, 0x59), (.izx, 0x41), (.izy, 0x51)] m h (by decide)

theorem cmp (m : ReadMode) : Statement (.cmp m) := by
  cases m with
  | imm v => exact fun _ => show 1 = operandCount 0xC9 by decide
  | mem m =>
    exact fun h => count_of_pick
      [(.zp, 0xC5), (.zpx, 0xD5), (.abs, 0xCD), (.abx, 0xDD), (.aby, 0xD9), (.izx, 0xC1), (.izy, 0xD1)] m h (by decide)

theorem cpx (m : ReadMode) : Statement (.cpx m) := by
  cases m with
  | imm v => exact fun _ => show 1 = operandCount 0xE0 by decide
  | mem m =>
    exact fun h => count_of_pick
      [(.zp, 0xE4), (.abs, 0xEC)] m h (by decide)

theorem cpy (m : ReadMode) : Statement (.cpy m) := by
  cases m with
  | imm v => exact fun _ => show 1 = operandCount 0xC0 by decide
  | mem m =>
    exact fun h => count_of_pick
      [(.zp, 0xC4), (.abs, 0xCC)] m h (by decide)

theorem bit (m : MemMode) : Statement (.bit m) := fun h =>
  count_of_pick [(.zp, 0x24), (.abs, 0x2C)] m h (by decide)

theorem inc (m : MemMode) : Statement (.inc m) := fun h =>
  count_of_pick [(.zp, 0xE6), (.zpx, 0xF6), (.abs, 0xEE), (.abx, 0xFE)] m h (by decide)

theorem dec (m : MemMode) : Statement (.dec m) := fun h =>
  count_of_pick [(.zp, 0xC6), (.zpx, 0xD6), (.abs, 0xCE), (.abx, 0xDE)] m h (by decide)

theorem inx : Statement .inx := fun _ =>
  show 0 = operandCount 0xE8 by decide

theorem iny : Statement .iny := fun _ =>
  show 0 = operandCount 0xC8 by decide

theorem dex : Statement .dex := fun _ =>
  show 0 = operandCount 0xCA by decide

theorem dey : Statement .dey := fun _ =>
  show 0 = operandCount 0x88 by decide

theorem asl (m : ShiftMode) : Statement (.asl m) := by
  cases m with
  | acc => exact fun _ => show 0 = operandCount 0x0A by decide
  | mem m =>
    exact fun h => count_of_pick
      [(.zp, 0x06), (.zpx, 0x16), (.abs, 0x0E), (.abx, 0x1E)] m h (by decide)

theorem lsr (m : ShiftMode) : Statement (.lsr m) := by
  cases m with
  | acc => exact fun _ => show 0 = operandCount 0x4A by decide
  | mem m =>
    exact fun h => count_of_pick
      [(.zp, 0x46), (.zpx, 0x56), (.abs, 0x4E), (.abx, 0x5E)] m h (by decide)

theorem rol (m : ShiftMode) : Statement (.rol m) := by
  cases m with
  | acc => exact fun _ => show 0 = operandCount 0x2A by decide
  | mem m =>
    exact fun h => count_of_pick
      [(.zp, 0x26), (.zpx, 0x36), (.abs, 0x2E), (.abx, 0x3E)] m h (by decide)

theorem ror (m : ShiftMode) : Statement (.ror m) := by
  cases m with
  | acc => exact fun _ => show 0 = operandCount 0x6A by decide
  | mem m =>
    exact fun h => count_of_pick
      [(.zp, 0x66), (.zpx, 0x76), (.abs, 0x6E), (.abx, 0x7E)] m h (by decide)

theorem jmp (target : Word) : Statement (.jmp target) := fun _ =>
  show 2 = operandCount 0x4C by decide

theorem jmpInd (ptr : Word) : Statement (.jmpInd ptr) := fun _ =>
  show 2 = operandCount 0x6C by decide

theorem jsr (target : Word) : Statement (.jsr target) := fun _ =>
  show 2 = operandCount 0x20 by decide

theorem rts : Statement .rts := fun _ =>
  show 0 = operandCount 0x60 by decide

theorem rti : Statement .rti := fun _ =>
  show 0 = operandCount 0x40 by decide

theorem brk : Statement .brk := fun _ =>
  show 0 = operandCount 0x00 by decide

theorem bpl (off : Byte) : Statement (.bpl off) := fun _ =>
  show 1 = operandCount 0x10 by decide

theorem bmi (off : Byte) : Statement (.bmi off) := fun _ =>
  show 1 = operandCount 0x30 by decide

theorem bvc (off : Byte) : Statement (.bvc off) := fun _ =>
  show 1 = operandCount 0x50 by decide

theorem bvs (off : Byte) : Statement (.bvs off) := fun _ =>
  show 1 = operandCount 0x70 by decide

theorem bcc (off : Byte) : Statement (.bcc off) := fun _ =>
  show 1 = operandCount 0x90 by decide

theorem bcs (off : Byte) : Statement (.bcs off) := fun _ =>
  show 1 = operandCount 0xB0 by decide

theorem bne (off : Byte) : Statement (.bne off) := fun _ =>
  show 1 = operandCount 0xD0 by decide

theorem beq (off : Byte) : Statement (.beq off) := fun _ =>
  show 1 = operandCount 0xF0 by decide

theorem clc : Statement .clc := fun _ =>
  show 0 = operandCount 0x18 by decide

theorem sec : Statement .sec := fun _ =>
  show 0 = operandCount 0x38 by decide

theorem cli : Statement .cli := fun _ =>
  show 0 = operandCount 0x58 by decide

theorem sei : Statement .sei := fun _ =>
  show 0 = operandCount 0x78 by decide

theorem cld : Statement .cld := fun _ =>
  show 0 = operandCount 0xD8 by decide

theorem sed : Statement .sed := fun _ =>
  show 0 = operandCount 0xF8 by decide

theorem clv : Statement .clv := fun _ =>
  show 0 = operandCount 0xB8 by decide

theorem nop : Statement .nop := fun _ =>
  show 0 = operandCount 0xEA by decide

theorem slo (m : MemMode) : Statement (.slo m) := fun h =>
  count_of_pick [(.zp, 0x07), (.zpx, 0x17), (.abs, 0x0F), (.abx, 0x1F), (.aby, 0x1B), (.izx, 0x03), (.izy, 0x13)] m h (by decide)

theorem rla (m : MemMode) : Statement (.rla m) := fun h =>
  count_of_pick [(.zp, 0x27), (.zpx, 0x37), (.abs, 0x2F), (.abx, 0x3F), (.aby, 0x3B), (.izx, 0x23), (.izy, 0x33)] m h (by decide)

theorem sre (m : MemMode) : Statement (.sre m) := fun h =>
  count_of_pick [(.zp, 0x47), (.zpx, 0x57), (.abs, 0x4F), (.abx, 0x5F), (.aby, 0x5B), (.izx, 0x43), (.izy, 0x53)] m h (by decide)

theorem rra (m : MemMode) : Statement (.rra m) := fun h =>
  count_of_pick [(.zp, 0x67), (.zpx, 0x77), (.abs, 0x6F), (.abx, 0x7F), (.aby, 0x7B), (.izx, 0x63), (.izy, 0x73)] m h (by decide)

theorem sax (m : MemMode) : Statement (.sax m) := fun h =>
  count_of_pick [(.zp, 0x87), (.zpy, 0x97), (.abs, 0x8F), (.izx, 0x83)] m h (by decide)

theorem lax (m : MemMode) : Statement (.lax m) := fun h =>
  count_of_pick [(.zp, 0xA7), (.zpy, 0xB7), (.abs, 0xAF), (.aby, 0xBF), (.izx, 0xA3), (.izy, 0xB3)] m h (by decide)

theorem dcp (m : MemMode) : Statement (.dcp m) := fun h =>
  count_of_pick [(.zp, 0xC7), (.zpx, 0xD7), (.abs, 0xCF), (.abx, 0xDF), (.aby, 0xDB), (.izx, 0xC3), (.izy, 0xD3)] m h (by decide)

theorem isc (m : MemMode) : Statement (.isc m) := fun h =>
  count_of_pick [(.zp, 0xE7), (.zpx, 0xF7), (.abs, 0xEF), (.abx, 0xFF), (.aby, 0xFB), (.izx, 0xE3), (.izy, 0xF3)] m h (by decide)

theorem anc (op : Byte) (v : Byte) : Statement (.anc op v) := fun h =>
  count_of_mem (l := ancOpcodes) (n := 1) h (by decide)

theorem asr (v : Byte) : Statement (.asr v) := fun _ =>
  show 1 = operandCount 0x4B by decide

theorem arr (v : Byte) : Statement (.arr v) := fun _ =>
  show 1 = operandCount 0x6B by decide

theorem ane (v : Byte) : Statement (.ane v) := fun _ =>
  show 1 = operandCount 0x8B by decide

theorem lxa (v : Byte) : Statement (.lxa v) := fun _ =>
  show 1 = operandCount 0xAB by decide

theorem axs (v : Byte) : Statement (.axs v) := fun _ =>
  show 1 = operandCount 0xCB by decide

theorem sbcMirror (v : Byte) : Statement (.sbcMirror v) := fun _ =>
  show 1 = operandCount 0xEB by decide

theorem lae (base : Word) : Statement (.lae base) := fun _ =>
  show 2 = operandCount 0xBB by decide

theorem nopImplied (op : Byte) : Statement (.nopImplied op) := fun h =>
  count_of_mem (l := nopImpliedOpcodes) (n := 0) h (by decide)

theorem nopImm (op : Byte) (v : Byte) : Statement (.nopImm op v) := fun h =>
  count_of_mem (l := nopImmOpcodes) (n := 1) h (by decide)

theorem nopRead (op : Byte) (m : MemMode) : Statement (.nopRead op m) := by
  intro h
  cases m with
  | zp z => exact count_of_mem (l := nopZpOpcodes) (n := 1) h (by decide)
  | zpx z => exact count_of_mem (l := nopZpxOpcodes) (n := 1) h (by decide)
  | abs w =>
    have hop : op = 0x0C := eq_of_beq h
    subst hop
    show 2 = operandCount 0x0C
    decide
  | zpy z => exact Bool.noConfusion h
  | abx w => exact Bool.noConfusion h
  | aby w => exact Bool.noConfusion h
  | izx z => exact Bool.noConfusion h
  | izy z => exact Bool.noConfusion h

theorem nopAbx (op : Byte) (base : Word) : Statement (.nopAbx op base) := fun h =>
  count_of_mem (l := nopAbxOpcodes) (n := 2) h (by decide)

theorem nopUnknown (op : Byte) : Statement (.nopUnknown op) := fun h =>
  count_of_mem (l := unknownOpcodes) (n := 0) h (by decide)

theorem shaIzy (z : Byte) : Statement (.shaIzy z) := fun _ =>
  show 1 = operandCount 0x93 by decide

theorem shaAby (base : Word) : Statement (.shaAby base) := fun _ =>
  show 2 = operandCount 0x9F by decide

theorem shx (base : Word) : Statement (.shx base) := fun _ =>
  show 2 = operandCount 0x9E by decide

theorem shy (base : Word) : Statement (.shy base) := fun _ =>
  show 2 = operandCount 0x9C by decide

theorem shs (base : Word) : Statement (.shs base) := fun _ =>
  show 2 = operandCount 0x9B by decide

end Sys2Proof.Laws.OpcodeRow
end

