-- ==== Sys2Proof/Laws/Shapes.lean ====
section
/-! SUPPORT. One lemma for each shape of instruction that says what every instruction of that shape keeps: the meanings of
Machine/ are these shapes applied to a body, so a fact about one instruction is a fact about its body. -/

namespace Sys2Proof.Machine

/-- The body of an instruction changes only the registers and the flags listed. -/
structure BodyKeeps (regs : List Reg) (flags : List Flag) (g : Cpu → Cpu) : Prop where
  body : Cpu.Body g
  regs : ∀ c r, r ∉ regs → (g c).reg r = c.reg r
  flags : ∀ c f, f ∉ flags → getFlag (g c).p f = getFlag c.p f

theorem Cpu.pollFirst_reg (n : Nat) (c : Cpu) (r : Reg) : (c.pollFirst n).reg r = c.reg r := by
  rw [Cpu.pollFirst_eq]; cases r <;> rfl

theorem BodyKeeps.id (regs : List Reg) (flags : List Flag) : BodyKeeps regs flags (fun c => c) :=
  ⟨⟨fun _ => rfl, fun _ => rfl, fun _ => rfl, fun _ => rfl, fun _ => rfl⟩, fun _ _ _ => rfl, fun _ _ _ => rfl⟩

/-- The poll of an instruction's first clock, its body and its timing, on a CPU. -/
theorem BodyKeeps.clocked {regs : List Reg} {flags : List Flag} {g : Cpu → Cpu} (h : BodyKeeps regs flags g) (n : Nat)
    {s t : State} (ht : t.cpu = (g (s.cpu.pollFirst n)).setGeneral n) : Keeps regs flags s t ∧ Takes n s t := by
  refine ⟨⟨?_, ?_, ?_, ?_, ?_, ?_⟩, ⟨?_, ?_, ?_, ?_⟩⟩
  · intro r hr
    rw [ht, Cpu.setGeneral_eq, Cpu.setTiming_reg, h.regs _ _ hr, Cpu.pollFirst_reg]
  · intro f hf
    rw [ht, Cpu.setGeneral_eq, Cpu.setTiming_p, h.flags _ _ hf, Cpu.pollFirst_p]
  · simp [ht, Cpu.setGeneral_eq, h.body.cycleCount]
  · simp [ht, Cpu.setGeneral_eq, h.body.nmiPending]
  · simp [ht, Cpu.setGeneral_eq, h.body.irqLine]
  · simp [ht, Cpu.setGeneral_eq, h.body.sh]
  · simp [ht, Cpu.setGeneral_eq]
  · simp [ht, Cpu.setGeneral_eq]
  · simp [ht, Cpu.setGeneral_eq, generalPoll]
  · simp [ht, Cpu.setGeneral_eq, h.body.latchedIrq]

/-- The body of an instruction and its timing on a CPU, where no poll is made in the first clock. -/
theorem BodyKeeps.clockedLong {regs : List Reg} {flags : List Flag} {g : Cpu → Cpu} (h : BodyKeeps regs flags g) {n : Nat}
    (hn : 2 < n) {s t : State} (ht : t.cpu = (g s.cpu).setGeneral n) : Keeps regs flags s t ∧ Takes n s t := by
  have hp : s.cpu.pollFirst n = s.cpu := by simp [Cpu.pollFirst, Nat.not_le.mpr hn]
  exact h.clocked n (by rw [ht, hp])

/-- An instruction that touches only CPU registers. -/
theorem registerOp_only {regs : List Reg} {flags : List Flag} {g : Cpu → Cpu} (h : BodyKeeps regs flags g) (n : Nat)
    (hpc : ∀ c, (g c).pc = c.pc) (s : State) : RegistersOnly regs flags n s (registerOp n g s) := by
  have hk := h.clocked (s := s) (t := registerOp n g s) n rfl
  exact ⟨hk.1, by simp [registerOp, Cpu.setGeneral_eq, hpc], ⟨rfl, rfl, rfl, rfl, rfl⟩, hk.2⟩

/-- An instruction that reads an operand. -/
theorem readOp_reads {regs : List Reg} {flags : List Flag} {f : Byte → Cpu → Cpu}
    (h : ∀ v, BodyKeeps regs flags (f v)) (hpc : ∀ v c, (f v c).pc = c.pc) (m : ReadMode) (s : State) :
    ReadsOperand regs flags m s (readOp m f s) := by
  have hk := (h (readMode m s).value).clocked (s := s) (t := readOp m f s) (readMode m s).cycles (by simp [readOp])
  exact ⟨hk.1, by simp [readOp, Cpu.setGeneral_eq, hpc], ⟨rfl, rfl, rfl, rfl, rfl⟩, (readMode_readOnly m s).sameMemory, hk.2⟩

theorem writeCycles_long (m : MemMode) : 2 < writeCycles m := by cases m <;> simp [writeCycles]

theorem rmwCycles_long (m : MemMode) : 2 < rmwCycles m := by cases m <;> simp [rmwCycles]

/-- A byte written to work RAM is there afterwards. -/
theorem busWrite_stored (a : Word) (v : Byte) (s : State) (h : a.toNat ≤ 0x1FFF) :
    (busWrite a v s).peek .ram (ramIndex a) = v := by
  simp [busWrite_lowRam v s h, State.peek]

/-- An instruction that stores a value. -/
theorem writeOp_stores (m : MemMode) (v : Byte) (s : State) : StoresOperand m v s (writeOp m v s) := by
  have hk := (BodyKeeps.id [] []).clockedLong (s := s) (t := writeOp m v s) (writeCycles_long m) (by simp [writeOp])
  refine ⟨hk.1, by simp [writeOp, Cpu.setGeneral_eq], ⟨rfl, rfl, rfl, rfl, rfl⟩, ?_, ?_, hk.2⟩
  · exact busWrite_stored _ _ _
  · intro sp i hs
    exact (busWrite_frame _ v _ sp i hs).trans ((beforeStore_readOnly m s).sameMemory sp i)

/-- An instruction that modifies its operand. -/
theorem rmwOp_modifies {regs : List Reg} {flags : List Flag} {f : Byte → Byte} {g : Byte → Cpu → Cpu}
    (h : ∀ v, BodyKeeps regs flags (g v)) (hpc : ∀ v c, (g v c).pc = c.pc) (m : MemMode) (s : State) :
    ModifiesOperand regs flags m (f (rmwOld m s)) s (rmwOp m f g s) := by
  have hk := (h (rmwOld m s)).clockedLong (s := s) (t := rmwOp m f g s) (rmwCycles_long m) (by
    simp [rmwOp, rmwOperand, rmwOld, beforeStore])
  refine ⟨hk.1, by simp [rmwOp, Cpu.setGeneral_eq, hpc], ⟨rfl, rfl, rfl, rfl, rfl⟩, ?_, ?_, hk.2⟩
  · exact busWrite_stored _ _ _
  · intro sp i h1 h2
    have hr : ReadOnly s (rmwFirst m s) := (beforeStore_readOnly m s).trans (busRead_readOnly _ _)
    exact (busWrite_frame _ _ _ sp i h2).trans ((busWrite_frame _ _ _ sp i h1).trans (hr.sameMemory sp i))

end Sys2Proof.Machine
end

