-- ==== Sys2Proof/Tests/Slice0.lean ====
section
/-! SUPPORT. The model's own tests: the well-formedness checks, decoding, one instruction each from the vectors that
spec/95_test_vectors.md works out by hand, and a witness for the hypotheses of each statement. A comment `L1`, `A1`, `C1`,
`U1`, `B1`, `M1`, `V1`, `P1`, `I1`, `Z1` names the vector. -/

namespace Sys2Proof.Tests

open Sys2Proof.Machine

set_option maxRecDepth 20000
set_option Elab.async false

/-! ## A small machine -/

/-- Work RAM with the given bytes, everything else as after reset, no cartridge. -/
def machine (cells : List (Nat × Byte)) (c : Cpu) : State :=
  { State.reset with
    cpu := c
    bus := { Bus.reset with ram := cells.foldl (fun m e => Memory.write m e.1 e.2) [] } }

/-- The CPU of the vectors: the registers after reset, at an instruction boundary, PC at 0x0200. -/
def cpu0 : Cpu := { Cpu.reset 0x0200 with cyclesRemaining := 0 }

/-- Bytes as work RAM cells from an address on. -/
def cellsAt (a : Nat) : List Byte → List (Nat × Byte)
  | [] => []
  | b :: rest => (a, b) :: cellsAt (a + 1) rest

/-- A machine about to run the instruction whose bytes stand at 0x0200. -/
def about (bytes : List Byte) (cells : List (Nat × Byte)) (c : Cpu) : State := machine (cellsAt 0x200 bytes ++ cells) c

/-- The state one step later. -/
def after (s : State) : State :=
  match step s with
  | .next t => t
  | .fault _ => s
  | .refused _ => s

/-- One instruction begun in one step. -/
def ran (bytes : List Byte) (cells : List (Nat × Byte)) (c : Cpu) : State := after (about bytes cells c)

/-- The clocks the instruction takes, one of them done. -/
def cyc (t : State) : Nat := t.cpu.cyclesRemaining + 1

/-- A byte of work RAM. -/
def ramAt (t : State) (i : Nat) : Byte := t.peek .ram i

/-! ## Well-formedness: a term that each check refuses -/

theorem test_wf_refuses_lda_zpy : (Instr.lda (.mem (.zpy 0x10))).wf = false := by decide
theorem test_wf_refuses_ldx_zpx : (Instr.ldx (.mem (.zpx 0x10))).wf = false := by decide
theorem test_wf_refuses_ldy_aby : (Instr.ldy (.mem (.aby 0x1000))).wf = false := by decide
theorem test_wf_refuses_sta_zpy : (Instr.sta (.zpy 0x10)).wf = false := by decide
theorem test_wf_refuses_stx_zpx : (Instr.stx (.zpx 0x10)).wf = false := by decide
theorem test_wf_refuses_sty_abx : (Instr.sty (.abx 0x1000)).wf = false := by decide
theorem test_wf_refuses_alu_zpy :
    [Instr.adc (.mem (.zpy 1)), .sbc (.mem (.zpy 1)), .and (.mem (.zpy 1)), .ora (.mem (.zpy 1)), .eor (.mem (.zpy 1)),
      .cmp (.mem (.zpy 1))].all (fun i => !i.wf) = true := by decide
theorem test_wf_refuses_cpx_zpx : (Instr.cpx (.mem (.zpx 0x10))).wf = false := by decide
theorem test_wf_refuses_cpy_izx : (Instr.cpy (.mem (.izx 0x10))).wf = false := by decide
theorem test_wf_refuses_bit_abx : (Instr.bit (.abx 0x1000)).wf = false := by decide
theorem test_wf_refuses_incdec_izx : (Instr.inc (.izx 0x10)).wf = false ∧ (Instr.dec (.aby 0x10)).wf = false := by decide
theorem test_wf_refuses_shift_izy :
    [Instr.asl (.mem (.izy 1)), .lsr (.mem (.izy 1)), .rol (.mem (.aby 1)), .ror (.mem (.zpy 1))].all (fun i => !i.wf) =
      true := by decide
theorem test_wf_refuses_combined_zpy :
    [Instr.slo (.zpy 1), .rla (.zpy 1), .sre (.zpy 1), .rra (.zpy 1), .dcp (.zpy 1), .isc (.zpy 1)].all
      (fun i => !i.wf) = true := by decide
theorem test_wf_refuses_sax_zpx : (Instr.sax (.zpx 0x10)).wf = false := by decide
theorem test_wf_refuses_lax_abx : (Instr.lax (.abx 0x1000)).wf = false := by decide
theorem test_wf_refuses_anc_opcode : (Instr.anc 0x0C 0x80).wf = false := by decide
theorem test_wf_refuses_nop_implied_opcode : (Instr.nopImplied 0xEA).wf = false := by decide
theorem test_wf_refuses_nop_imm_opcode : (Instr.nopImm 0x81 0).wf = false := by decide
theorem test_wf_refuses_nop_read_form : (Instr.nopRead 0x04 (.zpx 0)).wf = false := by decide
theorem test_wf_refuses_nop_read_opcode : (Instr.nopRead 0x05 (.zp 0)).wf = false := by decide
theorem test_wf_refuses_nop_abx_opcode : (Instr.nopAbx 0x9C 0x1000).wf = false := by decide
theorem test_wf_refuses_unknown_opcode : (Instr.nopUnknown 0x00).wf = false := by decide

/-- An ill-formed term has no encoding. -/
theorem test_encode_of_ill_formed : encode (.lda (.mem (.zpy 0x10))) = [] := by decide

/-! ## Decoding: words written out from the encodings of 40 to 44, low byte first -/

theorem test_decode_load_store_words :
    decodeTableWord 16 0x05A9 = some (.lda (.imm 0x05)) ∧ decodeTableWord 24 0x1234BD = some (.lda (.mem (.abx 0x1234))) ∧
      decodeTableWord 16 0x10B6 = some (.ldx (.mem (.zpy 0x10))) ∧ decodeTableWord 24 0x1234BC = some (.ldy (.mem (.abx 0x1234))) ∧
      decodeTableWord 16 0x1091 = some (.sta (.izy 0x10)) ∧ decodeTableWord 16 0x1096 = some (.stx (.zpy 0x10)) ∧
      decodeTableWord 24 0x20008C = some (.sty (.abs 0x2000)) ∧ decodeTableWord 8 0xAA = some .tax ∧
      decodeTableWord 8 0x9A = some .txs ∧ decodeTableWord 8 0x48 = some .pha ∧ decodeTableWord 8 0x28 = some .plp := by
  decide +kernel

theorem test_decode_arithmetic_words :
    decodeTableWord 16 0x1061 = some (.adc (.mem (.izx 0x10))) ∧ decodeTableWord 16 0xF0E9 = some (.sbc (.imm 0xF0)) ∧
      decodeTableWord 24 0x123439 = some (.and (.mem (.aby 0x1234))) ∧ decodeTableWord 16 0x1015 = some (.ora (.mem (.zpx 0x10))) ∧
      decodeTableWord 16 0xFF49 = some (.eor (.imm 0xFF)) ∧ decodeTableWord 16 0x10C5 = some (.cmp (.mem (.zp 0x10))) ∧
      decodeTableWord 16 0x10E0 = some (.cpx (.imm 0x10)) ∧ decodeTableWord 24 0x1234CC = some (.cpy (.mem (.abs 0x1234))) ∧
      decodeTableWord 16 0x1024 = some (.bit (.zp 0x10)) ∧ decodeTableWord 24 0x1234FE = some (.inc (.abx 0x1234)) ∧
      decodeTableWord 16 0x10C6 = some (.dec (.zp 0x10)) ∧ decodeTableWord 8 0xE8 = some .inx ∧
      decodeTableWord 8 0x0A = some (.asl .acc) ∧ decodeTableWord 16 0x107E = some (.ror (.mem (.abx 0x0010))) := by
  decide +kernel

theorem test_decode_control_words :
    decodeTableWord 24 0x12344C = some (.jmp 0x1234) ∧ decodeTableWord 24 0x02FF6C = some (.jmpInd 0x02FF) ∧
      decodeTableWord 24 0x000620 = some (.jsr 0x0006) ∧ decodeTableWord 8 0x60 = some .rts ∧
      decodeTableWord 8 0x40 = some .rti ∧ decodeTableWord 8 0x00 = some .brk ∧ decodeTableWord 16 0xFBD0 = some (.bne 0xFB) ∧
      decodeTableWord 16 0x0270 = some (.bvs 0x02) ∧ decodeTableWord 8 0x58 = some .cli ∧ decodeTableWord 8 0xB8 = some .clv ∧
      decodeTableWord 8 0xEA = some .nop := by
  decide +kernel

theorem test_decode_unofficial_words :
    decodeTableWord 16 0x1003 = some (.slo (.izx 0x10)) ∧ decodeTableWord 24 0x12343B = some (.rla (.aby 0x1234)) ∧
      decodeTableWord 16 0x1097 = some (.sax (.zpy 0x10)) ∧ decodeTableWord 24 0x1234BF = some (.lax (.aby 0x1234)) ∧
      decodeTableWord 16 0x10E3 = some (.isc (.izx 0x10)) ∧ decodeTableWord 16 0x7F2B = some (.anc 0x2B 0x7F) ∧
      decodeTableWord 16 0x034B = some (.asr 0x03) ∧ decodeTableWord 16 0x0F8B = some (.ane 0x0F) ∧
      decodeTableWord 16 0x01EB = some (.sbcMirror 0x01) ∧ decodeTableWord 24 0x0300BB = some (.lae 0x0300) ∧
      decodeTableWord 8 0x1A = some (.nopImplied 0x1A) ∧ decodeTableWord 16 0x1080 = some (.nopImm 0x80 0x10) ∧
      decodeTableWord 24 0x20020C = some (.nopRead 0x0C (.abs 0x2002)) ∧ decodeTableWord 24 0x02FF3C = some (.nopAbx 0x3C 0x02FF) ∧
      decodeTableWord 8 0x02 = some (.nopUnknown 0x02) := by
  decide +kernel

theorem test_decode_unstable_words :
    decodeTableWord 16 0x1093 = some (.shaIzy 0x10) ∧ decodeTableWord 24 0xBFFF9F = some (.shaAby 0xBFFF) ∧
      decodeTableWord 24 0x02FF9E = some (.shx 0x02FF) ∧ decodeTableWord 24 0x02FF9C = some (.shy 0x02FF) ∧
      decodeTableWord 24 0x02009B = some (.shs 0x0200) := by
  decide +kernel

/-- Bytes that run out are refused by name. -/
theorem test_decode_truncated :
    decode [] = .error .empty ∧ decode [0xAD, 0x00] = .error (.truncated 0xAD) ∧ decode [0xA9] = .error (.truncated 0xA9) := by
  refine ⟨rfl, rfl, rfl⟩

/-- An instruction placed by `withFetchWord` is the first one to run after reset. -/
theorem test_first_instruction_after_reset :
    (after (State.reset.withFetchWord 16 0x80A9)).cpu.a = 0x80 ∧ (after (State.reset.withFetchWord 16 0x80A9)).cpu.pc = 0x0002 := by
  decide +kernel


/-! ## Loads, stores, transfers, stack (2.1) -/

-- L3
theorem test_lda_page_cross :
    let t := ran [0xBD, 0xFF, 0x10] [(0x0000, 0x11), (0x0100, 0x7F)] { cpu0 with x := 0x01 }
    (t.cpu.a, t.cpu.p, cyc t) = (0x7F, 0x24, 5) := by decide +kernel

-- L6
theorem test_lda_izx_wraps :
    let t := ran [0xA1, 0xFE] [(0x00FF, 0x34), (0x0000, 0x03), (0x0334, 0xC3)] { cpu0 with x := 0x01 }
    (t.cpu.a, t.cpu.p, cyc t) = (0xC3, 0xA4, 6) := by decide +kernel

-- L5
theorem test_ldx_zpy_wraps :
    let t := ran [0xB6, 0xF0] [(0x0010, 0x42), (0x0110, 0x99)] { cpu0 with y := 0x20 }
    (t.cpu.x, cyc t) = (0x42, 4) := by decide +kernel

-- L8
theorem test_ldy_abs :
    let t := ran [0xAC, 0x34, 0x03] [] { cpu0 with y := 0x01 }
    (t.cpu.y, t.cpu.p, cyc t) = (0x00, 0x26, 4) := by decide +kernel

-- L9
theorem test_sta_abx :
    let t := ran [0x9D, 0xFF, 0x02] [] { cpu0 with a := 0xAB, x := 0x01 }
    (ramAt t 0x0300, t.cpu.p, cyc t) = (0xAB, 0x24, 5) := by decide +kernel

-- L10
theorem test_sta_izy :
    let t := ran [0x91, 0x40] [(0x0040, 0x00), (0x0041, 0x03)] { cpu0 with a := 0x77, y := 0x05 }
    (ramAt t 0x0305, cyc t) = (0x77, 6) := by decide +kernel

-- L11
theorem test_stx_zpy :
    let t := ran [0x96, 0xFF] [] { cpu0 with x := 0x12, y := 0x02 }
    (ramAt t 0x0001, cyc t) = (0x12, 4) := by decide +kernel

-- L12
theorem test_sty_zp :
    let t := ran [0x84, 0x33] [] { cpu0 with y := 0x80 }
    (ramAt t 0x0033, t.cpu.p, cyc t) = (0x80, 0x24, 3) := by decide +kernel

-- L13
theorem test_tax :
    let t := ran [0xAA] [] { cpu0 with a := 0x80 }
    (t.cpu.x, t.cpu.p, cyc t) = (0x80, 0xA4, 2) := by decide +kernel

-- L14
theorem test_tay :
    let t := ran [0xA8] [] { cpu0 with y := 0x09 }
    (t.cpu.y, t.cpu.p, cyc t) = (0x00, 0x26, 2) := by decide +kernel

-- L15
theorem test_txa :
    let t := ran [0x8A] [] { cpu0 with x := 0x01, a := 0x80 }
    (t.cpu.a, t.cpu.p, cyc t) = (0x01, 0x24, 2) := by decide +kernel

-- L16
theorem test_tya :
    let t := ran [0x98] [] { cpu0 with y := 0xFF }
    (t.cpu.a, t.cpu.p, cyc t) = (0xFF, 0xA4, 2) := by decide +kernel

-- L17
theorem test_tsx :
    let t := ran [0xBA] [] { cpu0 with sp := 0x00, x := 0x05 }
    (t.cpu.x, t.cpu.p, cyc t) = (0x00, 0x26, 2) := by decide +kernel

-- L18
theorem test_txs :
    let t := ran [0x9A] [] { cpu0 with p := 0xA4 }
    (t.cpu.sp, t.cpu.p, cyc t) = (0x00, 0xA4, 2) := by decide +kernel

-- L19
theorem test_pha_wraps :
    let t := ran [0x48] [] { cpu0 with a := 0x9C, sp := 0x00 }
    (ramAt t 0x0100, t.cpu.sp, cyc t) = (0x9C, 0xFF, 3) := by decide +kernel

-- L20
theorem test_php :
    let t := ran [0x08] [] { cpu0 with p := 0xE3 }
    (ramAt t 0x01FD, t.cpu.sp, t.cpu.p, cyc t) = (0xF3, 0xFC, 0xE3, 3) := by decide +kernel

-- L22
theorem test_pla_wraps :
    let t := ran [0x68] [(0x0100, 0x80)] { cpu0 with sp := 0xFF }
    (t.cpu.a, t.cpu.sp, t.cpu.p, cyc t) = (0x80, 0x00, 0xA4, 4) := by decide +kernel

-- L23
theorem test_plp :
    let t := ran [0x28] [(0x01FE, 0xFF)] cpu0
    (t.cpu.p, t.cpu.sp, cyc t) = (0xEF, 0xFE, 4) := by decide +kernel


/-! ## Arithmetic, logic, compares, shifts (2.2) -/

-- A1
theorem test_adc_overflow :
    let t := ran [0x69, 0x50] [] { cpu0 with a := 0x50 }
    (t.cpu.a, t.cpu.p, cyc t) = (0xA0, 0xE4, 2) := by decide +kernel

-- A5
theorem test_adc_ignores_decimal :
    let t := ran [0x69, 0x01] [] { cpu0 with a := 0x09, p := 0x2C }
    (t.cpu.a, t.cpu.p, cyc t) = (0x0A, 0x2C, 2) := by decide +kernel

-- A8
theorem test_sbc_borrow :
    let t := ran [0xE9, 0x00] [] cpu0
    (t.cpu.a, t.cpu.p, cyc t) = (0xFF, 0xA4, 2) := by decide +kernel

-- A9
theorem test_sbc_overflow :
    let t := ran [0xE9, 0x01] [] { cpu0 with a := 0x80, p := 0x25 }
    (t.cpu.a, t.cpu.p, cyc t) = (0x7F, 0x65, 2) := by decide +kernel

-- A16
theorem test_and :
    let t := ran [0x29, 0x0F] [] { cpu0 with a := 0xF0 }
    (t.cpu.a, t.cpu.p, cyc t) = (0x00, 0x26, 2) := by decide +kernel

-- A17
theorem test_ora :
    let t := ran [0x09, 0x80] [] { cpu0 with a := 0x01 }
    (t.cpu.a, t.cpu.p, cyc t) = (0x81, 0xA4, 2) := by decide +kernel

-- A18
theorem test_eor :
    let t := ran [0x49, 0xFF] [] { cpu0 with a := 0xFF }
    (t.cpu.a, t.cpu.p, cyc t) = (0x00, 0x26, 2) := by decide +kernel

-- A11
theorem test_cmp_equal :
    let t := ran [0xC9, 0x40] [] { cpu0 with a := 0x40 }
    (t.cpu.a, t.cpu.p, cyc t) = (0x40, 0x27, 2) := by decide +kernel

-- A13
theorem test_cmp_keeps_v :
    let t := ran [0xC9, 0x01] [] { cpu0 with a := 0x80, p := 0x64 }
    (t.cpu.a, t.cpu.p, cyc t) = (0x80, 0x65, 2) := by decide +kernel

-- A14
theorem test_cpx :
    let t := ran [0xE4, 0x10] [(0x0010, 0xFF)] { cpu0 with p := 0x25 }
    (t.cpu.x, t.cpu.p, cyc t) = (0x00, 0x24, 3) := by decide +kernel

-- A15
theorem test_cpy :
    let t := ran [0xC0, 0x10] [] { cpu0 with y := 0x20 }
    (t.cpu.y, t.cpu.p, cyc t) = (0x20, 0x25, 2) := by decide +kernel

-- A19
theorem test_bit_zp :
    let t := ran [0x24, 0x10] [(0x0010, 0xC0)] { cpu0 with a := 0x01 }
    (t.cpu.a, t.cpu.p, cyc t) = (0x01, 0xE6, 3) := by decide +kernel

-- A20
theorem test_bit_abs :
    let t := ran [0x2C, 0x10, 0x03] [(0x0310, 0x3F)] { cpu0 with a := 0x01, p := 0xE4 }
    (t.cpu.p, cyc t) = (0x24, 4) := by decide +kernel

-- A21
theorem test_inc_zp :
    let t := ran [0xE6, 0x10] [(0x0010, 0xFF)] cpu0
    (ramAt t 0x0010, t.cpu.p, cyc t) = (0x00, 0x26, 5) := by decide +kernel

-- A23
theorem test_inc_abx :
    let t := ran [0xFE, 0xFF, 0x02] [(0x0300, 0x7F)] { cpu0 with x := 0x01 }
    (ramAt t 0x0300, t.cpu.p, cyc t) = (0x80, 0xA4, 7) := by decide +kernel

-- A22
theorem test_dec_abs :
    let t := ran [0xCE, 0x10, 0x03] [] cpu0
    (ramAt t 0x0310, t.cpu.p, cyc t) = (0xFF, 0xA4, 6) := by decide +kernel

-- A24
theorem test_inx :
    let t := ran [0xE8] [] { cpu0 with x := 0xFF }
    (t.cpu.x, t.cpu.p, cyc t) = (0x00, 0x26, 2) := by decide +kernel

-- A25
theorem test_iny :
    let t := ran [0xC8] [] { cpu0 with y := 0x7F }
    (t.cpu.y, t.cpu.p, cyc t) = (0x80, 0xA4, 2) := by decide +kernel

-- A26
theorem test_dex :
    let t := ran [0xCA] [] { cpu0 with x := 0x01 }
    (t.cpu.x, t.cpu.p, cyc t) = (0x00, 0x26, 2) := by decide +kernel

-- A27
theorem test_dey :
    let t := ran [0x88] [] cpu0
    (t.cpu.y, t.cpu.p, cyc t) = (0xFF, 0xA4, 2) := by decide +kernel

-- A28
theorem test_asl_acc :
    let t := ran [0x0A] [] { cpu0 with a := 0x80 }
    (t.cpu.a, t.cpu.p, cyc t) = (0x00, 0x27, 2) := by decide +kernel

-- A33
theorem test_asl_zpx_wraps :
    let t := ran [0x16, 0xF0] [(0x0000, 0x41)] { cpu0 with x := 0x10 }
    (ramAt t 0x0000, t.cpu.p, cyc t) = (0x82, 0xA4, 6) := by decide +kernel

-- A29
theorem test_lsr_acc :
    let t := ran [0x4A] [] { cpu0 with a := 0x01, p := 0xA4 }
    (t.cpu.a, t.cpu.p, cyc t) = (0x00, 0x27, 2) := by decide +kernel

-- A34
theorem test_lsr_abs :
    let t := ran [0x4E, 0x00, 0x03] [(0x0300, 0x02)] { cpu0 with p := 0x25 }
    (ramAt t 0x0300, t.cpu.p, cyc t) = (0x01, 0x24, 6) := by decide +kernel

-- A30
theorem test_rol_acc :
    let t := ran [0x2A] [] { cpu0 with a := 0x80, p := 0x25 }
    (t.cpu.a, t.cpu.p, cyc t) = (0x01, 0x25, 2) := by decide +kernel

-- A35
theorem test_rol_zp :
    let t := ran [0x26, 0x10] [(0x0010, 0x40)] { cpu0 with p := 0x25 }
    (ramAt t 0x0010, t.cpu.p, cyc t) = (0x81, 0xA4, 5) := by decide +kernel

-- A31
theorem test_ror_acc :
    let t := ran [0x6A] [] { cpu0 with a := 0x01, p := 0x25 }
    (t.cpu.a, t.cpu.p, cyc t) = (0x80, 0xA5, 2) := by decide +kernel

-- A36
theorem test_ror_abx :
    let t := ran [0x7E, 0x00, 0x03] [] { cpu0 with p := 0x25, x := 0x05 }
    (ramAt t 0x0305, t.cpu.p, cyc t) = (0x80, 0xA4, 7) := by decide +kernel


/-! ## Control flow and flags (2.3) -/

-- C1
theorem test_jmp :
    let t := ran [0x4C, 0x34, 0x12] [] cpu0
    (t.cpu.pc, cyc t) = (0x1234, 3) := by decide +kernel

-- C3, here at 0x0200 with the pointer 0x03FF
theorem test_jmp_indirect_page_wrap :
    let t := ran [0x6C, 0xFF, 0x03] [(0x03FF, 0x44), (0x0300, 0x00), (0x0400, 0x99)] cpu0
    (t.cpu.pc, cyc t) = (0x0044, 5) := by decide +kernel

-- C4
theorem test_jsr :
    let t := ran [0x20, 0x34, 0x12] [] cpu0
    (t.cpu.pc, t.cpu.sp, ramAt t 0x01FD, ramAt t 0x01FC, cyc t) = (0x1234, 0xFB, 0x02, 0x02, 6) := by decide +kernel

-- C5
theorem test_rts :
    let t := ran [0x60] [(0x01FE, 0x02), (0x01FF, 0x02)] cpu0
    (t.cpu.pc, t.cpu.sp, cyc t) = (0x0203, 0xFF, 6) := by decide +kernel

-- C6
theorem test_rts_wraps :
    let t := ran [0x60] [(0x01FF, 0xFF), (0x0100, 0x02)] { cpu0 with sp := 0xFE }
    (t.cpu.pc, t.cpu.sp, cyc t) = (0x0300, 0x00, 6) := by decide +kernel

-- C7
theorem test_rti :
    let t := ran [0x40] [(0x01FB, 0xFF), (0x01FC, 0x34), (0x01FD, 0x12)] { cpu0 with sp := 0xFA }
    (t.cpu.p, t.cpu.pc, t.cpu.sp, cyc t) = (0xEF, 0x1234, 0xFD, 6) := by decide +kernel

-- C8
theorem test_brk :
    let t := ran [0x00, 0xEA] [] { cpu0 with p := 0x21 }
    (ramAt t 0x01FD, ramAt t 0x01FC, ramAt t 0x01FB, t.cpu.sp, t.cpu.p, t.cpu.pc, cyc t) = (0x02, 0x02, 0x31, 0xFA, 0x25, 0x0000, 7) := by decide +kernel

-- C9
theorem test_bne_not_taken :
    let t := ran [0xD0, 0x10] [] { cpu0 with p := 0x26 }
    (t.cpu.pc, cyc t) = (0x0202, 2) := by decide +kernel

-- C10
theorem test_bne_taken :
    let t := ran [0xD0, 0x10] [] { cpu0 with p := 0x24 }
    (t.cpu.pc, cyc t) = (0x0212, 3) := by decide +kernel

-- R306: a target in the page below
theorem test_beq_page_cross :
    let t := ran [0xF0, 0xFD] [] { cpu0 with p := 0x26 }
    (t.cpu.pc, cyc t) = (0x01FF, 4) := by decide +kernel

-- R307
theorem test_bpl_taken :
    let t := ran [0x10, 0x7F] [] { cpu0 with p := 0x24 }
    (t.cpu.pc, cyc t) = (0x0281, 3) := by decide +kernel

-- C14
theorem test_bmi_taken :
    let t := ran [0x30, 0x7F] [] { cpu0 with p := 0xA4 }
    (t.cpu.pc, cyc t) = (0x0281, 3) := by decide +kernel

-- C15
theorem test_bcc_taken :
    let t := ran [0x90, 0x02] [] cpu0
    (t.cpu.pc, cyc t) = (0x0204, 3) := by decide +kernel

-- C15
theorem test_bcs_not_taken :
    let t := ran [0xB0, 0x02] [] cpu0
    (t.cpu.pc, cyc t) = (0x0202, 2) := by decide +kernel

-- C16
theorem test_bvc_not_taken :
    let t := ran [0x50, 0x02] [] { cpu0 with p := 0x64 }
    (t.cpu.pc, cyc t) = (0x0202, 2) := by decide +kernel

-- C16
theorem test_bvs_taken :
    let t := ran [0x70, 0x02] [] { cpu0 with p := 0x64 }
    (t.cpu.pc, cyc t) = (0x0204, 3) := by decide +kernel

-- C17
theorem test_clc :
    let t := ran [0x18] [] { cpu0 with p := 0xEF }
    (t.cpu.p, t.cpu.pc, cyc t) = (0xEE, 0x0201, 2) := by decide +kernel

-- C17
theorem test_sec :
    let t := ran [0x38] [] { cpu0 with p := 0x20 }
    (t.cpu.p, t.cpu.pc, cyc t) = (0x21, 0x0201, 2) := by decide +kernel

-- C18
theorem test_cli :
    let t := ran [0x58] [] { cpu0 with p := 0xEF }
    (t.cpu.p, t.cpu.pc, cyc t) = (0xEB, 0x0201, 2) := by decide +kernel

-- C18
theorem test_sei :
    let t := ran [0x78] [] { cpu0 with p := 0x20 }
    (t.cpu.p, t.cpu.pc, cyc t) = (0x24, 0x0201, 2) := by decide +kernel

-- C19
theorem test_cld :
    let t := ran [0xD8] [] { cpu0 with p := 0xEF }
    (t.cpu.p, t.cpu.pc, cyc t) = (0xE7, 0x0201, 2) := by decide +kernel

-- C19
theorem test_sed :
    let t := ran [0xF8] [] { cpu0 with p := 0x20 }
    (t.cpu.p, t.cpu.pc, cyc t) = (0x28, 0x0201, 2) := by decide +kernel

-- C20
theorem test_clv :
    let t := ran [0xB8] [] { cpu0 with p := 0xEF }
    (t.cpu.p, t.cpu.pc, cyc t) = (0xAF, 0x0201, 2) := by decide +kernel

-- C20
theorem test_nop :
    let t := ran [0xEA] [] { cpu0 with p := 0x20 }
    (t.cpu.p, t.cpu.pc, cyc t) = (0x20, 0x0201, 2) := by decide +kernel


/-! ## Unofficial opcodes (2.4) -/

-- U1
theorem test_lax_zp :
    let t := ran [0xA7, 0x10] [(0x0010, 0x80)] cpu0
    (t.cpu.a, t.cpu.x, t.cpu.p, cyc t) = (0x80, 0x80, 0xA4, 3) := by decide +kernel

-- U2
theorem test_lax_izy :
    let t := ran [0xB3, 0x10] [(0x0010, 0xFF), (0x0011, 0x02)] { cpu0 with y := 0x01, a := 0x07, x := 0x07 }
    (t.cpu.a, t.cpu.x, t.cpu.p, cyc t) = (0x00, 0x00, 0x26, 6) := by decide +kernel

-- U3
theorem test_sax_zp :
    let t := ran [0x87, 0x10] [] { cpu0 with a := 0xF0, x := 0x3C }
    (ramAt t 0x0010, t.cpu.p, cyc t) = (0x30, 0x24, 3) := by decide +kernel

-- U4
theorem test_sax_izx :
    let t := ran [0x83, 0x10] [(0x0015, 0x03)] { cpu0 with a := 0xFF, x := 0x04 }
    (ramAt t 0x0300, cyc t) = (0x04, 6) := by decide +kernel

-- U5
theorem test_dcp :
    let t := ran [0xC7, 0x10] [(0x0010, 0x41)] { cpu0 with a := 0x40 }
    (ramAt t 0x0010, t.cpu.a, t.cpu.p, cyc t) = (0x40, 0x40, 0x27, 5) := by decide +kernel

-- U6
theorem test_isc :
    let t := ran [0xE7, 0x10] [(0x0010, 0x0F)] { cpu0 with a := 0x20, p := 0x25 }
    (ramAt t 0x0010, t.cpu.a, t.cpu.p, cyc t) = (0x10, 0x10, 0x25, 5) := by decide +kernel

-- U7
theorem test_slo_zp :
    let t := ran [0x07, 0x10] [(0x0010, 0x81)] { cpu0 with a := 0x01 }
    (ramAt t 0x0010, t.cpu.a, t.cpu.p, cyc t) = (0x02, 0x03, 0x25, 5) := by decide +kernel

-- U11
theorem test_slo_aby :
    let t := ran [0x1B, 0xFF, 0x02] [(0x0300, 0x40)] { cpu0 with y := 0x01 }
    (ramAt t 0x0300, t.cpu.a, t.cpu.p, cyc t) = (0x80, 0x80, 0xA4, 7) := by decide +kernel

-- U8
theorem test_rla :
    let t := ran [0x27, 0x10] [(0x0010, 0x80)] { cpu0 with a := 0xFF, p := 0x25 }
    (ramAt t 0x0010, t.cpu.a, t.cpu.p, cyc t) = (0x01, 0x01, 0x25, 5) := by decide +kernel

-- U9
theorem test_sre :
    let t := ran [0x47, 0x10] [(0x0010, 0x03)] { cpu0 with a := 0x01 }
    (ramAt t 0x0010, t.cpu.a, t.cpu.p, cyc t) = (0x01, 0x00, 0x27, 5) := by decide +kernel

-- U10
theorem test_rra :
    let t := ran [0x67, 0x10] [(0x0010, 0x02)] { cpu0 with a := 0x10, p := 0x25 }
    (ramAt t 0x0010, t.cpu.a, t.cpu.p, cyc t) = (0x81, 0x91, 0xA4, 5) := by decide +kernel

-- U12
theorem test_anc :
    let t := ran [0x0B, 0x80] [] { cpu0 with a := 0xFF }
    (t.cpu.a, t.cpu.p, cyc t) = (0x80, 0xA5, 2) := by decide +kernel

-- U12
theorem test_anc_second_byte :
    let t := ran [0x2B, 0x7F] [] { cpu0 with a := 0xFF, p := 0x25 }
    (t.cpu.a, t.cpu.p, cyc t) = (0x7F, 0x24, 2) := by decide +kernel

-- U13
theorem test_asr :
    let t := ran [0x4B, 0x03] [] { cpu0 with a := 0xFF }
    (t.cpu.a, t.cpu.p, cyc t) = (0x01, 0x25, 2) := by decide +kernel

-- U14
theorem test_arr :
    let t := ran [0x6B, 0xFF] [] { cpu0 with a := 0xC0, p := 0x25 }
    (t.cpu.a, t.cpu.p, cyc t) = (0xE0, 0xA5, 2) := by decide +kernel

-- U15
theorem test_axs_borrow :
    let t := ran [0xCB, 0x10] [] { cpu0 with a := 0xFF, x := 0x0F }
    (t.cpu.x, t.cpu.p, cyc t) = (0xFF, 0xA4, 2) := by decide +kernel

-- U16
theorem test_axs_keeps_v :
    let t := ran [0xCB, 0x20] [] { cpu0 with a := 0x0F, x := 0x1F, p := 0x65 }
    (t.cpu.x, t.cpu.p, cyc t) = (0xEF, 0xE4, 2) := by decide +kernel

-- U17
theorem test_sbc_mirror :
    let t := ran [0xEB, 0x01] [] { cpu0 with a := 0x80, p := 0x25 }
    (t.cpu.a, t.cpu.p, cyc t) = (0x7F, 0x65, 2) := by decide +kernel

-- U18
theorem test_lae :
    let t := ran [0xBB, 0x00, 0x03] [(0x0300, 0xF0)] { cpu0 with sp := 0x3C }
    (t.cpu.a, t.cpu.x, t.cpu.sp, t.cpu.p, cyc t) = (0x30, 0x30, 0x30, 0x24, 4) := by decide +kernel

-- U22
theorem test_nop_zp :
    let t := ran [0x04, 0x10] [(0x0010, 0x55)] cpu0
    (t.cpu.a, t.cpu.p, t.cpu.pc, cyc t) = (0x00, 0x24, 0x0202, 3) := by decide +kernel

-- U23
theorem test_nop_imm :
    let t := ran [0x80, 0x10] [] cpu0
    (t.cpu.a, t.cpu.p, t.cpu.pc, cyc t) = (0x00, 0x24, 0x0202, 2) := by decide +kernel

-- U25
theorem test_nop_abx :
    let t := ran [0x3C, 0xFF, 0x02] [] { cpu0 with x := 0x01 }
    (t.cpu.x, t.cpu.p, t.cpu.pc, cyc t) = (0x01, 0x24, 0x0203, 5) := by decide +kernel

-- U27
theorem test_nop_implied :
    let t := ran [0x1A] [] cpu0
    (t.cpu.a, t.cpu.p, t.cpu.pc, cyc t) = (0x00, 0x24, 0x0201, 2) := by decide +kernel

-- U28
theorem test_nop_unknown :
    let t := ran [0x02, 0xEA] [] cpu0
    (t.cpu.a, t.cpu.p, t.cpu.pc, cyc t) = (0x00, 0x24, 0x0201, 2) := by decide +kernel

-- U19: the open constant stands as it is
theorem test_ane_constant :
    ∃ t, exec (.ane 0x0F) (about [] [] { cpu0 with a := 0x00, x := 0xFF }) = .next t ∧
      t.cpu.a = (0x00 ||| Config.aneConst) &&& 0xFF &&& 0x0F := ⟨_, rfl, rfl⟩

-- U21
theorem test_lxa_constant :
    ∃ t, exec (.lxa 0xFF) (about [] [] cpu0) = .next t ∧ t.cpu.a = (0x00 ||| Config.lxaConst) &&& 0xFF ∧
      t.cpu.x = (0x00 ||| Config.lxaConst) &&& 0xFF := ⟨_, rfl, rfl, rfl⟩

/-! ## Unstable stores (2.5): the write clock, from the context the earlier clocks gathered -/

/-- A machine in the write clock of an unstable store. -/
def writing (op : ShOp) (lo hi : Byte) (rdy : Bool) (c : Cpu) : State :=
  machine [] { c with
    cyclesRemaining := 1
    sh := { active := true, op := op, step := op.steps, lo := lo, hi := hi, ptr := 0x10, rdyTwoBefore := rdy } }

-- H1
theorem test_sha_izy_write :
    ramAt (after (writing .shaIzy 0xFF 0x02 false { cpu0 with a := 0xFF, x := 0x0F, y := 0x01 })) 0x300 = 0x03 := by
  decide +kernel

-- H2
theorem test_sha_aby_write :
    ramAt (after (writing .shaAby 0x00 0x12 false { cpu0 with a := 0xFF, x := 0xFF, y := 0x10 })) 0x210 = 0x13 := by
  decide +kernel

-- H4
theorem test_shx_corrupted_address :
    let t := after (writing .shx 0xFF 0x02 false { cpu0 with x := 0x05, y := 0x01 })
    (ramAt t 0x100, ramAt t 0x300) = (0x01, 0x00) := by decide +kernel

-- H5
theorem test_shy_corrupted_address :
    ramAt (after (writing .shy 0xFF 0x02 false { cpu0 with x := 0x01, y := 0x05 })) 0x100 = 0x01 := by decide +kernel

-- H7
theorem test_shs_sets_sp :
    let t := after (writing .shs 0x00 0x02 false { cpu0 with a := 0xF3, x := 0x3F })
    (t.cpu.sp, ramAt t 0x200, t.cpu.sh.active) = (0x33, 0x03, false) := by decide +kernel

-- H11: a halt two steps before the write
theorem test_sha_after_a_halt :
    ramAt (after (writing .shaAby 0xFF 0xBF true { cpu0 with a := 0x55, x := 0xFF, y := 0x01 })) 0x500 = 0x15 := by
  decide +kernel

-- R400: the first clock reads the opcode alone
theorem test_sha_first_clock :
    let t := ran [0x93, 0x10] [] cpu0
    (t.cpu.pc, t.cpu.sh.active, t.cpu.sh.step, t.cpu.cyclesRemaining) = (0x0201, true, 2, 5) := by decide +kernel

/-! ## Bus, PPU and APU through one instruction or one access (2.6, 2.8, 2.9) -/

-- B1
theorem test_open_bus_read : (ran [0xAD, 0x18, 0x40] [] cpu0).cpu.a = 0x40 := by decide +kernel

-- B3
theorem test_no_cartridge_reads_zero :
    let t := ran [0xAD, 0x00, 0x50] [] cpu0
    (t.cpu.a, t.cpu.p) = (0x00, 0x26) := by decide +kernel

-- B6
theorem test_ram_mirror_write : ramAt (ran [0x8D, 0x34, 0x1A] [] { cpu0 with a := 0x77 }) 0x234 = 0x77 := by
  decide +kernel

-- B10 and B11: the parity of the cycle counter
theorem test_oam_dma_stall :
    (ran [0x8D, 0x14, 0x40] [] { cpu0 with a := 0x02, cycleCount := 12 }).apu.stallPending = 513 ∧
      (ran [0x8D, 0x14, 0x40] [] { cpu0 with a := 0x02, cycleCount := 13 }).apu.stallPending = 514 := by decide +kernel

-- P5, one write
theorem test_oam_dma_copies :
    let t := ran [0x8D, 0x14, 0x40] [(0x305, 0x10), (0x3FF, 0xFE)] { cpu0 with a := 0x03 }
    (t.peek .oam 5, t.peek .oam 255, t.ppu.oamAddr) = (0x10, 0xFE, 0x00) := by decide +kernel

-- B14
theorem test_controller_read :
    let s := about [0xAD, 0x16, 0x40] [] cpu0
    let t := after { s with bus := { s.bus with ctl0 := { latch := 0x00, shift := 0x05 } } }
    (t.cpu.a, t.bus.ctl0.shift) = (0x41, 0x82) := by decide +kernel

-- V1
theorem test_ppu_status_read :
    let r := busRead 0x2002 { State.reset with ppu := { Ppu.reset with vblank := true, w := true, openBus := 0x12 } }
    (r.1, r.2.ppu.vblank, r.2.ppu.w, r.2.ppu.openBus) = (0x92, false, false, 0x92) := by decide +kernel

-- V9
theorem test_ppu_scroll_writes :
    let p0 : Ppu := { Ppu.reset with resetProtect := false, t := 0x2C00 }
    let p := ((p0.regWrite none 5 0x7D).2.regWrite none 5 0x5E).2
    (p.t, p.fineX, p.w) = (0x6D6F, 5, false) := by decide +kernel

-- V2
theorem test_ppu_palette_write :
    let p0 : Ppu := { Ppu.reset with resetProtect := false }
    let p := (((p0.regWrite none 6 0x3F).2.regWrite none 6 0x00).2.regWrite none 7 0xFF).2
    (p.pal 0, p.v) = (0x3F, 0x3F01) := by decide +kernel

-- V14
theorem test_ppu_reset_protection :
    let p := ((Ppu.reset.regWrite none 0 0x80).2.regWrite none 3 0x05).2
    (p.ctrl, p.openBus, p.oamAddr) = (0x00, 0x05, 0x05) := by decide +kernel

-- V17's event, by itself: the vblank flag and the NMI at (241, 1)
theorem test_vblank_raises_nmi :
    let t := after { State.reset with ppu := { Ppu.reset with scanline := 241, dot := 1, ctrl := 0x80 } }
    (t.ppu.vblank, t.cpu.nmiPending, t.ppu.nmiLatched) = (true, true, false) := by decide +kernel

-- R579, R832: an OAM write after dot 1 does not change the active sprites of its scanline, but those of the next
theorem test_evaluation_once_per_scanline :
    let p : Ppu := { Ppu.reset with scanline := 8, dot := 1 }
    let q := (p.scanlineEvent.regWrite none 4 0xFF).2
    let q := ({ q with dot := 2 } : Ppu).scanlineEvent
    let n := ({ q with dot := 1 } : Ppu).scanlineEvent
    (q.activeSprites.head?, q.oamAt 0, n.activeSprites.head?) = (some 0, 0xFF, some 1) := by decide +kernel

-- P1
theorem test_apu_lengths :
    let u := ((Apu.reset.write .default 0x4015 0x0F).write .default 0x4003 0x08).write .default 0x400B 0xF8
    (u.pulse1.length, u.triangle.length, (u.readStatus 0).1) = (254, 30, 0x05) := by decide +kernel

-- P4's last tick: the frame interrupt and the IRQ line
theorem test_frame_irq :
    let t := after { State.reset with apu := { Apu.reset with fcCount := 14914 } }
    (t.apu.frameIrq, t.cpu.irqLine, t.apu.fcCount) = (true, true, 0) := by decide +kernel

-- R8, R650: the frame counter takes its points from the parameters (C2's doubled values)
theorem test_frame_counter_parameters :
    let k : Params := { Params.default with
      fcSteps4 := [{ count := 29829, quarter := true, half := true, irq := true, reset := true }] }
    let u := ({ Apu.reset with fcCount := 14914 } : Apu).frameCounterStep k
    let w := ({ Apu.reset with fcCount := 29828 } : Apu).frameCounterStep k
    (u.frameIrq, u.fcCount, w.frameIrq, w.fcCount) = (false, 14915, true, 0) := by decide

-- B8
theorem test_apu_status_open_bus :
    (busRead 0x4015 { State.reset with bus := { Bus.reset with openBus := 0xFF } }).1 = 0x20 := by decide +kernel

/-! ## Cartridges (2.7) -/

/-- A cartridge of `banks` 16 KiB PRG banks with everything zero. -/
def cartWith (banks chrSize : Nat) (m : Mapper) : Cart :=
  { prgBanks := banks, prgRom := [], chrSize := chrSize, chrIsRam := true, headerMirroring := .horizontal, prgRam := [],
    chr := [], mirroring := .horizontal, mapper := m }

/-- Mapper 1's registers at reset (R63). -/
def mmc1Reset : Mmc1 := { shift := 0x10, control := 0x0C, chrBank0 := 0, chrBank1 := 0, prgBank := 0 }

/-- Mapper 4's registers at reset (R64). -/
def mmc3Reset : Mmc3 :=
  { bankSelect := 0, r := Vector.replicate 8 0, prgRamEnable := true, prgRamWriteProtect := false }

-- R483: each mapper's identifier byte is the one its image's header gives
theorem test_mapper_ids :
    [imageMapper 0, imageMapper 1, imageMapper 2, imageMapper 3, imageMapper 4].map (Option.map Mapper.id) =
      [some 0, some 1, some 2, some 3, some 4] := by decide

-- M1
theorem test_nrom_offsets :
    ((cartWith 1 8192 .nrom).prgRomOffset 0xC123, (cartWith 1 8192 .nrom).prgRomOffset 0xFFFC) = (0x0123, 0x3FFC) := by decide

-- M3
theorem test_uxrom_offsets :
    let c := (cartWith 8 8192 (.uxrom 0)).cpuWrite 0x8000 0xF5
    (c.prgRomOffset 0x8010, c.prgRomOffset 0xC010) = (0x14010, 0x1C010) := by decide

-- M5
theorem test_cnrom_offset : ((cartWith 2 32768 (.cnrom 0)).cpuWrite 0x8000 0x06).chrOffset 0x1234 = 0x5234 := by decide

-- M6
theorem test_mmc1_five_writes :
    (((((cartWith 8 8192 (.mmc1 mmc1Reset)).cpuWrite 0x8000 1).cpuWrite 0x8000 0).cpuWrite 0x8000 0).cpuWrite 0x8000 0
      ).cpuWrite 0xE000 0 = cartWith 8 8192 (.mmc1 { mmc1Reset with prgBank := 1 }) := by decide

-- M13
theorem test_mmc3_prg_banks :
    let c := ((((cartWith 8 131072 (.mmc3 mmc3Reset)).cpuWrite 0x8000 0x06).cpuWrite 0x8001 0x05).cpuWrite 0x8000 0x07
      ).cpuWrite 0x8001 0x09
    (c.prgRomOffset 0x8000, c.prgRomOffset 0xA000, c.prgRomOffset 0xC000, c.prgRomOffset 0xE000) =
      (0x0A000, 0x12000, 0x1C000, 0x1E000) := by decide +kernel

/-! ## Interrupts and reset (2.10, 2.11) -/

-- I2: SEI's poll sees the old I
theorem test_sei_polls_with_old_i :
    let t := ran [0x78] [] { cpu0 with p := 0x20, irqLine := true }
    (t.cpu.p, t.cpu.latchedIrq) = (0x24, true) := by decide +kernel

-- I5: NMI wins at the boundary
theorem test_nmi_wins :
    let t := ran [0xEA] [] { cpu0 with p := 0x20, nmiPending := true, latchedIrq := true, pc := 0x0201 }
    (t.cpu.latchedIrq, t.cpu.nmiPending, t.cpu.p, ramAt t 0x1FD, ramAt t 0x1FC, ramAt t 0x1FB, t.cpu.cyclesRemaining) =
      (false, false, 0x24, 0x02, 0x01, 0x20, 6) := by decide +kernel

-- Z1
theorem test_reset_values :
    let c := State.reset.cpu
    [c.a, c.x, c.y, c.sp, c.p] = [0, 0, 0, 0xFD, 0x24] ∧ (c.pc, c.cyclesRemaining, c.cycleCount) = (0, 8, 0) ∧
      State.reset.ppu.resetProtect = true := by decide

/-- The launch state of the machine with no cartridge is the one power-on and reset leave. -/
theorem test_reset_is_power_on : State.reset = powerOn .default { ram := [], oam := [], palRam := Vector.replicate 32 0 } none := rfl

-- Z2
theorem test_reset_vector :
    let c : Cart := { cartWith 1 8192 .nrom with prgRom := [(0x3FFD, 0x80)] }
    (consoleReset { State.reset with cart := some c }).cpu.pc = 0x8000 := by decide +kernel

/-! ## Witnesses: a concrete state and operands for the hypotheses of each statement that has any, clause by clause, at the
boundary values of the ranges -/

-- O1, O2
theorem witness_DecodeOfEncode : (Instr.sta (.izy 0x40)).wf = true ∧ encode (.sta (.izy 0x40)) = [0x91, 0x40] := by decide
theorem witness_EveryByteIsOneInstruction :
    (Instr.nopImm 0x80 0x10).wf = true ∧ encode (.nopImm 0x80 0x10) = encode (.nopImm 0x80 0x10) := by decide

-- O4, O5: an index addition that crosses a page, and one that stays, at the edge between them
theorem witness_ZeroPageOperands : (⟨0x0010, 0x0010, false⟩ : Ea) = { ea := 0x0010, base := 0x0010, indexed := false } := rfl
theorem witness_IndexedOperands :
    (Ea.index 0x10F0 0x0F).crossed = false ∧ (Ea.index 0x10F0 0x10).crossed = true := by decide

-- O6: the three forms with an index addition and one without
theorem witness_OperandAccesses :
    (resolve (.abx 0x10F0) (about [] [] cpu0)).1.indexed = true ∧ (resolve (.aby 0x10F0) (about [] [] cpu0)).1.indexed = true ∧
      (resolve (.izy 0x10) (about [] [] cpu0)).1.indexed = true ∧ (resolve (.izx 0x10) (about [] [] cpu0)).1.indexed = false := by
  decide +kernel

/-- O7's hypotheses for an instruction at 0x0200. -/
def readyToRun (b0 b1 b2 : Byte) (i : Instr) (rest : List Byte) : Bool :=
  let u := ppuPhase (about [b0, b1, b2] [] cpu0)
  u.apu.stallPending == 0 && !u.cpu.sh.active && u.cpu.cyclesRemaining == 0 && !u.cpu.nmiPending && !u.cpu.latchedIrq &&
    u.storage u.cpu.pc == some b0 && u.storage (u.cpu.pc + 1) == some b1 && u.storage (u.cpu.pc + 2) == some b2 &&
    (match decode [b0, b1, b2] with
      | .ok r => r == (i, rest)
      | .error _ => false)

-- O7: an opcode with no, one and two operand bytes, JSR, and two unstable stores
theorem witness_StepRunsTheDecodedInstruction :
    readyToRun 0xEA 0x01 0x02 .nop [0x01, 0x02] = true ∧ readyToRun 0xA9 0x01 0x02 (.lda (.imm 0x01)) [0x02] = true ∧
      readyToRun 0xAD 0x01 0x02 (.lda (.mem (.abs 0x0201))) [] = true ∧ readyToRun 0x20 0x34 0x12 (.jsr 0x1234) [] = true ∧
      readyToRun 0x93 0x10 0x00 (.shaIzy 0x10) [0x00] = true ∧ readyToRun 0x9F 0xFF 0xBF (.shaAby 0xBFFF) [] = true := by
  decide +kernel

/-- A machine whose micro-sequencer is in a step of an unstable store. -/
def inStore (op : ShOp) (step left : Nat) (bytes : List Byte) : State :=
  about bytes [] { cpu0 with
    cyclesRemaining := left, pc := 0x0201
    sh := { active := true, op := op, step := step, lo := 0, hi := 0, ptr := 0, rdyTwoBefore := false } }

-- O8
theorem witness_CpuClockCases :
    (inStore .shx 2 4 [0x9E, 0xFF, 0x02]).cpu.sh.active = true ∧
      ((about [0xEA] [] cpu0).cpu.sh.active = false ∧ (about [0xEA] [] cpu0).cpu.cyclesRemaining = 0) ∧
      ((ran [0xEA] [] cpu0).cpu.sh.active = false ∧ 0 < (ran [0xEA] [] cpu0).cpu.cyclesRemaining) := by decide +kernel

-- O9: the rest of an eight-clock instruction, of no clock, and a poll point at either end of the clocks left
theorem witness_IdleClocksOfAnInstruction :
    (let s := machine [] { cpu0 with cyclesRemaining := 7, totalCycles := 8, pollAt := [7] }
     s.cpu.sh.active = false ∧ s.cpu.cyclesRemaining = 7 ∧ 7 ≤ s.cpu.totalCycles) ∧
    (let s := machine [] { cpu0 with cyclesRemaining := 0, totalCycles := 0 }
     s.cpu.sh.active = false ∧ s.cpu.cyclesRemaining = 0 ∧ 0 ≤ s.cpu.totalCycles) ∧
    (let s := machine [] { cpu0 with cyclesRemaining := 3, totalCycles := 4, pollAt := [2, 4], irqLine := true, p := 0x20 }
     s.cpu.sh.active = false ∧ s.cpu.cyclesRemaining = 3 ∧ 3 ≤ s.cpu.totalCycles ∧ s.cpu.irqLine = true ∧
       getFlag s.cpu.p .i = false ∧ ∃ k ∈ s.cpu.pollAt, s.cpu.totalCycles + 1 - 3 ≤ k ∧ k ≤ s.cpu.totalCycles) := by
  decide

-- O10
theorem witness_BoundaryOrder :
    (machine [] { cpu0 with nmiPending := true }).cpu.nmiPending = true ∧
      (let s := machine [] { cpu0 with latchedIrq := true }
       s.cpu.nmiPending = false ∧ s.cpu.latchedIrq = true) ∧
      (let s := machine [] cpu0
       s.cpu.nmiPending = false ∧ s.cpu.latchedIrq = false ∧ s.cpu.cyclesRemaining = 0 ∧ s.cpu.sh.active = false) := by
  decide

-- O11: the premises of `Enters`, with a cartridge that has vectors and with none
theorem witness_InterruptEntryEffect :
    (let c : Cart := { cartWith 1 8192 .nrom with prgRom := [(0x3FFA, 0x20), (0x3FFB, 0x80), (0x3FFE, 0x10), (0x3FFF, 0x80)] }
     let s := { machine [] cpu0 with cart := some c }
     s.storage 0xFFFA = some 0x20 ∧ s.storage 0xFFFB = some 0x80 ∧ s.storage 0xFFFE = some 0x10 ∧
       s.storage 0xFFFF = some 0x80) ∧
    (machine [] cpu0).cart = none := by
  decide

-- O13, O57, O58
theorem witness_IrqLineFollowsTheApu : ∃ t, step State.reset = .next t := ⟨_, rfl⟩

-- O14: stall or none; the pending step elsewhere, two before the write, and the write
theorem witness_HaltCycles :
    (0 < ({ machine [] cpu0 with apu := { Apu.reset with stallPending := 1 } } : State).apu.stallPending) ∧
      (machine [] cpu0).apu.stallPending = 0 ∧ (machine [] cpu0).cpu.sh.active = false ∧
      (let h := (inStore .shx 4 2 []).cpu.sh
       h.active = true ∧ h.step ≠ h.op.steps ∧ h.step + 2 ≠ h.op.steps) ∧
      (let h := (inStore .shx 3 3 []).cpu.sh
       h.active = true ∧ h.step + 2 = h.op.steps) ∧
      (let h := (inStore .shaIzy 6 1 []).cpu.sh
       h.active = true ∧ h.step = h.op.steps) := by
  decide

-- O15 to O24, O32: a form an instruction has, one it lacks, and the list entry of the former
theorem witness_encoding_lists :
    (Instr.lda (.mem (.izy 0x10))).wf = true ∧ (Instr.lda (.mem (.zpy 0x10))).wf = false ∧
      readFormOf (.mem (.izy 0x10)) = some .izy ∧ readFormOf (.imm 0x10) = none ∧ shiftFormOf .acc = none ∧
      shiftFormOf (.mem (.abx 0x10)) = some .abx ∧ (Instr.slo (.izx 0x10)).wf = true := by
  decide

-- O16, O23, O32: a store into work RAM, at the top of the window, and one outside it; an address a write leaves alone
theorem witness_StoresWriteOneByte :
    (resolve (.abs 0x1FFF) (about [] [] cpu0)).1.ea.toNat ≤ 0x1FFF ∧ ¬(resolve (.abs 0x2000) (about [] [] cpu0)).1.ea.toNat ≤ 0x1FFF ∧
      (beforeStore (.abs 0x1FFF) (about [] [] cpu0)).stores 0x1FFF .ram 0x7FE = false ∧
      (beforeStore (.abs 0x1FFF) (about [] [] cpu0)).stores 0x1FFF .ram 0x7FF = true ∧
      (rmwFirst (.abs 0x2007) (about [] [] cpu0)).stores 0x2007 .nametable 0 = false ∧
      (rmwSecond (.abs 0x2007) (about [] [] cpu0)).stores 0x2007 .nametable 0 = false ∧ (Instr.sax (.zpy 0x10)).wf = true := by
  decide +kernel

-- O26: JSR whose third byte is in storage and not in the stack bytes the pushes write
theorem witness_CallAndReturn :
    let s := about [0x20, 0x34, 0x12] [] { cpu0 with pc := 0x0202 }
    s.storage s.cpu.pc = some (hiByte (0x1234 : Word)) ∧
      (s.cpu.pc.toNat ≤ 0x1FFF → ramIndex s.cpu.pc ∉ [stackCell s.cpu.sp, stackCell (s.cpu.sp - 1)]) := by
  decide +kernel

-- O27, O29
theorem witness_RtsUndoesJsr : ∃ t, exec (.jsr 0x1234) (about [0x20, 0x34, 0x12] [] { cpu0 with pc := 0x0202 }) = .next t :=
  ⟨_, rfl⟩
theorem witness_RtiUndoesInterruptEntry :
    (about [0x00] [] cpu0).cpu.statusOk = true ∧ (∃ t, exec .brk (about [0x00] [] cpu0) = .next t) ∧ (Event.nmi = .nmi ∧ Event.irq = .irq) :=
  ⟨rfl, ⟨_, rfl⟩, rfl, rfl⟩

-- O34: the two premises under which the constant does not matter
theorem witness_OpenConstantInstructions : (0x00 : Byte) = 0 ∧ ({ cpu0 with a := 0xFF } : Cpu).a = 0xFF := by decide

-- O35: one opcode byte of each list
theorem witness_NopVariantsChangeNothing :
    (0xFA : Byte) ∈ nopImpliedOpcodes ∧ (0xE2 : Byte) ∈ nopImmOpcodes ∧ (0x64 : Byte) ∈ nopZpOpcodes ∧ (0xF4 : Byte) ∈ nopZpxOpcodes ∧
      (0xFC : Byte) ∈ nopAbxOpcodes ∧ (0xF2 : Byte) ∈ unknownOpcodes := by
  decide

-- O36: a step that is the last and one that is not
theorem witness_UnstableStoresStart :
    (let s := inStore .shx 5 1 [0x9E, 0xFF, 0x02]
     s.cpu.sh.active = true ∧ s.cpu.sh.step = s.cpu.sh.op.steps ∧ ∃ t, cpuClock s = .next t) ∧
    (let s := inStore .shx 2 4 [0x9E, 0xFF, 0x02]
     s.cpu.sh.active = true ∧ s.cpu.sh.step ≠ s.cpu.sh.op.steps ∧ ∃ t, cpuClock s = .next t) :=
  ⟨⟨rfl, rfl, _, rfl⟩, rfl, by decide, _, rfl⟩

-- O37: the zero-page form, which needs one operand byte, an absolute form, which needs two, and each one's last step
theorem witness_UnstableStoresRun :
    (let s := inStore .shaIzy 2 5 [0x93, 0x10]
     s.cpu.sh.active = true ∧ s.cpu.sh.step = 2 ∧ s.cpu.cyclesRemaining = s.cpu.sh.op.steps - 1 ∧
       s.storage s.cpu.pc = some 0x10 ∧ s.cpu.sh.op = .shaIzy) ∧
    (let s := inStore .shaAby 2 4 [0x9F, 0xFF, 0xBF]
     s.cpu.sh.active = true ∧ s.cpu.sh.step = 2 ∧ s.cpu.cyclesRemaining = s.cpu.sh.op.steps - 1 ∧
       s.storage s.cpu.pc = some 0xFF ∧ s.cpu.sh.op ≠ .shaIzy ∧ s.storage (s.cpu.pc + 1) = some 0xBF) ∧
    ((inStore .shs 5 1 [0x9B, 0x00, 0x02]).cpu.sh.op ≠ .shaIzy ∧ (inStore .shs 5 1 [0x9B, 0x00, 0x02]).cpu.sh.step = 5) ∧
    (inStore .shaIzy 6 1 [0x93, 0x10]).cpu.sh.op = .shaIzy ∧ (inStore .shaIzy 6 1 [0x93, 0x10]).cpu.sh.step = 6 := by
  decide +kernel

/-- The machine with a cartridge. -/
def withCart (c : Cart) : State := { machine [] cpu0 with cart := some c }

-- O38: the edges of the address ranges
theorem witness_BusReadMap :
    ((withCart (cartWith 1 8192 .nrom)).cart = some (cartWith 1 8192 .nrom) ∧ 0x6000 ≤ (0x6000 : Word).toNat ∧
      (0x7FFF : Word).toNat ≤ 0x7FFF ∧ 0x8000 ≤ (0x8000 : Word).toNat) ∧
    ((0x1FFF : Word).toNat ≤ 0x1FFF ∧ 0x2000 ≤ (0x2000 : Word).toNat ∧ (0x3FFF : Word).toNat ≤ 0x3FFF) ∧
      ((machine [] cpu0).cart = none ∧ 0x4020 ≤ (0x4020 : Word).toNat ∧ 0x4020 ≤ (0xFFFF : Word).toNat) ∧
      ((0x4000 ≤ (0x4014 : Word).toNat ∧ (0x4014 : Word).toNat ≤ 0x4014) ∧
        (0x4018 ≤ (0x401F : Word).toNat ∧ (0x401F : Word).toNat ≤ 0x401F) ∧
        ((withCart (cartWith 1 8192 .nrom)).cart ≠ none ∧ 0x4020 ≤ (0x5FFF : Word).toNat ∧ (0x5FFF : Word).toNat ≤ 0x5FFF)) := by
  decide

-- O39
theorem witness_BusWriteMapAndWorkRamMirrors :
    ((0x0000 : Word).toNat ≤ 0x1FFF ∧ (0x1FFF : Word).toNat ≤ 0x1FFF ∧ 0x2000 ≤ (0x2000 : Word).toNat ∧
      (0x3FFF : Word).toNat ≤ 0x3FFF ∧ 0x4000 ≤ (0x4000 : Word).toNat ∧ (0x4013 : Word).toNat ≤ 0x4013) ∧
    ((withCart (cartWith 1 8192 .nrom)).cart = some (cartWith 1 8192 .nrom) ∧ 0x6000 ≤ (0x6000 : Word).toNat ∧
      (0x7FFF : Word).toNat ≤ 0x7FFF ∧ 0x8000 ≤ (0x8000 : Word).toNat) ∧
    (0x4018 ≤ (0x4018 : Word).toNat ∧ (0x5FFF : Word).toNat ≤ 0x5FFF ∧ (machine [] cpu0).cart = none ∧
      0x6000 ≤ (0xFFFF : Word).toNat) := by
  decide

-- O40
theorem witness_ControllersShiftOutTheirLatch :
    ((0x01 : Byte).getLsbD 0 = true ∧ (0x00 : Byte).getLsbD 0 = false) ∧ State.reset.bus.ctlStrobe = false ∧
      State.reset.bus.ctl0.shift = 0 ∧ State.reset.bus.ctl1.shift = 0 := by
  decide

-- O41: a page of work RAM, one of PRG-RAM and one of PRG-ROM
theorem witness_OamDmaCopiesAPage :
    (∀ i, (machine [] cpu0).storage (mkWord 0x1F i) = some ((fun _ => 0) i)) ∧
      (∀ i, (withCart (cartWith 1 8192 .nrom)).storage (mkWord 0x60 i) = some ((fun _ => 0) i)) ∧
      (∀ i, (withCart (cartWith 1 8192 .nrom)).storage (mkWord 0xFF i) = some ((fun _ => 0) i)) := by
  refine ⟨fun i => ?_, fun i => ?_, fun i => ?_⟩ <;> have hi := i.isLt
  · rw [State.storage, if_pos (by rw [mkWord_toNat]; show 0x1F * 256 + i.toNat ≤ 0x1FFF; omega)]
    rfl
  · rw [State.storage, if_neg (by rw [mkWord_toNat]; show ¬0x60 * 256 + i.toNat ≤ 0x1FFF; omega)]
    show (match Cart.mapRead _ _ with
      | .prgRam off => some (Memory.read [] off)
      | .prgRom off => some (Memory.read [] off)
      | .notMine => none
      | .zero => none) = _
    rw [Cart.mapRead, if_neg (by rw [mkWord_toNat]; show ¬0x60 * 256 + i.toNat < 0x6000; omega),
      if_pos (by rw [mkWord_toNat]; show 0x60 * 256 + i.toNat < 0x8000; omega)]
    rfl
  · rw [State.storage, if_neg (by rw [mkWord_toNat]; show ¬0xFF * 256 + i.toNat ≤ 0x1FFF; omega)]
    show (match Cart.mapRead _ _ with
      | .prgRam off => some (Memory.read [] off)
      | .prgRom off => some (Memory.read [] off)
      | .notMine => none
      | .zero => none) = _
    rw [Cart.mapRead, if_neg (by rw [mkWord_toNat]; show ¬0xFF * 256 + i.toNat < 0x6000; omega),
      if_neg (by rw [mkWord_toNat]; show ¬0xFF * 256 + i.toNat < 0x8000; omega)]
    rfl

-- O42: the window's edges, open, write-protected and closed
theorem witness_PrgRamKeepsWhatIsWritten :
    (0x6000 ≤ (0x6000 : Word).toNat ∧ (0x7FFF : Word).toNat ≤ 0x7FFF ∧ (0x7FFF : Word) ≠ 0x6000) ∧
      (withCart (cartWith 1 8192 .nrom)).cart = some (cartWith 1 8192 .nrom) ∧ (cartWith 1 8192 .nrom).prgRamWritable = true ∧
      (cartWith 1 8192 (.mmc3 { mmc3Reset with prgRamWriteProtect := true })).prgRamWritable = false ∧
      (cartWith 1 8192 (.mmc3 { mmc3Reset with prgRamEnable := false })).prgRamReadable = false ∧
      (cartWith 1 8192 (.mmc3 mmc3Reset)).mapper = .mmc3 mmc3Reset ∧ (∀ r, (cartWith 1 8192 .nrom).mapper ≠ .mmc3 r) ∧
      ({ cartWith 1 8192 .nrom with chrIsRam := false } : Cart).chrIsRam = false :=
  ⟨by decide, rfl, rfl, rfl, rfl, rfl, nofun, rfl⟩

/-- An iNES image of one PRG bank and no CHR-ROM: mapper 0, vertical mirroring. -/
def smallImage : List Byte :=
  [0x4E, 0x45, 0x53, 0x1A, 0x01, 0x00, 0x01, 0x00, 0, 0, 0, 0, 0, 0, 0, 0] ++ List.replicate 16384 0

theorem smallImage_created : ∃ c, createCart smallImage [] [] = .ok c := by
  have hl : smallImage.length = 16400 := by rw [smallImage, List.length_append, List.length_replicate]; rfl
  have h4 : headerByte smallImage 4 = 1 := rfl
  have h5 : headerByte smallImage 5 = 0 := rfl
  have h6 : headerByte smallImage 6 = 1 := rfl
  have h7 : headerByte smallImage 7 = 0 := rfl
  have hp : imageBodyStart smallImage + imagePrgSize smallImage + imageChrRomSize smallImage = 16400 := by
    rw [imageBodyStart, imagePrgSize, imageChrRomSize, h4, h5, h6]
    rfl
  have hm : imageMapperId smallImage = 0 := by rw [imageMapperId, h6, h7]; rfl
  have ht : smallImage.take 4 = imageMagic := rfl
  unfold createCart
  rw [if_neg (by rw [ht]; decide), if_neg (by rw [h7]; decide), if_neg (by omega), hm, h4]
  exact ⟨_, rfl⟩

-- O43: a cartridge of each mapper, and the ends of the windows
theorem witness_MapperOffsetsStayInside :
    ((cartWith 1 8192 .nrom).ok = true ∧ (cartWith 8 8192 (.mmc1 mmc1Reset)).ok = true ∧ (cartWith 8 8192 (.uxrom 0)).ok = true ∧
      (cartWith 2 32768 (.cnrom 0)).ok = true ∧ (cartWith 8 131072 (.mmc3 mmc3Reset)).ok = true) ∧
      0x8000 ≤ (0x8000 : Word).toNat ∧ 0x8000 ≤ (0xFFFF : Word).toNat ∧ 0x1FFF < 0x2000 := by
  decide

-- O43, last clause: an image that is created; a PPU write of its cartridge
theorem witness_MapperIdOfAnImage :
    (∃ d, createCart smallImage [] [] = .ok d) ∧ ∃ d, cartPpuWrite (some (cartWith 1 8192 .nrom)) 0 0 = some d :=
  ⟨smallImage_created, _, rfl⟩

-- O44: a reset write, a write that does not fill the register, one that does, in each of the four address ranges
theorem witness_Mmc1LoadsAfterFiveWrites :
    (cartWith 8 8192 (.mmc1 mmc1Reset)).mapper = .mmc1 mmc1Reset ∧
      ((0x8000 : Word).toNat / 0x2000 % 4 = 0 ∧ (0xBFFF : Word).toNat / 0x2000 % 4 = 1 ∧ (0xC000 : Word).toNat / 0x2000 % 4 = 2 ∧
        (0xFFFF : Word).toNat / 0x2000 % 4 = 3) ∧
      ((0x80 : Byte).getLsbD 7 = true ∧ (0x01 : Byte).getLsbD 7 = false) ∧
      (mmc1Reset.shift.getLsbD 0 = false ∧ ({ mmc1Reset with shift := 0x1F } : Mmc1).shift.getLsbD 0 = true) ∧
      (∀ b ∈ [(0 : Byte), 1, 1, 0, 0], b.getLsbD 7 = false) ∧ (∀ x ∈ [(0x8000 : Word), 0x8000, 0x8000, 0xE000], 0x8000 ≤ x.toNat) ∧
      mmc1Reset.shift = 0x10 ∧ 0xE000 ≤ (0xE000 : Word).toNat ∧ (cartWith 1 8192 .nrom).headerMirroring ≠ .fourScreen :=
  ⟨rfl, by decide, by decide, by decide, by decide, by simp, rfl, by decide, by decide⟩

-- O45: a cartridge of each mapper, and an address on both sides of each edge
theorem witness_BankWindowsOfMappers :
    (cartWith 1 8192 .nrom).mapper = .nrom ∧ (cartWith 8 8192 (.uxrom 5)).mapper = .uxrom 5 ∧ 0 < (cartWith 8 8192 (.uxrom 5)).prgBanks ∧
      (cartWith 8 8192 (.mmc3 mmc3Reset)).mapper = .mmc3 mmc3Reset ∧ (cartWith 2 32768 (.cnrom 3)).mapper = .cnrom 3 ∧
      (cartWith 8 8192 (.mmc1 mmc1Reset)).mapper = .mmc1 mmc1Reset ∧ 0x1FFF < 0x2000 ∧
      ((0x1F : BitVec 5).toNat / 4 % 4 = 3 ∧ (0x08 : BitVec 5).toNat / 4 % 4 = 2 ∧ (0x04 : BitVec 5).toNat / 4 % 4 < 2) ∧
      (decide ((0xBFFF : Word).toNat % 2 = 1) = true ∧ decide ((0xA000 : Word).toNat % 2 = 1) = false) ∧
      (0x8000 ≤ (0x8000 : Word).toNat ∧ (0x9FFF : Word).toNat < 0xA000) ∧ (0xA000 ≤ (0xA000 : Word).toNat ∧ (0xBFFF : Word).toNat < 0xC000) ∧
      (0xC000 ≤ (0xC000 : Word).toNat ∧ (0xDFFF : Word).toNat < 0xE000) ∧ 0xE000 ≤ (0xE000 : Word).toNat := by
  decide

-- O46
theorem witness_PpuStatusRead :
    (0x2000 ≤ (0x2002 : Word).toNat ∧ (0x2002 : Word).toNat ≤ 0x3FFF ∧ (0x2002 : Word).toNat % 8 = 2) ∧
      (0x2000 ≤ (0x3FFA : Word).toNat ∧ (0x3FFA : Word).toNat ≤ 0x3FFF ∧ (0x3FFA : Word).toNat % 8 = 2) := by
  decide

-- O47, O48: both sides of the palette's edge, and of the nametables'
theorem witness_PpuDataPort :
    (BitVec.ofNat 14 (({ Ppu.reset with v := 0x3EFF } : Ppu).v.toNat % 0x4000)).toNat < 0x3F00 ∧
      0x3F00 ≤ (BitVec.ofNat 14 (({ Ppu.reset with v := 0x7F00 } : Ppu).v.toNat % 0x4000)).toNat := by
  decide
theorem witness_PaletteAliasesAndSixBits :
    (0x3F00 ≤ (0x3F00 : BitVec 14).toNat ∧ (0x3EFF : BitVec 14).toNat < 0x3F00 ∧ 0x2000 ≤ (0x2000 : BitVec 14).toNat ∧
      (0x1FFF : BitVec 14).toNat < 0x2000) ∧
      palIndex (0x3F10 : BitVec 14).toNat = palIndex (0x3F00 : BitVec 14).toNat ∧
      palIndex (0x3F11 : BitVec 14).toNat ≠ palIndex (0x3F01 : BitVec 14).toNat ∧
      ntIndex .horizontal 0x2508 = ntIndex .horizontal 0x2108 ∧ ntIndex .horizontal 0x2908 ≠ ntIndex .horizontal 0x2108 := by
  decide

-- O49, O50: with the window over and with it open, and a register of each kind
theorem witness_ScrollAndAddressWrites : ({ Ppu.reset with resetProtect := false } : Ppu).resetProtect = false := rfl
theorem witness_PpuRegisterWritesAndResetProtection :
    (Ppu.reset.resetProtect = true ∧ ({ Ppu.reset with resetProtect := false } : Ppu).resetProtect = false) ∧
      ((6 : BitVec 3) = 0 ∨ (6 : BitVec 3) = 1 ∨ (6 : BitVec 3) = 5 ∨ (6 : BitVec 3) = 6) ∧
      ¬((7 : BitVec 3) = 0 ∨ (7 : BitVec 3) = 1 ∨ (7 : BitVec 3) = 5 ∨ (7 : BitVec 3) = 6) ∧
      ((3 : BitVec 3) ≠ 2 ∧ (3 : BitVec 3) ≠ 4 ∧ (3 : BitVec 3) ≠ 7) := by
  decide

-- O51: the two dots and one beside each
theorem witness_VblankAndNmiAtTheirDot :
    (let p : Ppu := { Ppu.reset with scanline := 241, dot := 1 }
     p.scanline = 241 ∧ p.dot = 1) ∧
    (let p : Ppu := { Ppu.reset with scanline := 261, dot := 1 }
     p.scanline = 261 ∧ p.dot = 1) ∧
    (let p : Ppu := { Ppu.reset with scanline := 241, dot := 0 }
     ¬(p.scanline = 241 ∧ p.dot = 1) ∧ ¬(p.scanline = 261 ∧ p.dot = 1)) := by
  decide

-- O52: the first and the last place of a frame; the last scanline that latches, its next dot, and the first that does not
theorem witness_PpuTicksCountFramesAndLatchScanlines :
    ((Ppu.reset.scanline < 262 ∧ Ppu.reset.dot < 341) ∧
      (let p : Ppu := { Ppu.reset with scanline := 261, dot := 340 }
       p.scanline < 262 ∧ p.dot < 341)) ∧
    (let latches := fun (p : Ppu) => p.scanline ≤ 239 ∧ p.dot = 1
     latches { Ppu.reset with scanline := 239, dot := 1 } ∧ ¬latches { Ppu.reset with scanline := 239, dot := 2 } ∧
       ¬latches { Ppu.reset with scanline := 240, dot := 1 }) := by
  decide

-- O54: a count no point has, the first point of the default list, and the last
theorem witness_ApuClockAndFrameCounter :
    (∃ t, step (machine [] cpu0) = .next t) ∧ (∀ x ∈ Params.default.fcSteps4, x.count ≠ Apu.reset.fcCount + 1) ∧
      (∃ x after, Params.default.fcSteps4 = [] ++ x :: after ∧ x.count = ({ Apu.reset with fcCount := 3728 } : Apu).fcCount + 1 ∧
        ∀ y ∈ ([] : List FcStep), y.count ≠ 3729) ∧
      (let u : Apu := { Apu.reset with fcCount := 14914 }
       ∃ before x, Params.default.fcSteps4 = before ++ x :: [] ∧ x.count = u.fcCount + 1 ∧
         (∀ y ∈ before, y.count ≠ u.fcCount + 1) ∧ (u.frameCounterStep .default).frameIrq = true) :=
  ⟨⟨_, rfl⟩, by decide, ⟨_, _, rfl, rfl, by decide⟩,
    ⟨[{ count := 3729, quarter := true, half := false, irq := false, reset := false },
      { count := 7457, quarter := true, half := true, irq := false, reset := false },
      { count := 11186, quarter := true, half := false, irq := false, reset := false }],
      _, rfl, rfl, by decide, by decide⟩⟩

-- O55: bytes left after the fetch, the last byte of a loop and without one, a fetch and none, and the edges of the ranges
theorem witness_DmcRegistersAndFetch :
    (let d : Dmc := { Dmc.reset with bytesRemaining := 2, curAddr := 0xFFFF }
     d.bytesRemaining - 1 ≠ 0 ∧ d.curAddr = 0xFFFF) ∧
    (let d : Dmc := { Dmc.reset with bytesRemaining := 1, loop := true }
     d.bytesRemaining - 1 = 0 ∧ d.loop = true) ∧
    (let d : Dmc := { Dmc.reset with bytesRemaining := 1 }
     d.bytesRemaining - 1 = 0 ∧ d.loop = false) ∧
    (let d : Dmc := { Dmc.reset with bytesRemaining := 1 }
     d.bufferEmpty = true ∧ d.bytesRemaining ≠ 0) ∧
    ¬(Dmc.reset.bufferEmpty = true ∧ Dmc.reset.bytesRemaining ≠ 0) ∧
    (0x8000 ≤ (0x8000 : Word).toNat ∧ 0x6000 ≤ (0x6000 : Word).toNat ∧ (0x7FFF : Word).toNat ≤ 0x7FFF ∧
      (0x5FFF : Word).toNat ≤ 0x5FFF) := by
  decide

-- O56: with a cartridge and with none
theorem witness_ResetLeavesTheStatedState :
    State.reset.cart = none ∧ (withCart (cartWith 1 8192 .nrom)).cart = some (cartWith 1 8192 .nrom) ∧ (.palette : Space) ≠ .nametable := by
  decide

/-- A state in the middle of things that meets the invariant: a cartridge, memory written, an unstable store under way. -/
def busy : State :=
  { inStore .shx 3 3 [0x9E, 0xFF, 0x02] with cart := some (cartWith 8 131072 (.mmc3 mmc3Reset)) }

-- O57
theorem witness_StepKeepsTheInvariant : busy.ok = true ∧ ∃ t, step busy = .next t := ⟨by decide +kernel, _, rfl⟩

-- O60
theorem witness_HostOperationsKeepTheInvariant :
    busy.ok = true ∧ Memory.ok 8192 [] = true ∧ ∃ t, insertCartridge smallImage [] [] busy = .ok t := by
  obtain ⟨c, hc⟩ := smallImage_created
  exact ⟨by decide +kernel, rfl, _, by rw [insertCartridge, hc]; rfl⟩

end Sys2Proof.Tests
end

section
/-! Decoding and encoding are inverse to each other (R160, R165), and what each operand form resolves to (R155, R156, R158,
R159): O2, O4 and O5. -/

namespace Sys2Proof

open Sys2Proof.Machine

/-! ## Every cell of the opcode map encodes back to its own opcode -/

/-- Only a well-formed term has an encoding. -/
theorem wf_of_encode_eq_cons {i : Instr} {op : Byte} {bs : List Byte} (h : encode i = op :: bs) : i.wf = true := by
  cases hw : i.wf with
  | true => rfl
  | false => simp [encode, hw] at h

/-- The operand bytes of the instruction in a cell: none, the first byte at hand, or both of them as one word (R152). -/
def Row.operandBytes (r : Row) (b1 b2 : Byte) : List Byte :=
  match r with
  | .f1 _ => []
  | .f2 _ => [b1]
  | .f3 _ => wordBytes (mkWord b2 b1)

theorem Row.operandBytes_eq_take (r : Row) (b1 b2 : Byte) : r.operandBytes b1 b2 = [b1, b2].take r.operandCount := by
  cases r with
  | f1 i => rfl
  | f2 f => rfl
  | f3 f => simp [Row.operandBytes, Row.operandCount, wordBytes]

/-- The 16 cells of each row of the map against the rules' lists of encodings, their operand bytes left open. -/
theorem encode_cells (b1 b2 : Byte) {hi : Nat} (h : hi < 16) :
    (List.range 16).map (fun lo => encode (decodeBytes (BitVec.ofNat 8 (16 * hi + lo)) b1 b2)) =
      (List.range 16).map (fun lo => BitVec.ofNat 8 (16 * hi + lo) ::
        (rowOf (BitVec.ofNat 8 (16 * hi + lo))).operandBytes b1 b2) := by
  interval_cases hi <;> rfl

/-- What an opcode and the bytes after it stand for encodes to that opcode and the operand bytes it has. -/
theorem encode_decodeBytes (op b1 b2 : Byte) :
    encode (decodeBytes op b1 b2) = op :: [b1, b2].take (operandCount op) := by
  have hhi : op.toNat / 16 < 16 := by have := op.isLt; omega
  have hlo : op.toNat % 16 < 16 := Nat.mod_lt _ (by decide)
  have h := List.map_inj_left.mp (encode_cells b1 b2 hhi) (op.toNat % 16) (List.mem_range.mpr hlo)
  rw [Nat.div_add_mod, BitVec.ofNat_toNat, BitVec.setWidth_eq] at h
  rw [h, Row.operandBytes_eq_take, operandCount]

/-! ## Every well-formed instruction decodes back from its encoding -/

/-- The cell of an instruction with a memory operand of a given form. -/
def formRow (c : MemMode → Instr) : MemForm → Row
  | .zp => .f2 fun x => c (.zp x)
  | .zpx => .f2 fun x => c (.zpx x)
  | .zpy => .f2 fun x => c (.zpy x)
  | .abs => .f3 fun x => c (.abs x)
  | .abx => .f3 fun x => c (.abx x)
  | .aby => .f3 fun x => c (.aby x)
  | .izx => .f2 fun x => c (.izx x)
  | .izy => .f2 fun x => c (.izy x)

/-- A cell for the operand's own form reads the operand back. -/
theorem decode_formRow {c : MemMode → Instr} {m : MemMode} {op : Byte} (h : rowOf op = formRow c m.form)
    (rest : List Byte) : decode (op :: (m.bytes ++ rest)) = .ok (c m, rest) := by
  cases m with
  | zp z => exact decode_f2 h z rest
  | zpx z => exact decode_f2 h z rest
  | zpy z => exact decode_f2 h z rest
  | abs w => exact decode_word h w rest
  | abx w => exact decode_word h w rest
  | aby w => exact decode_word h w rest
  | izx z => exact decode_f2 h z rest
  | izy z => exact decode_f2 h z rest

/-- Where a list of encodings agrees with the opcode map, the opcode picked for a form in it has that form's cell. -/
theorem rowOf_pick {c : MemMode → Instr} {l : List (MemForm × Byte)} {m : MemMode}
    (hl : l.map (fun e => rowOf e.2) = l.map (fun e => formRow c e.1)) (h : m.isIn (l.map Prod.fst) = true) :
    rowOf (m.pick l) = formRow c m.form := by
  rw [MemMode.isIn] at h
  rw [MemMode.pick]
  generalize m.form = f at h
  induction l with
  | nil => simp at h
  | cons e l ih =>
    obtain ⟨he, hl⟩ := List.cons.inj hl
    rw [List.lookup_cons]
    by_cases hf : f = e.1
    · simpa [hf] using he
    · rw [beq_eq_false_iff_ne.mpr hf]
      exact ih hl (by simpa [hf] using h)

/-- An instruction with a memory operand, its list of encodings held against the opcode map. -/
theorem decode_pick {c : MemMode → Instr} {l : List (MemForm × Byte)} {m : MemMode}
    (hl : l.map (fun e => rowOf e.2) = l.map (fun e => formRow c e.1)) (h : m.isIn (l.map Prod.fst) = true)
    (rest : List Byte) : decode (m.pick l :: (m.bytes ++ rest)) = .ok (c m, rest) :=
  decode_formRow (rowOf_pick hl h) rest

/-- An instruction of the `read` kind: its immediate cell and its list of memory forms. -/
theorem decode_readPick {c : ReadMode → Instr} {imm : Byte} {l : List (MemForm × Byte)} {m : ReadMode}
    (hi : rowOf imm = .f2 fun x => c (.imm x))
    (hl : l.map (fun e => rowOf e.2) = l.map (fun e => formRow (fun x => c (.mem x)) e.1))
    (h : m.isIn (l.map Prod.fst) = true) (rest : List Byte) :
    decode (m.pick imm l :: (m.bytes ++ rest)) = .ok (c m, rest) := by
  cases m with
  | imm v => exact decode_f2 hi v rest
  | mem m => exact decode_pick (c := fun x => c (.mem x)) hl h rest

/-- A shift or rotate: its accumulator cell and its list of memory forms. -/
theorem decode_shiftPick {c : ShiftMode → Instr} {acc : Byte} {l : List (MemForm × Byte)} {m : ShiftMode}
    (ha : rowOf acc = .f1 (c .acc))
    (hl : l.map (fun e => rowOf e.2) = l.map (fun e => formRow (fun x => c (.mem x)) e.1))
    (h : m.isIn (l.map Prod.fst) = true) (rest : List Byte) :
    decode (m.pick acc l :: (m.bytes ++ rest)) = .ok (c m, rest) := by
  cases m with
  | acc => exact decode_f1 ha rest
  | mem m => exact decode_pick (c := fun x => c (.mem x)) hl h rest

/-- The cell of an opcode byte in a list whose bytes all have the cell `r` gives them. -/
theorem rowOf_of_contains {l : List Byte} {op : Byte} (r : Byte → Row) (hl : l.map rowOf = l.map r)
    (h : l.contains op = true) : rowOf op = r op :=
  List.map_inj_left.mp hl op (List.contains_iff_mem.mp h)

/-- The reading NOPs, whose form tells which bytes they have (R368). -/
theorem decode_nopRead {op : Byte} {m : MemMode} (h : nopReadOk op m = true) (rest : List Byte) :
    decode (op :: (m.bytes ++ rest)) = .ok (.nopRead op m, rest) := by
  apply decode_formRow
  cases m with
  | zp z => exact rowOf_of_contains (fun op => formRow (.nopRead op) .zp) rfl h
  | zpx z => exact rowOf_of_contains (fun op => formRow (.nopRead op) .zpx) rfl h
  | abs w => obtain rfl : op = 0x0C := eq_of_beq h; rfl
  | zpy z | abx w | aby w | izx z | izy z => cases h

/-- A well-formed instruction is read back from its opcode and operand bytes, whatever follows them: each arm holds the
rule's encodings against the opcode map. -/
theorem decode_opcode_operands {i : Instr} (h : i.wf = true) (rest : List Byte) :
    decode (i.opcode :: (i.operands ++ rest)) = .ok (i, rest) := by
  cases i <;> dsimp only [Instr.opcode, Instr.operands, Instr.wf] at h ⊢
  case lda m | ldx m | ldy m | adc m | sbc m | and m | ora m | eor m | cmp m | cpx m | cpy m =>
    exact decode_readPick rfl rfl h rest
  case sta m | stx m | sty m | bit m | inc m | dec m | slo m | rla m | sre m | rra m | sax m | lax m | dcp m | isc m =>
    exact decode_pick rfl h rest
  case asl m | lsr m | rol m | ror m => exact decode_shiftPick rfl rfl h rest
  case tax | tay | txa | tya | tsx | txs | pha | php | pla | plp | inx | iny | dex | dey | rts | rti | brk | clc | sec |
      cli | sei | cld | sed | clv | nop =>
    exact decode_f1 rfl rest
  case bpl v | bmi v | bvc v | bvs v | bcc v | bcs v | bne v | beq v | asr v | arr v | ane v | lxa v | axs v |
      sbcMirror v | shaIzy v =>
    exact decode_f2 rfl v rest
  case jmp w | jmpInd w | jsr w | lae w | shaAby w | shx w | shy w | shs w => exact decode_word rfl w rest
  case anc op v => exact decode_f2 (rowOf_of_contains (fun op => .f2 (.anc op)) rfl h) v rest
  case nopImplied op => exact decode_f1 (rowOf_of_contains (fun op => .f1 (.nopImplied op)) rfl h) rest
  case nopImm op v => exact decode_f2 (rowOf_of_contains (fun op => .f2 (.nopImm op)) rfl h) v rest
  case nopRead op m => exact decode_nopRead h rest
  case nopAbx op w => exact decode_word (rowOf_of_contains (fun op => .f3 (.nopAbx op)) rfl h) w rest
  case nopUnknown op => exact decode_f1 (rowOf_of_contains (fun op => .f1 (.nopUnknown op)) rfl h) rest

/-- Decoding undoes encoding. -/
theorem decode_encode {i : Instr} (h : i.wf = true) (rest : List Byte) : decode (encode i ++ rest) = .ok (i, rest) := by
  simpa [encode, h] using decode_opcode_operands h rest

theorem encode_injective {i j : Instr} (hi : i.wf = true) (hj : j.wf = true) (h : encode i = encode j) : i = j := by
  have hd : decode (encode i ++ []) = decode (encode j ++ []) := by rw [h]
  rw [decode_encode hi, decode_encode hj] at hd
  exact congrArg Prod.fst (Except.ok.inj hd)

/-- Settles O2: the cells of the opcode map encode back to their own opcodes, and decoding undoes encoding. -/
theorem everyByteIsOneInstruction : Obligations.EveryByteIsOneInstruction := by
  refine ⟨fun op b1 b2 rest => ?_, fun i j => encode_injective⟩
  have he := encode_decodeBytes op b1 b2
  refine ⟨decodeBytes op b1 b2, wf_of_encode_eq_cons he, ?_, decode_three op b1 b2 rest⟩
  rw [he, Nat.add_comm, List.take_succ_cons]

end Sys2Proof

namespace Sys2Proof.Machine

/-! ## Operand addresses -/

theorem hiByte_toNat (w : Word) : (hiByte w).toNat = w.toNat / 256 := by
  have := w.isLt
  rw [hiByte, BitVec.extractLsb'_toNat, Nat.shiftRight_eq_div_pow]
  omega

theorem loByte_toNat (w : Word) : (loByte w).toNat = w.toNat % 256 := by
  simp [loByte, BitVec.extractLsb'_toNat]

/-- Page 0 is the page with high byte 0. -/
theorem hiByte_zext (z : Byte) : hiByte (zext z) = 0 := by
  apply BitVec.eq_of_toNat_eq
  rw [hiByte_toNat, zext_toNat]
  exact Nat.div_eq_of_lt z.isLt

/-- A zero-page pointer is two bytes of work RAM, the second one's address wrapping inside page 0; the latch keeps the
byte read last (R158, R159, R438). -/
theorem readPointer_eq (z : Byte) (s : State) :
    readPointer z s =
      (mkWord (s.peek .ram (z + 1).toNat) (s.peek .ram z.toNat), s.latch (s.peek .ram (z + 1).toNat)) := by
  simp only [readPointer, busRead_lowRam (zext_low _), ramIndex_zext, State.latch_ram, State.latch_latch, State.peek]

/-- (zero-page,X) adds the index before the pointer is read (R158). -/
theorem resolve_izx (z : Byte) (s : State) :
    resolve (.izx z) s = (Ea.plain (readPointer (z + s.cpu.x) s).1, (readPointer (z + s.cpu.x) s).2) := rfl

/-- (zero-page),Y adds the index after the pointer is read (R159). -/
theorem resolve_izy (z : Byte) (s : State) :
    resolve (.izy z) s = (Ea.index (readPointer z s).1 s.cpu.y, (readPointer z s).2) := by
  rw [resolve, readPointer_eq, State.latch_cpu]

@[simp] theorem Ea.plain_crossed (a : Word) : (Ea.plain a).crossed = false := by simp [Ea.crossed, Ea.plain]

/-- An index addition crosses a page exactly when it carries out of the low byte (R156). -/
theorem Ea.index_crossed_iff (w : Word) (i : Byte) :
    (Ea.index w i).crossed = true ↔ 0x100 ≤ (loByte w).toNat + i.toNat := by
  have hw := w.isLt
  have hi := i.isLt
  have hsum : (w + zext i).toNat = (w.toNat + i.toNat) % 65536 := by rw [BitVec.toNat_add, zext_toNat]
  simp only [Ea.crossed, Ea.index, bne_iff_ne, ne_eq, ← BitVec.toNat_inj, hiByte_toNat, loByte_toNat, hsum]
  omega

/-- Where no page is crossed the un-carried address is the effective address. -/
theorem Ea.uncarried_of_not_crossed {e : Ea} (h : e.crossed = false) : e.uncarried = e.ea := by
  have hpage : hiByte e.ea = hiByte e.base := by simpa [Ea.crossed] using h
  rw [Ea.uncarried, ← hpage, mkWord_hiByte_loByte]

/-- Settles O4: page 0 is work RAM, so its two pointer bytes are peeked, and only an index addition makes a dummy
access. -/
theorem zeroPageOperands : Obligations.ZeroPageOperands := by
  intro z s
  refine ⟨rfl, rfl, rfl, fun b => ⟨zext_toNat b, hiByte_zext b⟩, ?_, ?_⟩
  · rw [resolve_izx, readPointer_eq]
    rfl
  · rintro e b rfl
    exact ⟨Ea.plain_crossed b, rfl⟩

/-- Settles O5: the sum of base and index differs from the base in its page exactly on a carry out of the low byte. -/
theorem indexedOperands : Obligations.IndexedOperands := by
  intro w z s
  refine ⟨rfl, rfl, rfl, ?_, fun i => ⟨Ea.index_crossed_iff w i, hiByte_mkWord _ _, loByte_mkWord _ _,
    Ea.uncarried_of_not_crossed⟩⟩
  rw [resolve_izy, readPointer_eq]
  rfl

end Sys2Proof.Machine
end

section
/-! Loads, stores, transfers and the stack (40_load_store_transfer.md): a rule's list of encodings held against the opcode
map, and what a body that loads registers, a push and a pull do and keep: O15, O16, O17 and O18. -/

namespace Sys2Proof

open Sys2Proof.Machine

/-! ## A rule's list of encodings -/

/-- A form is well formed exactly if the rule lists it, where the rule lists the well-formed forms in some order. -/
theorem wf_iff_listed {β : Type} [DecidableEq β] {l : List (Cell β)} {forms : List β} {wf : Bool} {form : β}
    (hwf : wf = true ↔ form ∈ forms) (hforms : (l.map Prod.fst).Perm forms) : wf = true ↔ ∃ e ∈ l, e.1 = form := by
  rw [hwf, ← hforms.mem_iff, List.mem_map]

/-- An entry that agrees with the opcode map and with the cycle count of its form holds for every operand of that form. -/
theorem decodesTo_of_listed {α β : Type} {form : α → β} {bytes : α → List Byte} {c : α → Instr} {cycles : α → Nat}
    {row : β → Row} {base : β → Nat} {l : List (Cell β)}
    (hdecode : ∀ m op rest, rowOf op = row (form m) → decode (op :: (bytes m ++ rest)) = .ok (c m, rest))
    (hcycles : ∀ m, cycles m = base (form m))
    (hl : l.map (fun e => (rowOf e.2.1, e.2.2)) = l.map fun e => (row e.1, base e.1)) :
    ∀ m, ∀ e ∈ l, e.1 = form m → decodesTo (e.2.1 :: bytes m) (c m) ∧ cycles m = e.2.2 := by
  intro m e he hm
  obtain ⟨hrow, hbase⟩ := Prod.mk.inj (List.map_inj_left.mp hl e he)
  rw [hm] at hrow hbase
  exact ⟨fun rest => hdecode m e.2.1 rest hrow, (hcycles m).trans hbase.symm⟩

/-- One operand of each form: cycle counts depend on the form alone. -/
def MemForm.operand : MemForm → MemMode
  | .zp => .zp 0
  | .zpx => .zpx 0
  | .zpy => .zpy 0
  | .abs => .abs 0
  | .abx => .abx 0
  | .aby => .aby 0
  | .izx => .izx 0
  | .izy => .izy 0

theorem MemMode.isIn_iff_mem (m : MemMode) (forms : List MemForm) : m.isIn forms = true ↔ m.form ∈ forms :=
  List.contains_iff_mem

theorem readCycles_form (m : MemMode) (crossed : Bool) : readCycles m crossed = readCycles m.form.operand crossed := by
  cases m <;> rfl

theorem writeCycles_form (m : MemMode) : writeCycles m = writeCycles m.form.operand := by cases m <;> rfl

/-- A rule's list of memory forms, held against the well-formed forms, the opcode map and the cycle counts. -/
theorem memCells_of {c : MemMode → Instr} {cycles : MemMode → Nat} {l : List (Cell MemForm)} (forms : List MemForm)
    (hwf : ∀ m, (c m).wf = m.isIn forms) (hcycles : ∀ m, cycles m = cycles m.form.operand)
    (hforms : (l.map Prod.fst).Perm forms)
    (hl : l.map (fun e => (rowOf e.2.1, e.2.2)) = l.map fun e => (formRow c e.1, cycles e.1.operand)) :
    memCells c cycles l :=
  ⟨fun m => wf_iff_listed ((hwf m).symm ▸ m.isIn_iff_mem forms) hforms,
    decodesTo_of_listed (base := fun f => cycles f.operand) (fun _ _ rest h => decode_formRow h rest) hcycles hl⟩

/-- The cell of a `read` instruction with an operand of a given form; `none` is immediate. -/
def readRow (c : ReadMode → Instr) : Option MemForm → Row
  | none => .f2 fun v => c (.imm v)
  | some f => formRow (fun m => c (.mem m)) f

theorem decode_readRow {c : ReadMode → Instr} {m : ReadMode} {op : Byte} (h : rowOf op = readRow c (readFormOf m))
    (rest : List Byte) : decode (op :: (m.bytes ++ rest)) = .ok (c m, rest) := by
  cases m with
  | imm v => exact decode_f2 h v rest
  | mem m => exact decode_formRow (c := fun m => c (.mem m)) h rest

/-- The cycles of a `read` operand of a given form before the page-cross cycle (R163). -/
def readFormCycles : Option MemForm → Nat
  | none => 2
  | some f => readCycles f.operand false

theorem readBase_form (m : ReadMode) : readBase m = readFormCycles (readFormOf m) := by
  cases m with
  | imm v => rfl
  | mem m => exact readCycles_form m false

theorem ReadMode.isIn_iff_mem (m : ReadMode) (forms : List MemForm) :
    m.isIn forms = true ↔ readFormOf m ∈ none :: forms.map some := by
  cases m with
  | imm v => simp [ReadMode.isIn, readFormOf]
  | mem m => simp [ReadMode.isIn, readFormOf, m.isIn_iff_mem]

/-- A `read` rule's list of forms, held against the well-formed forms, the opcode map and the cycle counts. -/
theorem readCells_of {c : ReadMode → Instr} {l : List (Cell (Option MemForm))} (forms : List MemForm)
    (hwf : ∀ m, (c m).wf = m.isIn forms) (hforms : (l.map Prod.fst).Perm (none :: forms.map some))
    (hl : l.map (fun e => (rowOf e.2.1, e.2.2)) = l.map fun e => (readRow c e.1, readFormCycles e.1)) :
    readCells c l :=
  ⟨fun m => wf_iff_listed ((hwf m).symm ▸ m.isIn_iff_mem forms) hforms,
    decodesTo_of_listed (fun _ _ rest h => decode_readRow h rest) readBase_form hl⟩

end Sys2Proof

namespace Sys2Proof.Machine

/-! ## Bodies that load registers -/

/-- N and Z describe the value that P was set by. -/
theorem nzOf_of_p_eq {v p : Byte} {t : State} (h : t.cpu.p = setNZ v p) : nzOf v t := by
  simp [nzOf, h, getFlag_setNZ, bit]

/-- The registers listed all get `v`, and N and Z describe it. -/
def Cpu.load (regs : List Reg) (v : Byte) (c : Cpu) : Cpu :=
  { c with
    a := if .a ∈ regs then v else c.a
    x := if .x ∈ regs then v else c.x
    y := if .y ∈ regs then v else c.y
    sp := if .sp ∈ regs then v else c.sp
    p := setNZ v c.p }

/-! The bodies of LDA, LDX, LDY and of the transfers and counts, which take the place of `Cpu.load` by `rfl`. -/

theorem Cpu.loadA_eq_load (v : Byte) (c : Cpu) : c.loadA v = c.load [.a] v := rfl
theorem Cpu.loadX_eq_load (v : Byte) (c : Cpu) : c.loadX v = c.load [.x] v := rfl
theorem Cpu.loadY_eq_load (v : Byte) (c : Cpu) : c.loadY v = c.load [.y] v := rfl

theorem Cpu.load_reg (regs : List Reg) (v : Byte) (c : Cpu) (r : Reg) :
    (c.load regs v).reg r = if r ∈ regs then v else c.reg r := by
  cases r <;> rfl

theorem BodyKeeps.load (regs : List Reg) (v : Cpu → Byte) : BodyKeeps regs [.n, .z] fun c => c.load regs (v c) where
  body := ⟨fun _ => rfl, fun _ => rfl, fun _ => rfl, fun _ => rfl, fun _ => rfl⟩
  regs c r hr := by rw [Cpu.load_reg, if_neg hr]
  flags c f hf := by
    simp only [List.mem_cons, List.not_mem_nil, or_false, not_or] at hf
    simp [Cpu.load, getFlag_setNZ, hf]

theorem BodyKeeps.setSp (v : Cpu → Byte) : BodyKeeps [.sp] [] fun c => { c with sp := v c } where
  body := ⟨fun _ => rfl, fun _ => rfl, fun _ => rfl, fun _ => rfl, fun _ => rfl⟩
  regs c r hr := by cases r with
    | sp => simp at hr
    | _ => rfl
  flags _ _ _ := rfl

/-- One body after another changes what either of them changes. -/
theorem BodyKeeps.comp {regs regs' : List Reg} {flags flags' : List Flag} {g g' : Cpu → Cpu}
    (h' : BodyKeeps regs' flags' g') (h : BodyKeeps regs flags g) :
    BodyKeeps (regs' ++ regs) (flags' ++ flags) fun c => g' (g c) where
  body :=
    ⟨fun c => (h'.body.cycleCount _).trans (h.body.cycleCount c),
      fun c => (h'.body.nmiPending _).trans (h.body.nmiPending c),
      fun c => (h'.body.irqLine _).trans (h.body.irqLine c),
      fun c => (h'.body.latchedIrq _).trans (h.body.latchedIrq c),
      fun c => (h'.body.sh _).trans (h.body.sh c)⟩
  regs c r hr := by
    rw [List.mem_append, not_or] at hr
    exact (h'.regs _ r hr.1).trans (h.regs c r hr.2)
  flags c f hf := by
    rw [List.mem_append, not_or] at hf
    exact (h'.flags _ f hf.1).trans (h.flags c f hf.2)

/-- An instruction of two clocks that loads a register with what `v` finds in the CPU; the poll before it changes nothing
that `v` looks at. -/
theorem registerOp_load (r : Reg) (v : Cpu → Byte) (s : State) (hv : v (s.cpu.pollFirst 2) = v s.cpu) :
    let t := registerOp 2 (fun c => c.load [r] (v c)) s
    t.cpu.reg r = v s.cpu ∧ nzOf (v s.cpu) t ∧ RegistersOnly [r] [.n, .z] 2 s t := by
  refine ⟨?_, nzOf_of_p_eq (p := s.cpu.p) ?_, registerOp_only (BodyKeeps.load [r] v) 2 (fun _ => rfl) s⟩
  · simp [registerOp, Cpu.setGeneral_eq, Cpu.load_reg, hv]
  · simp [registerOp, Cpu.setGeneral_eq, Cpu.load, hv]

/-- An instruction that loads registers with what `v` makes of its operand and the CPU. -/
theorem readOp_load (regs : List Reg) (v : Byte → Cpu → Byte) (m : ReadMode) (s : State)
    (hv : ∀ b n, v b (s.cpu.pollFirst n) = v b s.cpu) :
    let t := readOp m (fun b c => c.load regs (v b c)) s
    let w := v (readMode m s).value s.cpu
    (∀ r ∈ regs, t.cpu.reg r = w) ∧ nzOf w t ∧ ReadsOperand regs [.n, .z] m s t := by
  refine ⟨fun r hr => ?_, nzOf_of_p_eq (p := s.cpu.p) ?_,
    readOp_reads (fun b => BodyKeeps.load regs (v b)) (fun _ _ => rfl) m s⟩
  · simp [readOp, Cpu.setGeneral_eq, Cpu.load_reg, hv, hr]
  · simp [readOp, Cpu.setGeneral_eq, Cpu.load, hv]

/-- An instruction that loads one register with its operand. -/
theorem readOp_loadOne (r : Reg) (m : ReadMode) (s : State) :
    let t := readOp m (Cpu.load [r]) s
    let v := (readMode m s).value
    t.cpu.reg r = v ∧ nzOf v t ∧ ReadsOperand [r] [.n, .z] m s t := by
  obtain ⟨hreg, hnz, hreads⟩ := readOp_load [r] (fun b _ => b) m s fun _ _ => rfl
  exact ⟨hreg r (List.mem_singleton_self r), hnz, hreads⟩

/-- Settles O15: each load's body loads the registers it names with one byte made of its operand. -/
theorem loadsPutTheirOperandInRegisters : Obligations.LoadsPutTheirOperandInRegisters := by
  refine ⟨⟨readCells_of aluForms (fun _ => rfl) (by decide) rfl,
    readCells_of [.zp, .zpy, .abs, .aby] (fun _ => rfl) (by decide) rfl,
    readCells_of [.zp, .zpx, .abs, .abx] (fun _ => rfl) (by decide) rfl,
    fun m s => ⟨_, rfl, readOp_loadOne .a m s⟩, fun m s => ⟨_, rfl, readOp_loadOne .x m s⟩,
    fun m s => ⟨_, rfl, readOp_loadOne .y m s⟩⟩,
    memCells_of [.zp, .zpy, .abs, .aby, .izx, .izy] (fun _ => rfl) (fun m => readCycles_form m false) (by decide) rfl,
    fun m s => ?lax, fun lo hi s => ⟨fun rest => decode_f3 rfl lo hi rest, ?lae⟩⟩
  case lax =>
    obtain ⟨hreg, hnz, hreads⟩ := readOp_load [.a, .x] (fun b _ => b) (.mem m) s fun _ _ => rfl
    exact ⟨_, rfl, hreg .a (by decide), hreg .x (by decide), hnz, hreads⟩
  case lae =>
    obtain ⟨hreg, hnz, hreads⟩ := readOp_load [.a, .x, .sp] (fun b c => b &&& c.sp) (.mem (.aby (mkWord hi lo))) s
      fun b n => by rw [Cpu.pollFirst_sp]
    exact ⟨_, rfl, hreg .a (by decide), hreg .x (by decide), hreg .sp (by decide), hnz, hreads⟩

/-! ## Stores -/

/-- SAX has no form that adds an index to a base address (R354). -/
theorem sax_not_indexed {m : MemMode} (s : State) (h : (Instr.sax m).wf = true) : (resolve m s).1.indexed = false := by
  cases m with
  | abx w | aby w | izy z => cases h
  | _ => rfl

/-- Settles O16: each store is `writeOp` of its byte, whose effect and frame `writeOp_stores` says. -/
theorem storesWriteOneByte : Obligations.StoresWriteOneByte :=
  ⟨memCells_of aluForms (fun _ => rfl) writeCycles_form (by decide) rfl,
    memCells_of [.zp, .zpy, .abs] (fun _ => rfl) writeCycles_form (by decide) rfl,
    memCells_of [.zp, .zpx, .abs] (fun _ => rfl) writeCycles_form (by decide) rfl,
    memCells_of [.zp, .zpy, .abs, .izx] (fun _ => rfl) writeCycles_form (by decide) rfl,
    fun m s => ⟨⟨_, rfl, writeOp_stores m _ s⟩, ⟨_, rfl, writeOp_stores m _ s⟩, ⟨_, rfl, writeOp_stores m _ s⟩,
      ⟨_, rfl, writeOp_stores m _ s⟩, sax_not_indexed s⟩⟩

/-! ## Transfers and counts -/

/-- Settles O17: each transfer and count loads one register from the CPU; TXS alone sets SP and no flag. -/
theorem transfersAndRegisterCounts : Obligations.TransfersAndRegisterCounts := by
  refine ⟨⟨decode_f1 rfl, decode_f1 rfl, decode_f1 rfl, decode_f1 rfl, decode_f1 rfl, decode_f1 rfl, ?tax, ?tay, ?txa,
    ?tya, ?tsx, ?txs⟩, decode_f1 rfl, decode_f1 rfl, decode_f1 rfl, decode_f1 rfl, ?inx, ?iny, ?dex, ?dey⟩
  case tax => exact fun s => ⟨_, rfl, registerOp_load .x Cpu.a s rfl⟩
  case tay => exact fun s => ⟨_, rfl, registerOp_load .y Cpu.a s rfl⟩
  case txa => exact fun s => ⟨_, rfl, registerOp_load .a Cpu.x s rfl⟩
  case tya => exact fun s => ⟨_, rfl, registerOp_load .a Cpu.y s rfl⟩
  case tsx => exact fun s => ⟨_, rfl, registerOp_load .x Cpu.sp s rfl⟩
  case txs => exact fun s => ⟨_, rfl, rfl, registerOp_only (BodyKeeps.setSp Cpu.x) 2 (fun _ => rfl) s⟩
  case inx => exact fun s => ⟨_, rfl, registerOp_load .x (fun c => c.x + 1) s rfl⟩
  case iny => exact fun s => ⟨_, rfl, registerOp_load .y (fun c => c.y + 1) s rfl⟩
  case dex => exact fun s => ⟨_, rfl, registerOp_load .x (fun c => c.x - 1) s rfl⟩
  case dey => exact fun s => ⟨_, rfl, registerOp_load .y (fun c => c.y - 1) s rfl⟩

/-! ## Pushes and pulls -/

/-- Work on the stack page that leaves every byte of work RAM but the cells listed as it was, whatever it does to the
CPU. -/
theorem afterStack_stackOnly {cells : List Nat} {s : State} {ram : Memory} (v sp : Byte) (f : Cpu → Cpu)
    (h : ∀ i, i ∉ cells → Memory.read ram i = Memory.read s.bus.ram i) :
    StackOnly cells v s ((s.afterStack ram v sp).mapCpu f) where
  bus := rfl
  ppu := rfl
  apu := rfl
  cart := rfl
  params := rfl
  memory sp i hi := by
    cases sp with
    | ram => exact h i fun hc => hi ⟨rfl, hc⟩
    | _ => rfl

/-- A push that ends its instruction of three clocks (R213, R214). -/
theorem push_pushes (v : Byte) (s : State) :
    let t := (push v s).mapCpu (Cpu.setGeneral 3)
    t.onStack s.cpu.sp = v ∧ t.cpu.sp = s.cpu.sp - 1 ∧ t.cpu.pc = s.cpu.pc ∧ Keeps [.sp] [] s t ∧
      StackOnly [stackCell s.cpu.sp] v s t ∧ Takes 3 s t := by
  have hbody := BodyKeeps.setSp fun c => c.sp - 1
  rw [push_eq]
  refine ⟨Memory.read_write_self _ _ _, rfl, rfl, (hbody.clockedLong (n := 3) (by decide) rfl).1,
    afterStack_stackOnly _ _ _ fun i hi => ?_, (hbody.clockedLong (by decide) rfl).2⟩
  exact Memory.read_write_ne _ _ fun h => hi (List.mem_singleton.mpr h.symm)

/-- PLA puts the byte that the raised SP designates in A (R215). -/
theorem exec_pla (s : State) :
    exec .pla s = .next ((s.afterStack s.bus.ram (s.onStack (s.cpu.sp + 1)) (s.cpu.sp + 1)).mapCpu fun c =>
      (c.loadA (s.onStack (s.cpu.sp + 1))).setGeneral 4) := by
  simp only [exec, execPla, pull_eq]

/-- PLP polls with the I it finds and then takes P from the byte that the raised SP designates (R216, R765). -/
theorem exec_plp (s : State) :
    exec .plp s = .next ((s.afterStack s.bus.ram (s.onStack (s.cpu.sp + 1)) (s.cpu.sp + 1)).mapCpu fun c =>
      { c.poll with p := pulledP (s.onStack (s.cpu.sp + 1)) }.setTiming 4 []) := by
  simp only [exec, execPlp, pull_eq]
  rfl

/-- Settles O18: a push stores one byte of the stack page, and a pull leaves the page as it was. -/
theorem pushesAndPulls : Obligations.PushesAndPulls := by
  refine ⟨⟨decode_f1 rfl, decode_f1 rfl, fun s => ⟨_, rfl, push_pushes _ s⟩, fun s => ⟨_, rfl, push_pushes _ s⟩⟩,
    decode_f1 rfl, decode_f1 rfl, fun s => ⟨_, exec_pla s, ?pla⟩, fun s => ⟨_, exec_plp s, ?plp⟩⟩
  case pla =>
    have hbody :=
      (BodyKeeps.load [.a] fun _ => s.onStack (s.cpu.sp + 1)).comp (BodyKeeps.setSp fun c => c.sp + 1)
    exact ⟨rfl, nzOf_of_p_eq rfl, rfl, rfl, (hbody.clockedLong (n := 4) (by decide) rfl).1,
      afterStack_stackOnly _ _ _ fun _ _ => rfl, (hbody.clockedLong (by decide) rfl).2⟩
  case plp =>
    refine ⟨rfl, rfl, rfl, ⟨fun r hr => ?_, fun f hf => ?_, rfl, rfl, rfl, rfl⟩,
      afterStack_stackOnly _ _ _ fun _ _ => rfl, rfl, rfl, rfl, rfl⟩
    · cases r with
      | sp => simp at hr
      | _ => rfl
    · cases f <;> simp at hf

end Sys2Proof.Machine
end

section
/-! Arithmetic, logic, compares, memory counts and shifts (41_arithmetic_logic.md): a shift's list of encodings held
against the opcode map, what a body that sets flags changes, the sum as a number and its overflow by the operands'
signs: O19 to O24. -/

namespace Sys2Proof

open Sys2Proof.Machine

/-! ## A shift's list of encodings -/

/-- The cell of a shift or rotate with an operand of a given form; `none` is the accumulator. -/
def shiftRow (c : ShiftMode → Instr) : Option MemForm → Row
  | none => .f1 (c .acc)
  | some f => formRow (fun m => c (.mem m)) f

theorem decode_shiftRow {c : ShiftMode → Instr} {m : ShiftMode} {op : Byte} (h : rowOf op = shiftRow c (shiftFormOf m))
    (rest : List Byte) : decode (op :: (m.bytes ++ rest)) = .ok (c m, rest) := by
  cases m with
  | acc => exact decode_f1 h rest
  | mem m => exact decode_formRow (c := fun m => c (.mem m)) h rest

/-- The cycles of a shift or rotate with an operand of a given form (R163). -/
def shiftFormCycles : Option MemForm → Nat
  | none => 2
  | some f => rmwCycles f.operand

theorem rmwCycles_form (m : MemMode) : rmwCycles m = rmwCycles m.form.operand := by cases m <;> rfl

theorem shiftBase_form (m : ShiftMode) : shiftBase m = shiftFormCycles (shiftFormOf m) := by
  cases m with
  | acc => rfl
  | mem m => exact rmwCycles_form m

theorem ShiftMode.isIn_iff_mem (m : ShiftMode) (forms : List MemForm) :
    m.isIn forms = true ↔ shiftFormOf m ∈ none :: forms.map some := by
  cases m with
  | acc => simp [ShiftMode.isIn, shiftFormOf]
  | mem m => simp [ShiftMode.isIn, shiftFormOf, m.isIn_iff_mem]

/-- The list of forms of a shift's rule, held against the well-formed forms, the opcode map and the cycle counts. -/
theorem shiftCells_of {c : ShiftMode → Instr} {l : List (Cell (Option MemForm))} (forms : List MemForm)
    (hwf : ∀ m, (c m).wf = m.isIn forms) (hforms : (l.map Prod.fst).Perm (none :: forms.map some))
    (hl : l.map (fun e => (rowOf e.2.1, e.2.2)) = l.map fun e => (shiftRow c e.1, shiftFormCycles e.1)) :
    shiftCells c l :=
  ⟨fun m => wf_iff_listed ((hwf m).symm ▸ m.isIn_iff_mem forms) hforms,
    decodesTo_of_listed (fun _ _ rest h => decode_shiftRow h rest) shiftBase_form hl⟩

end Sys2Proof

namespace Sys2Proof.Machine

/-! ## Bodies that set flags -/

/-- A body that sets P alone. -/
theorem BodyKeeps.setP {flags : List Flag} {p : Cpu → Byte}
    (hp : ∀ c f, f ∉ flags → getFlag (p c) f = getFlag c.p f) : BodyKeeps [] flags fun c => { c with p := p c } where
  body := ⟨fun _ => rfl, fun _ => rfl, fun _ => rfl, fun _ => rfl, fun _ => rfl⟩
  regs c r _ := by cases r <;> rfl
  flags := hp

/-- A body that sets A and P. -/
theorem BodyKeeps.setAP {flags : List Flag} (a : Cpu → Byte) {p : Cpu → Byte}
    (hp : ∀ c f, f ∉ flags → getFlag (p c) f = getFlag c.p f) :
    BodyKeeps [.a] flags fun c => { c with a := a c, p := p c } where
  body := ⟨fun _ => rfl, fun _ => rfl, fun _ => rfl, fun _ => rfl, fun _ => rfl⟩
  regs c r hr := by cases r with
    | a => simp at hr
    | _ => rfl
  flags := hp

/-- C and then N and Z set: no other flag changes. -/
theorem getFlag_setNZ_setCarry (v p : Byte) (x : Bool) {f : Flag} (hf : f ∉ [Flag.n, .z, .c]) :
    getFlag (setNZ v (setFlag p .c x)) f = getFlag p f := by
  simp only [List.mem_cons, List.not_mem_nil, or_false, not_or] at hf
  simp [getFlag_setNZ, getFlag_setFlag, hf]

/-- P and the registers after an instruction whose body does not look at the latched IRQ, the one thing that the poll of
its first clock changes: what the body makes of the CPU it found. -/
theorem readOp_outcome {f : Byte → Cpu → Cpu}
    (hf : ∀ v c b, f v { c with latchedIrq := b } = { f v c with latchedIrq := b }) (m : ReadMode) (s : State) :
    (readOp m f s).cpu.p = (f (readMode m s).value s.cpu).p ∧
      ∀ r, (readOp m f s).cpu.reg r = (f (readMode m s).value s.cpu).reg r := by
  rw [readOp, State.mapCpu_cpu, readMode_cpu, Cpu.pollFirst_eq, hf]
  exact ⟨rfl, fun r => by cases r <;> rfl⟩

/-- An instruction that modifies its operand leaves the P that its body makes of the old value. -/
theorem rmwOp_p (m : MemMode) (f : Byte → Byte) (g : Byte → Cpu → Cpu) (s : State) :
    (rmwOp m f g s).cpu.p = (g (rmwOld m s) s.cpu).p := by
  simp [rmwOp, Cpu.setGeneral_eq, rmwOperand, rmwOld, beforeStore]

/-! ## ADC and SBC -/

/-- Masking with 0x80 tests bit 7. -/
theorem and_signBit_ne_zero (x : Byte) : ((x &&& 0x80) != 0) = x.getLsbD 7 := by
  rw [show (0x80 : Byte) = BitVec.twoPow 8 7 from rfl, BitVec.and_twoPow]
  cases x.getLsbD 7 <;> rfl

theorem addWithCarry_result_toNat (a m : Byte) (c : Bool) :
    (addWithCarry a m c).result.toNat = (a.toNat + m.toNat + c.toNat) % 256 :=
  BitVec.toNat_ofNat _ _

/-- Signed overflow: the addends have one sign and the result the other (R250, R270). -/
theorem addWithCarry_overflow (a m : Byte) (c : Bool) :
    (addWithCarry a m c).overflow =
      ((a.getLsbD 7 == m.getLsbD 7) && ((addWithCarry a m c).result.getLsbD 7 != a.getLsbD 7)) := by
  have hsigns : ∀ x y z : Bool, (!(x ^^ y) && (x ^^ z)) = ((x == y) && (z != x)) := by decide
  rw [← hsigns]
  refine (and_signBit_ne_zero _).trans ?_
  simp [addWithCarry]

/-- The complement of a byte is 255 less the byte. -/
theorem xor_ones_toNat (m : Byte) : (m ^^^ 0xFF).toNat = 255 - m.toNat := by
  rw [show (0xFF : Byte) = BitVec.allOnes 8 from rfl, BitVec.xor_allOnes, BitVec.toNat_not]

/-- The borrow is 1 where C is clear (R251). -/
theorem borrow_toNat (c : Bool) : (!c).toNat = 1 - c.toNat := by cases c <;> rfl

/-- The sum with the complement is the difference, less the borrow that a clear C stands for (R251). -/
theorem addWithCarry_complement_toNat (a m : Byte) (c : Bool) :
    (addWithCarry a (m ^^^ 0xFF) c).result.toNat = (a.toNat + 256 - (m.toNat + (!c).toNat)) % 256 := by
  have hm := m.isLt
  have hc := c.toNat_le
  rw [addWithCarry_result_toNat, xor_ones_toNat, borrow_toNat]
  congr 1
  omega

/-- The sum with the complement carries exactly where the difference needs no borrow (R251). -/
theorem addWithCarry_complement_carry (a m : Byte) (c : Bool) :
    (addWithCarry a (m ^^^ 0xFF) c).carry = decide (m.toNat + (!c).toNat ≤ a.toNat) := by
  have hm := m.isLt
  have hc := c.toNat_le
  rw [addWithCarry, xor_ones_toNat, borrow_toNat]
  exact decide_eq_decide.mpr (by omega)

/-- Signed overflow of the difference: its operands differ in sign, and the result's sign is not that of the first. -/
theorem addWithCarry_complement_overflow (a m : Byte) (c : Bool) :
    (addWithCarry a (m ^^^ 0xFF) c).overflow =
      ((a.getLsbD 7 != m.getLsbD 7) && ((addWithCarry a (m ^^^ 0xFF) c).result.getLsbD 7 != a.getLsbD 7)) := by
  have hsign : (m ^^^ 0xFF).getLsbD 7 = !m.getLsbD 7 := by simp
  have hne : ∀ x y : Bool, (x == !y) = (x != y) := by decide
  rw [addWithCarry_overflow, hsign, hne]

theorem BodyKeeps.adcBody (m : Byte) : BodyKeeps [.a] [.n, .v, .z, .c] (adcBody m) :=
  BodyKeeps.setAP _ fun c f hf => by
    simp only [List.mem_cons, List.not_mem_nil, or_false, not_or] at hf
    simp [getFlag_setNZ, getFlag_setFlag, hf]

/-- An instruction that adds what `g` makes of its operand to A (R250, R251). -/
theorem readOp_adcBody {f : Byte → Cpu → Cpu} {g : Byte → Byte} (hf : ∀ b, f b = adcBody (g b)) (m : ReadMode)
    (s : State) :
    let t := readOp m f s
    let sum := addWithCarry s.cpu.a (g (readMode m s).value) (getFlag s.cpu.p .c)
    t.cpu.a = sum.result ∧ getFlag t.cpu.p .c = sum.carry ∧ nzOf t.cpu.a t ∧ getFlag t.cpu.p .v = sum.overflow ∧
      ReadsOperand [.a] [.n, .v, .z, .c] m s t := by
  obtain rfl : f = fun b => adcBody (g b) := funext hf
  obtain ⟨hp, hreg⟩ := readOp_outcome (f := fun b => adcBody (g b)) (fun _ _ _ => rfl) m s
  have ha := hreg .a
  refine ⟨ha, ?_, ?_, ?_, readOp_reads (fun b => BodyKeeps.adcBody (g b)) (fun _ _ => rfl) m s⟩
  · simp [hp, adcBody, getFlag_setNZ, getFlag_setFlag]
  · exact nzOf_of_p_eq (hp.trans (congrArg (setNZ · _) ha.symm))
  · simp [hp, adcBody, getFlag_setNZ]

/-- Settles O19: ADC's body is the sum of A, the operand and C, whose overflow bit compares signs. -/
theorem adcAddsInBinary : Obligations.AdcAddsInBinary := by
  refine ⟨readCells_of aluForms (fun _ => rfl) (by decide) rfl, fun m s => ⟨_, rfl, ?_⟩⟩
  obtain ⟨ha, hc, hnz, hv, hreads⟩ := readOp_adcBody (f := adcBody) (g := fun b => b) (fun _ => rfl) m s
  refine ⟨?_, hc, hnz, ?_, hreads⟩
  · rw [ha, addWithCarry_result_toNat]
  · rw [hv, ha, addWithCarry_overflow]

/-- Settles O20: SBC adds the complement of its operand. -/
theorem sbcSubtractsWithBorrow : Obligations.SbcSubtractsWithBorrow := by
  refine ⟨readCells_of aluForms (fun _ => rfl) (by decide) rfl, fun m s => ⟨_, rfl, ?_⟩,
    fun v s => ⟨decode_f2 rfl v, rfl⟩⟩
  obtain ⟨ha, hc, hnz, hv, hreads⟩ := readOp_adcBody (f := sbcBody) (fun _ => rfl) m s
  refine ⟨?_, ?_, hnz, ?_, hreads⟩
  · rw [ha, addWithCarry_complement_toNat]
  · rw [hc, addWithCarry_complement_carry]
  · rw [hv, ha, addWithCarry_complement_overflow]

/-! ## AND, ORA, EOR -/

/-- An instruction that puts `op` of A and its operand in A (R252 to R254). -/
theorem readOp_loadA (op : Byte → Byte → Byte) (m : ReadMode) (s : State) :
    let t := readOp m (fun b c => c.loadA (op c.a b)) s
    let w := op s.cpu.a (readMode m s).value
    t.cpu.a = w ∧ nzOf w t ∧ ReadsOperand [.a] [.n, .z] m s t := by
  obtain ⟨hreg, hnz, hreads⟩ := readOp_load [.a] (fun b c => op c.a b) m s fun _ _ => by rw [Cpu.pollFirst_a]
  exact ⟨hreg .a (List.mem_singleton_self _), hnz, hreads⟩

/-- Settles O21: each of the three loads A with its operation of A and the operand. -/
theorem logicCombinesWithA : Obligations.LogicCombinesWithA :=
  ⟨readCells_of aluForms (fun _ => rfl) (by decide) rfl, readCells_of aluForms (fun _ => rfl) (by decide) rfl,
    readCells_of aluForms (fun _ => rfl) (by decide) rfl, fun m s => ⟨_, rfl, readOp_loadA (· &&& ·) m s⟩,
    fun m s => ⟨_, rfl, readOp_loadA (· ||| ·) m s⟩, fun m s => ⟨_, rfl, readOp_loadA (· ^^^ ·) m s⟩⟩

/-! ## Compares and BIT -/

theorem BodyKeeps.compareBody (r : Reg) (m : Byte) :
    BodyKeeps [] [.n, .z, .c] fun c => compareBody (c.reg r) m c :=
  BodyKeeps.setP fun _ _ => getFlag_setNZ_setCarry _ _ _

/-- An instruction that compares the register `r` with its operand (R255 to R257). -/
theorem readOp_compareBody (r : Reg) (m : ReadMode) (s : State) :
    let t := readOp m (fun b c => compareBody (c.reg r) b c) s
    let v := (readMode m s).value
    getFlag t.cpu.p .c = decide (v.toNat ≤ (s.cpu.reg r).toNat) ∧ nzOf (s.cpu.reg r - v) t ∧
      (getFlag t.cpu.p .z = true ↔ s.cpu.reg r = v) ∧ ReadsOperand [] [.n, .z, .c] m s t := by
  obtain ⟨hp, -⟩ := readOp_outcome (f := fun b c => compareBody (c.reg r) b c) (fun _ _ _ => by cases r <;> rfl) m s
  have hnz := nzOf_of_p_eq hp
  refine ⟨?_, hnz, ?_, readOp_reads (BodyKeeps.compareBody r) (fun _ _ => rfl) m s⟩
  · rw [hp]
    simp [compareBody, getFlag_setNZ]
  · rw [hnz.1, beq_iff_eq, sub_eq_zero]

/-- BIT takes N and V from the operand and Z from its AND with A (R258). -/
theorem readOp_bitBody (m : ReadMode) (s : State) :
    let t := readOp m bitBody s
    let v := (readMode m s).value
    getFlag t.cpu.p .n = v.getLsbD 7 ∧ getFlag t.cpu.p .v = v.getLsbD 6 ∧
      getFlag t.cpu.p .z = ((s.cpu.a &&& v) == 0) ∧ ReadsOperand [] [.n, .v, .z] m s t := by
  have hbody (b : Byte) : BodyKeeps [] [.n, .v, .z] (bitBody b) := BodyKeeps.setP fun c f hf => by
    simp only [List.mem_cons, List.not_mem_nil, or_false, not_or] at hf
    simp [getFlag_setFlag, hf]
  obtain ⟨hp, -⟩ := readOp_outcome (f := bitBody) (fun _ _ _ => rfl) m s
  refine ⟨?_, ?_, ?_, readOp_reads hbody (fun _ _ => rfl) m s⟩ <;> simp [hp, bitBody, getFlag_setFlag, bit]

/-- Settles O22: the three compares are one body at three registers. -/
theorem comparesAndBitSetOnlyFlags : Obligations.ComparesAndBitSetOnlyFlags :=
  ⟨⟨readCells_of aluForms (fun _ => rfl) (by decide) rfl, readCells_of [.zp, .abs] (fun _ => rfl) (by decide) rfl,
      readCells_of [.zp, .abs] (fun _ => rfl) (by decide) rfl, fun m s => ⟨_, rfl, readOp_compareBody .a m s⟩,
      fun m s => ⟨_, rfl, readOp_compareBody .x m s⟩, fun m s => ⟨_, rfl, readOp_compareBody .y m s⟩⟩,
    memCells_of [.zp, .abs] (fun _ => rfl) (fun m => readCycles_form m false) (by decide) rfl,
    fun m s => ⟨_, rfl, readOp_bitBody (.mem m) s⟩⟩

/-! ## INC and DEC -/

/-- An instruction that writes `f` of its operand back and describes it in N and Z (R259, R260). -/
theorem rmwOp_flagsOf (f : Byte → Byte) (m : MemMode) (s : State) :
    let t := rmwOp m f (fun old => Cpu.flagsOf (f old)) s
    nzOf (f (rmwOld m s)) t ∧ ModifiesOperand [] [.n, .z] m (f (rmwOld m s)) s t :=
  ⟨nzOf_of_p_eq (rmwOp_p _ _ _ _), rmwOp_modifies (fun v => BodyKeeps.load [] fun _ => f v) (fun _ _ => rfl) m s⟩

/-- Settles O23: INC and DEC are `rmwOp` of one more and of one less. -/
theorem incDecMemory : Obligations.IncDecMemory :=
  ⟨memCells_of rmwForms (fun _ => rfl) rmwCycles_form (by decide) rfl,
    memCells_of rmwForms (fun _ => rfl) rmwCycles_form (by decide) rfl,
    fun m s => ⟨_, rfl, rmwOp_flagsOf (· + 1) m s⟩, fun m s => ⟨_, rfl, rmwOp_flagsOf (· - 1) m s⟩⟩

/-! ## Shifts and rotates -/

/-- ROR puts the carry before it in bit 7 (R268). -/
theorem rorOf_eq (c : Bool) (old : Byte) :
    rorOf c old = { result := (old >>> 1) ||| (if c then 0x80 else 0), carry := old.getLsbD 0 } := by
  cases c <;> rfl

/-- C, N and Z as a shift or rotate leaves them. -/
theorem flags_of_p_eq_shiftFlags {r : Shifted} {p : Byte} {t : State} (h : t.cpu.p = shiftFlags r p) :
    nzOf r.result t ∧ getFlag t.cpu.p .c = r.carry :=
  ⟨nzOf_of_p_eq h, by simp [h, shiftFlags, getFlag_setNZ]⟩

/-- A shift or rotate of A. -/
theorem shiftOp_acc (f : Byte → Shifted) (s : State) :
    let t := shiftOp .acc f s
    let r := f s.cpu.a
    t.cpu.a = r.result ∧ nzOf r.result t ∧ getFlag t.cpu.p .c = r.carry ∧ RegistersOnly [.a] [.n, .z, .c] 2 s t := by
  obtain ⟨hnz, hc⟩ := flags_of_p_eq_shiftFlags (t := shiftOp .acc f s) rfl
  have hbody : BodyKeeps [.a] [.n, .z, .c] fun c => { c with a := (f c.a).result, p := shiftFlags (f c.a) c.p } :=
    BodyKeeps.setAP _ fun _ _ => getFlag_setNZ_setCarry _ _ _
  exact ⟨rfl, hnz, hc, registerOp_only hbody 2 (fun _ => rfl) s⟩

/-- A shift or rotate of memory. -/
theorem shiftOp_mem (f : Byte → Shifted) (m : MemMode) (s : State) :
    let t := shiftOp (.mem m) f s
    let r := f (rmwOld m s)
    nzOf r.result t ∧ getFlag t.cpu.p .c = r.carry ∧ ModifiesOperand [] [.n, .z, .c] m r.result s t := by
  obtain ⟨hnz, hc⟩ := flags_of_p_eq_shiftFlags (t := shiftOp (.mem m) f s) (rmwOp_p _ _ _ _)
  have hbody (old : Byte) : BodyKeeps [] [.n, .z, .c] fun c => { c with p := shiftFlags (f old) c.p } :=
    BodyKeeps.setP fun _ _ => getFlag_setNZ_setCarry _ _ _
  exact ⟨hnz, hc, rmwOp_modifies (f := fun old => (f old).result) hbody (fun _ _ => rfl) m s⟩

/-- Settles O24: each of the four is `shiftOp` of its function, on A and on memory. -/
theorem shiftsMoveOneBit : Obligations.ShiftsMoveOneBit := by
  refine ⟨shiftCells_of rmwForms (fun _ => rfl) (by decide) rfl, shiftCells_of rmwForms (fun _ => rfl) (by decide) rfl,
    shiftCells_of rmwForms (fun _ => rfl) (by decide) rfl, shiftCells_of rmwForms (fun _ => rfl) (by decide) rfl,
    fun s => ⟨_, rfl, shiftOp_acc aslOf s⟩, fun s => ⟨_, rfl, shiftOp_acc lsrOf s⟩,
    fun s => ⟨_, rfl, shiftOp_acc (rolOf _) s⟩, fun s => ⟨_, rfl, ?rorAcc⟩,
    fun m s => ⟨_, rfl, shiftOp_mem aslOf m s⟩, fun m s => ⟨_, rfl, shiftOp_mem lsrOf m s⟩,
    fun m s => ⟨_, rfl, shiftOp_mem (rolOf _) m s⟩, fun m s => ⟨_, rfl, ?rorMem⟩⟩
  case rorAcc => simpa only [rorOf_eq] using shiftOp_acc (rorOf (getFlag s.cpu.p .c)) s
  case rorMem => simpa only [rorOf_eq] using shiftOp_mem (rorOf (getFlag s.cpu.p .c)) m s

end Sys2Proof.Machine
end

section
/-! Jumps, calls, returns, branches and flags (42_control_flow_flags.md): what a body that sets PC or one flag keeps,
the two bytes that a call leaves on the stack, and the entry through a vector, whose reads change the latch alone: O25 to
O28, O30 and O31. -/

namespace Sys2Proof.Machine

/-! ## Bodies that set PC or one flag -/

/-- A body that sets PC alone changes no register and no flag. -/
theorem BodyKeeps.setPc (w : Cpu → Word) : BodyKeeps [] [] fun c => { c with pc := w c } where
  body := ⟨fun _ => rfl, fun _ => rfl, fun _ => rfl, fun _ => rfl, fun _ => rfl⟩
  regs c r _ := by cases r <;> rfl
  flags _ _ _ := rfl

/-- The body of an instruction on a CPU, with any number of clocks and any polls after it. -/
theorem BodyKeeps.keeps {regs : List Reg} {flags : List Flag} {g : Cpu → Cpu} (h : BodyKeeps regs flags g) {s t : State}
    {n : Nat} {pollAt : List Nat} (ht : t.cpu = (g s.cpu).setTiming n pollAt) : Keeps regs flags s t where
  regs r hr := by rw [ht, Cpu.setTiming_reg, h.regs _ r hr]
  flags f hf := by rw [ht, Cpu.setTiming_p, h.flags _ f hf]
  cycleCount := by rw [ht, Cpu.setTiming_cycleCount, h.body.cycleCount]
  nmiPending := by rw [ht, Cpu.setTiming_nmiPending, h.body.nmiPending]
  irqLine := by rw [ht, Cpu.setTiming_irqLine, h.body.irqLine]
  sh := by rw [ht, Cpu.setTiming_sh, h.body.sh]

theorem BodyKeeps.withFlag (f : Flag) (x : Bool) : BodyKeeps [] [f] (Cpu.withFlag f x) :=
  BodyKeeps.setP fun c _ hg => getFlag_setFlag_ne c.p x (List.mem_singleton.not.mp hg)

/-- An instruction that sets one flag (R315 to R321): its first clock polls with the flags it found. -/
theorem registerOp_withFlag (f : Flag) (x : Bool) (s : State) :
    let t := registerOp 2 (Cpu.withFlag f x) s
    getFlag t.cpu.p f = x ∧ RegistersOnly [] [f] 2 s t :=
  ⟨getFlag_setFlag_self _ f x, registerOp_only (BodyKeeps.withFlag f x) 2 (fun _ => rfl) s⟩

/-- Settles O31: each sets one flag of P, and NOP's body is the identity. -/
theorem flagInstructionsChangeOneFlag : Obligations.FlagInstructionsChangeOneFlag := by
  refine ⟨decode_f1 rfl, decode_f1 rfl, decode_f1 rfl, decode_f1 rfl, decode_f1 rfl, decode_f1 rfl, decode_f1 rfl,
    decode_f1 rfl, ?clc, ?sec, ?cli, ?sei, ?cld, ?sed, ?clv, ?nop⟩
  case clc => exact fun s => ⟨_, rfl, registerOp_withFlag .c false s⟩
  case sec => exact fun s => ⟨_, rfl, registerOp_withFlag .c true s⟩
  case cli => exact fun s => ⟨_, rfl, registerOp_withFlag .i false s⟩
  case sei => exact fun s => ⟨_, rfl, registerOp_withFlag .i true s⟩
  case cld => exact fun s => ⟨_, rfl, registerOp_withFlag .d false s⟩
  case sed => exact fun s => ⟨_, rfl, registerOp_withFlag .d true s⟩
  case clv => exact fun s => ⟨_, rfl, registerOp_withFlag .v false s⟩
  case nop => exact fun s => ⟨_, rfl, registerOp_only (BodyKeeps.id [] []) 2 (fun _ => rfl) s⟩

/-! ## Branches -/

/-- Not taken, a branch is an instruction of two clocks with an empty body. -/
theorem branchIf_not_taken (off : Byte) (s : State) : Branches false off s (branchIf false off s) := by
  obtain ⟨hkeeps, hpc, hdevices, hclocks, htotal, hpolls, hlatched⟩ :=
    registerOp_only (BodyKeeps.id [] []) 2 (fun _ => rfl) s
  exact ⟨hpc, hclocks, rfl, hpolls, hlatched, hkeeps, hdevices⟩

/-- A branch taken goes to its target without a poll in the first clock, and a page crossed gives it a fourth clock and a
second poll (R306, R766). -/
theorem branchIf_true (off : Byte) (s : State) :
    branchIf true off s = s.mapCpu fun c => { c with pc := s.cpu.pc + sext off }.setTiming
      (if hiByte (s.cpu.pc + sext off) = hiByte s.cpu.pc then 3 else 4)
      (if hiByte (s.cpu.pc + sext off) = hiByte s.cpu.pc then [2] else [2, 4]) := by
  by_cases hpage : hiByte (s.cpu.pc + sext off) = hiByte s.cpu.pc
  · simp only [branchIf, branchTarget, hpage, bne_self_eq_false, if_true]
    rfl
  · simp [branchIf, branchTarget, hpage]

theorem branchIf_taken (off : Byte) (s : State) : Branches true off s (branchIf true off s) := by
  rw [branchIf_true]
  exact ⟨rfl, rfl, rfl, rfl, by simp, (BodyKeeps.setPc fun _ => s.cpu.pc + sext off).keeps rfl, rfl, rfl, rfl, rfl, rfl⟩

/-- The rule common to the eight branches (R306, R766). -/
theorem branchIf_branches (taken : Bool) (off : Byte) (s : State) : Branches taken off s (branchIf taken off s) := by
  cases taken with
  | false => exact branchIf_not_taken off s
  | true => exact branchIf_taken off s

/-- Settles O30: each branch is `branchIf` of its flag. -/
theorem branchesTestOneFlag : Obligations.BranchesTestOneFlag := fun off s =>
  ⟨decode_f2 rfl off, decode_f2 rfl off, decode_f2 rfl off, decode_f2 rfl off, decode_f2 rfl off, decode_f2 rfl off,
    decode_f2 rfl off, decode_f2 rfl off, ⟨_, rfl, branchIf_branches _ off s⟩, ⟨_, rfl, branchIf_branches _ off s⟩,
    ⟨_, rfl, branchIf_branches _ off s⟩, ⟨_, rfl, branchIf_branches _ off s⟩, ⟨_, rfl, branchIf_branches _ off s⟩,
    ⟨_, rfl, branchIf_branches _ off s⟩, ⟨_, rfl, branchIf_branches _ off s⟩, ⟨_, rfl, branchIf_branches _ off s⟩⟩

/-! ## Jumps -/

/-- The high byte of one word and the low byte of another, picked by masks. -/
theorem mkWord_hiByte_loByte_eq_masks (p q : Word) :
    mkWord (hiByte p) (loByte q) = (p &&& 0xFF00) ||| (q &&& 0x00FF) := by
  have hmasks : ∀ i < 16,
      (0xFF00 : Word).getLsbD i = !decide (i < 8) ∧ (0x00FF : Word).getLsbD i = decide (i < 8) := by decide
  apply BitVec.eq_of_getLsbD_eq
  intro i hi
  obtain ⟨hhigh, hlow⟩ := hmasks i hi
  simp only [mkWord, hiByte, loByte, BitVec.getLsbD_append, BitVec.getLsbD_extractLsb', BitVec.getLsbD_or,
    BitVec.getLsbD_and, hhigh, hlow]
  by_cases h8 : i < 8
  · simp [h8]
  · have hindex : 8 + (i - 8) = i := by omega
    simp [h8, hindex, show i - 8 < 8 by omega]

/-- A carry out of the low byte is lost in the low byte alone. -/
theorem loByte_add_one (w : Word) : loByte (w + 1) = loByte w + 1 := by
  apply BitVec.eq_of_toNat_eq
  rw [loByte_toNat, BitVec.toNat_add, BitVec.toNat_add, loByte_toNat]
  simp

/-- The pointer's high byte is read at the next address inside the pointer's page (R157, R301). -/
theorem indirectHigh_eq_masks (ptr : Word) : indirectHigh ptr = (ptr &&& 0xFF00) ||| ((ptr + 1) &&& 0x00FF) := by
  rw [← mkWord_hiByte_loByte_eq_masks, loByte_add_one, indirectHigh]

/-- Settles O25: both forms set PC alone; the indirect form's two reads change no memory. -/
theorem jumpsSetPc : Obligations.JumpsSetPc := by
  refine ⟨fun lo hi => ⟨decode_f3 rfl lo hi, decode_f3 rfl lo hi⟩, fun w s => ⟨_, rfl, ?abs⟩,
    fun ptr s => ⟨_, rfl, ?ind⟩⟩
  case abs =>
    obtain ⟨hkeeps, htakes⟩ := (BodyKeeps.setPc fun _ => w).clocked (s := s)
      (t := registerOp 3 (fun c => { c with pc := w }) s) 3 rfl
    exact ⟨rfl, hkeeps, ⟨rfl, rfl, rfl, rfl, rfl⟩, htakes⟩
  case ind =>
    rw [← indirectHigh_eq_masks]
    beta_reduce
    intro r1 r2
    have hreads : ReadOnly s r2.2 := (busRead_readOnly _ _).trans (busRead_readOnly _ _)
    obtain ⟨hkeeps, htakes⟩ := (BodyKeeps.setPc fun _ => mkWord r2.1 r1.1).clockedLong (s := s)
      (t := r2.2.mapCpu fun c => { c with pc := mkWord r2.1 r1.1 }.setGeneral 5) (n := 5) (by decide)
      (by rw [State.mapCpu_cpu, hreads.cpu])
    exact ⟨rfl, hkeeps, ⟨rfl, rfl, rfl, rfl, rfl⟩, hreads.sameMemory, htakes⟩

/-! ## The two bytes a call leaves on the stack -/

/-- Storage is work RAM and the cartridge: where both show the same byte, an address shows the same storage. -/
theorem storage_congr {s t : State} {a : Word} (hcart : t.cart = s.cart)
    (hram : a.toNat ≤ 0x1FFF → Memory.read t.bus.ram (ramIndex a) = Memory.read s.bus.ram (ramIndex a)) :
    t.storage a = s.storage a := by
  unfold State.storage
  split
  · next hlow => rw [hram hlow]
  · rw [hcart]

theorem sub_one_sub_one (b : Byte) : b - 1 - 1 = b - 2 := sub_sub b 1 1

theorem sub_two_sub_one (b : Byte) : b - 2 - 1 = b - 3 := sub_sub b 2 1

theorem add_one_add_one (b : Byte) : b + 1 + 1 = b + 2 := add_assoc b 1 1

theorem add_two_add_one (b : Byte) : b + 2 + 1 = b + 3 := add_assoc b 2 1

/-- Neighbours on the stack are different bytes. -/
theorem stackCell_sub_one_ne (sp : Byte) : stackCell (sp - 1) ≠ stackCell sp :=
  stackCell_inj.not.mpr (sub_eq_self.not.mpr (by decide))

theorem pushWord_cpu (w : Word) (s : State) : (pushWord w s).cpu = { s.cpu with sp := s.cpu.sp - 2 } := by
  rw [pushWord_eq, State.afterStack_cpu, sub_one_sub_one]

/-- An address pushed changes its two bytes of the stack page (R106). -/
theorem pushWord_stackOnly (w : Word) (s : State) :
    StackOnly [stackCell s.cpu.sp, stackCell (s.cpu.sp - 1)] (loByte w) s (pushWord w s) := by
  rw [pushWord_eq]
  refine afterStack_stackOnly _ _ id fun i hi => ?_
  simp only [List.mem_cons, List.not_mem_nil, or_false, not_or] at hi
  rw [Memory.read_write_ne _ _ (Ne.symm hi.2), Memory.read_write_ne _ _ (Ne.symm hi.1)]

/-- The high byte of an address pushed is at the higher address (R106). -/
theorem pushWord_onStack (w : Word) (s : State) :
    (pushWord w s).onStack s.cpu.sp = hiByte w ∧ (pushWord w s).onStack (s.cpu.sp - 1) = loByte w := by
  rw [pushWord_eq, State.onStack_eq, State.onStack_eq, State.afterStack_ram, Memory.read_write_self,
    Memory.read_write_ne _ _ (stackCell_sub_one_ne _), Memory.read_write_self]
  exact ⟨rfl, rfl⟩

/-! ## JSR and RTS -/

/-- The state in which JSR reads its third byte: the stack page read once and the return address pushed (R302). -/
def State.called (s : State) : State := pushWord s.cpu.pc (busRead (stackAddr s.cpu.sp) s).2

@[simp] theorem State.called_cpu (s : State) : s.called.cpu = { s.cpu with sp := s.cpu.sp - 2 } := by
  rw [State.called, pushWord_cpu, busRead_cpu]

/-- JSR reads its third byte after the pushes, at the PC that they leave alone (R302). -/
theorem exec_jsr (target : Word) (s : State) :
    exec (.jsr target) s = .next ((busRead s.cpu.pc s.called).2.mapCpu fun c =>
      { c with pc := mkWord (busRead s.cpu.pc s.called).1 (loByte target) }.setGeneral 6) := by
  have hpc : s.called.cpu.pc = s.cpu.pc := by rw [State.called_cpu]
  rw [← hpc]
  simp only [exec, execJsr, dummyRead, State.called, busRead_cpu]

/-- Calls change the two bytes they push and no other byte of memory. -/
theorem State.called_peek {s : State} {sp : Space} {i : Nat}
    (h : ¬(sp = .ram ∧ i ∈ [stackCell s.cpu.sp, stackCell (s.cpu.sp - 1)])) : s.called.peek sp i = s.peek sp i := by
  have hread := busRead_readOnly (stackAddr s.cpu.sp) s
  have hpush := pushWord_stackOnly s.cpu.pc (busRead (stackAddr s.cpu.sp) s).2
  rw [hread.cpu] at hpush
  exact (hpush.memory sp i h).trans (hread.sameMemory sp i)

theorem State.called_cart (s : State) : s.called.cart = s.cart :=
  (pushWord_stackOnly _ _).cart.trans (busRead_cart _ _)

theorem State.called_onStack (s : State) :
    s.called.onStack s.cpu.sp = hiByte s.cpu.pc ∧ s.called.onStack (s.cpu.sp - 1) = loByte s.cpu.pc := by
  have hpush := pushWord_onStack s.cpu.pc (busRead (stackAddr s.cpu.sp) s).2
  rwa [busRead_cpu] at hpush

/-- A third byte that the pushes leave alone is read as it stood in storage. -/
theorem State.called_third {s : State} {v : Byte} (hv : s.storage s.cpu.pc = some v)
    (hkept : s.cpu.pc.toNat ≤ 0x1FFF → ramIndex s.cpu.pc ∉ [stackCell s.cpu.sp, stackCell (s.cpu.sp - 1)]) :
    (busRead s.cpu.pc s.called).1 = v := by
  have hstorage : s.called.storage s.cpu.pc = s.storage s.cpu.pc :=
    storage_congr s.called_cart fun hlow => s.called_peek (sp := .ram) fun h => hkept hlow h.2
  rw [busRead_storage (hstorage.trans hv)]

/-- JSR as a call (R302). -/
theorem runs_jsr (target : Word) (s : State) : runs (.jsr target) s fun t =>
    let sp := s.cpu.sp
    let third := busRead s.cpu.pc s.called
    t.onStack sp = hiByte s.cpu.pc ∧ t.onStack (sp - 1) = loByte s.cpu.pc ∧ t.cpu.sp = sp - 2 ∧
      t.cpu.pc = mkWord third.1 (loByte target) ∧
      (s.storage s.cpu.pc = some (hiByte target) →
        (s.cpu.pc.toNat ≤ 0x1FFF → ramIndex s.cpu.pc ∉ [stackCell sp, stackCell (sp - 1)]) → t.cpu.pc = target) ∧
      (∀ q i, ¬(q = .ram ∧ i ∈ [stackCell sp, stackCell (sp - 1)]) → t.peek q i = s.peek q i) ∧
      Keeps [.sp] [] s t ∧ SameDevices third.2 t ∧ Takes 6 s t := by
  refine ⟨_, exec_jsr target s, ?_⟩
  beta_reduce
  intro sp third
  have hread : ReadOnly s.called third.2 := busRead_readOnly _ _
  obtain ⟨hhigh, hlow⟩ := s.called_onStack
  have hbody := (BodyKeeps.setPc fun _ => mkWord third.1 (loByte target)).comp (BodyKeeps.setSp fun c => c.sp - 2)
  obtain ⟨hkeeps, htakes⟩ := hbody.clockedLong (n := 6) (by decide) (s := s)
    (t := third.2.mapCpu fun c => { c with pc := mkWord third.1 (loByte target) }.setGeneral 6)
    (by rw [State.mapCpu_cpu, hread.cpu, State.called_cpu])
  refine ⟨(hread.sameMemory _ _).trans hhigh, (hread.sameMemory _ _).trans hlow, ?_, rfl, fun hthird hkept => ?_,
    fun q i hi => (hread.sameMemory q i).trans (s.called_peek hi), hkeeps, ⟨rfl, rfl, rfl, rfl, rfl⟩, htakes⟩
  · rw [State.mapCpu_cpu, hread.cpu, State.called_cpu]
    rfl
  · show mkWord third.1 (loByte target) = target
    rw [s.called_third hthird hkept, mkWord_hiByte_loByte]

/-- RTS goes to the address after the one that the two raised SPs designate (R303). -/
theorem exec_rts (s : State) :
    exec .rts s = .next ((s.afterStack s.bus.ram (s.onStack (s.cpu.sp + 2)) (s.cpu.sp + 2)).mapCpu fun c =>
      { c with pc := mkWord (s.onStack (s.cpu.sp + 2)) (s.onStack (s.cpu.sp + 1)) + 1 }.setGeneral 6) := by
  simp only [exec, execRts, pullWord_eq, add_one_add_one]

/-- RTS as a return (R303). -/
theorem runs_rts (s : State) : runs .rts s fun t =>
    let lo := s.onStack (s.cpu.sp + 1)
    let hi := s.onStack (s.cpu.sp + 2)
    t.cpu.pc = mkWord hi lo + 1 ∧ t.cpu.sp = s.cpu.sp + 2 ∧ Keeps [.sp] [] s t ∧ StackOnly [] hi s t ∧ Takes 6 s t := by
  refine ⟨_, exec_rts s, rfl, rfl, ?_⟩
  have hbody := (BodyKeeps.setPc fun _ => mkWord (s.onStack (s.cpu.sp + 2)) (s.onStack (s.cpu.sp + 1)) + 1).comp
    (BodyKeeps.setSp fun c => c.sp + 2)
  exact ⟨(hbody.clockedLong (n := 6) (by decide) rfl).1, afterStack_stackOnly _ _ _ fun _ _ => rfl,
    (hbody.clockedLong (by decide) rfl).2⟩

/-- Settles O26: JSR is two pushes and a late read, RTS two pulls. -/
theorem callAndReturn : Obligations.CallAndReturn :=
  ⟨⟨fun lo hi => decode_f3 rfl lo hi, runs_jsr⟩, decode_f1 rfl, runs_rts⟩

/-- Settles O27: RTS pulls the two bytes that JSR pushed, and adds the one that the address in them lacks. -/
theorem rtsUndoesJsr : Obligations.RtsUndoesJsr := by
  intro target s t ht
  obtain ⟨t', ht', hhigh, hlow, hsp, -⟩ := runs_jsr target s
  obtain rfl : t' = t := by simpa using ht'.symm.trans ht
  obtain ⟨u, hu, hpc, hsp', -⟩ := runs_rts t'
  have hsp1 : t'.cpu.sp + 1 = s.cpu.sp - 1 := by rw [hsp, ← sub_one_sub_one, sub_add_cancel]
  have hsp2 : t'.cpu.sp + 2 = s.cpu.sp := by rw [hsp, sub_add_cancel]
  refine ⟨u, hu, ?_, hsp'.trans hsp2⟩
  rw [hpc, hsp1, hsp2, hhigh, hlow, mkWord_hiByte_loByte]

/-! ## Reading a vector -/

/-- Above the registers the cartridge answers a read, and where it does not the bus does: 0x00 with no cartridge, else its
latch (R431). -/
theorem busAnswer_high {a : Word} (s : State) (ha : 0x4020 ≤ a.toNat) :
    busAnswer a s = ((s.cartAnswer a).getD (if s.cart.isNone then 0 else s.bus.openBus), s) := by
  have h15 : a ≠ 0x4015 := by rintro rfl; simp at ha
  have h16 : ¬(a = 0x4016 ∨ a = 0x4017) := by rintro (rfl | rfl) <;> simp at ha
  have hram : ¬a.toNat ≤ 0x1FFF := by omega
  have hppu : ¬a.toNat ≤ 0x3FFF := by omega
  rw [busAnswer, if_neg h15]
  cases s.cartAnswer a with
  | some v => rfl
  | none =>
    simp only [if_neg h16, if_neg hram, if_neg hppu, ha, true_and]
    split <;> rfl

/-- Above the registers a read changes the latch alone (R431, R438). -/
theorem busRead_high {a : Word} (s : State) (ha : 0x4020 ≤ a.toNat) : (busRead a s).2 = s.latch (busRead a s).1 := by
  simp only [busRead, busAnswer_high s ha]

/-- With no cartridge an address above the registers reads 0x00 (R431). -/
theorem busRead_high_absent {a : Word} {s : State} (ha : 0x4020 ≤ a.toNat) (hcart : s.cart = none) :
    (busRead a s).1 = 0 := by
  simp [busRead, busAnswer_high s ha, State.cartAnswer, hcart]

/-- The two bytes of each vector are above the registers (R104). -/
theorem Event.vector_high (e : Event) : 0x4020 ≤ e.vector.toNat ∧ 0x4020 ≤ (e.vector + 1).toNat := by
  cases e <;> decide

/-- Reading a vector changes the latch alone. -/
theorem readVector_event (e : Event) (s : State) :
    (readVector e.vector s).2 = s.latch (hiByte (readVector e.vector s).1) := by
  obtain ⟨hlow, hhigh⟩ := e.vector_high
  simp only [readVector, busRead_high _ hhigh, busRead_high _ hlow, hiByte_mkWord, State.latch_latch]

theorem readVector_storage {a : Word} {s : State} {lo hi : Byte} (hlo : s.storage a = some lo)
    (hhi : s.storage (a + 1) = some hi) : (readVector a s).1 = mkWord hi lo := by
  rw [readVector, busRead_storage hlo, busRead_storage ((State.storage_latch _ _ _).trans hhi)]

theorem readVector_absent (e : Event) {s : State} (hcart : s.cart = none) : (readVector e.vector s).1 = 0 := by
  obtain ⟨hlow, hhigh⟩ := e.vector_high
  simp only [readVector, busRead_high_absent hlow hcart, busRead_high_absent hhigh ((busRead_cart _ _).trans hcart)]
  rfl

/-! ## RTI and BRK -/

/-- The entry changes three bytes of the stack page before it reads its vector (R305, R770). -/
theorem State.entered_stackOnly (e : Event) (s : State) :
    StackOnly [stackCell s.cpu.sp, stackCell (s.cpu.sp - 1), stackCell (s.cpu.sp - 2)] (e.pushedP s.cpu.p) s
      (s.entered e) := by
  refine afterStack_stackOnly _ _ _ fun i hi => ?_
  simp only [List.mem_cons, List.not_mem_nil, or_false, not_or, ← sub_one_sub_one] at hi
  obtain ⟨h0, h1, h2⟩ := hi
  rw [Memory.read_write_ne _ _ (Ne.symm h2), Memory.read_write_ne _ _ (Ne.symm h1),
    Memory.read_write_ne _ _ (Ne.symm h0)]

/-- What the entry leaves on the stack (R305, R770). -/
theorem State.entered_onStack (e : Event) (s : State) :
    (s.entered e).onStack s.cpu.sp = hiByte s.cpu.pc ∧ (s.entered e).onStack (s.cpu.sp - 1) = loByte s.cpu.pc ∧
      (s.entered e).onStack (s.cpu.sp - 2) = e.pushedP s.cpu.p := by
  have h01 : stackCell (s.cpu.sp - 1) ≠ stackCell s.cpu.sp := stackCell_sub_one_ne _
  have h12 : stackCell (s.cpu.sp - 2) ≠ stackCell (s.cpu.sp - 1) := sub_one_sub_one s.cpu.sp ▸ stackCell_sub_one_ne _
  have h02 : stackCell (s.cpu.sp - 2) ≠ stackCell s.cpu.sp := stackCell_inj.not.mpr (sub_eq_self.not.mpr (by decide))
  simp only [State.entered, State.onStack_eq, State.mapCpu_bus, State.afterStack_ram, sub_one_sub_one, Memory.read_write,
    h01, h12, h02, if_true, if_false, and_self]

theorem storage_entered (e : Event) (s : State) {a : Word} (ha : 0x4020 ≤ a.toNat) :
    (s.entered e).storage a = s.storage a :=
  storage_congr (s.entered_stackOnly e).cart fun hlow => absurd hlow (by omega)

/-- What taking an event makes of the CPU (R305, R770). -/
theorem takeEvent_cpu (e : Event) (s : State) :
    (takeEvent e s).cpu =
      { s.cpu with
        sp := s.cpu.sp - 3, p := setFlag s.cpu.p .i true, pc := (readVector e.vector (s.entered e)).1 } := by
  rw [takeEvent_eq, State.mapCpu_cpu, readVector_cpu, ← sub_two_sub_one, ← sub_one_sub_one]
  rfl

/-- The body of an entry: SP, I and PC. -/
theorem BodyKeeps.enter (w : Word) :
    BodyKeeps [.sp] [.i] fun c => { c with sp := c.sp - 3, p := setFlag c.p .i true, pc := w } :=
  (BodyKeeps.setPc fun _ => w).comp
    ((BodyKeeps.withFlag .i true).comp (BodyKeeps.setSp fun c => c.sp - 3))

/-- The entry changes the latch once more when it reads its vector (R104, R305, R770). -/
theorem takeEvent_eq_entered (e : Event) (s : State) :
    takeEvent e s = ((s.entered e).latch (hiByte (readVector e.vector (s.entered e)).1)).mapCpu fun c =>
      { c with pc := (readVector e.vector (s.entered e)).1 } := by
  rw [takeEvent_eq, readVector_event]

/-- Taking an event with `ret` as the return address is an entry through its vector, however many clocks it takes (R305,
R770). -/
theorem takeEvent_enters (e : Event) (ret : Word) (n : Nat) (pollAt : List Nat) (s : State) :
    Enters e.vector ret (e.pushedP s.cpu.p) s
      ((takeEvent e (s.mapCpu fun c => { c with pc := ret })).mapCpu fun c => c.setTiming n pollAt) := by
  have hstack := State.entered_stackOnly e (s.mapCpu fun c => { c with pc := ret })
  obtain ⟨hhigh, hlow, hstatus⟩ := State.entered_onStack e (s.mapCpu fun c => { c with pc := ret })
  have hcpu := takeEvent_cpu e (s.mapCpu fun c => { c with pc := ret })
  obtain ⟨hv0, hv1⟩ := e.vector_high
  rw [takeEvent_eq_entered] at hcpu ⊢
  exact {
    high := hhigh
    low := hlow
    status := hstatus
    sp := congrArg Cpu.sp hcpu
    masked := getFlag_setFlag_self _ _ _
    keeps := (BodyKeeps.enter _).keeps (congrArg (Cpu.setTiming n pollAt) hcpu)
    rom := fun lo hi hlo hhi =>
      readVector_storage ((storage_entered e _ hv0).trans hlo) ((storage_entered e _ hv1).trans hhi)
    absent := fun hcart => readVector_absent e (hstack.cart.trans hcart)
    memory := hstack.memory
    bus := rfl
    ppu := hstack.ppu
    apu := hstack.apu
    cart := hstack.cart
    params := hstack.params }

/-- RTI takes P and PC from the three bytes that the raised SPs designate (R304). -/
theorem exec_rti (s : State) :
    exec .rti s = .next ((s.afterStack s.bus.ram (s.onStack (s.cpu.sp + 3)) (s.cpu.sp + 3)).mapCpu fun c =>
      { c with
        p := pulledP (s.onStack (s.cpu.sp + 1))
        pc := mkWord (s.onStack (s.cpu.sp + 3)) (s.onStack (s.cpu.sp + 2)) }.setGeneral 6) := by
  simp only [exec, execRti, returnFromEvent_eq, add_one_add_one, add_two_add_one]
  rfl

/-- RTI as a return (R304, R775). -/
theorem runs_rti (s : State) : runs .rti s fun t =>
    let m := s.onStack (s.cpu.sp + 1)
    let lo := s.onStack (s.cpu.sp + 2)
    let hi := s.onStack (s.cpu.sp + 3)
    t.cpu.p = (m &&& 0xCF) ||| 0x20 ∧ t.cpu.pc = mkWord hi lo ∧ t.cpu.sp = s.cpu.sp + 3 ∧
      Keeps [.sp] [.n, .v, .b, .u, .d, .i, .z, .c] s t ∧ StackOnly [] hi s t ∧ Takes 6 s t := by
  refine ⟨_, exec_rti s, rfl, rfl, rfl, ?_⟩
  have hstatus : BodyKeeps [] [.n, .v, .b, .u, .d, .i, .z, .c] fun c =>
      { c with p := pulledP (s.onStack (s.cpu.sp + 1)) } :=
    BodyKeeps.setP fun _ f hf => absurd (by cases f <;> decide) hf
  have hbody := (BodyKeeps.setPc fun _ => mkWord (s.onStack (s.cpu.sp + 3)) (s.onStack (s.cpu.sp + 2))).comp
    (hstatus.comp (BodyKeeps.setSp fun c => c.sp + 3))
  exact ⟨(hbody.clockedLong (n := 6) (by decide) rfl).1, afterStack_stackOnly _ _ _ fun _ _ => rfl,
    (hbody.clockedLong (by decide) rfl).2⟩

/-- BRK as an entry from past its padding byte (R305). -/
theorem runs_brk (s : State) :
    runs .brk s fun t => Enters 0xFFFE (s.cpu.pc + 1) (s.cpu.p ||| 0x30) s t ∧ Takes 7 s t := by
  refine ⟨_, rfl, takeEvent_enters .brk (s.cpu.pc + 1) 7 (generalPoll 7) s, ?_⟩
  exact ((BodyKeeps.enter _).clockedLong (by decide) (congrArg (Cpu.setGeneral 7) (takeEvent_cpu .brk _))).2

/-- Settles O28: RTI is three pulls, and BRK takes an event. -/
theorem breakAndReturnFromInterrupt : Obligations.BreakAndReturnFromInterrupt :=
  ⟨⟨decode_f1 rfl, runs_rti⟩, decode_f1 rfl, runs_brk⟩

end Sys2Proof.Machine
end

section
/-! Unofficial instructions (43_unofficial.md): what a body that combines, adds or compares after its operand was modified
does and keeps, and what a body does with a byte read with its opcode: O32, O33, O34 and O35. -/

namespace Sys2Proof

/-- A well-formed instruction's bytes decode to it wherever they stand. -/
theorem decodesTo_of_wf {i : Instr} (h : i.wf = true) : Machine.decodesTo (i.opcode :: i.operands) i :=
  decode_opcode_operands h

end Sys2Proof

namespace Sys2Proof.Machine

/-! ## Memory modified, then combined into A or compared with it -/

/-- An instruction that modifies its operand leaves the registers that its body makes of the old value. -/
theorem rmwOp_reg (m : MemMode) (f : Byte → Byte) (g : Byte → Cpu → Cpu) (s : State) (r : Reg) :
    (rmwOp m f g s).cpu.reg r = (g (rmwOld m s) s.cpu).reg r := by
  simp [rmwOp, Cpu.setGeneral_eq, rmwOperand, rmwOld, beforeStore]

/-- N, Z and C where P was set by a carry and then by a result. -/
theorem flags_of_p_eq_setNZ_setCarry {v p : Byte} {x : Bool} {t : State} (h : t.cpu.p = setNZ v (setFlag p .c x)) :
    nzOf v t ∧ getFlag t.cpu.p .c = x :=
  ⟨nzOf_of_p_eq h, by simp [h, getFlag_setNZ]⟩

/-- A shift or rotate of memory, and then `op` of A and the new byte in A (R350 to R352). -/
theorem shiftCombine_modifies (f : Byte → Shifted) (op : Byte → Byte → Byte) (m : MemMode) (s : State) :
    let t := shiftCombine m f op s
    let r := f (rmwOld m s)
    let w := op s.cpu.a r.result
    t.cpu.a = w ∧ nzOf w t ∧ getFlag t.cpu.p .c = r.carry ∧ ModifiesOperand [.a] [.n, .z, .c] m r.result s t := by
  have hbody (old : Byte) : BodyKeeps [.a] [.n, .z, .c] fun c =>
      (c.withCarry (f old).carry).loadA (op c.a (f old).result) :=
    BodyKeeps.setAP _ fun _ _ => getFlag_setNZ_setCarry _ _ _
  obtain ⟨hnz, hc⟩ := flags_of_p_eq_setNZ_setCarry (t := shiftCombine m f op s) (rmwOp_p _ _ _ _)
  exact ⟨rmwOp_reg _ _ _ _ .a, hnz, hc, rmwOp_modifies (f := fun old => (f old).result) hbody (fun _ _ => rfl) m s⟩

/-- A body keeps what it keeps, whatever more is listed as changed. -/
theorem BodyKeeps.mono {regs regs' : List Reg} {flags flags' : List Flag} {g : Cpu → Cpu} (h : BodyKeeps regs flags g)
    (hregs : regs ⊆ regs') (hflags : flags ⊆ flags') : BodyKeeps regs' flags' g where
  body := h.body
  regs c r hr := h.regs c r fun hm => hr (hregs hm)
  flags c f hf := h.flags c f fun hm => hf (hflags hm)

theorem adcBody_carry (m : Byte) (c : Cpu) :
    getFlag (adcBody m c).p .c = (addWithCarry c.a m (getFlag c.p .c)).carry := by
  simp [adcBody, getFlag_setNZ, getFlag_setFlag]

theorem adcBody_overflow (m : Byte) (c : Cpu) :
    getFlag (adcBody m c).p .v = (addWithCarry c.a m (getFlag c.p .c)).overflow := by
  simp [adcBody, getFlag_setNZ]

/-- An instruction that modifies its operand by `f`, changes C alone by `pre`, and adds what `g` makes of the old byte to
A with that C (R353, R357). -/
theorem rmwOp_adcBody {f g : Byte → Byte} {pre body : Byte → Cpu → Cpu}
    (hpre : ∀ old, BodyKeeps [] [.c] (pre old)) (hpc : ∀ old c, (pre old c).pc = c.pc)
    (hbody : ∀ old c, body old c = adcBody (g old) (pre old c)) (m : MemMode) (s : State) :
    let t := rmwOp m f body s
    let old := rmwOld m s
    let sum := addWithCarry s.cpu.a (g old) (getFlag (pre old s.cpu).p .c)
    t.cpu.a = sum.result ∧ getFlag t.cpu.p .c = sum.carry ∧ nzOf t.cpu.a t ∧ getFlag t.cpu.p .v = sum.overflow ∧
      ModifiesOperand [.a] [.n, .v, .z, .c] m (f old) s t := by
  obtain rfl : body = fun old c => adcBody (g old) (pre old c) := funext₂ hbody
  have hkeeps (old : Byte) : BodyKeeps [.a] [.n, .v, .z, .c] fun c => adcBody (g old) (pre old c) :=
    ((BodyKeeps.adcBody (g old)).comp (hpre old)).mono (by decide) (by decide)
  have hpreA : (pre (rmwOld m s) s.cpu).a = s.cpu.a := (hpre _).regs s.cpu .a (by decide)
  have ha := rmwOp_reg m f (fun old c => adcBody (g old) (pre old c)) s .a
  have hp := rmwOp_p m f (fun old c => adcBody (g old) (pre old c)) s
  refine ⟨?_, ?_, nzOf_of_p_eq (hp.trans (congrArg (setNZ · _) ha.symm)), ?_, rmwOp_modifies hkeeps hpc m s⟩
  · rw [← hpreA]
    exact ha
  · rw [hp, adcBody_carry, hpreA]
  · rw [hp, adcBody_overflow, hpreA]

/-- A shift or rotate of memory, and then the new byte added to A with the carry it left (R353). -/
theorem rmwOp_shiftAdd (f : Byte → Shifted) (m : MemMode) (s : State) :
    let t := rmwOp m (fun old => (f old).result) (fun old c => adcBody (f old).result (c.withCarry (f old).carry)) s
    let r := f (rmwOld m s)
    let sum := s.cpu.a.toNat + r.result.toNat + r.carry.toNat
    t.cpu.a.toNat = sum % 256 ∧ getFlag t.cpu.p .c = decide (0xFF < sum) ∧ nzOf t.cpu.a t ∧
      getFlag t.cpu.p .v = ((s.cpu.a.getLsbD 7 == r.result.getLsbD 7) && (t.cpu.a.getLsbD 7 != s.cpu.a.getLsbD 7)) ∧
      ModifiesOperand [.a] [.n, .v, .z, .c] m r.result s t := by
  obtain ⟨ha, hc, hnz, hv, hmodifies⟩ := rmwOp_adcBody (f := fun old => (f old).result)
    (body := fun old c => adcBody (f old).result (c.withCarry (f old).carry))
    (fun old => BodyKeeps.withFlag .c (f old).carry) (fun _ _ => rfl) (fun _ _ => rfl) m s
  rw [Cpu.withFlag, getFlag_setFlag_self] at ha hc hv
  refine ⟨?_, hc, hnz, ?_, hmodifies⟩
  · rw [ha, addWithCarry_result_toNat]
  · rw [hv, ha, addWithCarry_overflow]

/-- An instruction that modifies its operand and subtracts the new byte from A (R357). -/
theorem rmwOp_sbcBody (f : Byte → Byte) (m : MemMode) (s : State) :
    let t := rmwOp m f (fun old => sbcBody (f old)) s
    let new := f (rmwOld m s)
    let minuend := s.cpu.a.toNat
    let subtrahend := new.toNat + (!getFlag s.cpu.p .c).toNat
    t.cpu.a.toNat = (minuend + 256 - subtrahend) % 256 ∧ getFlag t.cpu.p .c = decide (subtrahend ≤ minuend) ∧
      nzOf t.cpu.a t ∧
      getFlag t.cpu.p .v = ((s.cpu.a.getLsbD 7 != new.getLsbD 7) && (t.cpu.a.getLsbD 7 != s.cpu.a.getLsbD 7)) ∧
      ModifiesOperand [.a] [.n, .v, .z, .c] m new s t := by
  obtain ⟨ha, hc, hnz, hv, hmodifies⟩ := rmwOp_adcBody (f := f) (body := fun old => sbcBody (f old))
    (fun _ => BodyKeeps.id [] [.c]) (fun _ _ => rfl) (fun _ _ => rfl) m s
  refine ⟨?_, ?_, hnz, ?_, hmodifies⟩
  · rw [ha, addWithCarry_complement_toNat]
  · rw [hc, addWithCarry_complement_carry]
  · rw [hv, ha, addWithCarry_complement_overflow]

/-- An instruction that modifies its operand and compares A with the new byte (R356). -/
theorem rmwOp_compareA (f : Byte → Byte) (m : MemMode) (s : State) :
    let t := rmwOp m f (fun old c => compareBody c.a (f old) c) s
    let new := f (rmwOld m s)
    getFlag t.cpu.p .c = decide (new.toNat ≤ s.cpu.a.toNat) ∧ nzOf (s.cpu.a - new) t ∧
      ModifiesOperand [] [.n, .z, .c] m new s t := by
  obtain ⟨hnz, hc⟩ := flags_of_p_eq_setNZ_setCarry (rmwOp_p m f (fun old c => compareBody c.a (f old) c) s)
  exact ⟨hc, hnz, rmwOp_modifies (fun old => BodyKeeps.compareBody .a (f old)) (fun _ _ => rfl) m s⟩

/-- Settles O32: each of the six is `rmwOp` with a body that combines, adds or compares the new byte with A. -/
theorem modifyAndCombine : Obligations.ModifyAndCombine := by
  refine ⟨⟨memCells_of aluForms (fun _ => rfl) rmwCycles_form (by decide) rfl,
    memCells_of aluForms (fun _ => rfl) rmwCycles_form (by decide) rfl,
    memCells_of aluForms (fun _ => rfl) rmwCycles_form (by decide) rfl,
    memCells_of aluForms (fun _ => rfl) rmwCycles_form (by decide) rfl,
    fun m s => ⟨_, rfl, shiftCombine_modifies aslOf (· ||| ·) m s⟩,
    fun m s => ⟨_, rfl, shiftCombine_modifies (rolOf _) (· &&& ·) m s⟩,
    fun m s => ⟨_, rfl, shiftCombine_modifies lsrOf (· ^^^ ·) m s⟩,
    fun m s => ⟨_, rfl, ?rra⟩⟩,
    memCells_of aluForms (fun _ => rfl) rmwCycles_form (by decide) rfl,
    memCells_of aluForms (fun _ => rfl) rmwCycles_form (by decide) rfl,
    fun m s => ⟨_, rfl, rmwOp_compareA (· - 1) m s⟩, fun m s => ⟨_, rfl, rmwOp_sbcBody (· + 1) m s⟩⟩
  case rra => simpa only [rorOf_eq] using rmwOp_shiftAdd (rorOf (getFlag s.cpu.p .c)) m s

/-! ## A byte read with the opcode -/

/-- An instruction whose operand was read with its opcode touches only CPU registers (R154). -/
theorem ReadsOperand.registersOnly {regs : List Reg} {flags : List Flag} {v : Byte} {s t : State}
    (h : ReadsOperand regs flags (.imm v) s t) : RegistersOnly regs flags 2 s t :=
  ⟨h.keeps, h.pc, h.devices, h.takes⟩

/-- A flag other than N and Z may be set before or after those two. -/
theorem setFlag_setNZ_comm (v p : Byte) (x : Bool) {f : Flag} (hf : f ∉ [Flag.n, .z]) :
    setFlag (setNZ v p) f x = setNZ v (setFlag p f x) := by
  simp only [List.mem_cons, List.not_mem_nil, or_false, not_or] at hf
  refine status_ext fun g => ?_
  by_cases hg : g = f
  · simp [getFlag_setNZ, hg, hf]
  · simp [getFlag_setNZ, getFlag_setFlag_ne, hg]

/-- P, the registers and the frame after an instruction whose operand was read with its opcode and whose body does not
look at the latched IRQ. -/
theorem readOp_imm_outcome {regs : List Reg} {flags : List Flag} {f : Byte → Cpu → Cpu}
    (hkeeps : ∀ b, BodyKeeps regs flags (f b)) (hpc : ∀ b c, (f b c).pc = c.pc)
    (hlatch : ∀ b c x, f b { c with latchedIrq := x } = { f b c with latchedIrq := x }) (m : Byte) (s : State) :
    let t := readOp (.imm m) f s
    t.cpu.p = (f m s.cpu).p ∧ (∀ r, t.cpu.reg r = (f m s.cpu).reg r) ∧ RegistersOnly regs flags 2 s t := by
  obtain ⟨hp, hreg⟩ := readOp_outcome hlatch (.imm m) s
  exact ⟨hp, hreg, (readOp_reads hkeeps hpc (.imm m) s).registersOnly⟩

/-- AND of A and the byte, with C the result's bit 7 (R358). -/
theorem runs_anc (op m : Byte) (s : State) : runs (.anc op m) s fun t =>
    let r := s.cpu.a &&& m
    t.cpu.a = r ∧ nzOf r t ∧ getFlag t.cpu.p .c = r.getLsbD 7 ∧ RegistersOnly [.a] [.n, .z, .c] 2 s t := by
  have hkeeps (b : Byte) : BodyKeeps [.a] [.n, .z, .c] fun c => (c.loadA (c.a &&& b)).withCarry (bit (c.a &&& b) 7) :=
    BodyKeeps.setAP _ fun c f hf => by
      rw [Cpu.loadA, setFlag_setNZ_comm _ _ _ (by decide), getFlag_setNZ_setCarry _ _ _ hf]
  obtain ⟨hp, hreg, honly⟩ := readOp_imm_outcome hkeeps (fun _ _ => rfl) (fun _ _ _ => rfl) m s
  obtain ⟨hnz, hc⟩ := flags_of_p_eq_setNZ_setCarry (hp.trans (setFlag_setNZ_comm _ _ _ (by decide)))
  exact ⟨_, rfl, hreg .a, hnz, hc, honly⟩

/-- AND of A and the byte shifted right, with C the bit shifted out (R359). -/
theorem runs_asr (m : Byte) (s : State) : runs (.asr m) s fun t =>
    let r := (s.cpu.a &&& m) >>> 1
    t.cpu.a = r ∧ nzOf r t ∧ getFlag t.cpu.p .n = false ∧ getFlag t.cpu.p .c = (s.cpu.a &&& m).getLsbD 0 ∧
      RegistersOnly [.a] [.n, .z, .c] 2 s t := by
  have hkeeps (b : Byte) : BodyKeeps [.a] [.n, .z, .c] fun c =>
      (c.withCarry (bit (c.a &&& b) 0)).loadA ((c.a &&& b) >>> 1) :=
    BodyKeeps.setAP _ fun _ _ => getFlag_setNZ_setCarry _ _ _
  obtain ⟨hp, hreg, honly⟩ := readOp_imm_outcome hkeeps (fun _ _ => rfl) (fun _ _ _ => rfl) m s
  obtain ⟨hnz, hc⟩ := flags_of_p_eq_setNZ_setCarry hp
  refine ⟨_, rfl, hreg .a, hnz, hnz.2.trans ?_, hc, honly⟩
  simp

theorem BodyKeeps.arrBody (m : Byte) : BodyKeeps [.a] [.n, .v, .z, .c] (arrBody m) :=
  BodyKeeps.setAP _ fun c f hf => by
    simp only [List.mem_cons, List.not_mem_nil, or_false, not_or] at hf
    simp [getFlag_setNZ, getFlag_setFlag, hf]

/-- ARR's C and V come from bits 6 and 5 of its result, N and Z from the whole of it (R360). -/
theorem arrBody_p (m : Byte) (c : Cpu) :
    (arrBody m c).p = setNZ (arrResult c m)
      (setFlag (setFlag c.p .c (bit (arrResult c m) 6)) .v (bit (arrResult c m) 6 ^^ bit (arrResult c m) 5)) := by
  rw [arrBody, setFlag_setNZ_comm _ _ _ (by decide), setFlag_setNZ_comm _ _ _ (by decide)]

/-- ARR's result is what ROR makes of A AND the byte (R360). -/
theorem arrResult_eq (c : Cpu) (m : Byte) :
    arrResult c m = ((c.a &&& m) >>> 1) ||| (if getFlag c.p .c then 0x80 else 0) :=
  congrArg Shifted.result (rorOf_eq (getFlag c.p .c) (c.a &&& m))

/-- AND of A and the byte rotated right through C, with C and V from the result (R360). -/
theorem runs_arr (m : Byte) (s : State) : runs (.arr m) s fun t =>
    let r : Byte := ((s.cpu.a &&& m) >>> 1) ||| (if getFlag s.cpu.p .c then 0x80 else 0)
    t.cpu.a = r ∧ nzOf r t ∧ getFlag t.cpu.p .c = r.getLsbD 6 ∧
      getFlag t.cpu.p .v = (r.getLsbD 6 != r.getLsbD 5) ∧ RegistersOnly [.a] [.n, .v, .z, .c] 2 s t := by
  obtain ⟨hp, hreg, honly⟩ := readOp_imm_outcome BodyKeeps.arrBody (fun _ _ => rfl) (fun _ _ _ => rfl) m s
  rw [← arrResult_eq]
  refine ⟨_, rfl, hreg .a, nzOf_of_p_eq (hp.trans (arrBody_p m s.cpu)), ?_, ?_, honly⟩
  · simp [hp, arrBody_p, getFlag_setNZ, getFlag_setFlag, bit]
  · simp [hp, arrBody_p, getFlag_setNZ, bit]

theorem BodyKeeps.axsBody (m : Byte) : BodyKeeps [.x] [.n, .z, .c] (axsBody m) :=
  (BodyKeeps.load [.x] fun c => (c.a &&& c.x) - m).comp <|
    BodyKeeps.setP (flags := [.c]) (p := fun c => setFlag c.p .c (decide (m.toNat ≤ (c.a &&& c.x).toNat)))
      fun c _ hf => getFlag_setFlag_ne c.p _ (List.mem_singleton.not.mp hf)

/-- A AND X compared with the byte, the difference going to X (R363). -/
theorem runs_axs (m : Byte) (s : State) : runs (.axs m) s fun t =>
    let r := s.cpu.a &&& s.cpu.x
    t.cpu.x = r - m ∧ nzOf (r - m) t ∧ getFlag t.cpu.p .c = decide (m.toNat ≤ r.toNat) ∧
      RegistersOnly [.x] [.n, .z, .c] 2 s t := by
  obtain ⟨hp, hreg, honly⟩ := readOp_imm_outcome BodyKeeps.axsBody (fun _ _ => rfl) (fun _ _ _ => rfl) m s
  obtain ⟨hnz, hc⟩ := flags_of_p_eq_setNZ_setCarry hp
  exact ⟨_, rfl, hreg .x, hnz, hc, honly⟩

/-- Settles O33: each of the four combines registers with a byte read with its opcode. -/
theorem immediateCombinations : Obligations.ImmediateCombinations := fun m s =>
  ⟨⟨decode_f2 rfl m, decode_f2 rfl m, decode_f2 rfl m, decode_f2 rfl m, decode_f2 rfl m⟩,
    fun op => runs_anc op m s, runs_asr m s, runs_arr m s, runs_axs m s⟩

/-- An accumulator of 0xFF leaves nothing of what is ORed to it (R361). -/
theorem or_and_of_ones {a : Byte} (ha : a = 0xFF) (k x : Byte) : (a ||| k) &&& x = x := by
  rw [ha, show (0xFF : Byte) = BitVec.allOnes 8 from rfl, BitVec.allOnes_or, BitVec.allOnes_and]

/-- Settles O34: each loads registers with a byte that its open constant takes part in; a byte of 0 and an A of 0xFF leave
nothing of it. -/
theorem openConstantInstructions : Obligations.OpenConstantInstructions := by
  refine fun m s => ⟨decode_f2 rfl m, decode_f2 rfl m, ⟨_, rfl, ?ane⟩, _, rfl, ?lxa⟩
  case ane =>
    obtain ⟨hreg, hnz, hreads⟩ := readOp_load [.a] (fun b c => (c.a ||| Config.aneConst) &&& c.x &&& b) (.imm m) s
      fun _ _ => by rw [Cpu.pollFirst_a, Cpu.pollFirst_x]
    have ha := hreg .a (by decide)
    refine ⟨ha, hnz, fun hm => ha.trans ?_, fun hff => ha.trans ?_, hreads.registersOnly⟩
    · exact (congrArg _ hm).trans BitVec.and_zero
    · exact congrArg (· &&& m) (or_and_of_ones hff _ _)
  case lxa =>
    obtain ⟨hreg, hnz, hreads⟩ := readOp_load [.a, .x] (fun b c => (c.a ||| Config.lxaConst) &&& b) (.imm m) s
      fun _ _ => by rw [Cpu.pollFirst_a]
    have ha := hreg .a (by decide)
    exact ⟨ha, hreg .x (by decide), hnz, fun hm => ha.trans ((congrArg _ hm).trans BitVec.and_zero),
      hreads.registersOnly⟩

/-! ## NOP variants and unknown opcodes -/

/-- Settles O35: an empty body, on no operand, on a byte read with the opcode, or on one read from memory. -/
theorem nopVariantsChangeNothing : Obligations.NopVariantsChangeNothing := by
  have hlisted {l : List Byte} {op : Byte} (h : op ∈ l) : l.contains op = true := List.contains_iff_mem.mpr h
  refine ⟨fun op h => decodesTo_of_wf (i := .nopImplied op) (hlisted h),
    fun op h v => decodesTo_of_wf (i := .nopImm op v) (hlisted h),
    fun op h z => decodesTo_of_wf (i := .nopRead op (.zp z)) (hlisted h),
    fun op h z => decodesTo_of_wf (i := .nopRead op (.zpx z)) (hlisted h),
    fun lo hi => decode_f3 (f := fun w => .nopRead 0x0C (.abs w)) rfl lo hi,
    fun op h lo hi => decode_f3 (rowOf_of_contains (fun op => .f3 (.nopAbx op)) rfl (hlisted h)) lo hi,
    fun op h => decodesTo_of_wf (i := .nopUnknown op) (hlisted h), fun op v m w s => ?runs⟩
  case runs =>
    have hregisters := registerOp_only (BodyKeeps.id [] []) 2 (fun _ => rfl) s
    have hreads (m : ReadMode) : ReadsOperand [] [] m s (readOp m (fun _ c => c) s) :=
      readOp_reads (fun _ => BodyKeeps.id [] []) (fun _ _ => rfl) m s
    exact ⟨⟨_, rfl, hregisters⟩, ⟨_, rfl, hregisters⟩, ⟨_, rfl, (hreads (.imm v)).registersOnly⟩,
      ⟨_, rfl, hreads (.mem m)⟩, ⟨_, rfl, hreads (.mem (.abx w))⟩, rfl, rfl, fun _ => ⟨rfl, rfl⟩, rfl, rfl, rfl⟩

end Sys2Proof.Machine
end

section
/-! Unstable stores (44_unstable_stores.md): what one step of the micro-sequencer does to its context, one clock of it
as an access and a new context, and the whole run from the first operand byte to the write: O36 and O37. -/

namespace Sys2Proof.Machine

/-! ## The steps of the micro-sequencer -/

theorem ShOp.steps_of_ne {op : ShOp} (h : op ≠ .shaIzy) : op.steps = 5 := by
  cases op with
  | shaIzy => exact absurd rfl h
  | _ => rfl

theorem ShOp.three_le_steps (op : ShOp) : 3 ≤ op.steps := by cases op <;> decide

/-- R401's table for the four absolute stores. -/
theorem shStep_absolute {s : State} (hop : s.cpu.sh.op ≠ .shaIzy) :
    (s.cpu.sh.step = 2 → shStep s = shFetch (fun v h => { h with lo := v }) s) ∧
      (s.cpu.sh.step = 3 → shStep s = shFetch (fun v h => { h with hi := v }) s) ∧
      (s.cpu.sh.step = 4 → shStep s = dummyRead s.cpu.shEa.uncarried s) ∧
      (s.cpu.sh.step = 5 → shStep s = shWrite s) := by
  unfold shStep
  cases hs : s.cpu.sh.op with
  | shaIzy => exact absurd hs hop
  | _ => refine ⟨?_, ?_, ?_, ?_⟩ <;> intro h <;> simp only [h]

/-- R401's table for SHA (zero-page),Y. -/
theorem shStep_zeroPage {s : State} (hop : s.cpu.sh.op = .shaIzy) :
    (s.cpu.sh.step = 2 → shStep s = shFetch (fun v h => { h with ptr := v }) s) ∧
      (s.cpu.sh.step = 3 → shStep s = shLoad s.cpu.sh.ptr (fun v h => { h with lo := v }) s) ∧
      (s.cpu.sh.step = 4 → shStep s = shLoad (s.cpu.sh.ptr + 1) (fun v h => { h with hi := v }) s) ∧
      (s.cpu.sh.step = 5 → shStep s = dummyRead s.cpu.shEa.uncarried s) ∧
      (s.cpu.sh.step = 6 → shStep s = shWrite s) := by
  unfold shStep
  rw [hop]
  refine ⟨?_, ?_, ?_, ?_, ?_⟩ <;> intro h <;> simp only [h]

@[simp] theorem shFetch_cpu (f : Byte → Sh → Sh) (s : State) :
    (shFetch f s).cpu = { s.cpu with pc := s.cpu.pc + 1, sh := f (busRead s.cpu.pc s).1 s.cpu.sh } := by
  simp [shFetch, fetchByte, Cpu.mapSh]

@[simp] theorem shLoad_cpu (z : Byte) (f : Byte → Sh → Sh) (s : State) :
    (shLoad z f s).cpu = { s.cpu with sh := f (busRead (zext z) s).1 s.cpu.sh } := by
  simp [shLoad, Cpu.mapSh]

theorem Cpu.shsStack_eq (c : Cpu) : c.shsStack = { c with sp := if c.sh.op = .shs then c.a &&& c.x else c.sp } := by
  unfold Cpu.shsStack
  split <;> rfl

/-- SHS's SP is set beside the write, which does not look at it. -/
theorem shWrite_eq (s : State) :
    shWrite s = (busWrite s.cpu.shAddr s.cpu.shValue s).mapCpu fun c =>
      c.shsStack.mapSh fun h => { h with active := false } := by
  rw [shWrite, busWrite_mapCpu _ _ _ _ (by rw [Cpu.shsStack_eq]), State.mapCpu_mapCpu]

@[simp] theorem shWrite_cpu (s : State) :
    (shWrite s).cpu = { s.cpu.shsStack with sh := { s.cpu.sh with active := false } } := by
  simp [shWrite_eq, Cpu.mapSh, Cpu.shsStack_eq]

/-- The last step is the write step (R400). -/
theorem shStep_last {s : State} (h : s.cpu.sh.step = s.cpu.sh.op.steps) : shStep s = shWrite s := by
  by_cases hop : s.cpu.sh.op = .shaIzy
  · obtain ⟨-, -, -, -, hwrite⟩ := shStep_zeroPage hop
    exact hwrite (by rw [h, hop]; rfl)
  · obtain ⟨-, -, -, hwrite⟩ := shStep_absolute hop
    exact hwrite (by rw [h, ShOp.steps_of_ne hop])

/-- What a step of a store leaves alone: which store and which step it is, the clocks left and counted, and, before the
last step, that the store is under way. -/
structure SameStore (c d : Cpu) : Prop where
  step : d.sh.step = c.sh.step
  op : d.sh.op = c.sh.op
  active : c.sh.step ≠ c.sh.op.steps → d.sh.active = c.sh.active
  cyclesRemaining : d.cyclesRemaining = c.cyclesRemaining
  cycleCount : d.cycleCount = c.cycleCount

theorem shWrite_sameStore {s : State} (h : s.cpu.sh.step = s.cpu.sh.op.steps) : SameStore s.cpu (shWrite s).cpu := by
  rw [shWrite_cpu, Cpu.shsStack_eq]
  exact ⟨rfl, rfl, fun hne => absurd h hne, rfl, rfl⟩

/-- A step before the last gathers a byte into the context or reads it in vain. -/
theorem shStep_sameStore (s : State) : SameStore s.cpu (shStep s).cpu := by
  unfold shStep
  split
  case h_5 hop hstep => exact shWrite_sameStore (by rw [hstep, hop]; rfl)
  case h_10 hstep hop => exact shWrite_sameStore (by rw [hstep, ShOp.steps_of_ne hop])
  all_goals constructor <;> simp [dummyRead]

/-! ## One clock of the micro-sequencer -/

/-- The state in which a clock's step is made: polled at the start of step W - 1 (R401, R764). -/
def State.shPolled (s : State) : State :=
  if s.cpu.sh.step + 1 = s.cpu.sh.op.steps then s.mapCpu Cpu.poll else s

theorem shClock_eq (s : State) :
    shClock s = (shStep s.shPolled).mapCpu (Cpu.mapSh fun h => { h with step := h.step + 1 }) := rfl

theorem State.shPolled_keeps (s : State) : s.shPolled.cpu.sh = s.cpu.sh ∧
    s.shPolled.cpu.cyclesRemaining = s.cpu.cyclesRemaining ∧ s.shPolled.cpu.cycleCount = s.cpu.cycleCount := by
  unfold State.shPolled
  split <;> exact ⟨rfl, rfl, rfl⟩

theorem State.shPolled_of_eq {s : State} (h : s.cpu.sh.step + 1 = s.cpu.sh.op.steps) :
    s.shPolled = s.mapCpu Cpu.poll := if_pos h

theorem State.shPolled_of_ne {s : State} (h : s.cpu.sh.step + 1 ≠ s.cpu.sh.op.steps) : s.shPolled = s := if_neg h

/-- A clock raises the step number; only the last one ends the store (R400). -/
theorem shClock_sh (s : State) :
    (shClock s).cpu.sh.step = s.cpu.sh.step + 1 ∧ (shClock s).cpu.sh.op = s.cpu.sh.op ∧
      (s.cpu.sh.step = s.cpu.sh.op.steps → (shClock s).cpu.sh.active = false) ∧
      (s.cpu.sh.step ≠ s.cpu.sh.op.steps → (shClock s).cpu.sh.active = s.cpu.sh.active) := by
  have hstep := shStep_sameStore s.shPolled
  obtain ⟨hsh, -, -⟩ := s.shPolled_keeps
  rw [shClock_eq, State.mapCpu_cpu, Cpu.mapSh, ← hsh]
  refine ⟨congrArg (· + 1) hstep.step, hstep.op, fun hlast => ?_, hstep.active⟩
  rw [shStep_last hlast, shWrite_cpu]

theorem shClock_timing (s : State) : (shClock s).cpu.cyclesRemaining = s.cpu.cyclesRemaining ∧
    (shClock s).cpu.cycleCount = s.cpu.cycleCount := by
  have hstep := shStep_sameStore s.shPolled
  obtain ⟨-, hremaining, hcount⟩ := s.shPolled_keeps
  exact ⟨hstep.cyclesRemaining.trans hremaining, hstep.cycleCount.trans hcount⟩

theorem cpuClock_active {s : State} (h : s.cpu.sh.active = true) :
    cpuClock s = .next ((shClock s).mapCpu Cpu.endClock) := by
  rw [cpuClock, cpuWork, if_pos h, mapNext_next]

theorem startSh_startsStore (op : ShOp) (s : State) : StartsStore op s (startSh op s) where
  active := rfl
  which := rfl
  step := rfl
  fresh := rfl
  clocks := rfl
  regs r := by cases r <;> rfl
  status := rfl
  pc := rfl
  cycleCount := rfl
  interrupts := ⟨rfl, rfl, rfl⟩
  devices := ⟨rfl, rfl, rfl, rfl, rfl⟩

/-- Settles O36: the first clock is `startSh`, and only the write step, which is step W, ends a store. -/
theorem unstableStoresStart : Obligations.UnstableStoresStart := by
  refine ⟨fun z => decode_f2 rfl z, fun lo hi => ⟨decode_f3 rfl lo hi, decode_f3 rfl lo hi, decode_f3 rfl lo hi,
    decode_f3 rfl lo hi⟩, ⟨rfl, rfl, rfl, rfl, rfl⟩, fun z w s => ?starts, shClock_sh,
    fun s t hactive ht => ?clock⟩
  case starts =>
    have hstarts (op : ShOp) := startSh_startsStore op s
    exact ⟨⟨_, rfl, hstarts _⟩, ⟨_, rfl, hstarts _⟩, ⟨_, rfl, hstarts _⟩, ⟨_, rfl, hstarts _⟩, ⟨_, rfl, hstarts _⟩⟩
  case clock =>
    rw [cpuClock_active hactive] at ht
    cases ht
    obtain ⟨hremaining, hcount⟩ := shClock_timing s
    exact ⟨congrArg (· - 1) hremaining, congrArg (· + 1) hcount⟩

/-! ## The address and the value of the store -/

theorem ShOp.index_eq (op : ShOp) (c : Cpu) : op.index c = if op = .shy then c.x else c.y := by cases op <;> rfl

theorem ShOp.raw_eq (op : ShOp) (c : Cpu) :
    op.raw c = if op = .shx then c.x else if op = .shy then c.y else c.a &&& c.x := by cases op <;> rfl

theorem loByte_add_zext (w : Word) (i : Byte) : loByte (w + zext i) = loByte w + i := by
  apply BitVec.eq_of_toNat_eq
  rw [loByte_toNat, BitVec.toNat_add, BitVec.toNat_add, loByte_toNat, zext_toNat]
  omega

theorem Cpu.shEa_ea (c : Cpu) :
    c.shEa.ea = mkWord c.sh.hi c.sh.lo + zext (if c.sh.op = .shy then c.x else c.y) := by
  rw [Cpu.shEa, Ea.index, ShOp.index_eq]

theorem Cpu.shValue_eq (c : Cpu) :
    c.shValue = (if c.sh.op = .shx then c.x else if c.sh.op = .shy then c.y else c.a &&& c.x) &&&
      (if c.sh.rdyTwoBefore then c.sh.hi else c.sh.hi + 1) := by
  rw [Cpu.shValue, ShOp.raw_eq, Cpu.shSource]

theorem Cpu.shEa_uncarried (c : Cpu) : c.shEa.uncarried = mkWord c.sh.hi (loByte c.shEa.ea) := by
  rw [Ea.uncarried, Cpu.shEa, Ea.index, hiByte_mkWord]

theorem Cpu.shAddr_eq (c : Cpu) :
    c.shAddr = if hiByte c.shEa.ea = c.sh.hi then c.shEa.ea else mkWord c.shValue (loByte c.shEa.ea) := by
  have hcrossed : c.shEa.crossed = true ↔ ¬hiByte c.shEa.ea = c.sh.hi := by
    rw [Ea.crossed, bne_iff_ne, Cpu.shEa, Ea.index, hiByte_mkWord]
  rw [Cpu.shAddr, ite_cond_congr (propext hcrossed), ite_not]

/-! ## One clock as an access and a new context (R401, R403) -/

theorem shClock_of_step {s u : State} {g : Sh → Sh} (hstep : shStep s.shPolled = u.mapCpu (Cpu.mapSh g))
    (hg : (g u.cpu.sh).step = s.cpu.sh.step) :
    shClock s = u.mapCpu fun c => { c with sh := { g c.sh with step := s.cpu.sh.step + 1 } } := by
  rw [shClock_eq, hstep, ← hg]
  rfl

theorem shClock_fetches {s : State} {f : Byte → Sh → Sh} (hpoll : s.cpu.sh.step + 1 ≠ s.cpu.sh.op.steps)
    (hstep : shStep s = shFetch f s) (hf : ∀ v h, (f v h).step = h.step) :
    shClock s = ((busRead s.cpu.pc s).2.mapCpu fun c => { c with pc := c.pc + 1 }).mapCpu fun c =>
      { c with sh := { f (busRead s.cpu.pc s).1 c.sh with step := s.cpu.sh.step + 1 } } := by
  refine shClock_of_step (by rw [State.shPolled_of_ne hpoll, hstep]; rfl) ?_
  rw [hf, State.mapCpu_cpu, busRead_cpu]

theorem shClock_loads {s : State} {z : Byte} {f : Byte → Sh → Sh} (hpoll : s.cpu.sh.step + 1 ≠ s.cpu.sh.op.steps)
    (hstep : shStep s = shLoad z f s) (hf : ∀ v h, (f v h).step = h.step) :
    shClock s = (busRead (zext z) s).2.mapCpu fun c =>
      { c with sh := { f (busRead (zext z) s).1 c.sh with step := s.cpu.sh.step + 1 } } := by
  refine shClock_of_step (by rw [State.shPolled_of_ne hpoll, hstep]; rfl) ?_
  rw [hf, busRead_cpu]

/-- Step W - 1 reads the un-carried address. -/
theorem shStep_beforeLast {s : State} (h : s.cpu.sh.step + 1 = s.cpu.sh.op.steps) :
    shStep s = dummyRead s.cpu.shEa.uncarried s := by
  by_cases hop : s.cpu.sh.op = .shaIzy
  · obtain ⟨-, -, -, hdummy, -⟩ := shStep_zeroPage hop
    exact hdummy (Nat.succ.inj (h.trans (congrArg ShOp.steps hop)))
  · obtain ⟨-, -, hdummy, -⟩ := shStep_absolute hop
    exact hdummy (Nat.succ.inj (h.trans (ShOp.steps_of_ne hop)))

theorem shClock_dummy {s : State} (h : s.cpu.sh.step + 1 = s.cpu.sh.op.steps) :
    shClock s = (busRead s.cpu.shEa.uncarried (s.mapCpu Cpu.poll)).2.mapCpu fun c =>
      { c with sh := { c.sh with step := s.cpu.sh.step + 1 } } := by
  refine shClock_of_step (g := id) ?_ ?_
  · rw [State.shPolled_of_eq h, shStep_beforeLast (s := s.mapCpu Cpu.poll) h]
    rfl
  · rw [busRead_cpu]
    rfl

theorem shClock_writes {s : State} (h : s.cpu.sh.step = s.cpu.sh.op.steps) :
    shClock s = (busWrite s.cpu.shAddr s.cpu.shValue (s.mapCpu Cpu.shsStack)).mapCpu fun c =>
      { c with sh := { c.sh with active := false, step := s.cpu.sh.step + 1 } } := by
  refine shClock_of_step (g := fun k => { k with active := false }) ?_ ?_
  · rw [State.shPolled_of_ne (by omega), shStep_last h]
    rfl
  · rw [busWrite_cpu, State.mapCpu_cpu, Cpu.shsStack_eq]

theorem State.mapCpu_shsStack (s : State) :
    s.mapCpu Cpu.shsStack = if s.cpu.sh.op = .shs then s.mapCpu fun c => { c with sp := c.a &&& c.x } else s := by
  unfold State.mapCpu Cpu.shsStack
  split <;> rfl

/-! ## A run of clocks -/

theorem cpuClocks_succ {s t : State} (h : cpuClock s = .next t) (k : Nat) : cpuClocks (k + 1) s = cpuClocks k t := by
  rw [cpuClocks, h]

theorem cpuClocks_add {s t : State} {k : Nat} (h : cpuClocks k s = .next t) (n : Nat) :
    cpuClocks (k + n) s = cpuClocks n t := by
  induction k generalizing s with
  | zero =>
    cases h
    rw [Nat.zero_add]
  | succ k ih =>
    rw [cpuClocks] at h
    cases hc : cpuClock s with
    | next u =>
      rw [hc] at h
      rw [Nat.add_right_comm, cpuClocks_succ hc, ih h]
    | fault e => cases e
    | refused e =>
      rw [hc] at h
      cases h

/-- The CPU after `k` clocks of the micro-sequencer that left PC and the context as given. -/
def Cpu.shRan (k : Nat) (pc : Word) (h : Sh) (c : Cpu) : Cpu :=
  { c with
    pc := pc, sh := h, cyclesRemaining := c.cyclesRemaining - k, cycleCount := c.cycleCount + BitVec.ofNat 64 k }

theorem Cpu.shRan_shRan (k l : Nat) (pc pc' : Word) (h h' : Sh) (c : Cpu) :
    (c.shRan k pc h).shRan l pc' h' = c.shRan (k + l) pc' h' := by
  simp only [Cpu.shRan, Nat.sub_sub, BitVec.ofNat_add, BitVec.add_assoc]

theorem cpuClock_fetches {s : State} {b : Byte} {f : Byte → Sh → Sh} (hactive : s.cpu.sh.active = true)
    (hpoll : s.cpu.sh.step + 1 ≠ s.cpu.sh.op.steps) (hstep : shStep s = shFetch f s)
    (hf : ∀ v h, (f v h).step = h.step) (hb : s.storage s.cpu.pc = some b) :
    cpuClock s = .next ((s.latch b).mapCpu
      (Cpu.shRan 1 (s.cpu.pc + 1) { f b s.cpu.sh with step := s.cpu.sh.step + 1 })) := by
  rw [cpuClock_active hactive, shClock_fetches hpoll hstep hf, busRead_storage hb]
  rfl

theorem cpuClock_loads {s : State} {z : Byte} {f : Byte → Sh → Sh} (hactive : s.cpu.sh.active = true)
    (hpoll : s.cpu.sh.step + 1 ≠ s.cpu.sh.op.steps) (hstep : shStep s = shLoad z f s)
    (hf : ∀ v h, (f v h).step = h.step) :
    cpuClock s = .next ((s.latch (s.peek .ram z.toNat)).mapCpu
      (Cpu.shRan 1 s.cpu.pc { f (s.peek .ram z.toNat) s.cpu.sh with step := s.cpu.sh.step + 1 })) := by
  rw [cpuClock_active hactive, shClock_loads hpoll hstep hf, busRead_lowRam (zext_low z), ramIndex_zext]
  rfl

theorem cpuClock_dummy {s : State} (hactive : s.cpu.sh.active = true)
    (h : s.cpu.sh.step + 1 = s.cpu.sh.op.steps) :
    cpuClock s = .next ((busRead s.cpu.shEa.uncarried s).2.mapCpu fun _ =>
      s.cpu.poll.shRan 1 s.cpu.pc { s.cpu.sh with step := s.cpu.sh.step + 1 }) := by
  rw [cpuClock_active hactive, shClock_dummy h, busRead_mapCpu]
  simp only [State.mapCpu, busRead_cpu]
  rfl

theorem cpuClock_writes {s : State} (hactive : s.cpu.sh.active = true)
    (h : s.cpu.sh.step = s.cpu.sh.op.steps) :
    cpuClock s = .next ((busWrite s.cpu.shAddr s.cpu.shValue s).mapCpu fun _ =>
      s.cpu.shsStack.shRan 1 s.cpu.pc { s.cpu.sh with active := false, step := s.cpu.sh.step + 1 }) := by
  rw [cpuClock_active hactive, shClock_writes h, busWrite_mapCpu _ _ _ _ (by rw [Cpu.shsStack_eq]), Cpu.shsStack_eq]
  simp only [State.mapCpu, busWrite_cpu, Cpu.shsStack_eq]
  rfl

/-- Two parts of a run joined: the devices are as the second part's last read left the latch. -/
theorem State.shRan_latch_shRan (s : State) (v v' : Byte) (k l : Nat) (pc pc' : Word) (h h' : Sh) :
    (((s.latch v).mapCpu (Cpu.shRan k pc h)).latch v').mapCpu (Cpu.shRan l pc' h') =
      (s.latch v').mapCpu (Cpu.shRan (k + l) pc' h') := by
  rw [State.latch_mapCpu, State.latch_latch, State.mapCpu_mapCpu]
  simp only [Cpu.shRan_shRan]

/-- An absolute store reads its two operand bytes (R401). -/
theorem cpuClocks_absolute {s : State} {b1 b2 : Byte} (hactive : s.cpu.sh.active = true) (hs : s.cpu.sh.step = 2)
    (hop : s.cpu.sh.op ≠ .shaIzy) (h1 : s.storage s.cpu.pc = some b1) (h2 : s.storage (s.cpu.pc + 1) = some b2) :
    cpuClocks 2 s = .next ((s.latch b2).mapCpu
      (Cpu.shRan 2 (s.cpu.pc + 1 + 1) { s.cpu.sh with step := 4, lo := b1, hi := b2 })) := by
  have hw : s.cpu.sh.op.steps = 5 := ShOp.steps_of_ne hop
  obtain ⟨hlo, -⟩ := shStep_absolute hop
  have hfirst := cpuClock_fetches hactive (by rw [hs, hw]; decide) (hlo hs) (fun _ _ => rfl) h1
  rw [hs] at hfirst
  let u := (s.latch b1).mapCpu (Cpu.shRan 1 (s.cpu.pc + 1) { s.cpu.sh with step := 3, lo := b1 })
  obtain ⟨-, hhi, -⟩ := shStep_absolute (s := u) hop
  have hpoll : 3 + 1 ≠ s.cpu.sh.op.steps := by rw [hw]; decide
  have hsecond := cpuClock_fetches (s := u) hactive hpoll (hhi rfl) (fun _ _ => rfl) h2
  rw [cpuClocks_succ hfirst, cpuClocks_succ hsecond, State.shRan_latch_shRan]
  rfl

/-- SHA (zero-page),Y reads its operand byte and the two bytes of its pointer (R401). -/
theorem cpuClocks_zeroPage {s : State} {b : Byte} (hactive : s.cpu.sh.active = true) (hs : s.cpu.sh.step = 2)
    (hop : s.cpu.sh.op = .shaIzy) (hb : s.storage s.cpu.pc = some b) :
    let lo := s.peek .ram b.toNat
    let hi := s.peek .ram (b + 1).toNat
    cpuClocks 3 s = .next ((s.latch hi).mapCpu
      (Cpu.shRan 3 (s.cpu.pc + 1) { s.cpu.sh with step := 5, ptr := b, lo := lo, hi := hi })) := by
  intro lo hi
  have hw : s.cpu.sh.op.steps = 6 := congrArg ShOp.steps hop
  obtain ⟨hptr, -⟩ := shStep_zeroPage hop
  have hfirst := cpuClock_fetches hactive (by rw [hs, hw]; decide) (hptr hs) (fun _ _ => rfl) hb
  rw [hs] at hfirst
  let u := (s.latch b).mapCpu (Cpu.shRan 1 (s.cpu.pc + 1) { s.cpu.sh with step := 3, ptr := b })
  obtain ⟨-, hlo, -⟩ := shStep_zeroPage (s := u) hop
  have hpoll {n : Nat} (hn : n < 5) : n + 1 ≠ s.cpu.sh.op.steps := by rw [hw]; omega
  have hsecond := cpuClock_loads (s := u) hactive (hpoll (n := 3) (by decide)) (hlo rfl) fun _ _ => rfl
  rw [State.shRan_latch_shRan] at hsecond
  let w := (s.latch lo).mapCpu (Cpu.shRan 2 (s.cpu.pc + 1) { s.cpu.sh with step := 4, ptr := b, lo := lo })
  obtain ⟨-, -, hhi, -⟩ := shStep_zeroPage (s := w) hop
  have hthird := cpuClock_loads (s := w) hactive (hpoll (n := 4) (by decide)) (hhi rfl) fun _ _ => rfl
  rw [State.shRan_latch_shRan] at hthird
  rw [cpuClocks_succ hfirst, cpuClocks_succ hsecond]
  exact cpuClocks_succ hthird 0

/-- The operand of a store, whatever its form: its base address, and PC past the bytes read for it. -/
theorem cpuClocks_operand {s : State} {b1 b2 : Byte} (hactive : s.cpu.sh.active = true) (hs : s.cpu.sh.step = 2)
    (h1 : s.storage s.cpu.pc = some b1) (h2 : s.cpu.sh.op ≠ .shaIzy → s.storage (s.cpu.pc + 1) = some b2) :
    let zp := decide (s.cpu.sh.op = .shaIzy)
    let lo := if zp then s.peek .ram b1.toNat else b1
    let hi := if zp then s.peek .ram (b1 + 1).toNat else b2
    ∃ ptr, cpuClocks (s.cpu.sh.op.steps - 3) s = .next ((s.latch hi).mapCpu
      (Cpu.shRan (s.cpu.sh.op.steps - 3) (s.cpu.pc + if zp then 1 else 2)
        { s.cpu.sh with step := s.cpu.sh.op.steps - 1, ptr := ptr, lo := lo, hi := hi })) := by
  intro zp lo hi
  by_cases hop : s.cpu.sh.op = .shaIzy
  · have hw : s.cpu.sh.op.steps = 6 := congrArg ShOp.steps hop
    have hzp : zp = true := decide_eq_true hop
    refine ⟨b1, ?_⟩
    simp only [hw, lo, hi, hzp, if_true]
    exact cpuClocks_zeroPage hactive hs hop h1
  · have hw : s.cpu.sh.op.steps = 5 := ShOp.steps_of_ne hop
    have hzp : zp = false := decide_eq_false hop
    refine ⟨s.cpu.sh.ptr, ?_⟩
    simp only [hw, lo, hi, hzp, Bool.false_eq_true, if_false]
    rw [cpuClocks_absolute hactive hs hop h1 (h2 hop), add_assoc]
    rfl

/-- A store from its first operand byte on: `pc` and `h` are PC and the context when the operand has been read. The
write sees a CPU that has counted W - 2 clocks (R452). -/
theorem cpuClocks_store {s : State} {pc : Word} {h : Sh}
    (hrun : cpuClocks (s.cpu.sh.op.steps - 3) s =
      .next ((s.latch h.hi).mapCpu (Cpu.shRan (s.cpu.sh.op.steps - 3) pc h)))
    (hactive : h.active = true) (hstep : h.step + 1 = h.op.steps) (hop : h.op = s.cpu.sh.op) {read addr : Word}
    {value : Byte} (hread : { s.cpu with sh := h }.shEa.uncarried = read) (haddr : { s.cpu with sh := h }.shAddr = addr)
    (hvalue : { s.cpu with sh := h }.shValue = value) :
    let u := (busRead read (s.latch h.hi)).2.mapCpu fun c =>
      { c with cycleCount := c.cycleCount + BitVec.ofNat 64 (c.sh.op.steps - 2) }
    cpuClocks (s.cpu.sh.op.steps - 1) s = .next ((busWrite addr value u).mapCpu fun _ =>
      s.cpu.poll.shsStack.shRan (s.cpu.sh.op.steps - 1) pc { h with active := false, step := h.step + 2 }) := by
  subst hread haddr hvalue
  intro u
  obtain ⟨k, hk⟩ := Nat.exists_eq_add_of_le' s.cpu.sh.op.three_le_steps
  rw [hk] at hrun ⊢
  let w := (s.latch h.hi).mapCpu (Cpu.shRan k pc h)
  let d := s.cpu.poll.shRan (k + 1) pc { h with step := h.step + 1 }
  have hdummy : cpuClock w = .next (u.mapCpu fun _ => d) := by
    rw [cpuClock_dummy (s := w) hactive hstep, busRead_mapCpu]
    exact congrArg (fun c => Host.Outcome.next (State.mapCpu u fun _ => c)) (Cpu.shRan_shRan k 1 pc pc h _ s.cpu.poll)
  have hcount : d.cycleCount = u.cpu.cycleCount := by
    rw [State.mapCpu_cpu, busRead_cpu, State.latch_cpu, hk]
    rfl
  have hwrite := cpuClock_writes (s := u.mapCpu fun _ => d) hactive hstep
  rw [busWrite_mapCpu _ _ _ _ hcount, State.mapCpu_mapCpu] at hwrite
  have hcpu : d.shsStack.shRan 1 pc { h with active := false, step := h.step + 2 } =
      s.cpu.poll.shsStack.shRan (k + 2) pc { h with active := false, step := h.step + 2 } := by
    rw [← Cpu.shRan_shRan (k + 1) 1 pc pc { h with step := h.step + 1 }, Cpu.shsStack_eq, Cpu.shsStack_eq]
    simp only [Cpu.shRan, Cpu.poll, d, hop]
    rfl
  calc
    cpuClocks (k + 2) s = cpuClocks 2 w := cpuClocks_add hrun 2
    _ = cpuClocks 1 (u.mapCpu fun _ => d) := cpuClocks_succ hdummy 1
    _ = _ := cpuClocks_succ hwrite 0
    _ = _ := congrArg (fun c => Host.Outcome.next (State.mapCpu _ fun _ => c)) hcpu

/-- Settles O37: the operand is read, then the un-carried address, and the write ends the store; each clock is one entry
of R401's table. -/
theorem unstableStoresRun : Obligations.UnstableStoresRun := by
  refine ⟨fun s b1 b2 hactive hs hclocks h1 h2 => ?run, fun s => ?clock⟩
  case run =>
    intro zp lo hi base idx raw ea value addr u
    obtain ⟨ptr, hoperand⟩ := cpuClocks_operand hactive hs h1 h2
    have hw : s.cpu.sh.op.steps - 1 + 1 = s.cpu.sh.op.steps :=
      Nat.sub_add_cancel (le_trans (by decide) s.cpu.sh.op.three_le_steps)
    let c : Cpu := { s.cpu with
      sh := { s.cpu.sh with step := s.cpu.sh.op.steps - 1, ptr := ptr, lo := lo, hi := hi } }
    have hea : c.shEa.ea = ea := c.shEa_ea
    have hvalue : c.shValue = value := c.shValue_eq
    have haddr : c.shAddr = addr := by
      rw [Cpu.shAddr_eq, hvalue, hea]
      simp only [addr, base, hiByte_mkWord]
      rfl
    have hread : c.shEa.uncarried = mkWord hi (loByte ea) := by rw [Cpu.shEa_uncarried, hea]
    have hstore := cpuClocks_store hoperand hactive hw rfl hread haddr hvalue
    rw [Cpu.shsStack_eq] at hstore
    have hreadOnly : ReadOnly s (busRead (mkWord hi (loByte ea)) (s.latch hi)).2 :=
      (ReadOnly.latch s hi).trans (busRead_readOnly _ _)
    exact ⟨_, hstore, rfl, Nat.sub_eq_zero_of_le hclocks.le, rfl, rfl, rfl, rfl, rfl, rfl, rfl, rfl, rfl, rfl,
      ⟨rfl, rfl, rfl, rfl, rfl⟩, fun sp i hi => (busWrite_frame _ _ _ sp i hi).trans (hreadOnly.sameMemory sp i),
      busWrite_stored addr value u⟩
  case clock =>
    intro h idx raw ea value addr polled does operand pointer dummy write
    have hea : s.cpu.shEa.ea = ea := s.cpu.shEa_ea
    have hvalue : s.cpu.shValue = value := s.cpu.shValue_eq
    have hdummy (hs : h.step + 1 = h.op.steps) : dummy := by
      have haddr : s.cpu.shEa.uncarried = mkWord h.hi (h.lo + idx) := by
        rw [Cpu.shEa_uncarried, hea, loByte_add_zext, loByte_mkWord]
      have hclock := shClock_dummy hs
      rwa [haddr] at hclock
    have hwrite (hs : h.step = h.op.steps) : write := by
      have hclock := shClock_writes hs
      rwa [Cpu.shAddr_eq, hvalue, hea, State.mapCpu_shsStack] at hclock
    refine ⟨fun hop => ?absolute, fun hop => ?zeroPage⟩
    case absolute =>
      have hw : h.op.steps = 5 := ShOp.steps_of_ne hop
      have hpoll {n : Nat} (hs : h.step = n) (hn : n < 4) : h.step + 1 ≠ h.op.steps := by rw [hs, hw]; omega
      obtain ⟨hlo, hhi, -⟩ := shStep_absolute hop
      exact ⟨fun hs => shClock_fetches (hpoll hs (by decide)) (hlo hs) fun _ _ => rfl,
        fun hs => shClock_fetches (hpoll hs (by decide)) (hhi hs) fun _ _ => rfl,
        fun hs => hdummy (by rw [hs, hw]), fun hs => hwrite (by rw [hs, hw])⟩
    case zeroPage =>
      have hw : h.op.steps = 6 := congrArg ShOp.steps hop
      have hpoll {n : Nat} (hs : h.step = n) (hn : n < 5) : h.step + 1 ≠ h.op.steps := by rw [hs, hw]; omega
      obtain ⟨hptr, hlo, hhi, -⟩ := shStep_zeroPage hop
      exact ⟨fun hs => shClock_fetches (hpoll hs (by decide)) (hptr hs) fun _ _ => rfl,
        fun hs => shClock_loads (hpoll hs (by decide)) (hlo hs) fun _ _ => rfl,
        fun hs => shClock_loads (hpoll hs (by decide)) (hhi hs) fun _ _ => rfl,
        fun hs => hdummy (by rw [hs, hw]), fun hs => hwrite (by rw [hs, hw])⟩

end Sys2Proof.Machine
end

section
/-! The bus (50_bus.md): what a read returns at each address, what a write does at each address, the controllers' bits and
the page that OAM DMA copies: O38, O39, O40 and O41. -/

namespace Sys2Proof.Machine

/-! ## Addresses below the cartridge -/

/-- The cartridge answers no read below 0x6000 (R485). -/
theorem State.cartAnswer_low (s : State) {a : Word} (ha : a.toNat < 0x6000) : s.cartAnswer a = none := by
  unfold State.cartAnswer
  cases s.cart with
  | none => rfl
  | some c => exact c.cpuRead_low ha

/-- A latch set to the value it holds changes nothing. -/
@[simp] theorem State.latch_openBus_self (s : State) : s.latch s.bus.openBus = s := rfl

/-- The three low bits of an address name a PPU register (R434). -/
theorem ppuReg_eq_ofNat (a : Word) : ppuReg a = BitVec.ofNat 3 (a.toNat % 8) := by
  apply BitVec.eq_of_toNat_eq
  simp [ppuReg]

/-! ## Controller ports -/

/-- The address at which a program reads a controller port (R447). -/
def portAddr (second : Bool) : Word := if second then 0x4017 else 0x4016

/-- A controller port by its number (R36). -/
def Bus.port (b : Bus) (second : Bool) : Port := if second then b.ctl1 else b.ctl0

/-- The bus with one controller port put in place. -/
def Bus.setPort (b : Bus) (second : Bool) (p : Port) : Bus :=
  if second then { b with ctl1 := p } else { b with ctl0 := p }

@[simp] theorem Bus.setPort_port (b : Bus) (second : Bool) (p : Port) : (b.setPort second p).port second = p := by
  cases second <;> rfl
@[simp] theorem Bus.setPort_ctlStrobe (b : Bus) (second : Bool) (p : Port) :
    (b.setPort second p).ctlStrobe = b.ctlStrobe := by
  cases second <;> rfl
@[simp] theorem State.latch_ctlStrobe (s : State) (v : Byte) : (s.latch v).bus.ctlStrobe = s.bus.ctlStrobe := rfl
@[simp] theorem State.latch_port (s : State) (v : Byte) (second : Bool) :
    (s.latch v).bus.port second = s.bus.port second := by
  cases second <;> rfl

/-- The byte a read of a port returns: the port's bit under the latch's bits 7:1 (R447). -/
def Bus.portByte (b : Bus) (second : Bool) : Byte :=
  (b.openBus &&& 0xFE) ||| boolByte ((b.port second).bitOut b.ctlStrobe)

/-- A read of a controller port returns its byte, shifts or reloads that port, and sets the latch (R438, R447). -/
theorem busRead_port (second : Bool) (s : State) :
    busRead (portAddr second) s = (s.bus.portByte second,
      ({ s with bus := s.bus.setPort second ((s.bus.port second).afterRead s.bus.ctlStrobe) } : State).latch
        (s.bus.portByte second)) := by
  have hstatus : portAddr second ≠ 0x4015 := by cases second <;> decide
  have hport : portAddr second = 0x4016 ∨ portAddr second = 0x4017 := by cases second <;> decide
  have hlow : (portAddr second).toNat < 0x6000 := by cases second <;> decide
  simp only [busRead, busAnswer, if_neg hstatus, s.cartAnswer_low hlow, if_pos hport]
  cases second <;> rfl

theorem Port.afterRead_eq (strobe : Bool) (p : Port) :
    p.afterRead strobe = { p with shift := if strobe then p.latch else (p.shift >>> 1) ||| 0x80 } := by
  cases strobe <;> rfl

theorem Bus.portByte_bit (b : Bus) (second : Bool) :
    (b.portByte second).getLsbD 0 = (b.port second).bitOut b.ctlStrobe := by
  unfold Bus.portByte boolByte
  cases (b.port second).bitOut b.ctlStrobe <;> simp

/-- A strobe write sets the strobe and reloads both ports if it is or was high (R448). -/
theorem Bus.controllerStrobe_eq (b : Bus) (v : Byte) :
    b.controllerStrobe v = { b with
      ctlStrobe := v.getLsbD 0
      ctl0 := { b.ctl0 with shift := if v.getLsbD 0 || b.ctlStrobe then b.ctl0.latch else b.ctl0.shift }
      ctl1 := { b.ctl1 with shift := if v.getLsbD 0 || b.ctlStrobe then b.ctl1.latch else b.ctl1.shift } } := by
  unfold Bus.controllerStrobe bit
  dsimp only
  cases v.getLsbD 0 || b.ctlStrobe <;> rfl

/-! ## Reads -/

theorem Cart.cpuRead_prgRam (c : Cart) {a : Word} (hlow : 0x6000 ≤ a.toNat) (hhigh : a.toNat ≤ 0x7FFF) :
    c.cpuRead a = some (if c.prgRamReadable then Memory.read c.prgRam (a.toNat - 0x6000) else 0) := by
  simp only [Cart.cpuRead, Cart.mapRead, if_neg (show ¬a.toNat < 0x6000 by omega),
    if_pos (show a.toNat < 0x8000 by omega)]
  cases c.prgRamReadable <;> rfl

theorem Cart.cpuRead_prgRom (c : Cart) {a : Word} (ha : 0x8000 ≤ a.toNat) :
    c.cpuRead a = some (Memory.read c.prgRom (c.prgRomOffset a.toNat)) := by
  simp only [Cart.cpuRead, Cart.mapRead, if_neg (show ¬a.toNat < 0x6000 by omega),
    if_neg (show ¬a.toNat < 0x8000 by omega)]

/-- A read the cartridge answers changes the latch alone (R433, R438). -/
theorem busRead_of_cpuRead {a : Word} {s : State} {c : Cart} {v : Byte} (hcart : s.cart = some c)
    (ha : 0x4020 ≤ a.toNat) (hv : c.cpuRead a = some v) : busRead a s = (v, s.latch v) := by
  simp [busRead, busAnswer_high s ha, State.cartAnswer, hcart, hv]

/-- With no cartridge nothing answers above the registers, and the read gives 0x00 (R436). -/
theorem busRead_absent {a : Word} {s : State} (hcart : s.cart = none) (ha : 0x4020 ≤ a.toNat) :
    busRead a s = (0, s.latch 0) := by
  simp [busRead, busAnswer_high s ha, State.cartAnswer, hcart]

/-- A read of a PPU register (R434). -/
theorem busRead_ppu {a : Word} (s : State) (hlow : 0x2000 ≤ a.toNat) (hhigh : a.toNat ≤ 0x3FFF) :
    busRead a s = ((s.ppu.regRead s.cart (ppuReg a)).1,
      ({ s with ppu := (s.ppu.regRead s.cart (ppuReg a)).2 } : State).latch (s.ppu.regRead s.cart (ppuReg a)).1) := by
  have hstatus : a ≠ 0x4015 := by rintro rfl; simp at hhigh
  have hport : ¬(a = 0x4016 ∨ a = 0x4017) := by rintro (rfl | rfl) <;> simp at hhigh
  simp only [busRead, busAnswer, if_neg hstatus, s.cartAnswer_low (show a.toNat < 0x6000 by omega), if_neg hport,
    if_neg (show ¬a.toNat ≤ 0x1FFF by omega), if_pos hhigh]

/-- An address of the register page that no device reads gives the latch and changes nothing (R431, R437). -/
theorem busRead_unread {a : Word} (s : State)
    (ha : (0x4000 ≤ a.toNat ∧ a.toNat ≤ 0x4014) ∨ (0x4018 ≤ a.toNat ∧ a.toNat ≤ 0x401F)) :
    busRead a s = (s.bus.openBus, s) := by
  have hstatus : a ≠ 0x4015 := by rintro rfl; simp at ha
  have hport : ¬(a = 0x4016 ∨ a = 0x4017) := by rintro (rfl | rfl) <;> simp at ha
  have hhigh : ¬(0x4020 ≤ a.toNat ∧ s.cart.isNone) := by omega
  simp only [busRead, busAnswer, if_neg hstatus, s.cartAnswer_low (show a.toNat < 0x6000 by omega), if_neg hport,
    if_neg (show ¬a.toNat ≤ 0x1FFF by omega), if_neg (show ¬a.toNat ≤ 0x3FFF by omega), if_neg hhigh,
    State.latch_openBus_self]

/-- Between the registers and 0x6000 a cartridge leaves the read to the latch (R437, R485). -/
theorem busRead_expansion {a : Word} {s : State} (hcart : s.cart ≠ none) (hlow : 0x4020 ≤ a.toNat)
    (hhigh : a.toNat ≤ 0x5FFF) : busRead a s = (s.bus.openBus, s) := by
  obtain ⟨c, hc⟩ := Option.ne_none_iff_exists'.mp hcart
  simp [busRead, busAnswer_high s hlow, s.cartAnswer_low (show a.toNat < 0x6000 by omega), hc]

/-- Settles O38: each arm of the read map by its own lemma; the latch, the CPU and the arrays from `ReadOnly`. -/
theorem busReadMap : Obligations.BusReadMap := by
  intro a s returns bit portByte after
  refine ⟨rfl, busRead_cpu a s, (busRead_readOnly a s).sameMemory, ?status, ?prgRam, ?prgRom, ?port0, ?port1, ?ram,
    ?ppu, ?absent, ?unread⟩
  case status => rintro rfl; rfl
  case prgRam => exact fun c hc hlow hhigh => busRead_of_cpuRead hc (by omega) (c.cpuRead_prgRam hlow hhigh)
  case prgRom => exact fun c hc ha => busRead_of_cpuRead hc (by omega) (c.cpuRead_prgRom ha)
  case port0 =>
    rintro rfl
    have hread := busRead_port false s
    rwa [Port.afterRead_eq] at hread
  case port1 =>
    rintro rfl
    have hread := busRead_port true s
    rwa [Port.afterRead_eq] at hread
  case ram => exact busRead_lowRam
  case ppu =>
    intro hlow hhigh
    have hread := busRead_ppu s hlow hhigh
    rwa [ppuReg_eq_ofNat] at hread
  case absent => exact busRead_absent
  case unread =>
    rintro (ha | ha | ⟨hcart, hlow, hhigh⟩)
    · exact busRead_unread s (.inl ha)
    · exact busRead_unread s (.inr ha)
    · exact busRead_expansion hcart hlow hhigh

/-! ## Writes -/

theorem apuOffered_iff (a : Word) :
    apuOffered a = true ↔ (0x4000 ≤ a.toNat ∧ a.toNat ≤ 0x4013) ∨ a = 0x4015 ∨ a = 0x4017 := by
  simp [apuOffered, or_assoc]

theorem State.offerApu_unoffered {s : State} {a : Word} (v : Byte) (ha : apuOffered a = false) :
    s.offerApu a v = s := by
  rw [State.offerApu, ha]
  rfl

/-- From 0x4000 on the bus itself takes the writes of 0x4014 and 0x4016 alone (R440). -/
theorem State.localWrite_unlisted (s : State) {a : Word} (v : Byte) (ha : 0x4000 ≤ a.toNat) (hdma : a ≠ 0x4014)
    (hstrobe : a ≠ 0x4016) : s.localWrite a v = s := by
  simp only [State.localWrite, if_neg (show ¬a.toNat ≤ 0x1FFF by omega), if_neg (show ¬a.toNat ≤ 0x3FFF by omega),
    if_neg hdma, if_neg hstrobe]

/-- Above the registers a write reaches the cartridge alone (R440). -/
theorem busWrite_high {a : Word} (v : Byte) (s : State) (ha : 0x4018 ≤ a.toNat) :
    busWrite a v s = (s.offerCart a v).latch v := by
  have hapu : apuOffered a = false := by
    rw [Bool.eq_false_iff, Ne, apuOffered_iff]
    rintro (h | rfl | rfl)
    · omega
    · simp at ha
    · simp at ha
  have hdma : a ≠ 0x4014 := by rintro rfl; simp at ha
  have hstrobe : a ≠ 0x4016 := by rintro rfl; simp at ha
  rw [busWrite, State.offerApu_unoffered v hapu, State.localWrite_unlisted _ v (by omega) hdma hstrobe]
  rfl

/-- A write of a PPU register (R440). -/
theorem busWrite_ppu {a : Word} (v : Byte) (s : State) (hlow : 0x2000 ≤ a.toNat) (hhigh : a.toNat ≤ 0x3FFF) :
    busWrite a v s = ({ s with
      cart := (s.ppu.regWrite s.cart (ppuReg a) v).1
      ppu := (s.ppu.regWrite s.cart (ppuReg a) v).2 } : State).latch v := by
  simp only [busWrite, State.offerApu_unoffered v (apuOffered_low (show a.toNat < 0x4000 by omega)),
    State.offerCart_low _ v (show a.toNat < 0x6000 by omega), State.localWrite,
    if_neg (show ¬a.toNat ≤ 0x1FFF by omega), if_pos hhigh]
  rfl

/-- A write the APU is offered reaches the APU alone (R440). -/
theorem busWrite_apu {a : Word} (v : Byte) (s : State)
    (ha : (0x4000 ≤ a.toNat ∧ a.toNat ≤ 0x4013) ∨ a = 0x4015 ∨ a = 0x4017) :
    busWrite a v s = ({ s with apu := s.apu.write s.params a v } : State).latch v := by
  have hrange : 0x4000 ≤ a.toNat ∧ a.toNat ≤ 0x4017 ∧ a ≠ 0x4014 ∧ a ≠ 0x4016 := by
    rcases ha with ⟨hlow, hhigh⟩ | rfl | rfl
    · exact ⟨hlow, by omega, by rintro rfl; simp at hhigh, by rintro rfl; simp at hhigh⟩
    · decide
    · decide
  obtain ⟨hlow, hhigh, hdma, hstrobe⟩ := hrange
  rw [busWrite, State.localWrite_unlisted _ v hlow hdma hstrobe, State.offerCart_low _ v (by omega), State.offerApu,
    if_pos ((apuOffered_iff a).mpr ha)]
  rfl

/-- A write of 0x4014 is the OAM DMA, made with the latch already set (R440, R451). -/
theorem busWrite_oamDma (v : Byte) (s : State) : busWrite 0x4014 v s = oamDma v (s.latch v) := by
  rw [busWrite, State.offerApu_unoffered v (by decide), State.offerCart_low _ v (by decide)]
  rfl

/-- A write of 0x4016 is the controller strobe (R440, R448). -/
theorem busWrite_strobe (v : Byte) (s : State) :
    busWrite 0x4016 v s = ({ s with bus := s.bus.controllerStrobe v } : State).latch v := by
  have hlatch : (s.latch v).bus.controllerStrobe v = { s.bus.controllerStrobe v with openBus := v } := by
    rw [Bus.controllerStrobe_eq, Bus.controllerStrobe_eq]
    rfl
  rw [busWrite, State.offerApu_unoffered v (by decide), State.offerCart_low _ v (by decide)]
  exact congrArg (fun bus => { s with bus := bus }) hlatch

/-- A cartridge write to the PRG-RAM window stores where the window takes writes (R486, R487, R515). -/
theorem Cart.cpuWrite_prgRamWindow (c : Cart) {a : Word} (v : Byte) (hlow : 0x6000 ≤ a.toNat)
    (hhigh : a.toNat ≤ 0x7FFF) :
    c.cpuWrite a v =
      if c.prgRamWritable then { c with prgRam := Memory.write c.prgRam (a.toNat - 0x6000) v } else c := by
  simp only [Cart.cpuWrite, Cart.mapWrite, if_neg (show ¬a.toNat < 0x6000 by omega),
    if_pos (show a.toNat < 0x8000 by omega), if_neg (show ¬0x8000 ≤ a.toNat by omega)]
  cases c.prgRamWritable <;> rfl

/-- After a write to work RAM the byte is read at the cell's four addresses, and the others read as before (R35, R434,
R440). -/
theorem busWrite_lowRam_reads {a b : Word} (v : Byte) (s : State) (ha : a.toNat ≤ 0x1FFF) (hb : b.toNat ≤ 0x1FFF) :
    (busRead b (busWrite a v s)).1 = if ramIndex a = ramIndex b then v else (busRead b s).1 := by
  rw [busRead_lowRam hb, busRead_lowRam hb, busWrite_lowRam v s ha]
  exact Memory.read_write _ _ _ _

/-- A write below the cartridge stores to no cell of PRG-RAM (R485). -/
theorem State.isPrgRamCell_low (s : State) {a : Word} (ha : a.toNat < 0x6000) (i : Nat) :
    s.isPrgRamCell a i = false := by
  unfold State.isPrgRamCell
  cases s.cart with
  | none => rfl
  | some c => simp [mapWrite_low c ha]

/-- A write to work RAM stores to no other cell of any array (R440). -/
theorem State.stores_lowRam (s : State) {a : Word} (ha : a.toNat ≤ 0x1FFF) {sp : Space} {i : Nat}
    (hcell : ¬(sp = .ram ∧ i = ramIndex a)) : s.stores a sp i = false := by
  have hppu : ∀ r, isPpuReg a r = false := fun r => by
    simp [isPpuReg, show ¬0x2000 ≤ a.toNat by omega]
  have hdma : a ≠ 0x4014 := by rintro rfl; simp at ha
  cases sp with
  | ram =>
    have hne : ramIndex a ≠ i := fun h => hcell ⟨rfl, h.symm⟩
    simp [State.stores, hne]
  | prgRam => exact s.isPrgRamCell_low (by omega) i
  | prgRom => rfl
  | chr => simp [State.stores, hppu]
  | nametable => simp [State.stores, hppu]
  | palette => simp [State.stores, hppu]
  | oam => simpa [State.stores, hppu] using hdma

/-- Settles O39: each arm of the write map by its own lemma; the reads back by the law of arrays. -/
theorem busWriteMapAndWorkRamMirrors : Obligations.BusWriteMapAndWorkRamMirrors := by
  refine ⟨fun a v s => ?map, fun a b v s ha hb => ?mirrors⟩
  case map =>
    intro writes reload port
    refine ⟨busWrite_lowRam v s, ?ppu, busWrite_apu v s, ?dma, ?strobe, ?prgRam, ?mapper, ?nothing⟩
    case ppu =>
      intro hlow hhigh
      have hwrite := busWrite_ppu v s hlow hhigh
      rwa [ppuReg_eq_ofNat] at hwrite
    case dma => rintro rfl; exact busWrite_oamDma v s
    case strobe =>
      rintro rfl
      have hwrite := busWrite_strobe v s
      rwa [Bus.controllerStrobe_eq] at hwrite
    case prgRam =>
      intro c hc hlow hhigh
      show busWrite a v s = _
      rw [busWrite_high v s (by omega), State.offerCart, hc, Option.map_some, c.cpuWrite_prgRamWindow v hlow hhigh]
    case mapper =>
      intro c hc ha
      show busWrite a v s = _
      rw [busWrite_high v s (by omega), State.offerCart, hc, Option.map_some]
    case nothing =>
      rintro (⟨hlow, hhigh⟩ | ⟨hcart, ha⟩)
      · rw [busWrite_high v s hlow, State.offerCart_low s v (by omega)]
      · rw [busWrite_high v s (by omega), State.offerCart, hcart, Option.map_none, ← hcart]
  case mirrors =>
    refine ⟨busWrite_lowRam_reads v s ha hb,
      fun sp i hcell => busWrite_frame a v s sp i (s.stores_lowRam ha hcell), ?_⟩
    rw [busWrite_lowRam v s ha]
    exact ⟨rfl, rfl, rfl, rfl, rfl, rfl⟩

/-! ## What a port shifts out -/

/-- A shift that lets a 1 in at bit 7 moves every bit one place down (R447). -/
theorem shiftIn_bit (x : Byte) (n : Nat) :
    (if n < 8 then (x >>> 1 ||| 0x80).getLsbD n else true) = if n + 1 < 8 then x.getLsbD (n + 1) else true := by
  rcases Nat.lt_trichotomy n 7 with hn | rfl | hn
  · have hbit : (0x80 : Byte).getLsbD n = false := by interval_cases n <;> rfl
    rw [if_pos (by omega), if_pos (by omega), BitVec.getLsbD_or, BitVec.getLsbD_ushiftRight, hbit, Bool.or_false,
      Nat.add_comm]
  · rw [if_pos (by omega), if_neg (by omega), BitVec.getLsbD_or]
    exact Bool.or_true _
  · rw [if_neg (by omega), if_neg (by omega)]

/-- With the strobe low, read number n of a port gives bit n of its shift register, and 1 from the ninth on
(R447, R449). -/
theorem afterReads_port_bit (second : Bool) (n : Nat) (s : State) (hstrobe : s.bus.ctlStrobe = false) :
    (busRead (portAddr second) (afterReads (portAddr second) n s)).1.getLsbD 0 =
      if n < 8 then (s.bus.port second).shift.getLsbD n else true := by
  induction n generalizing s with
  | zero =>
    rw [afterReads, busRead_port, Bus.portByte_bit, hstrobe]
    rfl
  | succ n ih =>
    have hnext : ((busRead (portAddr second) s).2.bus.port second).shift =
        (s.bus.port second).shift >>> 1 ||| 0x80 := by
      simp [busRead_port, hstrobe, Port.afterRead]
    have hlow : (busRead (portAddr second) s).2.bus.ctlStrobe = false := by simp [busRead_port, hstrobe]
    rw [afterReads, ih _ hlow, hnext, shiftIn_bit]

/-- After a strobe by 1 and then 0 the strobe is low and both ports hold their latches (R448). -/
theorem busWrite_strobed (s : State) {v w : Byte} (hv : v.getLsbD 0 = true) (hw : w.getLsbD 0 = false) (second : Bool) :
    (busWrite 0x4016 w (busWrite 0x4016 v s)).bus.ctlStrobe = false ∧
      ((busWrite 0x4016 w (busWrite 0x4016 v s)).bus.port second).shift = (s.bus.port second).latch := by
  simp only [busWrite_strobe, Bus.controllerStrobe_eq, hv, hw]
  cases second <;> exact ⟨rfl, rfl⟩

/-- Settles O40: both ports at once, by induction over the reads. -/
theorem controllersShiftOutTheirLatch : Obligations.ControllersShiftOutTheirLatch := by
  constructor
  · intro s v w n hv hw u
    have hport (second : Bool) : (busRead (portAddr second) (afterReads (portAddr second) n u)).1.getLsbD 0 =
        if n < 8 then (s.bus.port second).latch.getLsbD n else true := by
      obtain ⟨hstrobe, hshift⟩ := busWrite_strobed s hv hw second
      rw [afterReads_port_bit second n u hstrobe, hshift]
    exact ⟨hport false, hport true⟩
  · intro s n hstrobe
    have hport (second : Bool) (hzero : (s.bus.port second).shift = 0) :
        (busRead (portAddr second) (afterReads (portAddr second) n s)).1.getLsbD 0 = decide (8 ≤ n) := by
      rw [afterReads_port_bit second n s hstrobe, hzero]
      by_cases hn : n < 8
      · rw [if_pos hn, decide_eq_false (by omega)]
        exact BitVec.getLsbD_zero
      · rw [if_neg hn, decide_eq_true (by omega)]
    exact ⟨hport false, hport true⟩

/-! ## OAM DMA -/

/-- The state after one byte of the copy: the byte in OAM at the current address and on the latch (R451). -/
def State.dmaPut (s : State) (b : Byte) : State := { s.latch b with ppu := s.ppu.oamPut b }

@[simp] theorem State.dmaPut_ppu (s : State) (b : Byte) : (s.dmaPut b).ppu = s.ppu.oamPut b := rfl

/-- One byte of the copy from plain storage does nothing else (R451). -/
theorem oamDmaStep_storage {v b : Byte} {i : Nat} {s : State} (h : s.storage (mkWord v (BitVec.ofNat 8 i)) = some b) :
    oamDmaStep v i s = s.dmaPut b := by
  rw [oamDmaStep, busRead_storage h]
  rfl

theorem Ppu.oamPut_oamAddr_add (p : Ppu) (b i : Byte) : (p.oamPut b).oamAddr + (i - 1) = p.oamAddr + i := by
  show p.oamAddr + 1 + (i - 1) = _
  ring

/-- OAM after one byte is put, read relative to the address before it (R451, R568). -/
theorem Ppu.oamPut_read (p : Ppu) (b i : Byte) :
    Memory.read (p.oamPut b).oam (p.oamAddr + i).toNat =
      if i = 0 then b else Memory.read p.oam (p.oamAddr + i).toNat := by
  simp only [Ppu.oamPut, Memory.read_write, BitVec.toNat_inj, left_eq_add]

/-- What the copy of a page's last `n` bytes leaves where the page is plain storage (R451): the bytes in OAM from the
address on, the address moved past them, the last byte on the latch, and the APU as it was. -/
structure CopiesLast (page : Byte → Byte) (n : Nat) (s t : State) : Prop where
  oam : ∀ i : Byte, Memory.read t.ppu.oam (s.ppu.oamAddr + i).toNat =
    if i.toNat < n then page (i - BitVec.ofNat 8 n) else Memory.read s.ppu.oam (s.ppu.oamAddr + i).toNat
  oamAddr : t.ppu.oamAddr = s.ppu.oamAddr + BitVec.ofNat 8 n
  openBus : t.bus.openBus = if n = 0 then s.bus.openBus else page 255
  apu : t.apu = s.apu

theorem CopiesLast.refl (page : Byte → Byte) (s : State) : CopiesLast page 0 s s :=
  ⟨fun _ => rfl, (BitVec.add_zero _).symm, rfl, rfl⟩

/-- The byte before the last `n` of a page, put first, makes the last `n + 1`. -/
theorem CopiesLast.cons {page : Byte → Byte} {n : Nat} (hn : n < 256) {s t : State}
    (h : CopiesLast page n (s.dmaPut (page (BitVec.ofNat 8 (255 - n)))) t) : CopiesLast page (n + 1) s t where
  oam i := by
    have hoam := h.oam (i - 1)
    rw [State.dmaPut_ppu, Ppu.oamPut_oamAddr_add, Ppu.oamPut_read] at hoam
    rw [hoam]
    by_cases hi : i = 0
    · subst hi
      have hlast : ¬((0 : Byte) - 1).toNat < n := by bv_omega
      have hfirst : (0 : Byte) - BitVec.ofNat 8 (n + 1) = BitVec.ofNat 8 (255 - n) := by bv_omega
      rw [if_neg hlast, if_pos rfl, if_pos (show (0 : Byte).toNat < n + 1 from n.succ_pos), hfirst]
    · have hpred : (i - 1).toNat < n ↔ i.toNat < n + 1 := by bv_omega
      have hindex : i - 1 - BitVec.ofNat 8 n = i - BitVec.ofNat 8 (n + 1) := by bv_omega
      rw [if_neg hi, hindex]
      exact if_congr hpred rfl rfl
  oamAddr := by
    rw [h.oamAddr]
    show s.ppu.oamAddr + 1 + BitVec.ofNat 8 n = _
    bv_omega
  openBus := by
    rw [h.openBus, if_neg n.succ_ne_zero]
    split
    · next hzero => subst hzero; rfl
    · rfl
  apu := h.apu

/-- The copy of a page of plain storage (R451). -/
theorem oamDmaCopy_copiesLast {v : Byte} {page : Byte → Byte} {n : Nat} (hn : n ≤ 256) {s : State}
    (hpage : ∀ i, s.storage (mkWord v i) = some (page i)) : CopiesLast page n s (oamDmaCopy v n s) := by
  induction n generalizing s with
  | zero => exact .refl page s
  | succ n ih =>
    rw [oamDmaCopy, oamDmaStep_storage (hpage _)]
    exact .cons (by omega) (ih (by omega) hpage)

/-- The copy of a page stores to OAM alone (R451). -/
theorem State.stores_oamDma (s : State) {sp : Space} (hsp : sp ≠ .oam) (i : Nat) : s.stores 0x4014 sp i = false := by
  cases sp with
  | oam => exact absurd rfl hsp
  | prgRam => exact s.isPrgRamCell_low (by decide) i
  | _ => rfl

/-- Settles O41: the copy byte by byte, all 256 of them. -/
theorem oamDmaCopiesAPage : Obligations.OamDmaCopiesAPage := by
  intro v s page hpage t
  have hcopy : CopiesLast page 256 (s.latch v) (oamDmaCopy v 256 (s.latch v)) := oamDmaCopy_copiesLast le_rfl hpage
  have hcpu : (oamDmaCopy v 256 (s.latch v)).cpu = s.cpu := (oamDmaCopy_only v 256 (s.latch v)).cpu
  have hdma : t = oamDma v (s.latch v) := busWrite_oamDma v s
  refine ⟨fun i => ?oam, ?oamAddr, ?stall, busWrite_cpu _ _ _,
    fun sp i hsp => busWrite_frame _ _ _ sp i (s.stores_oamDma hsp i), ?openBus⟩
  case oam =>
    have hbyte := hcopy.oam i
    rw [if_pos i.isLt, show i - BitVec.ofNat 8 256 = i from BitVec.sub_zero i] at hbyte
    rw [hdma]
    exact hbyte
  case oamAddr =>
    rw [hdma]
    exact hcopy.oamAddr.trans (BitVec.add_zero _)
  case stall =>
    rw [hdma]
    show (oamDmaCopy v 256 (s.latch v)).apu.stallPending + oamDmaStall (oamDmaCopy v 256 (s.latch v)).cpu = _
    rw [hcopy.apu, hcpu]
    rfl
  case openBus => rw [hdma]; exact hcopy.openBus

end Sys2Proof.Machine
end

section
/-! The DMC (53_apu.md, R453): what the writes of its four registers set, what a fetch does and when it is made, and how
its stall cycles reach the CPU: O55. -/

namespace Sys2Proof.Machine

/-! ## The registers -/

/-- The low `n` bits of a byte as a number. -/
theorem field_zero_eq_ofNat (v : Byte) (n : Nat) : field v 0 n = BitVec.ofNat n (v.toNat % 2 ^ n) := by
  apply BitVec.eq_of_toNat_eq
  simp [field, BitVec.extractLsb'_toNat]

theorem Dmc.writeControl_eq (d : Dmc) (v : Byte) :
    d.writeControl v = { d with
      irqEnable := v.getLsbD 7, loop := v.getLsbD 6, rateIndex := BitVec.ofNat 4 (v.toNat % 16)
      irq := d.irq && v.getLsbD 7 } := by
  rw [Dmc.writeControl, field_zero_eq_ofNat]
  rfl

theorem Dmc.writeLevel_eq (d : Dmc) (v : Byte) :
    d.writeLevel v = { d with level := BitVec.ofNat 7 (v.toNat % 128) } := by
  rw [Dmc.writeLevel, field_zero_eq_ofNat]
  rfl

/-! ## A fetch -/

/-- A fetch that leaves bytes to fetch moves on to the next address (R707). -/
theorem Dmc.fetch_of_left {d : Dmc} (b : Byte) (h : d.bytesRemaining - 1 ≠ 0) :
    d.fetch b = { d with
      buffer := b, bufferEmpty := false, stallRequested := d.stallRequested + 4
      curAddr := if d.curAddr = 0xFFFF then 0x8000 else d.curAddr + 1
      bytesRemaining := d.bytesRemaining - 1 } := by
  simp only [Dmc.fetch, if_neg h]

/-- The fetch of the last byte of a looped sample starts it again (R707). -/
theorem Dmc.fetch_of_loop {d : Dmc} (b : Byte) (h : d.bytesRemaining - 1 = 0) (hloop : d.loop = true) :
    d.fetch b = { d with
      buffer := b, bufferEmpty := false, stallRequested := d.stallRequested + 4
      curAddr := d.sampleStart, bytesRemaining := d.sampleLength } := by
  simp only [Dmc.fetch, if_pos h, hloop, if_true, Dmc.restart]

/-- The fetch of the last byte of a sample that is not looped raises the IRQ if it is enabled (R707). -/
theorem Dmc.fetch_of_end {d : Dmc} (b : Byte) (h : d.bytesRemaining - 1 = 0) (hloop : d.loop = false) :
    d.fetch b = { d with
      buffer := b, bufferEmpty := false, stallRequested := d.stallRequested + 4
      curAddr := if d.curAddr = 0xFFFF then 0x8000 else d.curAddr + 1
      bytesRemaining := d.bytesRemaining - 1
      irq := d.irq || d.irqEnable } := by
  simp only [Dmc.fetch, if_pos h, hloop, Bool.false_eq_true, if_false]

/-- Every fetch fills the buffer and requests four stall cycles (R707). -/
theorem Dmc.fetch_fills (d : Dmc) (b : Byte) :
    (d.fetch b).buffer = b ∧ (d.fetch b).bufferEmpty = false ∧
      (d.fetch b).stallRequested = d.stallRequested + 4 := by
  by_cases h : d.bytesRemaining - 1 = 0
  · cases hloop : d.loop with
    | false => rw [Dmc.fetch_of_end b h hloop]; exact ⟨rfl, rfl, rfl⟩
    | true => rw [Dmc.fetch_of_loop b h hloop]; exact ⟨rfl, rfl, rfl⟩
  · rw [Dmc.fetch_of_left b h]; exact ⟨rfl, rfl, rfl⟩

/-- A fetch is made: the buffer is empty and bytes remain (R701). -/
abbrev Dmc.Fetches (d : Dmc) : Prop := d.bufferEmpty = true ∧ d.bytesRemaining ≠ 0

theorem Dmc.clock_of_fetches {d : Dmc} (k : Params) (c : Option Cart) (ram : Memory) (h : d.Fetches) :
    d.clock k c ram = (d.fetch (dmcRead c ram d.curAddr)).outputTick k := by
  rw [Dmc.clock, if_pos (by simpa [Dmc.Fetches] using h)]

theorem Dmc.clock_of_not_fetches {d : Dmc} (k : Params) (c : Option Cart) (ram : Memory) (h : ¬d.Fetches) :
    d.clock k c ram = d.outputTick k := by
  rw [Dmc.clock, if_neg (by simpa [Dmc.Fetches] using h)]

/-! ## The byte fetched -/

/-- The DMC's byte is the cartridge's where it answers (R453). -/
theorem dmcRead_of_cpuRead {c : Cart} {a : Word} {v : Byte} (ram : Memory) (h : c.cpuRead a = some v) :
    dmcRead (some c) ram a = v := by
  simp [dmcRead, h]

/-- Below the cartridge the DMC reads as with none (R453, R485). -/
theorem dmcRead_low (c : Cart) (ram : Memory) {a : Word} (ha : a.toNat ≤ 0x5FFF) :
    dmcRead (some c) ram a = dmcRead none ram a := by
  simp [dmcRead, c.cpuRead_low (show a.toNat < 0x6000 by omega)]

/-! ## Stall cycles -/

/-- The DMC and the stall already charged stay as they are. -/
def Apu.SameStall (u w : Apu) : Prop := w.dmc = u.dmc ∧ w.stallPending = u.stallPending

theorem Apu.SameStall.trans {u w x : Apu} (h : u.SameStall w) (k : w.SameStall x) : u.SameStall x :=
  ⟨k.1.trans h.1, k.2.trans h.2⟩

theorem Apu.fcActions_sameStall (u : Apu) (x : FcStep) : u.SameStall (u.fcActions x) := by
  obtain ⟨count, quarter, half, irq, reset⟩ := x
  cases quarter <;> cases half <;> cases irq <;> cases reset <;> exact ⟨rfl, rfl⟩

theorem Apu.frameCounterStep_sameStall (k : Params) (u : Apu) : u.SameStall (u.frameCounterStep k) := by
  unfold Apu.frameCounterStep
  dsimp only
  split
  · exact Apu.fcActions_sameStall { u with fcCount := u.fcCount + 1 } _
  · exact ⟨rfl, rfl⟩

theorem Apu.slowTimers_sameStall (k : Params) (u : Apu) : u.SameStall (u.slowTimers k) := by
  unfold Apu.slowTimers
  split <;> exact ⟨rfl, rfl⟩

theorem Apu.sampleStep_sameStall (k : Params) (u : Apu) : u.SameStall (u.sampleStep k) := by
  unfold Apu.sampleStep
  dsimp only
  split <;> exact ⟨rfl, rfl⟩

theorem Apu.toggleParity_sameStall (u : Apu) : u.SameStall u.toggleParity := by
  unfold Apu.toggleParity
  dsimp only
  split <;> exact ⟨rfl, rfl⟩

/-- The output unit requests no stall (R701). -/
@[simp] theorem Dmc.outputTick_stallRequested (k : Params) (d : Dmc) :
    (d.outputTick k).stallRequested = d.stallRequested := by
  unfold Dmc.outputTick
  dsimp only
  split
  · split
    · split <;> rfl
    · rfl
  · rfl

/-- A DMC clock requests four stall cycles where it fetches, and none where it does not (R701, R707). -/
theorem Dmc.clock_stallRequested (k : Params) (c : Option Cart) (ram : Memory) (d : Dmc) :
    (d.clock k c ram).stallRequested =
      d.stallRequested + if d.Fetches then 4 else 0 := by
  by_cases h : d.Fetches
  · obtain ⟨-, -, hstall⟩ := d.fetch_fills (dmcRead c ram d.curAddr)
    rw [Dmc.clock_of_fetches k c ram h, Dmc.outputTick_stallRequested, hstall, if_pos h]
  · rw [Dmc.clock_of_not_fetches k c ram h, Dmc.outputTick_stallRequested, if_neg h, Nat.add_zero]

/-- The APU as its DMC's clock finds it (R631). -/
def Apu.beforeDmc (k : Params) (u : Apu) : Apu :=
  Apu.slowTimers k { u.frameCounterStep k with triangle := (u.frameCounterStep k).triangle.timerTick }

theorem Apu.beforeDmc_sameStall (k : Params) (u : Apu) : u.SameStall (u.beforeDmc k) :=
  (u.frameCounterStep_sameStall k).trans (Apu.slowTimers_sameStall k { u.frameCounterStep k with triangle := _ })

/-- The APU once its DMC has had its clock (R631). -/
def Apu.dmcClocked (k : Params) (c : Option Cart) (ram : Memory) (u : Apu) : Apu :=
  { u.beforeDmc k with dmc := (u.beforeDmc k).dmc.clock k c ram }

theorem Apu.clock_eq (k : Params) (c : Option Cart) (ram : Memory) (u : Apu) :
    u.clock k c ram = ((u.dmcClocked k c ram).sampleStep k).toggleParity.handOffStall := rfl

/-- At the end of an APU clock the DMC's request has been added to the CPU's stall (R631, R709). -/
theorem Apu.clock_stallPending (k : Params) (c : Option Cart) (ram : Memory) (u : Apu) :
    (u.clock k c ram).stallPending = u.stallPending + (u.dmc.clock k c ram).stallRequested := by
  obtain ⟨hdmc, hpending⟩ := u.beforeDmc_sameStall k
  obtain ⟨hdmc', hpending'⟩ := ((u.dmcClocked k c ram).sampleStep_sameStall k).trans (Apu.toggleParity_sameStall _)
  rw [Apu.clock_eq, Apu.handOffStall, hdmc', hpending']
  show (u.beforeDmc k).stallPending + ((u.beforeDmc k).dmc.clock k c ram).stallRequested = _
  rw [hdmc, hpending]

/-- Settles O55: each register, each way a fetch ends, and the stall's way through an APU clock by its own lemma. -/
theorem dmcRegistersAndFetch : Obligations.DmcRegistersAndFetch := by
  refine ⟨fun k u v => ⟨?control, ?level, rfl, rfl⟩, fun d b => ?fetch, fun k c ram d => ?clock,
    fun c ram a => ?byte, fun k c ram u => ⟨rfl, ?stall⟩⟩
  case control => exact congrArg (fun d => { u with dmc := d }) (u.dmc.writeControl_eq v)
  case level => exact congrArg (fun d => { u with dmc := d }) (u.dmc.writeLevel_eq v)
  case fetch =>
    intro e left next
    obtain ⟨hbuffer, hempty, hstall⟩ := d.fetch_fills b
    refine ⟨hbuffer, hempty, hstall, fun h => ?_, fun h hloop => ?_, fun h hloop => ?_⟩
    · have he : e = _ := Dmc.fetch_of_left b h
      rw [he]
      exact ⟨rfl, rfl, rfl⟩
    · have he : e = _ := Dmc.fetch_of_loop b h hloop
      rw [he]
      exact ⟨rfl, rfl, rfl⟩
    · have he : e = _ := Dmc.fetch_of_end b h hloop
      rw [he]
      exact ⟨h, rfl, rfl⟩
  case clock =>
    exact ⟨fun hempty hleft => Dmc.clock_of_fetches k c ram ⟨hempty, hleft⟩, Dmc.clock_of_not_fetches k c ram⟩
  case byte =>
    exact ⟨fun ha => dmcRead_of_cpuRead ram (c.cpuRead_prgRom ha),
      fun hlow hhigh => dmcRead_of_cpuRead ram (c.cpuRead_prgRam hlow hhigh), dmcRead_low c ram, rfl⟩
  case stall => rw [Apu.clock_stallPending, Dmc.clock_stallRequested, Nat.add_assoc]

end Sys2Proof.Machine
end

section
/-! Cartridge mappers (51_cartridge_mappers.md): PRG-RAM through the bus, the offsets and the identifier of every mapper,
and what each mapper's register writes and bank windows are: O42, O43, O44 and O45. -/

namespace Sys2Proof.Machine

/-! ## The PRG-RAM window -/

/-- A read in the PRG-RAM window (R484, R487, R515). -/
theorem busRead_prgRamWindow {a : Word} {s : State} {c : Cart} (hcart : s.cart = some c) (hlow : 0x6000 ≤ a.toNat)
    (hhigh : a.toNat ≤ 0x7FFF) :
    (busRead a s).1 = if c.prgRamReadable then Memory.read c.prgRam (a.toNat - 0x6000) else 0 := by
  rw [busRead_of_cpuRead hcart (by omega) (c.cpuRead_prgRam hlow hhigh)]

/-- A write in the PRG-RAM window where it takes writes (R486, R487, R515). -/
theorem busWrite_prgRamWindow {a : Word} (v : Byte) {s : State} {c : Cart} (hcart : s.cart = some c)
    (hlow : 0x6000 ≤ a.toNat) (hhigh : a.toNat ≤ 0x7FFF) (hw : c.prgRamWritable = true) :
    busWrite a v s =
      ({ s with cart := some { c with prgRam := Memory.write c.prgRam (a.toNat - 0x6000) v } } : State).latch v := by
  rw [busWrite_high v s (by omega), State.offerCart, hcart, Option.map_some, c.cpuWrite_prgRamWindow v hlow hhigh,
    if_pos hw]

/-- A write in the PRG-RAM window where it takes none sets the latch alone (R486, R487, R515). -/
theorem busWrite_prgRamRefused {a : Word} (v : Byte) {s : State} {c : Cart} (hcart : s.cart = some c)
    (hlow : 0x6000 ≤ a.toNat) (hhigh : a.toNat ≤ 0x7FFF) (hw : c.prgRamWritable = false) :
    busWrite a v s = s.latch v := by
  rw [busWrite_high v s (by omega), State.offerCart, hcart, Option.map_some, c.cpuWrite_prgRamWindow v hlow hhigh,
    if_neg (by simp [hw]), ← hcart]

/-- A window that takes writes answers reads: mapper 4 needs its RAM enabled for both (R515). -/
theorem Cart.prgRamReadable_of_writable {c : Cart} (hw : c.prgRamWritable = true) : c.prgRamReadable = true := by
  unfold Cart.prgRamWritable at hw
  unfold Cart.prgRamReadable
  split at hw
  · exact (Bool.and_eq_true_iff.mp hw).1
  · rfl

/-- After a write that the window takes, its byte is read at its address and the rest of the window reads as before. -/
theorem busRead_busWrite_prgRamWindow {a b : Word} (v : Byte) {s : State} {c : Cart} (hcart : s.cart = some c)
    (halow : 0x6000 ≤ a.toNat) (hahigh : a.toNat ≤ 0x7FFF) (hblow : 0x6000 ≤ b.toNat) (hbhigh : b.toNat ≤ 0x7FFF)
    (hw : c.prgRamWritable = true) :
    (busRead b (busWrite a v s)).1 = if a = b then v else (busRead b s).1 := by
  have hr := Cart.prgRamReadable_of_writable hw
  have hcell : a.toNat - 0x6000 = b.toNat - 0x6000 ↔ a = b := by
    rw [← BitVec.toNat_inj]
    omega
  rw [busWrite_prgRamWindow v hcart halow hahigh hw, busRead_prgRamWindow rfl hblow hbhigh,
    busRead_prgRamWindow hcart hblow hbhigh, if_pos hr]
  refine (if_pos hr).trans ((Memory.read_write _ _ _ _).trans ?_)
  simp only [hcell]

/-- No bus write stores to CHR where CHR is ROM (R488). -/
theorem State.stores_chrRom {s : State} {c : Cart} (hcart : s.cart = some c) (hrom : c.chrIsRam = false) (a : Word)
    (i : Nat) : s.stores a .chr i = false := by
  simp [State.stores, State.isChrCell, hcart, hrom]

/-- Settles O42: the window by its own reads and writes, the ROMs because no bus write stores to them. -/
theorem prgRamKeepsWhatIsWritten : Obligations.PrgRamKeepsWhatIsWritten := by
  intro a v s c hcart
  refine ⟨fun hlow hhigh hw => ⟨?same, fun b hne hblow hbhigh => ?other⟩, fun hlow hhigh hw => ?refused,
    fun hlow hhigh hr => ?unreadable, fun i => busWrite_frame a v s .prgRom i rfl,
    fun hrom i => busWrite_frame a v s .chr i (State.stores_chrRom hcart hrom a i), fun r hm => ?mmc3, fun hm => ?rest⟩
  case same => rw [busRead_busWrite_prgRamWindow v hcart hlow hhigh hlow hhigh hw, if_pos rfl]
  case other => rw [busRead_busWrite_prgRamWindow v hcart hlow hhigh hblow hbhigh hw, if_neg hne.symm]
  case refused =>
    rw [busWrite_prgRamRefused v hcart hlow hhigh hw]
    exact (ReadOnly.latch s v).sameMemory
  case unreadable => rw [busRead_prgRamWindow hcart hlow hhigh, hr]; rfl
  case mmc3 => simp only [Cart.prgRamReadable, Cart.prgRamWritable, hm, and_self]
  case rest =>
    unfold Cart.prgRamReadable Cart.prgRamWritable
    split
    · next r h => exact absurd h (hm r)
    · exact ⟨rfl, rfl⟩

/-! ## Offsets inside the arrays, and the identifier byte -/

theorem Cart.prgFixed_lt {c : Cart} (hb : 0 < c.prgBanks) (a : Nat) : c.prgFixed a < c.prgBanks * 16384 :=
  Nat.mod_lt _ (by omega)

theorem Cart.prg16_lt {c : Cart} (hb : 0 < c.prgBanks) (bank a : Nat) : c.prg16 bank a < c.prgBanks * 16384 :=
  bank_lt (Nat.mod_lt _ hb) (Nat.mod_lt a (by decide))

theorem Cart.prg8_lt {c : Cart} (hb : 0 < c.prgBanks) (bank a : Nat) : c.prg8 bank a < c.prgBanks * 16384 := by
  have hnb8 : c.nb8 * 8192 = c.prgBanks * 16384 := by
    unfold Cart.nb8
    omega
  have hpos : 0 < c.nb8 := Nat.mul_pos (by decide) hb
  exact hnb8 ▸ bank_lt (Nat.mod_lt bank hpos) (Nat.mod_lt a (by decide))

/-- The mappers' PRG-ROM offsets lie inside PRG-ROM (R483, R490 to R511). -/
theorem Cart.prgRomOffset_lt {c : Cart} (hb : 0 < c.prgBanks) (a : Nat) : c.prgRomOffset a < c.prgBanks * 16384 := by
  unfold Cart.prgRomOffset
  split
  · exact prgFixed_lt hb a
  · exact prg16_lt hb _ a
  · split <;> exact prg16_lt hb _ a
  · exact prgFixed_lt hb a
  · exact prg8_lt hb _ a

theorem Mapper.id_le (m : Mapper) : m.id.toNat ≤ 4 := by
  cases m <;> simp [Mapper.id]

@[simp] theorem Mapper.reset_id (m : Mapper) : m.reset.id = m.id := by
  cases m <;> rfl

/-- A mirroring write changes the mirroring alone, and not even that for a FourScreen header (R61). -/
theorem Cart.setMirroring_eq (c : Cart) (m : Mirroring) : c.setMirroring m =
    { c with mirroring := if c.headerMirroring = .fourScreen then c.mirroring else m } := by
  unfold Cart.setMirroring
  split <;> rfl

@[simp] theorem Cart.setMirroring_mapper (c : Cart) (m : Mirroring) : (c.setMirroring m).mapper = c.mapper := by
  rw [setMirroring_eq]

theorem Cart.mmc1Write_mapperId (c : Cart) (r : Mmc1) (a : Word) (v : Byte) : (c.mmc1Write r a v).mapperId = 1 := by
  unfold Cart.mmc1Write Cart.mapperId
  dsimp only
  split
  · rfl
  split
  · split
    · rw [setMirroring_mapper]; rfl
    · rfl
    · rfl
    · rfl
  · rfl

theorem Cart.mmc3Write_mapperId {c : Cart} {r : Mmc3} (hm : c.mapper = .mmc3 r) (a : Word) (v : Byte) :
    (c.mmc3Write r a v).mapperId = 4 := by
  have hid : c.mapper.id = 4 := by rw [hm]; rfl
  unfold Cart.mmc3Write Cart.mapperId
  dsimp only
  split
  · split <;> rfl
  split
  · split
    · rfl
    · rw [setMirroring_mapper, hid]
  · exact hid

theorem Cart.registerWrite_mapperId (c : Cart) (a : Word) (v : Byte) : (c.registerWrite a v).mapperId = c.mapperId := by
  unfold Cart.registerWrite
  split
  · rfl
  · next r hm => rw [mmc1Write_mapperId, mapperId, hm]; rfl
  · next hm => rw [mapperId, mapperId, hm]; rfl
  · next hm => rw [mapperId, mapperId, hm]; rfl
  · next r hm => rw [mmc3Write_mapperId hm, mapperId, hm]; rfl

/-- Writes below 0x8000 and the stores to PRG-RAM leave the mapper alone; a register write keeps which mapper it is. -/
theorem Cart.cpuWrite_mapperId (c : Cart) (a : Word) (v : Byte) : (c.cpuWrite a v).mapperId = c.mapperId := by
  unfold Cart.cpuWrite
  dsimp only
  split
  · rw [registerWrite_mapperId]
    cases c.mapWrite a <;> rfl
  · cases c.mapWrite a <;> rfl

theorem cartPpuWrite_mapperId {c d : Cart} {a : Nat} {v : Byte} (h : cartPpuWrite (some c) a v = some d) :
    d.mapperId = c.mapperId := by
  obtain rfl := Option.some.inj h
  split <;> rfl

/-- The mapper an identifier names offers that identifier (R481, R483). -/
theorem imageMapper_id {id : Byte} {m : Mapper} (h : imageMapper id = some m) : m.id = id := by
  have hid : m.id.toNat = id.toNat := by
    unfold imageMapper at h
    split at h
    case h_6 => cases h
    all_goals
      next hn =>
      obtain rfl := Option.some.inj h
      exact hn.symm
  exact BitVec.eq_of_toNat_eq hid

/-- A created cartridge has the mapper its image names (R481, R482). -/
theorem createCart_mapper {image : List Byte} {prgRam chrRam : Memory} {d : Cart}
    (h : createCart image prgRam chrRam = .ok d) : imageMapper (imageMapperId image) = some d.mapper := by
  unfold createCart at h
  split at h
  · cases h
  split at h
  · cases h
  split at h
  · cases h
  split at h
  · cases h
  next hm =>
  split at h
  · cases h
  · obtain rfl := Except.ok.inj h
    exact hm

/-- Settles O43: the offsets by the bounds of the three kinds of window, the identifier by the mapper's constructor, which
no access changes. -/
theorem mapperOffsetsStayInside : Obligations.MapperOffsetsStayInside := by
  intro c hc
  obtain ⟨hbanks, -, -⟩ := Cart.ok_sizes hc
  exact ⟨fun a _ => Cart.prgRomOffset_lt hbanks a.toNat, fun a ha => Cart.chrOffset_lt hc ha, c.mapper.id_le,
    c.mapper.reset_id, c.cpuWrite_mapperId, fun a v d h => cartPpuWrite_mapperId h,
    fun image prgRam chrRam d h => imageMapper_id (createCart_mapper h)⟩

/-! ## Register writes -/

/-- A CPU write from 0x8000 on is a register write alone (R486). -/
theorem Cart.cpuWrite_register (c : Cart) {a : Word} (v : Byte) (ha : 0x8000 ≤ a.toNat) :
    c.cpuWrite a v = c.registerWrite a v := by
  simp only [Cart.cpuWrite, Cart.mapWrite, if_neg (show ¬a.toNat < 0x6000 by omega),
    if_neg (show ¬a.toNat < 0x8000 by omega), if_pos ha]

/-! ## Mapper 1's registers -/

/-- The shift register with bit 0 of a byte shifted in from the top (R497). -/
def mmc1ShiftIn (shift : BitVec 5) (v : Byte) : BitVec 5 := (shift >>> 1) ||| (if v.getLsbD 0 then 0x10 else 0)

/-- `mmc1ShiftIn` is what an MMC1 write makes of the shift register. -/
theorem mmc1ShiftIn_eq (shift : BitVec 5) (v : Byte) :
    (shift >>> 1) ||| ((field v 0 1).setWidth 5 <<< 4) = mmc1ShiftIn shift v := by
  have hbit : (field v 0 1).setWidth 5 <<< 4 = if v.getLsbD 0 then (0x10 : BitVec 5) else 0 := by
    have hfield : field v 0 1 = BitVec.ofBool (v.getLsbD 0) := by
      apply BitVec.eq_of_getLsbD_eq
      intro i hi
      obtain rfl : i = 0 := by omega
      simp [field]
    rw [hfield]
    cases v.getLsbD 0 <;> rfl
  rw [hbit, mmc1ShiftIn]

/-- The bit shifted in becomes bit 4 (R497). -/
theorem mmc1ShiftIn_top (shift : BitVec 5) (v : Byte) : (mmc1ShiftIn shift v).getLsbD 4 = v.getLsbD 0 := by
  rw [mmc1ShiftIn, BitVec.getLsbD_or, BitVec.getLsbD_ushiftRight, BitVec.getLsbD_of_ge shift (4 + 1) (by decide)]
  cases v.getLsbD 0 <;> rfl

/-- Every other bit moves down by one (R497). -/
theorem mmc1ShiftIn_below (shift : BitVec 5) (v : Byte) {k : Nat} (hk : k < 4) :
    (mmc1ShiftIn shift v).getLsbD k = shift.getLsbD (k + 1) := by
  have hzero : (if v.getLsbD 0 then (0x10 : BitVec 5) else 0).getLsbD k = false := by
    cases v.getLsbD 0 with
    | false => exact BitVec.getLsbD_zero
    | true =>
      show (BitVec.twoPow 5 4).getLsbD k = false
      rw [BitVec.getLsbD_twoPow, decide_eq_false (show ¬4 = k by omega), Bool.and_false]
  rw [mmc1ShiftIn, BitVec.getLsbD_or, BitVec.getLsbD_ushiftRight, hzero, Bool.or_false, Nat.add_comm]

/-- Five bytes fill the shift register: the first is bit 0, the fifth bit 4 (R497). -/
theorem foldl_mmc1ShiftIn_five (b0 b1 b2 b3 b4 : Byte) (shift : BitVec 5) {k : Nat} (hk : k < 5) :
    ([b0, b1, b2, b3, b4].foldl mmc1ShiftIn shift).getLsbD k = ([b0, b1, b2, b3, b4].getD k 0).getLsbD 0 := by
  simp only [List.foldl_cons, List.foldl_nil]
  interval_cases k <;>
    simp (disch := decide) only [mmc1ShiftIn_below, mmc1ShiftIn_top, Nat.reduceAdd, List.getD_cons_zero,
      List.getD_cons_succ]

/-- The cartridge with the shift register of its mapper 1 put in place. -/
def Cart.mmc1Shift (c : Cart) (r : Mmc1) (shift : BitVec 5) : Cart := { c with mapper := .mmc1 { r with shift := shift } }

/-- The cartridge once a full shift register has gone to the register that bits 14:13 of the address name (R497). -/
def Cart.mmc1Load (c : Cart) (r : Mmc1) (target : Nat) (value : BitVec 5) : Cart :=
  match target with
  | 0 => ({ c with mapper := .mmc1 { r with shift := 0x10, control := value } } : Cart).setMirroring (mmc1Mirroring value)
  | 1 => { c with mapper := .mmc1 { r with shift := 0x10, chrBank0 := value } }
  | 2 => { c with mapper := .mmc1 { r with shift := 0x10, chrBank1 := value } }
  | _ => { c with mapper := .mmc1 { r with shift := 0x10, prgBank := value } }

/-- The two mirroring bits of control, as the table of R496. -/
theorem mmc1Mirroring_eq : ∀ control : BitVec 5, mmc1Mirroring control =
    [Mirroring.oneScreenLower, .oneScreenUpper, .vertical, .horizontal].getD (control.toNat % 4) .horizontal := by
  decide

section Mmc1
variable {c : Cart} {r : Mmc1} {a : Word} {v : Byte}

/-- A register write of mapper 1 is `mmc1Write` (R486, R497). -/
theorem Cart.cpuWrite_mmc1 (hm : c.mapper = .mmc1 r) (ha : 0x8000 ≤ a.toNat) : c.cpuWrite a v = c.mmc1Write r a v := by
  simp only [c.cpuWrite_register v ha, Cart.registerWrite, hm]

/-- A write with bit 7 set (R497). -/
theorem Cart.cpuWrite_mmc1_reset (hm : c.mapper = .mmc1 r) (ha : 0x8000 ≤ a.toNat) (hv : v.getLsbD 7 = true) :
    c.cpuWrite a v = { c with mapper := .mmc1 { r with shift := 0x10, control := r.control ||| 0x0C } } := by
  rw [cpuWrite_mmc1 hm ha, mmc1Write, bit, if_pos hv]

/-- A write that does not fill the shift register (R497). -/
theorem Cart.cpuWrite_mmc1_shift (hm : c.mapper = .mmc1 r) (ha : 0x8000 ≤ a.toNat) (hv : v.getLsbD 7 = false)
    (hmarker : r.shift.getLsbD 0 = false) : c.cpuWrite a v = c.mmc1Shift r (mmc1ShiftIn r.shift v) := by
  simp only [cpuWrite_mmc1 hm ha, mmc1Write, bit, hv, hmarker, mmc1ShiftIn_eq, Bool.false_eq_true, if_false, mmc1Shift]

/-- A write that fills the shift register loads a register (R497). -/
theorem Cart.cpuWrite_mmc1_load (hm : c.mapper = .mmc1 r) (ha : 0x8000 ≤ a.toNat) (hv : v.getLsbD 7 = false)
    (hmarker : r.shift.getLsbD 0 = true) :
    c.cpuWrite a v = c.mmc1Load r (a.toNat / 0x2000 % 4) (mmc1ShiftIn r.shift v) := by
  have htarget : (a.extractLsb' 13 2).toNat = a.toNat / 0x2000 % 4 := by
    rw [BitVec.extractLsb'_toNat, Nat.shiftRight_eq_div_pow]
  simp only [cpuWrite_mmc1 hm ha, mmc1Write, bit, hv, hmarker, mmc1ShiftIn_eq, Bool.false_eq_true, if_false, if_true,
    htarget]
  rfl

/-- A full shift register that goes to control changes the rest of the cartridge in its mirroring alone (R496, R497). -/
theorem Cart.mmc1Load_control (c : Cart) (r : Mmc1) (value : BitVec 5) : c.mmc1Load r 0 value = { c with
    mapper := .mmc1 { r with shift := 0x10, control := value }
    mirroring := if c.headerMirroring = .fourScreen then c.mirroring else mmc1Mirroring value } :=
  setMirroring_eq _ _

end Mmc1

/-- While the marker bit is on its way, a write with bit 7 clear only shifts (R497). -/
theorem Cart.mmc1Shift_cpuWrite (c : Cart) (r : Mmc1) {shift : BitVec 5} {a : Word} {v : Byte} (ha : 0x8000 ≤ a.toNat)
    (hv : v.getLsbD 7 = false) (hmarker : shift.getLsbD 0 = false) :
    (c.mmc1Shift r shift).cpuWrite a v = c.mmc1Shift r (mmc1ShiftIn shift v) :=
  cpuWrite_mmc1_shift (r := { r with shift := shift }) rfl ha hv hmarker

/-- The fifth write with bit 7 clear, from 0xE000 up, loads the PRG bank (R497). -/
theorem Cart.mmc1Shift_cpuWrite_prgBank (c : Cart) (r : Mmc1) {shift : BitVec 5} {a : Word} {v : Byte}
    (ha : 0xE000 ≤ a.toNat) (hv : v.getLsbD 7 = false) (hmarker : shift.getLsbD 0 = true) :
    (c.mmc1Shift r shift).cpuWrite a v =
      { c with mapper := .mmc1 { r with shift := 0x10, prgBank := mmc1ShiftIn shift v } } := by
  have htarget : a.toNat / 0x2000 % 4 = 3 := by
    have := a.isLt
    omega
  rw [cpuWrite_mmc1_load rfl (by omega) hv hmarker, htarget]
  rfl

/-- Settles O44: one write by the shift register's marker bit; five writes move the marker from bit 4 to bit 0. -/
theorem mmc1LoadsAfterFiveWrites : Obligations.Mmc1LoadsAfterFiveWrites := by
  intro c r a v hm ha load d
  refine ⟨Cart.cpuWrite_mmc1_reset hm ha, Cart.cpuWrite_mmc1_shift hm ha, fun hv hmarker => ?load, ?five⟩
  case load =>
    have hd : d = c.mmc1Load r (a.toNat / 0x2000 % 4) load := Cart.cpuWrite_mmc1_load hm ha hv hmarker
    refine ⟨fun h => ?_, fun h => ?_, fun h => ?_, fun h => ?_⟩
    · rw [hd, h, ← mmc1Mirroring_eq, c.mmc1Load_control]
      exact ⟨rfl, rfl⟩
    all_goals
      rw [hd, h]
      rfl
  case five =>
    intro b0 b1 b2 b3 b4 a1 a2 a3 a4 hb hx hshift ha4
    simp only [List.forall_mem_cons] at hb hx
    obtain ⟨hb0, hb1, hb2, hb3, hb4, -⟩ := hb
    obtain ⟨ha1, ha2, ha3, -⟩ := hx
    have hc : c = c.mmc1Shift r 0x10 := by rw [Cart.mmc1Shift, ← hshift, ← hm]
    refine ⟨[b0, b1, b2, b3, b4].foldl mmc1ShiftIn 0x10, fun k hk => foldl_mmc1ShiftIn_five b0 b1 b2 b3 b4 _ hk, ?_⟩
    conv_lhs => rw [hc]
    rw [c.mmc1Shift_cpuWrite r ha hb0 rfl, c.mmc1Shift_cpuWrite r ha1 hb1 ?_, c.mmc1Shift_cpuWrite r ha2 hb2 ?_,
      c.mmc1Shift_cpuWrite r ha3 hb3 ?_, c.mmc1Shift_cpuWrite_prgBank r ha4 hb4 ?_]
    · rfl
    all_goals
      simp (disch := decide) only [mmc1ShiftIn_below, Nat.reduceAdd]
      rfl

/-! ## Mapper 1's windows -/

/-- The PRG mode is control's field of two bits from bit 2 up (R498). -/
theorem mmc1PrgMode_eq (control : BitVec 5) : (control.extractLsb' 2 2).toNat = control.toNat / 4 % 4 := by
  rw [BitVec.extractLsb'_toNat, Nat.shiftRight_eq_div_pow]

section Mmc1Windows
variable (c : Cart) (r : Mmc1) {a : Word}

/-- PRG modes 0 and 1: one 32 KiB bank (R498). -/
theorem Cart.mmc1Bank_switch32 (ha : 0x8000 ≤ a.toNat) (hmode : r.control.toNat / 4 % 4 < 2) :
    c.mmc1Bank r a.toNat = r.prgBank.toNat % 16 / 2 * 2 + (if a.toNat < 0xC000 then 0 else 1) := by
  have hhalf : a.toNat / 0x4000 % 2 = if a.toNat < 0xC000 then 0 else 1 := by
    have := a.isLt
    split <;> omega
  unfold Cart.mmc1Bank
  rw [mmc1PrgMode_eq, hhalf]
  split
  · omega
  · omega
  · rfl

/-- PRG mode 2: the first 16 KiB bank fixed below (R498). -/
theorem Cart.mmc1Bank_firstFixed (hmode : r.control.toNat / 4 % 4 = 2) :
    c.mmc1Bank r a.toNat = if a.toNat < 0xC000 then 0 else r.prgBank.toNat % 16 := by
  rw [mmc1Bank, mmc1PrgMode_eq, hmode]
  rfl

/-- PRG mode 3: the last 16 KiB bank fixed above (R498). -/
theorem Cart.mmc1Bank_lastFixed (hmode : r.control.toNat / 4 % 4 = 3) :
    c.mmc1Bank r a.toNat = if a.toNat < 0xC000 then r.prgBank.toNat % 16 else c.prgBanks - 1 := by
  rw [mmc1Bank, mmc1PrgMode_eq, hmode]
  rfl

end Mmc1Windows

/-- Bit 4 of control chooses one 8 KiB CHR bank or two of 4 KiB (R499). -/
theorem mmc1ChrBank_eq (r : Mmc1) {p : Nat} (hp : p < 0x2000) : mmc1ChrBank r p =
    if r.control.toNat < 16 then r.chrBank0.toNat / 2 * 2 + (if p < 0x1000 then 0 else 1)
    else if p < 0x1000 then r.chrBank0.toNat else r.chrBank1.toNat := by
  have hbit : r.control.getLsbD 4 = decide (16 ≤ r.control.toNat) := BitVec.msb_eq_decide r.control
  have hhalf : p / 0x1000 % 2 = if p < 0x1000 then 0 else 1 := by split <;> omega
  rw [mmc1ChrBank, hbit, hhalf]
  by_cases hmode : r.control.toNat < 16
  · rw [if_pos hmode, if_neg (by simpa using hmode)]
  · rw [if_neg hmode, if_pos (by simpa using hmode)]

/-! ## Mapper 4's registers and windows -/

section Mmc3
variable {c : Cart} {r : Mmc3} {a : Word} (v : Byte)

/-- A register write of mapper 4 is `mmc3Write` (R486, R510). -/
theorem Cart.cpuWrite_mmc3 (hm : c.mapper = .mmc3 r) (ha : 0x8000 ≤ a.toNat) : c.cpuWrite a v = c.mmc3Write r a v := by
  simp only [c.cpuWrite_register v ha, Cart.registerWrite, hm]

/-- An address is odd where its bit 0 is set (R510). -/
theorem getLsbD_zero_eq_odd (a : Word) : a.getLsbD 0 = decide (a.toNat % 2 = 1) := Nat.testBit_zero _

theorem vectorSet_eq_setIfInBounds {α : Type} {n k : Nat} (xs : Vector α n) (x : α) (hk : k < n) :
    xs.set k x hk = xs.setIfInBounds k x := by
  ext i hi
  simp [Vector.getElem_set, Vector.getElem_setIfInBounds]

/-- An even address below 0xA000 is bank select (R510). -/
theorem Cart.cpuWrite_mmc3_bankSelect (hm : c.mapper = .mmc3 r) (ha : 0x8000 ≤ a.toNat) (hhigh : a.toNat < 0xA000)
    (heven : decide (a.toNat % 2 = 1) = false) : c.cpuWrite a v = { c with mapper := .mmc3 { r with bankSelect := v } } := by
  rw [cpuWrite_mmc3 v hm ha, mmc3Write, getLsbD_zero_eq_odd, heven]
  exact if_pos hhigh

/-- An odd address below 0xA000 is bank data: it loads the bank register that bank select names (R510). -/
theorem Cart.cpuWrite_mmc3_bankData (hm : c.mapper = .mmc3 r) (ha : 0x8000 ≤ a.toNat) (hhigh : a.toNat < 0xA000)
    (hodd : decide (a.toNat % 2 = 1) = true) : c.cpuWrite a v =
      { c with mapper := .mmc3 { r with r := r.r.setIfInBounds (r.bankSelect.toNat % 8) v } } := by
  rw [cpuWrite_mmc3 v hm ha, mmc3Write, getLsbD_zero_eq_odd, hodd, ← vectorSet_eq_setIfInBounds r.r v (by omega)]
  exact if_pos hhigh

/-- An even address from 0xA000 to 0xBFFF is the mirroring (R512). -/
theorem Cart.cpuWrite_mmc3_mirroring (hm : c.mapper = .mmc3 r) (hlow : 0xA000 ≤ a.toNat) (hhigh : a.toNat < 0xC000)
    (heven : decide (a.toNat % 2 = 1) = false) : c.cpuWrite a v = { c with
      mirroring := if c.headerMirroring = .fourScreen then c.mirroring else if v.getLsbD 0 then .horizontal else .vertical } := by
  rw [cpuWrite_mmc3 v hm (by omega), mmc3Write, getLsbD_zero_eq_odd, heven, ← setMirroring_eq]
  exact (if_neg (by omega)).trans (if_pos hhigh)

/-- An odd address from 0xA000 to 0xBFFF is the PRG-RAM protection (R512). -/
theorem Cart.cpuWrite_mmc3_prgRam (hm : c.mapper = .mmc3 r) (hlow : 0xA000 ≤ a.toNat) (hhigh : a.toNat < 0xC000)
    (hodd : decide (a.toNat % 2 = 1) = true) : c.cpuWrite a v =
      { c with mapper := .mmc3 { r with prgRamEnable := v.getLsbD 7, prgRamWriteProtect := v.getLsbD 6 } } := by
  rw [cpuWrite_mmc3 v hm (by omega), mmc3Write, getLsbD_zero_eq_odd, hodd]
  exact (if_neg (by omega)).trans (if_pos hhigh)

/-- The IRQ registers from 0xC000 on do nothing (R514). -/
theorem Cart.cpuWrite_mmc3_irq (hm : c.mapper = .mmc3 r) (hlow : 0xC000 ≤ a.toNat) : c.cpuWrite a v = c := by
  rw [cpuWrite_mmc3 v hm (by omega), mmc3Write]
  exact (if_neg (by omega)).trans (if_neg (by omega))

end Mmc3

/-- The second bank of a doubled register. -/
theorem or_one_eq (n : Nat) : n ||| 1 = n / 2 * 2 + 1 := by
  have hdiv : (n ||| 1) / 2 = n / 2 := by rw [Nat.or_div_two]; exact Nat.or_zero _
  have hmod : (n ||| 1) % 2 = 1 := by simp [Nat.or_mod_two_eq_one]
  omega

/-- The CHR mode exchanges the two halves of the pattern tables (R513). -/
theorem mmc3ChrSlot_eq (mode : Bool) {p : Nat} (hp : p < 0x2000) :
    (if mode then (p / 0x400 % 8) ^^^ 4 else p / 0x400 % 8) = (p / 0x400 + (if mode then 4 else 0)) % 8 := by
  have hslot : p / 0x400 < 8 := by omega
  cases mode with
  | false => rfl
  | true =>
    generalize p / 0x400 = slot at hslot
    interval_cases slot <;> rfl

/-- The eight 1 KiB windows show R0 and R1 doubled and R2 to R5, from the slot the CHR mode gives (R513). -/
theorem mmc3ChrBank_eq (r : Mmc3) {p : Nat} (hp : p < 0x2000) : mmc3ChrBank r p =
    [r.reg 0 / 2 * 2, r.reg 0 / 2 * 2 + 1, r.reg 1 / 2 * 2, r.reg 1 / 2 * 2 + 1, r.reg 2, r.reg 3, r.reg 4, r.reg 5].getD
      ((p / 0x400 + (if r.bankSelect.getLsbD 7 then 4 else 0)) % 8) 0 := by
  rw [mmc3ChrBank, bit, mmc3ChrSlot_eq _ hp]
  have hslot := Nat.mod_lt (p / 0x400 + (if r.bankSelect.getLsbD 7 then 4 else 0)) (show 0 < 8 by decide)
  generalize (p / 0x400 + (if r.bankSelect.getLsbD 7 then 4 else 0)) % 8 = slot at hslot
  match slot, hslot with
  | 0, _ | 2, _ | 4, _ | 5, _ | 6, _ | 7, _ => rfl
  | 1, _ | 3, _ => exact or_one_eq _

/-! ## The windows of every mapper -/

/-- The field of the `n` lowest bits of a byte is its value modulo 2^n (R9). -/
theorem field_low_eq (v : Byte) (n : Nat) : field v 0 n = BitVec.ofNat n (v.toNat % 2 ^ n) := by
  apply BitVec.eq_of_toNat_eq
  rw [field, BitVec.extractLsb'_toNat, BitVec.toNat_ofNat, Nat.shiftRight_zero, Nat.mod_mod]

section Windows
variable {c : Cart} (a : Nat)

theorem Cart.prgRomOffset_nrom (hm : c.mapper = .nrom) : c.prgRomOffset a = c.prgFixed a := by
  rw [prgRomOffset, hm]

theorem Cart.prgRomOffset_cnrom {bank : Byte} (hm : c.mapper = .cnrom bank) : c.prgRomOffset a = c.prgFixed a := by
  rw [prgRomOffset, hm]

theorem Cart.prgRomOffset_uxrom {bank : BitVec 4} (hm : c.mapper = .uxrom bank) :
    c.prgRomOffset a = if a < 0xC000 then c.prg16 bank.toNat a else c.prg16 (c.prgBanks - 1) a := by
  rw [prgRomOffset, hm]

theorem Cart.prgRomOffset_mmc1 {r : Mmc1} (hm : c.mapper = .mmc1 r) :
    c.prgRomOffset a = c.prg16 (c.mmc1Bank r a) a := by
  rw [prgRomOffset, hm]

theorem Cart.prgRomOffset_mmc3 {r : Mmc3} (hm : c.mapper = .mmc3 r) :
    c.prgRomOffset a = c.prg8 (c.mmc3Bank r a) a := by
  rw [prgRomOffset, hm]

end Windows

/-- Settles O45: for each mapper its writes by one lemma a register, its windows by the bank each shows. -/
theorem bankWindowsOfMappers : Obligations.BankWindowsOfMappers := by
  intro c a v ha fixed show16
  refine ⟨fun hm => ?nrom, fun bank hm => ?uxrom, fun bank hm => ?cnrom, fun r hm => ?mmc1, fun r hm => ?mmc3⟩
  case nrom =>
    refine ⟨c.prgRomOffset_nrom _ hm, ?_, fun p => ?_, ?_⟩
    · rw [c.cpuWrite_register v ha, Cart.registerWrite, hm]
    · rw [Cart.chrOffset, hm]
    · rw [Cart.resetHook, hm]; rfl
  case uxrom =>
    refine ⟨?_, fun hlow => ?_, fun hhigh hbanks => ?_, fun p => ?_, ?_⟩
    · rw [c.cpuWrite_register v ha, Cart.registerWrite, hm]
      exact congrArg (fun bank => ({ c with mapper := .uxrom bank } : Cart)) (field_low_eq v 4)
    · exact (Cart.prgRomOffset_uxrom _ hm).trans (if_pos hlow)
    · rw [Cart.prgRomOffset_uxrom _ hm, if_neg (by omega), Cart.prg16, Nat.mod_eq_of_lt (by omega)]
    · rw [Cart.chrOffset, hm]
    · rw [Cart.resetHook, hm]; rfl
  case cnrom =>
    refine ⟨?_, Cart.prgRomOffset_cnrom _ hm, fun p _ => ?_, ?_⟩
    · rw [c.cpuWrite_register v ha, Cart.registerWrite, hm]
    · rw [Cart.chrOffset, hm]
    · rw [Cart.resetHook, hm]; rfl
  case mmc1 =>
    intro bank mode
    have hshow : ∀ {b}, c.mmc1Bank r a.toNat = b → show16 b := by
      rintro _ rfl
      exact Cart.prgRomOffset_mmc1 _ hm
    refine ⟨fun h => hshow (c.mmc1Bank_switch32 r ha h), fun h => hshow (c.mmc1Bank_firstFixed r h),
      fun h => hshow (c.mmc1Bank_lastFixed r h), fun p hp => ?_⟩
    simp only [Cart.chrOffset, hm, mmc1ChrBank_eq r hp]
  case mmc3 =>
    intro nb8 show8 mode odd
    have hshow : ∀ {b}, c.mmc3Bank r a.toNat = b → show8 b := by
      rintro _ rfl
      exact Cart.prgRomOffset_mmc3 _ hm
    refine ⟨fun h => hshow (if_pos h), fun hlow hhigh => hshow ?_, fun hlow hhigh => hshow ?_, fun hlow => hshow ?_,
      fun p hp => ?_, Cart.cpuWrite_mmc3_bankSelect v hm ha, Cart.cpuWrite_mmc3_bankData v hm ha,
      Cart.cpuWrite_mmc3_mirroring v hm, Cart.cpuWrite_mmc3_prgRam v hm, Cart.cpuWrite_mmc3_irq v hm⟩
    · exact (if_neg (by omega)).trans (if_pos hhigh)
    · exact (if_neg (by omega)).trans ((if_neg (by omega)).trans (if_pos hhigh))
    · exact (if_neg (by omega)).trans ((if_neg (by omega)).trans (if_neg (by omega)))
    · rw [Cart.chrOffset, hm]
      exact congrArg (fun bank => bank % (c.chrSize / 1024) * 1024 + p % 0x400) (mmc3ChrBank_eq r hp)

end Sys2Proof.Machine
end

section
/-! The PPU (52_ppu.md): its memories by region, the bits and effects of its registers through the reset protection, and the
flags that a tick raises and clears: O46, O47, O48, O49, O50 and O51. -/

namespace Sys2Proof.Machine

/-! ## Bits of the registers -/

/-- A bit put into a byte stands at its own place alone (R9). -/
theorem boolByte_shiftLeft_getLsbD (b : Bool) (n : Nat) {k : Nat} (hk : k < 8) :
    (boolByte b <<< n).getLsbD k = (decide (k = n) && b) := by
  cases b with
  | false => simp [boolByte]
  | true =>
    have htwoPow : (boolByte true <<< n : Byte) = BitVec.twoPow 8 n := (BitVec.twoPow_eq 8 n).symm
    rw [htwoPow, BitVec.getLsbD_twoPow, Bool.and_true, ← Bool.decide_and]
    exact decide_eq_decide.mpr (by omega)

/-- The bits of a field are those of the byte from its low end up (R9). -/
theorem field_getLsbD (v : Byte) (lo n : Nat) {k : Nat} (hk : k < n) : (field v lo n).getLsbD k = v.getLsbD (lo + k) := by
  rw [field, BitVec.getLsbD_extractLsb', decide_eq_true hk, Bool.true_and]

/-- A field put in place changes its own bits alone (R9). -/
theorem putField_getLsbD {w n : Nat} (v : BitVec w) (lo : Nat) (x : BitVec n) {k : Nat} (hk : k < w) :
    (putField v lo x).getLsbD k = if lo ≤ k ∧ k < lo + n then x.getLsbD (k - lo) else v.getLsbD k := by
  by_cases hlo : lo ≤ k
  · have hbelow : ¬k < lo := by omega
    by_cases hhi : k < lo + n
    · have hin : k - lo < n := by omega
      simp [putField, hk, hlo, hbelow, hhi, hin]
    · have hout : n ≤ k - lo := by omega
      simp [putField, hk, hhi, hout]
  · have hbelow : k < lo := by omega
    simp [putField, hk, hlo, hbelow]

/-! ## Memory by region -/

section Regions
variable (c : Option Cart) (p : Ppu) {a : BitVec 14}

theorem Ppu.read_pattern (ha : a.toNat < 0x2000) : p.read c a = cartPpuRead c a.toNat :=
  if_pos (Nat.le_of_lt_succ ha)

theorem Ppu.read_nametable (hlow : 0x2000 ≤ a.toNat) (hhigh : a.toNat < 0x3F00) :
    p.read c a = Memory.read p.ntRam (ntIndex (cartMirroring c) a.toNat) := by
  rw [read, if_neg (by omega), if_pos (by omega)]

theorem Ppu.read_palette (ha : 0x3F00 ≤ a.toNat) : p.read c a = (p.pal (palIndex a.toNat)).setWidth 8 := by
  rw [read, if_neg (by omega), if_neg (by omega)]

theorem Ppu.write_pattern (ha : a.toNat < 0x2000) (val : Byte) : p.write c a val = (cartPpuWrite c a.toNat val, p) :=
  if_pos (Nat.le_of_lt_succ ha)

theorem Ppu.write_nametable (hlow : 0x2000 ≤ a.toNat) (hhigh : a.toNat < 0x3F00) (val : Byte) :
    p.write c a val = (c, { p with ntRam := Memory.write p.ntRam (ntIndex (cartMirroring c) a.toNat) val }) := by
  rw [write, if_neg (by omega), if_pos (by omega)]

theorem Ppu.write_palette (ha : 0x3F00 ≤ a.toNat) (val : Byte) :
    p.write c a val = (c, p.setPal (palIndex a.toNat) (val.setWidth 6)) := by
  rw [write, if_neg (by omega), if_neg (by omega)]

/-- All a write can do: it may change the cartridge, the nametables and the palette, and of the PPU it looks at these two
memories alone (R557). -/
theorem Ppu.write_changes (a : BitVec 14) (val : Byte) : ∃ d ntRam palRam, ∀ q : Ppu, q.ntRam = p.ntRam →
    q.palRam = p.palRam → q.write c a val = (d, { q with ntRam := ntRam, palRam := palRam }) := by
  unfold write setPal
  split
  · exact ⟨_, p.ntRam, p.palRam, fun q hn hp => by rw [← hn, ← hp]⟩
  split
  · exact ⟨c, _, p.palRam, fun q hn hp => by rw [hn, ← hp]⟩
  · exact ⟨c, p.ntRam, _, fun q hn hp => by rw [← hn, hp]⟩

end Regions

theorem palIndex_mod (n : Nat) : palIndex n % 32 = palIndex n := Nat.mod_eq_of_lt (palIndex_lt n)

/-- A palette entry is read back at every alias of the index it was stored at (R551). -/
theorem Ppu.pal_setPal (p : Ppu) (m n : Nat) (e : BitVec 6) :
    (p.setPal (palIndex m) e).pal (palIndex n) = if palIndex m = palIndex n then e else p.pal (palIndex n) := by
  split
  case isTrue h => simp only [setPal, pal, h, Vector.getElem_set_self]
  case isFalse h => exact State.pal_set p _ _ e (by rwa [palIndex_mod, palIndex_mod])

/-- A byte kept as six bits reads as its low six (R556, R557). -/
theorem setWidth_six_eq (val : Byte) : (val.setWidth 6).setWidth 8 = val &&& 0x3F := by
  apply BitVec.eq_of_toNat_eq
  have hmask : (val &&& 0x3F).toNat = val.toNat % 64 := Nat.and_two_pow_sub_one_eq_mod val.toNat 6
  rw [hmask, BitVec.toNat_setWidth, BitVec.toNat_setWidth]
  omega

/-- Settles O48: each region's reads and writes by their own lemmas, and the law of arrays in each. -/
theorem paletteAliasesAndSixBits : Obligations.PaletteAliasesAndSixBits := by
  intro c p a b val w
  refine ⟨fun n => ?palIndex, fun ha hb => ?paletteBack, fun ha hb => ?paletteOther, fun ha ha' hb hb' => ?nametableBack,
    fun ha ha' hb => ?nametableOther, fun ha => p.write_pattern c ha val, p.read_pattern c, fun ha => ?sixBits,
    fun n => ?ntIndex, rfl, fun _ => rfl⟩
  case palIndex => simp only [palIndex, List.mem_cons, List.not_mem_nil, or_false]
  case paletteBack =>
    simp only [w, p.write_palette c ha, Ppu.read_palette c _ hb, Ppu.pal_setPal, true_and]
    split
    · exact setWidth_six_eq val
    · rfl
  case paletteOther =>
    have hnt : w.2.ntRam = p.ntRam := by simp only [w, p.write_palette c ha, Ppu.setPal]
    by_cases hb' : b.toNat < 0x2000
    · rw [Ppu.read_pattern c _ hb', Ppu.read_pattern c _ hb']
    · rw [Ppu.read_nametable c _ (by omega) hb, Ppu.read_nametable c _ (by omega) hb, hnt]
  case nametableBack =>
    simp only [w, p.write_nametable c ha ha', Ppu.read_nametable c _ hb hb', Memory.read_write, true_and]
  case nametableOther =>
    simp only [w, p.write_nametable c ha ha', Ppu.read_palette c _ hb, Ppu.pal]
  case sixBits =>
    rw [p.read_palette c ha, BitVec.toNat_setWidth]
    omega
  case ntIndex =>
    exact ⟨rfl, by rw [ntIndex, ntPage]; omega, by simp [ntIndex, ntPage], by simp [ntIndex, ntPage],
      by rw [ntIndex, ntPage]; omega⟩

/-! ## The status register -/

/-- The bits of the status byte: three flags over the latch's low five bits (R563). -/
theorem Ppu.statusByte_getLsbD (p : Ppu) {k : Nat} (hk : k < 8) :
    p.statusByte.getLsbD k =
      ((((decide (k = 7) && p.vblank) || (decide (k = 6) && p.sprite0Hit)) || (decide (k = 5) && p.spriteOverflow)) ||
        (p.openBus.getLsbD k && decide (k < 5))) := by
  have hmask : ∀ j < 8, (0x1F : Byte).getLsbD j = decide (j < 5) := by decide
  simp only [statusByte, BitVec.getLsbD_or, BitVec.getLsbD_and, boolByte_shiftLeft_getLsbD _ _ hk, hmask k hk]

/-- Settles O46: the read is the bus's read of PPU register 2, and the byte's bits are those of the status byte. -/
theorem ppuStatusRead : Obligations.PpuStatusRead := by
  intro a s hlow hhigh hreg p r
  have hr : r = (p.statusByte, ({ s with ppu := p.readStatus.2 } : State).latch p.statusByte) := by
    have hread := busRead_ppu s hlow hhigh
    rwa [ppuReg_eq_ofNat, hreg] at hread
  rw [hr]
  refine ⟨?_, ?_, ?_, fun k hk => ?_, rfl⟩
  · exact (p.statusByte_getLsbD (by decide)).trans (by simp)
  · exact (p.statusByte_getLsbD (by decide)).trans (by simp)
  · exact (p.statusByte_getLsbD (by decide)).trans (by simp)
  · have hne : k ≠ 7 ∧ k ≠ 6 ∧ k ≠ 5 := by omega
    exact (p.statusByte_getLsbD (by omega)).trans (by simp [hne, hk])

/-! ## What a register write does outside the protection -/

/-- The effect of a register write that is not ignored (R562). -/
def Ppu.regEffect (c : Option Cart) (p : Ppu) (val : Byte) : Nat → Option Cart × Ppu
  | 0 => (c, p.writeCtrl val)
  | 1 => (c, p.writeMask val)
  | 3 => (c, p.writeOamAddr val)
  | 4 => (c, p.oamPut val)
  | 5 => (c, p.writeScroll val)
  | 6 => (c, p.writeAddr val)
  | 7 => p.writeData c val
  | _ => (c, p)

/-- A register write refreshes the latch, and then has its effect unless the protection ignores it (R562). -/
theorem Ppu.regWrite_eq (c : Option Cart) (p : Ppu) (r : BitVec 3) (val : Byte) :
    p.regWrite c r val =
      if p.resetProtect && protectedReg r then (c, p.refresh val) else (p.refresh val).regEffect c val r.toNat := rfl

theorem Ppu.regWrite_ignored {p : Ppu} {r : BitVec 3} (hp : p.resetProtect = true) (hr : protectedReg r = true)
    (c : Option Cart) (val : Byte) : p.regWrite c r val = (c, p.refresh val) := by
  rw [regWrite_eq, hp, hr]
  rfl

theorem Ppu.regWrite_unignored {p : Ppu} {r : BitVec 3} (h : p.resetProtect = false ∨ protectedReg r = false)
    (c : Option Cart) (val : Byte) : p.regWrite c r val = (p.refresh val).regEffect c val r.toNat := by
  have hcond : (p.resetProtect && protectedReg r) = false := by
    rcases h with h | h <;> simp [h]
  rw [regWrite_eq, hcond]
  rfl

theorem protectedReg_iff (r : BitVec 3) : protectedReg r = true ↔ r = 0 ∨ r = 1 ∨ r = 5 ∨ r = 6 := by
  simp [protectedReg, or_assoc]

/-- Two PPUs with the same vblank flag, NMI latch and reset protection. -/
structure PpuSameFlags (p q : Ppu) : Prop where
  vblank : q.vblank = p.vblank
  nmiLatched : q.nmiLatched = p.nmiLatched
  resetProtect : q.resetProtect = p.resetProtect

theorem PpuSameFlags.refl (p : Ppu) : PpuSameFlags p p := ⟨rfl, rfl, rfl⟩

theorem PpuSameFlags.trans {p q r : Ppu} (h : PpuSameFlags p q) (k : PpuSameFlags q r) : PpuSameFlags p r :=
  ⟨k.vblank.trans h.vblank, k.nmiLatched.trans h.nmiLatched, k.resetProtect.trans h.resetProtect⟩

theorem Ppu.write_sameFlags (c : Option Cart) (p : Ppu) (a : BitVec 14) (val : Byte) :
    PpuSameFlags p (p.write c a val).2 := by
  obtain ⟨d, ntRam, palRam, hw⟩ := p.write_changes c a val
  rw [hw p rfl rfl]
  exact ⟨rfl, rfl, rfl⟩

theorem Ppu.refresh_sameFlags (p : Ppu) (val : Byte) : PpuSameFlags p (p.refresh val) := ⟨rfl, rfl, rfl⟩

/-- No effect of a register write sets or clears vblank, the NMI latch or the protection (R562). -/
theorem Ppu.regEffect_sameFlags (c : Option Cart) (p : Ppu) (val : Byte) (n : Nat) :
    PpuSameFlags p (p.regEffect c val n).2 := by
  unfold regEffect
  split
  · exact ⟨rfl, rfl, rfl⟩
  · exact ⟨rfl, rfl, rfl⟩
  · exact ⟨rfl, rfl, rfl⟩
  · exact ⟨rfl, rfl, rfl⟩
  · unfold writeScroll; split <;> exact ⟨rfl, rfl, rfl⟩
  · unfold writeAddr; split <;> exact ⟨rfl, rfl, rfl⟩
  · exact (write_sameFlags c p p.vAddr val).trans ⟨rfl, rfl, rfl⟩
  · exact PpuSameFlags.refl p

/-- A register write sets and clears none of these flags: an NMI is never generated by one (R548). -/
theorem Ppu.regWrite_sameFlags (c : Option Cart) (p : Ppu) (r : BitVec 3) (val : Byte) :
    PpuSameFlags p (p.regWrite c r val).2 := by
  rw [regWrite_eq]
  split
  · exact ⟨rfl, rfl, rfl⟩
  · exact (p.refresh_sameFlags val).trans (regEffect_sameFlags c (p.refresh val) val r.toNat)

/-- An effect does not look at the protection (R562). -/
theorem Ppu.regEffect_resetProtect (c : Option Cart) (p : Ppu) (val : Byte) (n : Nat) (b : Bool) :
    ({ p with resetProtect := b } : Ppu).regEffect c val n =
      ((p.regEffect c val n).1, { (p.regEffect c val n).2 with resetProtect := b }) := by
  match n with
  | 0 | 1 | 2 | 3 | 4 => rfl
  | 5 =>
    simp only [regEffect, writeScroll]
    split <;> rfl
  | 6 =>
    simp only [regEffect, writeAddr]
    split <;> rfl
  | 7 =>
    obtain ⟨d, ntRam, palRam, hw⟩ := p.write_changes c p.vAddr val
    show ({ p with resetProtect := b } : Ppu).writeData c val =
      ((p.writeData c val).1, { (p.writeData c val).2 with resetProtect := b })
    have hv : ({ p with resetProtect := b } : Ppu).vAddr = p.vAddr := rfl
    rw [writeData, writeData, hv, hw p rfl rfl, hw { p with resetProtect := b } rfl rfl]
    rfl
  | _ + 8 => rfl

/-! ## Scroll and address -/

/-- A field of a byte put in place (R9). -/
theorem putField_field_getLsbD {w : Nat} (v : BitVec w) (lo : Nat) (val : Byte) (src n : Nat) {k : Nat} (hk : k < w) :
    (putField v lo (field val src n)).getLsbD k =
      if lo ≤ k ∧ k < lo + n then val.getLsbD (src + (k - lo)) else v.getLsbD k := by
  rw [putField_getLsbD v lo _ hk]
  split
  case isTrue h => exact field_getLsbD val src n (by omega)
  case isFalse => rfl

/-- Bit by bit, `t` after a scroll write (R570). -/
theorem Ppu.writeScroll_t_getLsbD (p : Ppu) (val : Byte) {k : Nat} (hk : k < 15) :
    (p.writeScroll val).t.getLsbD k =
      if p.w then
        (if 5 ≤ k ∧ k < 10 then val.getLsbD (k - 2) else if 12 ≤ k then val.getLsbD (k - 12) else p.t.getLsbD k)
      else (if k < 5 then val.getLsbD (k + 3) else p.t.getLsbD k) := by
  unfold writeScroll
  cases p.w with
  | true =>
    show (putField (putField p.t 5 (field val 3 5)) 12 (field val 0 3)).getLsbD k = _
    rw [putField_field_getLsbD _ _ _ _ _ hk, putField_field_getLsbD _ _ _ _ _ hk]
    grind
  | false =>
    show (putField p.t 0 (field val 3 5)).getLsbD k = _
    rw [putField_field_getLsbD _ _ _ _ _ hk]
    grind

/-- Bit by bit, `t` after an address write (R571). -/
theorem Ppu.writeAddr_t_getLsbD (p : Ppu) (val : Byte) {k : Nat} (hk : k < 15) :
    (p.writeAddr val).t.getLsbD k =
      if p.w then (if k < 8 then val.getLsbD k else p.t.getLsbD k)
      else (if k < 8 then p.t.getLsbD k else if k < 14 then val.getLsbD (k - 8) else false) := by
  unfold writeAddr
  cases p.w with
  | true =>
    show (putField p.t 0 val).getLsbD k = _
    rw [putField_getLsbD _ _ _ hk]
    grind
  | false =>
    show (putField (putField p.t 8 (field val 0 6)) 14 (0 : BitVec 1)).getLsbD k = _
    have hzero : (0 : BitVec 1).getLsbD (k - 14) = false := BitVec.getLsbD_zero
    rw [putField_getLsbD _ _ _ hk, putField_field_getLsbD _ _ _ _ _ hk, hzero]
    grind

/-- A scroll write sets `t`, fine X with its first write alone, and the write latch (R570). -/
theorem Ppu.writeScroll_eq (p : Ppu) (val : Byte) :
    p.writeScroll val =
      { p with t := (p.writeScroll val).t, fineX := if p.w then p.fineX else field val 0 3, w := !p.w } := by
  unfold writeScroll
  cases p.w <;> rfl

/-- An address write sets `t`, with its second write `v` too, and the write latch (R571). -/
theorem Ppu.writeAddr_eq (p : Ppu) (val : Byte) :
    p.writeAddr val =
      { p with t := (p.writeAddr val).t, v := if p.w then (p.writeAddr val).t else p.v, w := !p.w } := by
  unfold writeAddr
  cases p.w <;> rfl

/-- Settles O49: the write is its effect on the refreshed PPU, and the bits are those of the fields put into `t`. -/
theorem scrollAndAddressWrites : Obligations.ScrollAndAddressWrites := by
  intro c p val hp q5 q6
  have h5 : p.regWrite c 5 val = (c, (p.refresh val).writeScroll val) := Ppu.regWrite_unignored (.inl hp) c val
  have h6 : p.regWrite c 6 val = (c, (p.refresh val).writeAddr val) := Ppu.regWrite_unignored (.inl hp) c val
  have hq5 : q5 = (p.refresh val).writeScroll val := congrArg Prod.snd h5
  have hq6 : q6 = (p.refresh val).writeAddr val := congrArg Prod.snd h6
  rw [hq5, hq6, h5, h6]
  refine ⟨rfl, rfl, fun k hk => (p.refresh val).writeScroll_t_getLsbD val hk, ?scroll,
    fun k hk => (p.refresh val).writeAddr_t_getLsbD val hk, ?address⟩
  case scroll =>
    have hfine : field val 0 3 = BitVec.ofNat 3 (val.toNat % 8) := field_low_eq val 3
    rw [← hfine]
    exact (p.refresh val).writeScroll_eq val
  case address => exact (p.refresh val).writeAddr_eq val

/-! ## The data port -/

/-- The advance of `v` on numbers (R569, R572). -/
theorem Ppu.advanceV_eq (p : Ppu) :
    p.advanceV = { p with v := BitVec.ofNat 15 (p.v.toNat + (if p.ctrl.getLsbD 2 then 32 else 1)) } := by
  have hv : p.v + (if bit p.ctrl 2 then 32 else 1) =
      BitVec.ofNat 15 (p.v.toNat + (if p.ctrl.getLsbD 2 then 32 else 1)) := by
    unfold bit
    cases p.ctrl.getLsbD 2 <;> simp [BitVec.ofNat_add]
  rw [advanceV, hv]

theorem Ppu.vAddr_eq_ofNat (p : Ppu) : p.vAddr = BitVec.ofNat 14 (p.v.toNat % 0x4000) := by
  apply BitVec.eq_of_toNat_eq
  simp [vAddr]

/-- The address under a palette address, on numbers (R569). -/
theorem underPalette_eq_ofNat {a : BitVec 14} (ha : 0x3F00 ≤ a.toNat) :
    a - 0x1000 = BitVec.ofNat 14 (a.toNat - 0x1000) := by
  have hle : (0x1000 : BitVec 14) ≤ a := le_trans (show (0x1000 : Nat) ≤ 0x3F00 by decide) ha
  have hsub : (a - 0x1000).toNat = a.toNat - 0x1000 := BitVec.toNat_sub_of_le hle
  rw [← hsub, BitVec.ofNat_toNat, BitVec.setWidth_eq]

/-- Below the palette a read of 0x2007 returns the buffer and refills it (R569). -/
theorem Ppu.readData_buffered (c : Option Cart) (p : Ppu) (ha : p.vAddr.toNat < 0x3F00) :
    p.readData c = (p.readBuffer, ({ p with readBuffer := p.read c p.vAddr } : Ppu).advanceV.refresh p.readBuffer) :=
  if_pos ha

/-- From the palette on a read of 0x2007 returns the palette's byte and refills the buffer from under it (R569). -/
theorem Ppu.readData_palette (c : Option Cart) (p : Ppu) (ha : 0x3F00 ≤ p.vAddr.toNat) :
    p.readData c = ((p.read c p.vAddr &&& 0x3F) ||| (p.openBus &&& 0xC0),
      ({ p with readBuffer := p.read c (p.vAddr - 0x1000) } : Ppu).advanceV.refresh
        ((p.read c p.vAddr &&& 0x3F) ||| (p.openBus &&& 0xC0))) :=
  if_neg (Nat.not_lt.mpr ha)

/-- Settles O47: the two reads by the address, and the write as the memory's, with `v` advanced and the latch set. -/
theorem ppuDataPort : Obligations.PpuDataPort := by
  intro c p val a v'
  have ha : p.vAddr = a := p.vAddr_eq_ofNat
  have hread : p.regRead c 7 = p.readData c := rfl
  have hwrite : p.regWrite c 7 val =
      ((p.write c a val).1, { (p.write c a val).2 with v := v', openBus := val, openBusAge := 0 }) := by
    obtain ⟨d, ntRam, palRam, hw⟩ := p.write_changes c a val
    have hv : (p.refresh val).vAddr = a := ha
    rw [Ppu.regWrite_data, Ppu.writeData, hv, hw p rfl rfl, hw (p.refresh val) rfl rfl, Ppu.advanceV_eq]
    rfl
  refine ⟨fun hlow => ?buffered, fun hhigh => ?palette, by rw [hwrite], by rw [hwrite]⟩
  case buffered =>
    rw [hread, p.readData_buffered c (by rwa [ha]), ha, Ppu.advanceV_eq, Ppu.refresh]
  case palette =>
    rw [hread, p.readData_palette c (by rwa [ha]), ha, underPalette_eq_ofNat hhigh, Ppu.advanceV_eq, Ppu.refresh]

/-! ## A tick -/

theorem Ppu.scanlineEvent_sameFlags (p : Ppu) : PpuSameFlags p p.scanlineEvent := by
  unfold scanlineEvent
  split <;> exact ⟨rfl, rfl, rfl⟩

theorem Ppu.pixelEvent_sameFlags (c : Option Cart) (p : Ppu) : PpuSameFlags p (p.pixelEvent c) := by
  unfold pixelEvent
  split <;> exact ⟨rfl, rfl, rfl⟩

theorem Ppu.decay_sameFlags (p : Ppu) : PpuSameFlags p p.decay := ⟨rfl, rfl, rfl⟩

theorem Ppu.advance_sameFlags (p : Ppu) : PpuSameFlags p p.advance := by
  unfold advance
  dsimp only
  split
  · split <;> exact ⟨rfl, rfl, rfl⟩
  · exact ⟨rfl, rfl, rfl⟩

/-- Only the events at (241, 1) and (261, 1) change the vblank flag, the NMI latch and the protection (R547, R548, R549). -/
theorem Ppu.tick_sameFlags (c : Option Cart) (p : Ppu) : PpuSameFlags p.vblankEvent.preRenderEvent (p.tick c) :=
  let u := p.vblankEvent.preRenderEvent
  (u.scanlineEvent_sameFlags.trans (u.scanlineEvent.pixelEvent_sameFlags c)).trans
    ((u.scanlineEvent.pixelEvent c).decay_sameFlags.trans (u.scanlineEvent.pixelEvent c).decay.advance_sameFlags)

/-- Off the two dots neither event changes anything (R547, R549). -/
theorem Ppu.events_elsewhere {p : Ppu} (hvblank : ¬(p.scanline = 241 ∧ p.dot = 1))
    (hpreRender : ¬(p.scanline = 261 ∧ p.dot = 1)) : p.vblankEvent.preRenderEvent = p := by
  rw [vblankEvent, if_neg hvblank, preRenderEvent, if_neg hpreRender]

/-- At (241, 1) the vblank flag is set, and the NMI latched if `ctrl` bit 7 is 1 (R547, R548). -/
theorem Ppu.events_vblank {p : Ppu} (hline : p.scanline = 241) (hdot : p.dot = 1) :
    p.vblankEvent.preRenderEvent = { p with vblank := true, nmiLatched := p.nmiLatched || bit p.ctrl 7 } := by
  rw [vblankEvent, if_pos ⟨hline, hdot⟩, preRenderEvent, if_neg (by simp [hline])]

/-- At (261, 1) the status flags and the protection are cleared (R549). -/
theorem Ppu.events_preRender {p : Ppu} (hline : p.scanline = 261) (hdot : p.dot = 1) :
    p.vblankEvent.preRenderEvent =
      { p with vblank := false, sprite0Hit := false, spriteOverflow := false, resetProtect := false } := by
  rw [vblankEvent, if_neg (by simp [hline]), preRenderEvent, if_pos ⟨hline, hdot⟩]

/-- The advance keeps the sprite flags (R541). -/
theorem Ppu.advance_spriteFlags (p : Ppu) :
    p.advance.sprite0Hit = p.sprite0Hit ∧ p.advance.spriteOverflow = p.spriteOverflow := by
  unfold advance
  dsimp only
  split
  · split <;> exact ⟨rfl, rfl⟩
  · exact ⟨rfl, rfl⟩

/-- Past the visible scanlines a tick changes the sprite flags by its events alone (R541). -/
theorem Ppu.tick_spriteFlags (c : Option Cart) {p : Ppu} (hline : 240 ≤ p.scanline) :
    (p.tick c).sprite0Hit = p.vblankEvent.preRenderEvent.sprite0Hit ∧
      (p.tick c).spriteOverflow = p.vblankEvent.preRenderEvent.spriteOverflow := by
  have hplace : ¬p.vblankEvent.preRenderEvent.scanline ≤ 239 := by
    rw [(p.vblankEvent_inPlace.trans p.vblankEvent.preRenderEvent_inPlace).scanline]
    omega
  have htick : p.tick c = p.vblankEvent.preRenderEvent.decay.advance := by
    rw [tick, scanlineEvent, if_neg (fun h => hplace h.1), pixelEvent, if_neg (fun h => hplace h.1)]
  rw [htick]
  exact p.vblankEvent.preRenderEvent.decay.advance_spriteFlags

/-- Settles O51: a tick has the flags its two events leave, and no register access has a part in the NMI latch. -/
theorem vblankAndNmiAtTheirDot : Obligations.VblankAndNmiAtTheirDot := by
  intro c p
  obtain ⟨hvblank, hnmi, hprotect⟩ := p.tick_sameFlags c
  refine ⟨fun hline hdot => ?vblank, fun hline hdot => ?preRender, fun hvb hpre => ?elsewhere, fun r v =>
    ⟨(p.regWrite_sameFlags c r v).nmiLatched, (p.regRead_quiet c r).nmiLatched⟩⟩
  case vblank =>
    rw [hvblank, hnmi, Ppu.events_vblank hline hdot]
    exact ⟨rfl, rfl⟩
  case preRender =>
    obtain ⟨hhit, hoverflow⟩ := Ppu.tick_spriteFlags c (p := p) (by omega)
    rw [hvblank, hhit, hoverflow, hprotect, hnmi, Ppu.events_preRender hline hdot]
    exact ⟨rfl, rfl, rfl, rfl, rfl⟩
  case elsewhere =>
    rw [hvblank, hnmi, hprotect, Ppu.events_elsewhere hvb hpre]
    exact ⟨rfl, rfl, rfl⟩

/-! ## Registers 0 to 4 and the protection -/

/-- A tick ends the protection at (261, 1) and never starts it (R549). -/
theorem Ppu.tick_resetProtect (c : Option Cart) (p : Ppu) :
    (p.tick c).resetProtect = (p.resetProtect && !(p.scanline == 261 && p.dot == 1)) := by
  rw [(p.tick_sameFlags c).resetProtect, preRenderEvent, p.vblankEvent_inPlace.scanline, p.vblankEvent_inPlace.dot]
  have hkeep : p.vblankEvent.resetProtect = p.resetProtect := by
    unfold vblankEvent
    split <;> rfl
  split
  case isTrue h => simp [h]
  case isFalse h =>
    have hplace : (p.scanline == 261 && p.dot == 1) = false := by simpa using h
    rw [hkeep, hplace, Bool.not_false, Bool.and_true]

/-- Bit by bit, `t` after a control write (R564). -/
theorem Ppu.writeCtrl_t_getLsbD (p : Ppu) (val : Byte) {k : Nat} (hk : k < 15) :
    (p.writeCtrl val).t.getLsbD k = if 10 ≤ k ∧ k < 12 then val.getLsbD (k - 10) else p.t.getLsbD k := by
  rw [writeCtrl, putField_field_getLsbD _ _ _ _ _ hk, Nat.zero_add]

/-- OAM after one byte is put (R568). -/
theorem Ppu.oamPut_oam_read (p : Ppu) (val : Byte) (i : Nat) :
    Memory.read (p.oamPut val).oam i = if i = p.oamAddr.toNat then val else Memory.read p.oam i := by
  rw [oamPut, Memory.read_write]
  exact if_congr eq_comm rfl rfl

/-- A read of any register but 2, 4 and 7 gives the latch and changes nothing (R561). -/
theorem Ppu.regRead_writeOnly (c : Option Cart) (p : Ppu) {r : BitVec 3} (h2 : r ≠ 2) (h4 : r ≠ 4) (h7 : r ≠ 7) :
    p.regRead c r = (p.openBus, p) := by
  unfold regRead
  split
  · next h => exact absurd (BitVec.eq_of_toNat_eq h) h2
  · next h => exact absurd (BitVec.eq_of_toNat_eq h) h4
  · next h => exact absurd (BitVec.eq_of_toNat_eq h) h7
  · rfl

/-- While the protection lasts a register outside it is written as after it (R562). -/
theorem Ppu.regWrite_protected {p : Ppu} {r : BitVec 3} (hp : p.resetProtect = true) (hr : protectedReg r = false)
    (c : Option Cart) (val : Byte) :
    p.regWrite c r val = ((({ p with resetProtect := false } : Ppu).regWrite c r val).1,
      { (({ p with resetProtect := false } : Ppu).regWrite c r val).2 with resetProtect := true }) := by
  have hq : p.refresh val = { ({ p with resetProtect := false } : Ppu).refresh val with resetProtect := true } := by
    rw [← hp]
    rfl
  rw [regWrite_unignored (.inr hr), regWrite_unignored (.inr hr), hq, regEffect_resetProtect]

/-- Settles O50: a write is ignored or has its register's effect, and the accesses and ticks keep or end the protection. -/
theorem ppuRegisterWritesAndResetProtection : Obligations.PpuRegisterWritesAndResetProtection := by
  intro c p val r q0 q4 oamByte
  have hq4 : q4 = (p.refresh val).oamPut val := congrArg Prod.snd (p.regWrite_oam c val)
  refine ⟨fun hp => ⟨fun hr => ?ignored, fun hr => ?unignored⟩, fun hp => ?ctrlMask,
    Ppu.regWrite_unignored (.inr rfl) c val, Ppu.regWrite_unignored (.inr rfl) c val, ?oamCart, ?oamPpu, ?oamBytes,
    rfl, p.regRead_writeOnly c, (p.regWrite_sameFlags c r val).resetProtect, (p.regRead_quiet c r).resetProtect,
    p.tick_resetProtect c⟩
  case ignored => exact Ppu.regWrite_ignored hp ((protectedReg_iff r).mpr hr) c val
  case unignored =>
    exact Ppu.regWrite_protected hp (Bool.eq_false_iff.mpr fun h => hr ((protectedReg_iff r).mp h)) c val
  case ctrlMask =>
    have h0 : p.regWrite c 0 val = (c, (p.refresh val).writeCtrl val) := Ppu.regWrite_unignored (.inl hp) c val
    have hq0 : q0 = (p.refresh val).writeCtrl val := congrArg Prod.snd h0
    rw [h0, hq0]
    exact ⟨rfl, rfl, fun k hk => (p.refresh val).writeCtrl_t_getLsbD val hk, Ppu.regWrite_unignored (.inl hp) c val⟩
  case oamCart => rw [Ppu.regWrite_oam]
  case oamPpu =>
    have hnext : p.oamAddr + 1 = BitVec.ofNat 8 (p.oamAddr.toNat + 1) := by simp [BitVec.ofNat_add]
    rw [← hnext, hq4]
    rfl
  case oamBytes =>
    rw [hq4]
    exact (p.refresh val).oamPut_oam_read val

end Sys2Proof.Machine
end

section
/-! The APU (53_apu.md): the status read and the writes of the channels' registers through the CPU bus, the frame counter
by its list, and one APU clock: O53 and O54. -/

namespace Sys2Proof.Machine

/-! ## Fields of a written byte -/

/-- A field of a byte as a number (R9). -/
theorem field_eq_ofNat (v : Byte) (lo n : Nat) : field v lo n = BitVec.ofNat n (v.toNat / 2 ^ lo) := by
  apply BitVec.eq_of_toNat_eq
  simp [field, BitVec.extractLsb'_toNat, Nat.shiftRight_eq_div_pow]

/-- A register's low bits replaced: the new bits under the old high part (R9). -/
theorem putField_zero_eq_ofNat {w n : Nat} (t : BitVec w) (x : BitVec n) :
    putField t 0 x = BitVec.ofNat w (t.toNat / 2 ^ n * 2 ^ n + x.toNat) := by
  apply BitVec.eq_of_getLsbD_eq
  intro i hi
  rw [putField_getLsbD t 0 x hi, BitVec.getLsbD_ofNat, decide_eq_true hi, Bool.true_and, Nat.mul_comm,
    Nat.testBit_two_pow_mul_add _ x.isLt]
  split <;> split
  · rfl
  · omega
  · omega
  · rw [Nat.testBit_div_two_pow, Nat.sub_add_cancel (by omega)]
    rfl

/-- A register's high bits replaced: the new bits over the old low part (R9). -/
theorem putField_top_eq_ofNat {w n : Nat} (t : BitVec w) (lo : Nat) (x : BitVec n) (hw : w = lo + n) :
    putField t lo x = BitVec.ofNat w (x.toNat * 2 ^ lo + t.toNat % 2 ^ lo) := by
  apply BitVec.eq_of_getLsbD_eq
  intro i hi
  rw [putField_getLsbD t lo x hi, BitVec.getLsbD_ofNat, decide_eq_true hi, Bool.true_and, Nat.mul_comm,
    Nat.testBit_two_pow_mul_add _ (Nat.mod_lt _ (Nat.two_pow_pos lo))]
  split <;> split
  · omega
  · rfl
  · rw [Nat.testBit_mod_two_pow, decide_eq_true ‹i < lo›]
    rfl
  · omega

/-- A write of the low byte of a timer's reload (R635, R639). -/
theorem putField_timerLow (t : BitVec 11) (v : Byte) :
    putField t 0 v = BitVec.ofNat 11 (t.toNat / 256 * 256 + v.toNat) := putField_zero_eq_ofNat t v

/-- A write of the high bits of a timer's reload (R637, R639). -/
theorem putField_timerHigh (t : BitVec 11) (v : Byte) :
    putField t 8 (field v 0 3) = BitVec.ofNat 11 (v.toNat % 8 * 256 + t.toNat % 256) := by
  have hfield : (field v 0 3).toNat = v.toNat % 8 := by simp [field_low_eq]
  rw [putField_top_eq_ofNat t 8 _ rfl, hfield]
  rfl

/-- LENGTH_TABLE is indexed by the top five bits (R660). -/
theorem lengthOf_eq_getD (k : Params) (v : Byte) : lengthOf k v = k.lengthTable.toList.getD (v.toNat / 8) 0 := by
  have hindex : (field v 3 5).toNat = v.toNat / 8 := by
    rw [field_eq_ofNat, BitVec.toNat_ofNat]
    omega
  have hlt : v.toNat / 8 < k.lengthTable.toList.length := by
    rw [Vector.length_toList]
    omega
  rw [List.getD_eq_getElem _ _ hlt, Vector.getElem_toList]
  simp only [lengthOf, Vector.get_eq_getElem, ← hindex]
  rfl

/-! ## The status read -/

theorem bne_zero_eq_decide {n : Nat} (x : BitVec n) : (x != 0) = decide (0 < x.toNat) := by
  rw [Bool.eq_iff_iff, bne_iff_ne, decide_eq_true_eq, Nat.pos_iff_ne_zero, ne_eq, ne_eq, BitVec.toNat_eq]
  rfl

/-- The bits of the status byte (R636). -/
theorem Apu.readStatus_getLsbD (u : Apu) (latch : Byte) {k : Nat} (hk : k < 8) :
    (u.readStatus latch).1.getLsbD k =
      ((((((((decide (k = 0) && decide (0 < u.pulse1.length.toNat)) ||
        (decide (k = 1) && decide (0 < u.pulse2.length.toNat))) ||
        (decide (k = 2) && decide (0 < u.triangle.length.toNat))) ||
        (decide (k = 3) && decide (0 < u.noise.length.toNat))) ||
        (decide (k = 4) && decide (0 < u.dmc.bytesRemaining.toNat))) ||
        (latch.getLsbD k && decide (k = 5))) ||
        (decide (k = 6) && u.frameIrq)) ||
        (decide (k = 7) && u.dmc.irq)) := by
  have hmask : ∀ j < 8, ((0x20 : Nat) : Byte).getLsbD j = decide (j = 5) := by decide
  have hfirst : ∀ b, (boolByte b).getLsbD k = (decide (k = 0) && b) := fun b => by
    rw [← boolByte_shiftLeft_getLsbD b 0 hk, BitVec.shiftLeft_zero]
  simp only [readStatus, BitVec.getLsbD_or, BitVec.getLsbD_and, boolByte_shiftLeft_getLsbD _ _ hk, hfirst, hmask k hk,
    bne_zero_eq_decide]

/-- A read of the status register returns its byte, clears the frame IRQ and sets the latch (R438, R636). -/
theorem busRead_apuStatus (s : State) :
    busRead 0x4015 s = ((s.apu.readStatus s.bus.openBus).1,
      ({ s with apu := { s.apu with frameIrq := false } } : State).latch (s.apu.readStatus s.bus.openBus).1) := rfl

/-! ## The channels' registers -/

theorem Pulse.writeControl_eq (p : Pulse) (v : Byte) :
    p.writeControl v = { p with
      duty := BitVec.ofNat 2 (v.toNat / 64), halt := v.getLsbD 5, constVol := v.getLsbD 4
      volPeriod := BitVec.ofNat 4 (v.toNat % 16) } := by
  rw [writeControl, field_eq_ofNat, field_low_eq]
  rfl

theorem Pulse.writeSweep_eq (p : Pulse) (v : Byte) :
    p.writeSweep v = { p with sweep := {
      enabled := v.getLsbD 7, period := BitVec.ofNat 3 (v.toNat / 16 % 8), negate := v.getLsbD 3
      shift := BitVec.ofNat 3 (v.toNat % 8), divider := p.sweep.divider, reload := true } } := by
  have hperiod : field v 4 3 = BitVec.ofNat 3 (v.toNat / 16 % 8) := by
    rw [field_eq_ofNat]
    apply BitVec.eq_of_toNat_eq
    simp
  rw [writeSweep, hperiod, field_low_eq]
  rfl

theorem Pulse.writeTimerLow_eq (p : Pulse) (v : Byte) :
    p.writeTimerLow v =
      { p with timerReload := BitVec.ofNat 11 (p.timerReload.toNat / 256 * 256 + v.toNat) } := by
  rw [writeTimerLow, putField_timerLow]

theorem Pulse.writeTimerHigh_eq (k : Params) (p : Pulse) (v : Byte) :
    p.writeTimerHigh k v = { p with
      timerReload := BitVec.ofNat 11 (v.toNat % 8 * 256 + p.timerReload.toNat % 256)
      length := if p.enabled then k.lengthTable.toList.getD (v.toNat / 8) 0 else p.length
      seqStep := 0
      envelope := { p.envelope with start := true } } := by
  rw [writeTimerHigh, putField_timerHigh, lengthOf_eq_getD]

theorem Triangle.writeLinear_eq (t : Triangle) (v : Byte) :
    t.writeLinear v =
      { t with control := v.getLsbD 7, linearReloadValue := BitVec.ofNat 7 (v.toNat % 128) } := by
  rw [writeLinear, field_low_eq]
  rfl

theorem Triangle.writeTimerLow_eq (t : Triangle) (v : Byte) :
    t.writeTimerLow v =
      { t with timerReload := BitVec.ofNat 11 (t.timerReload.toNat / 256 * 256 + v.toNat) } := by
  rw [writeTimerLow, putField_timerLow]

theorem Triangle.writeTimerHigh_eq (k : Params) (t : Triangle) (v : Byte) :
    t.writeTimerHigh k v = { t with
      timerReload := BitVec.ofNat 11 (v.toNat % 8 * 256 + t.timerReload.toNat % 256)
      length := if t.enabled then k.lengthTable.toList.getD (v.toNat / 8) 0 else t.length
      linearReloadFlag := true } := by
  rw [writeTimerHigh, putField_timerHigh, lengthOf_eq_getD]

theorem Noise.writeControl_eq (n : Noise) (v : Byte) :
    n.writeControl v = { n with
      halt := v.getLsbD 5, constVol := v.getLsbD 4, volPeriod := BitVec.ofNat 4 (v.toNat % 16) } := by
  rw [writeControl, field_low_eq]
  rfl

theorem Noise.writePeriod_eq (n : Noise) (v : Byte) :
    n.writePeriod v = { n with mode := v.getLsbD 7, periodIndex := BitVec.ofNat 4 (v.toNat % 16) } := by
  rw [writePeriod, field_low_eq]
  rfl

theorem Noise.writeLength_eq (k : Params) (n : Noise) (v : Byte) :
    n.writeLength k v = { n with
      length := if n.enabled then k.lengthTable.toList.getD (v.toNat / 8) 0 else n.length
      envelope := { n.envelope with start := true } } := by
  rw [writeLength, lengthOf_eq_getD]

/-- Enabling the DMC starts its sample again where no byte is left; disabling it drops the bytes left (R646). -/
theorem Dmc.writeEnable_eq (d : Dmc) (on : Bool) :
    d.writeEnable on = { d with
      irq := false
      bytesRemaining := if on = false then 0 else if d.bytesRemaining = 0 then d.sampleLength else d.bytesRemaining
      curAddr := if on = true ∧ d.bytesRemaining = 0 then d.sampleStart else d.curAddr } := by
  unfold writeEnable
  cases on with
  | false => rfl
  | true =>
    by_cases h : d.bytesRemaining = 0
    · simp only [h, restart, if_true, and_self, Bool.true_eq_false, if_false]
    · simp only [h, if_true, and_false, Bool.true_eq_false, if_false]

/-- A write of an APU register that leaves the APU `w` leaves the machine with that APU and the latch set (R438, R440). -/
theorem busWrite_apu_eq {a : Word} {v : Byte} {s : State} {w : Apu}
    (ha : (0x4000 ≤ a.toNat ∧ a.toNat ≤ 0x4013) ∨ a = 0x4015 ∨ a = 0x4017) (hw : s.apu.write s.params a v = w) :
    busWrite a v s = ({ s with apu := w } : State).latch v :=
  hw ▸ busWrite_apu v s ha

/-- Settles O53: the read by the bits of the status byte, each write as the bus's offer to the APU and its register's own
equation. -/
theorem apuStatusAndChannelWrites : Obligations.ApuStatusAndChannelWrites := by
  intro s v u r writes length control sweep low high timerLow timerHigh gate
  have hbit (k : Nat) (hk : k < 8) : r.1.getLsbD k = _ :=
    (congrArg (fun x => x.1.getLsbD k) (busRead_apuStatus s)).trans (u.readStatus_getLsbD s.bus.openBus hk)
  have hpulse1 {p q : Pulse} (h : p = q) : { u with pulse1 := p } = { u with pulse1 := q } := by rw [h]
  have hpulse2 {p q : Pulse} (h : p = q) : { u with pulse2 := p } = { u with pulse2 := q } := by rw [h]
  have htriangle {t t' : Triangle} (h : t = t') : { u with triangle := t } = { u with triangle := t' } := by rw [h]
  have hnoise {n n' : Noise} (h : n = n') : { u with noise := n } = { u with noise := n' } := by rw [h]
  refine ⟨⟨?pulse1Bit, ?pulse2Bit, ?triangleBit, ?noiseBit, ?dmcBit, ?latchBit, ?frameIrqBit, ?dmcIrqBit, ?readState⟩,
    ?control1, ?control2, ?sweep1, ?sweep2, ?timerLow1, ?timerLow2, ?timerHigh1, ?timerHigh2,
    ?linear, ?triangleLow, ?triangleHigh, ?noiseControl, ?noisePeriod, ?noiseLength, ?unused4009, ?unused400D, ?enables⟩
  case pulse1Bit => exact (hbit 0 (by decide)).trans (by simp)
  case pulse2Bit => exact (hbit 1 (by decide)).trans (by simp)
  case triangleBit => exact (hbit 2 (by decide)).trans (by simp)
  case noiseBit => exact (hbit 3 (by decide)).trans (by simp)
  case dmcBit => exact (hbit 4 (by decide)).trans (by simp)
  case latchBit => exact (hbit 5 (by decide)).trans (by simp)
  case frameIrqBit => exact (hbit 6 (by decide)).trans (by simp)
  case dmcIrqBit => exact (hbit 7 (by decide)).trans (by simp)
  case readState => exact congrArg Prod.snd (busRead_apuStatus s)
  case control1 => exact busWrite_apu_eq (by decide) (hpulse1 (u.pulse1.writeControl_eq v))
  case control2 => exact busWrite_apu_eq (by decide) (hpulse2 (u.pulse2.writeControl_eq v))
  case sweep1 => exact busWrite_apu_eq (by decide) (hpulse1 (u.pulse1.writeSweep_eq v))
  case sweep2 => exact busWrite_apu_eq (by decide) (hpulse2 (u.pulse2.writeSweep_eq v))
  case timerLow1 => exact busWrite_apu_eq (by decide) (hpulse1 (u.pulse1.writeTimerLow_eq v))
  case timerLow2 => exact busWrite_apu_eq (by decide) (hpulse2 (u.pulse2.writeTimerLow_eq v))
  case timerHigh1 => exact busWrite_apu_eq (by decide) (hpulse1 (u.pulse1.writeTimerHigh_eq s.params v))
  case timerHigh2 => exact busWrite_apu_eq (by decide) (hpulse2 (u.pulse2.writeTimerHigh_eq s.params v))
  case linear => exact busWrite_apu_eq (by decide) (htriangle (u.triangle.writeLinear_eq v))
  case triangleLow => exact busWrite_apu_eq (by decide) (htriangle (u.triangle.writeTimerLow_eq v))
  case triangleHigh => exact busWrite_apu_eq (by decide) (htriangle (u.triangle.writeTimerHigh_eq s.params v))
  case noiseControl => exact busWrite_apu_eq (by decide) (hnoise (u.noise.writeControl_eq v))
  case noisePeriod => exact busWrite_apu_eq (by decide) (hnoise (u.noise.writePeriod_eq v))
  case noiseLength => exact busWrite_apu_eq (by decide) (hnoise (u.noise.writeLength_eq s.params v))
  case unused4009 => exact busWrite_apu_eq (by decide) rfl
  case unused400D => exact busWrite_apu_eq (by decide) rfl
  case enables =>
    refine busWrite_apu_eq (by decide) ?_
    show u.writeEnables v = _
    rw [Apu.writeEnables, Dmc.writeEnable_eq]
    rfl

/-! ## The frame counter -/

/-- The list of the mode (R650). -/
def Apu.fcList (k : Params) (u : Apu) : List FcStep := if u.fcFiveStep then k.fcSteps5 else k.fcSteps4

/-- The point of the mode's list at the next count, if it has one (R651). -/
def Apu.nextPoint (k : Params) (u : Apu) : Option FcStep := (u.fcList k).find? fun x => x.count == u.fcCount + 1

/-- The quarter and the half frame that a point names, in that order (R651). -/
def Apu.framesAt (u : Apu) (x : FcStep) : Apu :=
  let w := if x.quarter then u.quarterFrame else u
  if x.half then w.halfFrame else w

/-- The APU with its frame counter one further and nothing performed (R651). -/
def Apu.counted (u : Apu) : Apu := { u with fcCount := u.fcCount + 1 }

/-- The mode, the inhibit flag, the parity bit and the scheduled clear stay as they are. -/
structure Apu.SameControl (u w : Apu) : Prop where
  fcFiveStep : w.fcFiveStep = u.fcFiveStep
  fcInhibit : w.fcInhibit = u.fcInhibit
  parity : w.parity = u.parity
  irqClearScheduled : w.irqClearScheduled = u.irqClearScheduled

/-- Quarter and half frames reach the channels alone (R652, R653). -/
theorem Apu.framesAt_eq (u : Apu) (x : FcStep) :
    u.framesAt x = { u with
      pulse1 := (u.framesAt x).pulse1, pulse2 := (u.framesAt x).pulse2
      triangle := (u.framesAt x).triangle, noise := (u.framesAt x).noise } := by
  unfold framesAt
  dsimp only
  split <;> split <;> rfl

/-- A point's actions: its frames, the frame IRQ and the reset of the count (R651, R654). -/
theorem Apu.fcActions_eq (u : Apu) (x : FcStep) :
    u.fcActions x = { u.framesAt x with
      frameIrq := u.frameIrq || (x.irq && !u.fcFiveStep && !u.fcInhibit)
      fcCount := if x.reset then 0 else u.fcCount } := by
  show (let w := u.framesAt x
    let w := if x.irq then { w with frameIrq := w.frameIrq || (!w.fcFiveStep && !w.fcInhibit) } else w
    if x.reset then { w with fcCount := 0 } else w) = _
  rw [framesAt_eq]
  cases x.irq <;> cases x.reset <;> simp

/-- A frame-counter step counts and performs the actions of the point at the new count, if there is one (R651). -/
theorem Apu.frameCounterStep_eq (k : Params) (u : Apu) :
    u.frameCounterStep k = (u.nextPoint k).elim u.counted u.counted.fcActions := by
  unfold frameCounterStep
  dsimp only
  split
  case h_1 x hx => rw [show u.nextPoint k = some x from hx]; rfl
  case h_2 hx => rw [show u.nextPoint k = none from hx]; rfl

/-- At a count the list has no point for, the count alone moves (R651). -/
theorem Apu.frameCounterStep_of_none {k : Params} {u : Apu} (h : u.nextPoint k = none) :
    u.frameCounterStep k = u.counted := by
  rw [frameCounterStep_eq, h, Option.elim_none]

/-- At a count the list has a point for, the first such point's actions are performed (R651; log entry 25). -/
theorem Apu.frameCounterStep_of_some {k : Params} {u : Apu} {x : FcStep} (h : u.nextPoint k = some x) :
    u.frameCounterStep k = u.counted.fcActions x := by
  rw [frameCounterStep_eq, h, Option.elim_some]

/-- A frame-counter step keeps the mode, the inhibit flag, the parity and the schedule (R651). -/
theorem Apu.frameCounterStep_sameControl (k : Params) (u : Apu) : u.SameControl (u.frameCounterStep k) := by
  cases h : u.nextPoint k with
  | none => rw [frameCounterStep_of_none h]; exact ⟨rfl, rfl, rfl, rfl⟩
  | some x =>
    rw [frameCounterStep_of_some h, fcActions_eq, framesAt_eq]
    exact ⟨rfl, rfl, rfl, rfl⟩

/-- The frame IRQ is set at a point that names it, in four-step mode without the inhibit flag (R651, R654). -/
theorem Apu.frameCounterStep_frameIrq (k : Params) (u : Apu) :
    (u.frameCounterStep k).frameIrq =
      (u.frameIrq || ((u.nextPoint k).any FcStep.irq && !u.fcFiveStep && !u.fcInhibit)) := by
  cases h : u.nextPoint k with
  | none => rw [frameCounterStep_of_none h]; exact (Bool.or_false _).symm
  | some x => rw [frameCounterStep_of_some h, fcActions_eq]; rfl

/-- The count is 0 after a point that names the reset (R651). -/
theorem Apu.frameCounterStep_fcCount (k : Params) (u : Apu) :
    (u.frameCounterStep k).fcCount = if (u.nextPoint k).any FcStep.reset then 0 else u.fcCount + 1 := by
  cases h : u.nextPoint k with
  | none => rw [frameCounterStep_of_none h]; rfl
  | some x => rw [frameCounterStep_of_some h, fcActions_eq]; rfl

/-- In a list of points with different counts, the point at a count is the one point with that count. -/
theorem any_find?_count {l : List FcStep} (h : l.Pairwise fun x y => x.count ≠ y.count) (n : Nat) (f : FcStep → Bool) :
    (l.find? fun x => x.count == n).any f = l.any fun x => x.count == n && f x := by
  induction l with
  | nil => rfl
  | cons x l ih =>
    obtain ⟨hx, hl⟩ := List.pairwise_cons.mp h
    by_cases hn : x.count = n
    · have hrest : (l.any fun y => y.count == n && f y) = false := by
        rw [List.any_eq_false]
        intro y hy
        simp [show y.count ≠ n from hn ▸ (hx y hy).symm]
      simp [hn, hrest]
    · simp [hn, ih hl]

/-- Every point of the mode's default list has its own count (R650). -/
theorem Apu.fcList_default_counts (u : Apu) :
    (u.fcList .default).Pairwise fun x y => x.count ≠ y.count := by
  unfold fcList
  cases u.fcFiveStep <;> decide

/-- The default lists name the reset at the last count of the mode alone (R650). -/
theorem Apu.nextPoint_default_reset (u : Apu) :
    (u.nextPoint .default).any FcStep.reset = (u.fcCount + 1 == if u.fcFiveStep then 18641 else 14915) := by
  rw [nextPoint, any_find?_count u.fcList_default_counts, fcList]
  cases u.fcFiveStep <;> simp [Params.default]

/-- The default lists name the IRQ at the last count of four-step mode alone (R650). -/
theorem Apu.nextPoint_default_irq (u : Apu) :
    (u.nextPoint .default).any FcStep.irq = (!u.fcFiveStep && u.fcCount + 1 == 14915) := by
  rw [nextPoint, any_find?_count u.fcList_default_counts, fcList]
  cases u.fcFiveStep <;> simp [Params.default]

/-- A write of the frame counter's register (R647). -/
theorem Apu.writeFrameCounter_eq (u : Apu) (v : Byte) :
    u.writeFrameCounter v =
      let set : Apu := { u with
        fcFiveStep := v.getLsbD 7, fcInhibit := v.getLsbD 6, fcCount := 0
        irqClearScheduled := u.irqClearScheduled || v.getLsbD 6 }
      if v.getLsbD 7 then set.quarterFrame.halfFrame else set := by
  unfold writeFrameCounter bit
  cases v.getLsbD 7 <;> rfl

/-! ## One clock -/

/-- The sample step changes the sampler alone (R716, R720, R721). -/
theorem Apu.sampleStep_eq (k : Params) (u : Apu) :
    u.sampleStep k = { u with
      sampleAcc := (u.sampleStep k).sampleAcc, hpPrevIn := (u.sampleStep k).hpPrevIn
      hpPrevOut := (u.sampleStep k).hpPrevOut, lpPrevOut := (u.sampleStep k).lpPrevOut
      pcmQueue := (u.sampleStep k).pcmQueue } := by
  unfold sampleStep
  dsimp only
  split <;> rfl

/-- The toggle of the parity with the scheduled clear as one update (R631, R655). -/
theorem Apu.toggleParity_eq (u : Apu) :
    u.toggleParity = { u with
      parity := !u.parity, frameIrq := u.frameIrq && !(u.parity && u.irqClearScheduled)
      irqClearScheduled := u.irqClearScheduled && !(u.parity && u.irqClearScheduled) } := by
  unfold toggleParity
  dsimp only
  cases u.parity <;> cases u.irqClearScheduled <;> simp

/-- The APU when its sample step comes: one frame-counter step, the triangle's timer, with the parity bit set the timers
of the pulses and the noise, and the DMC's clock (R631). -/
theorem Apu.dmcClocked_eq (k : Params) (c : Option Cart) (ram : Memory) (u : Apu) :
    u.dmcClocked k c ram =
      let f := u.frameCounterStep k
      { f with
        triangle := f.triangle.timerTick
        pulse1 := if u.parity then f.pulse1.timerTick else f.pulse1
        pulse2 := if u.parity then f.pulse2.timerTick else f.pulse2
        noise := if u.parity then f.noise.timerTick k else f.noise
        dmc := f.dmc.clock k c ram } := by
  have hparity := (u.frameCounterStep_sameControl k).parity
  unfold dmcClocked beforeDmc slowTimers
  dsimp only
  rw [hparity]
  cases u.parity <;> rfl

/-- The sample step keeps the mode, the inhibit flag, the parity and the schedule (R716). -/
theorem Apu.sampleStep_sameControl (k : Params) (u : Apu) : u.SameControl (u.sampleStep k) := by
  rw [sampleStep_eq]
  exact ⟨rfl, rfl, rfl, rfl⟩

theorem Apu.sampleStep_fcCount (k : Params) (u : Apu) : (u.sampleStep k).fcCount = u.fcCount := by
  rw [sampleStep_eq]

theorem Apu.sampleStep_frameIrq (k : Params) (u : Apu) : (u.sampleStep k).frameIrq = u.frameIrq := by
  rw [sampleStep_eq]

/-- An APU clock after its sample step: the parity, the scheduled clear and the stall (R631, R655, R709). -/
theorem Apu.clock_eq_sampled (k : Params) (c : Option Cart) (ram : Memory) (u : Apu) :
    u.clock k c ram =
      let sampled := (u.dmcClocked k c ram).sampleStep k
      let clears := u.parity && u.irqClearScheduled
      { sampled with
        parity := !u.parity, frameIrq := sampled.frameIrq && !clears
        irqClearScheduled := u.irqClearScheduled && !clears
        stallPending := sampled.stallPending + sampled.dmc.stallRequested
        dmc := { sampled.dmc with stallRequested := 0 } } := by
  have hcounter := u.frameCounterStep_sameControl k
  have hsample := (u.dmcClocked k c ram).sampleStep_sameControl k
  have hparity : ((u.dmcClocked k c ram).sampleStep k).parity = u.parity := by
    rw [hsample.parity, dmcClocked_eq]
    exact hcounter.parity
  have hscheduled : ((u.dmcClocked k c ram).sampleStep k).irqClearScheduled = u.irqClearScheduled := by
    rw [hsample.irqClearScheduled, dmcClocked_eq]
    exact hcounter.irqClearScheduled
  rw [clock_eq, toggleParity_eq, hparity, hscheduled]
  rfl

/-- Settles O54: the tick by its three turns, the clock by its order, the frame counter by the first point of its list at
the next count. -/
theorem apuClockAndFrameCounter : Obligations.ApuClockAndFrameCounter := by
  refine ⟨fun s t h => ?tick, fun k c ram u => ?clock, fun k u v => ?frameCounter⟩
  case tick =>
    obtain ⟨x, hx, rfl⟩ := step_eq_next h
    exact ⟨x, hx, rfl⟩
  case clock =>
    intro f timed sampled clears w
    have htimed : timed = u.dmcClocked k c ram := (u.dmcClocked_eq k c ram).symm
    have hw := u.clock_eq_sampled k c ram
    rw [← htimed] at hw
    have hcounter := u.frameCounterStep_sameControl k
    have hsample := timed.sampleStep_sameControl k
    have hcount : sampled.fcCount = f.fcCount := timed.sampleStep_fcCount k
    have hirq : sampled.frameIrq = f.frameIrq := timed.sampleStep_frameIrq k
    refine ⟨hw, ?_, ?_, ?_, ?_⟩
    · exact (congrArg Apu.fcCount hw).trans hcount
    · exact (congrArg Apu.fcFiveStep hw).trans (hsample.fcFiveStep.trans hcounter.fcFiveStep)
    · exact (congrArg Apu.fcInhibit hw).trans (hsample.fcInhibit.trans hcounter.fcInhibit)
    · exact (congrArg Apu.frameIrq hw).trans (congrArg (· && !clears) hirq)
  case frameCounter =>
    intro n counted list
    refine ⟨fun h => ?unlisted, fun before x after hlist hx hbefore => ?listed, ?defaultIrq, ?defaultCount, fun h => ?irqOnly,
      u.writeFrameCounter_eq v⟩
    case unlisted =>
      refine Apu.frameCounterStep_of_none (List.find?_eq_none.mpr fun x hx => ?_)
      simpa using h x hx
    case listed =>
      have hpoint : u.nextPoint k = some x := List.find?_eq_some_iff_append.mpr
        ⟨by simpa using hx, before, after, hlist, fun y hy => by simpa using hbefore y hy⟩
      rw [Apu.frameCounterStep_of_some hpoint, Apu.fcActions_eq]
      rfl
    case defaultIrq =>
      rw [Apu.frameCounterStep_frameIrq, Apu.nextPoint_default_irq]
      cases u.fcFiveStep <;> simp
    case defaultCount =>
      rw [Apu.frameCounterStep_fcCount, Apu.nextPoint_default_reset]
      simp only [beq_iff_eq]
    case irqOnly =>
      rw [Apu.frameCounterStep_frameIrq] at h
      simp only [Bool.or_eq_true, Bool.and_eq_true, Bool.not_eq_true'] at h
      exact h.imp_right fun ⟨⟨_, hfive⟩, hinhibit⟩ => ⟨hfive, hinhibit⟩

end Sys2Proof.Machine
end

section
/-! The console driver (54_console_driver.md): the NMI's way to the CPU after a PPU tick, a CPU clock by its three cases,
a halt cycle by its pending step, and the IRQ line after the APU's turn: O8, O12, O13 and O14. -/

namespace Sys2Proof.Machine

/-! ## A halt cycle -/

/-- No special case of R402 applies. -/
theorem shHalt_of_ne {s : State} (hlast : s.cpu.sh.step ≠ s.cpu.sh.op.steps)
    (htwo : s.cpu.sh.step + 2 ≠ s.cpu.sh.op.steps) : shHalt s = s := by
  rw [shHalt, if_neg htwo, if_neg hlast]

/-- A halt two steps before the write is recorded (R402). -/
theorem shHalt_twoBefore {s : State} (htwo : s.cpu.sh.step + 2 = s.cpu.sh.op.steps) :
    shHalt s = s.mapCpu (Cpu.mapSh fun h => { h with rdyTwoBefore := true }) := by
  have hlast : s.cpu.sh.step ≠ s.cpu.sh.op.steps := by omega
  rw [shHalt, if_pos htwo]
  exact if_neg hlast

/-- A halt at the write step does the write and ends the instruction (R402). -/
theorem shHalt_last {s : State} (hlast : s.cpu.sh.step = s.cpu.sh.op.steps) :
    shHalt s = (shWrite s).mapCpu fun c => { c with cyclesRemaining := 0 } := by
  have htwo : s.cpu.sh.step + 2 ≠ s.cpu.sh.op.steps := by omega
  rw [shHalt, if_neg htwo, if_pos hlast]

theorem cpuHalt_inactive {s : State} (h : s.cpu.sh.active = false) :
    cpuHalt s = s.mapCpu fun c => { c with cycleCount := c.cycleCount + 1 } := if_neg (by simp [h])

theorem cpuHalt_active {s : State} (h : s.cpu.sh.active = true) :
    cpuHalt s = shHalt (s.mapCpu fun c => { c with cycleCount := c.cycleCount + 1 }) := if_pos h

theorem cpuPhase_stalled {s : State} (h : 0 < s.apu.stallPending) :
    cpuPhase s = .next (cpuHalt { s with apu := { s.apu with stallPending := s.apu.stallPending - 1 } }) := if_pos h

theorem cpuPhase_running {s : State} (h : s.apu.stallPending = 0) : cpuPhase s = cpuClock s :=
  if_neg (by omega)

/-- Settles O14: counting a halt cycle moves neither the store nor its step, so each case is one of `shHalt`'s. -/
theorem haltCycles : Obligations.HaltCycles := by
  refine fun s => ⟨cpuPhase_stalled, cpuPhase_running, cpuHalt_inactive,
    fun hactive hlast htwo => (cpuHalt_active hactive).trans (shHalt_of_ne hlast htwo),
    fun hactive htwo => (cpuHalt_active hactive).trans (shHalt_twoBefore htwo), fun hactive hlast => ?writes⟩
  case writes =>
    have hhalt := (cpuHalt_active hactive).trans (shHalt_last hlast)
    refine ⟨hhalt, ?_⟩
    rw [hhalt, State.mapCpu_cpu, shWrite_cpu]

/-! ## A CPU clock -/

/-- With no store under way and no clocks left, a clock is an instruction boundary (R743). -/
theorem cpuClock_boundary {s : State} (hactive : s.cpu.sh.active = false) (hdone : s.cpu.cyclesRemaining = 0) :
    cpuClock s = mapNext (fun t => t.mapCpu Cpu.endClock) (cpuBoundary s) := by
  rw [cpuClock, cpuWork, if_neg (by simp [hactive]), if_pos hdone]

/-- With no store under way and clocks left, a clock is idle (R743). -/
theorem cpuClock_idle {s : State} (hactive : s.cpu.sh.active = false) (hleft : 0 < s.cpu.cyclesRemaining) :
    cpuClock s = .next ((s.mapCpu Cpu.idle).mapCpu Cpu.endClock) := by
  rw [cpuClock, cpuWork, if_neg (by simp [hactive]), if_neg (by omega), mapNext_next]

/-- An idle clock polls at the poll clocks and does nothing else (R743, R764). -/
theorem Cpu.idle_eq (c : Cpu) : c.idle =
    if c.clockNo ∈ c.pollAt then { c with latchedIrq := c.latchedIrq || (c.irqLine && !getFlag c.p .i) } else c := by
  simp only [Cpu.idle, List.contains_iff_mem]
  rfl

/-- The CPU after a console reset: its own reset at the vector read, the store's don't-care fields kept (R802, R807). -/
theorem consoleReset_cpu (s : State) :
    ∃ pc, (consoleReset s).cpu = { Cpu.reset pc with sh := { s.cpu.sh with active := false } } := by
  simp only [consoleReset, cpuReset, State.mapCpu_cpu, readVector_cpu]
  exact ⟨_, rfl⟩

/-- Settles O8: each case by the equation of `cpuClock` in it, the eight clocks from the CPU's reset. -/
theorem cpuClockCases : Obligations.CpuClockCases := by
  intro s finish
  obtain ⟨pc, hreset⟩ := consoleReset_cpu s
  refine ⟨cpuClock_active, cpuClock_boundary, fun hactive hleft => ?idle, by rw [hreset]; rfl, by rw [hreset]⟩
  case idle =>
    rw [cpuClock_idle hactive hleft, funext Cpu.idle_eq]
    rfl

/-! ## The NMI latch and the IRQ line -/

@[simp] theorem ppuPhase_nmiLatched (s : State) : (ppuPhase s).ppu.nmiLatched = false := by
  rw [ppuPhase, ppuTurn_ppu]

/-- Settles O12: each device after one turn by its own lemma; the last turn leaves the latch clear. -/
theorem nmiReachesTheCpuInTheSameTick : Obligations.NmiReachesTheCpuInTheSameTick := fun s =>
  ⟨⟨ppuTurn_ppu s, ppuTurn_cpu s, ppuTurn_bus s, ppuTurn_apu s, ppuTurn_cart s, ppuTurn_params s⟩,
    ppuPhase_nmiLatched s, rfl⟩

/-- The APU's turn ends by setting the IRQ line (R656, R744). -/
theorem apuPhase_irqLine (s : State) :
    (apuPhase s).cpu.irqLine = ((apuPhase s).apu.frameIrq || (apuPhase s).apu.dmc.irq) := by
  rw [apuPhase_cpu, Apu.irqPending]

/-- Settles O13: a step that answers ends with the APU's turn. -/
theorem irqLineFollowsTheApu : Obligations.IrqLineFollowsTheApu := by
  intro s t h
  obtain ⟨u, -, rfl⟩ := step_eq_next h
  exact apuPhase_irqLine u

end Sys2Proof.Machine
end

section
/-! Instructions and their clocks (30_encoding.md, 60_exceptions.md): the decoder on encodings, the uses of an operand
and the tick that runs an instruction (O1, O3, O6, O7); the boundary, the interrupt entries and the return from them,
and the idle clocks (O9, O10, O11, O29). -/

namespace Sys2Proof

/-- The encoding of a term decodes to it wherever it stands: only a well-formed term has one. -/
theorem decodesTo_of_encode {i : Instr} {op : Byte} {bs : List Byte} (h : encode i = op :: bs) :
    Machine.decodesTo (op :: bs) i :=
  h ▸ decode_encode (wf_of_encode_eq_cons h)

/-- Settles O1: decoding undoes encoding. -/
theorem decodeOfEncode : Obligations.DecodeOfEncode := fun _ => decode_encode

/-- Settles O3: each line is the encoding of its instruction. -/
theorem decodeOfWords : Obligations.DecodeOfWords := by
  refine ⟨?_, ?_, ?_, ?_, ?_, ?_, ?_, ?_, ?_, ?_, ?_, ?_, ?_, ?_, ?_, ?_, ?_, ?_, ?_⟩ <;>
    exact decodesTo_of_encode rfl

end Sys2Proof

namespace Sys2Proof.Machine

/-! ## The uses of an operand -/

/-- The forms with an index addition (R156, R159). -/
theorem resolve_indexed_iff (m : MemMode) (s : State) :
    (resolve m s).1.indexed = true ↔ m.form ∈ [MemForm.abx, MemForm.aby, MemForm.izy] := by
  cases m <;> simp [resolve, Ea.plain, Ea.index, MemMode.form]

/-- A page cross costs a cycle where the form has an index addition (R163). -/
theorem readCycles_eq (m : MemMode) (s : State) :
    readCycles m (resolve m s).1.crossed =
      readCycles m false + if (resolve m s).1.indexed && (resolve m s).1.crossed then 1 else 0 := by
  cases hi : (resolve m s).1.indexed with
  | false =>
    have hform := (resolve_indexed_iff m s).not.mp (by simp [hi])
    cases m <;> simp [MemMode.form] at hform <;> rfl
  | true =>
    have hform := (resolve_indexed_iff m s).mp hi
    cases (resolve m s).1.crossed <;> cases m <;> simp [MemMode.form] at hform <;> rfl

/-- Settles O6: the accesses are the operand's own, and each count is its form's. -/
theorem operandAccesses : Obligations.OperandAccesses := by
  intro m v f s e u w r
  refine ⟨resolve_indexed_iff m s, rfl, rfl, readCycles_eq m s, ?readCycles, rfl, ?writeCycles, ?rmwCycles, rfl, rfl,
    rfl, fun b => ⟨rfl, rfl, rfl⟩⟩
  all_goals cases m <;> rfl

/-! ## The tick that runs an instruction -/

/-- The operand bytes that are read with the opcode, by the opcode (R151, R302, R400). -/
theorem earlyOperands_eq (op : Byte) : earlyOperands op =
    if op = 0x20 then 1 else if op ∈ [0x93, 0x9F, 0x9B, 0x9C, 0x9E] then 0 else operandCount op := by
  simp only [earlyOperands, shOpcodes, List.contains_iff_mem]

/-- Settles O7: at a boundary with nothing recognised the tick runs what the fetch decodes. -/
theorem stepRunsTheDecodedInstruction : Obligations.StepRunsTheDecodedInstruction := by
  refine ⟨?_, earlyOperands_eq⟩
  intro s b0 b1 b2 i rest u pc n hstall hactive hdone hnmi hirq h0 h1 h2 hdecode
  rw [Sys2Proof.decode_three, Except.ok.injEq, Prod.mk.injEq] at hdecode
  obtain ⟨rfl, -⟩ := hdecode
  rw [step, driverTick, cpuPhase_boundary hstall hactive hdone hnmi hirq, fetch_storage h0 h1 h2]
  have hone : n = 1 ↔ earlyOperands b0 = 0 := Nat.add_eq_left
  have htwo : n = 2 ↔ earlyOperands b0 = 1 := by simp only [n]; omega
  simp only [hone, htwo]
  rfl

/-! ## Instruction boundaries and interrupts -/

/-- Settles O10: the boundary's own branches. -/
theorem boundaryOrder : Obligations.BoundaryOrder := by
  intro s
  refine ⟨fun h => ?_, fun h h' => ?_, fun h h' => ?_, fun h h' => cpuClock_boundary h' h⟩
  · rw [cpuBoundary, if_pos h]; rfl
  · rw [cpuBoundary, if_neg (by simp [h]), if_pos h']; rfl
  · rw [cpuBoundary, if_neg (by simp [h]), if_neg (by simp [h'])]

/-- An interrupt's entry returns to the instruction that was not executed (R770). -/
theorem interruptEntry_enters (e : Event) (s : State) :
    Enters e.vector s.cpu.pc (e.pushedP s.cpu.p) s (interruptEntry e s) :=
  takeEvent_enters e s.cpu.pc 7 [] s

/-- Settles O11: each event's entry, and its seven clocks with no poll. -/
theorem interruptEntryEffect : Obligations.InterruptEntryEffect := fun s =>
  ⟨⟨interruptEntry_enters .nmi s, rfl, rfl, by simp [interruptEntry, takeEvent_cpu]⟩,
   ⟨interruptEntry_enters .irq s, rfl, rfl, by simp [interruptEntry, takeEvent_cpu]⟩⟩

/-- A pulled byte gives back a P with Unused 1 and Break 0 that it agrees with in every other flag (R25). -/
theorem pulledP_of_flags {c : Cpu} {q : Byte} (h : c.statusOk = true)
    (hq : ∀ f, f ≠ .b → f ≠ .u → getFlag q f = getFlag c.p f) : pulledP q = c.p := by
  simp only [Cpu.statusOk, Bool.and_eq_true, Bool.not_eq_true'] at h
  refine status_ext fun f => ?_
  rw [getFlag_pulledP]
  split_ifs with hb hu
  · rw [hb, h.2]
  · rw [hu, h.1]
  · exact hq f hb hu

/-- What an entry pushes is P but for Break and Unused (R770). -/
theorem Event.pulled_pushedP (e : Event) {c : Cpu} (h : c.statusOk = true) : pulledP (e.pushedP c.p) = c.p := by
  refine pulledP_of_flags h fun f hb hu => ?_
  cases e <;> simp [Event.pushedP, getFlag_interruptP, getFlag_breakP, hb, hu]

/-- RTI pulls what the entry pushed: the three bytes stand above the lowered SP (R304, R775). -/
theorem runs_rti_of_enters {vector ret : Word} {e : Event} {s t : State}
    (h : Enters vector ret (e.pushedP s.cpu.p) s t) (hs : s.cpu.statusOk = true) :
    runs .rti t fun u => u.cpu.pc = ret ∧ u.cpu.sp = s.cpu.sp ∧ u.cpu.p = s.cpu.p := by
  have h1 : t.cpu.sp + 1 = s.cpu.sp - 2 := by rw [h.sp]; exact sub_add_eq_add_sub _ _ _ |>.trans (by bv_omega)
  have h2 : t.cpu.sp + 2 = s.cpu.sp - 1 := by rw [h.sp]; bv_omega
  have h3 : t.cpu.sp + 3 = s.cpu.sp := by rw [h.sp]; bv_omega
  refine (runs_rti t).imp fun u ⟨hexec, hp, hpc, hsp, _⟩ => ⟨hexec, ?_, hsp.trans h3, ?_⟩
  · rw [hpc, h3, h2, h.high, h.low, mkWord_hiByte_loByte]
  · rw [hp, h1, h.status]
    exact e.pulled_pushedP hs

/-- Settles O29: each entry by its own return address. -/
theorem rtiUndoesInterruptEntry : Obligations.RtiUndoesInterruptEntry := by
  intro s hs
  refine ⟨fun e _ => runs_rti_of_enters (interruptEntry_enters e s) hs, fun t ht => ?_⟩
  obtain ⟨u, hu, henters, -⟩ := runs_brk s
  cases hu.symm.trans ht
  exact runs_rti_of_enters (e := .brk) henters hs

/-! ## Idle clocks -/

/-- One of the last `n` clocks of the instruction is a poll clock (R764). -/
def Cpu.pollsIn (n : Nat) (c : Cpu) : Bool :=
  c.pollAt.any fun k => decide (c.totalCycles + 1 - n ≤ k ∧ k ≤ c.totalCycles)

/-- The CPU after its last `n` clocks, all idle (R743). -/
def Cpu.idled (n : Nat) (c : Cpu) : Cpu :=
  { c with
    cyclesRemaining := 0
    cycleCount := c.cycleCount + BitVec.ofNat 64 n
    latchedIrq := c.latchedIrq || (c.irqLine && !getFlag c.p .i && c.pollsIn n) }

theorem Cpu.pollsIn_zero (c : Cpu) : c.pollsIn 0 = false := by
  simp only [Cpu.pollsIn, List.any_eq_false, decide_eq_true_eq]
  omega

/-- The clock that begins with `n + 1` left is polled by its own number, the later ones by theirs. -/
theorem Cpu.pollsIn_succ {n : Nat} {c : Cpu} (hleft : c.cyclesRemaining = n + 1) (hle : n + 1 ≤ c.totalCycles) :
    c.pollsIn (n + 1) = (decide (c.clockNo ∈ c.pollAt) || c.pollsIn n) := by
  rw [Bool.eq_iff_iff]
  simp only [Cpu.pollsIn, Bool.or_eq_true, List.any_eq_true, decide_eq_true_eq, Cpu.clockNo, hleft]
  constructor
  · rintro ⟨k, hk, hlow, hhigh⟩
    rcases Nat.eq_or_lt_of_le hlow with rfl | hlater
    · exact .inl hk
    · exact .inr ⟨k, hk, by omega, hhigh⟩
  · rintro (hk | ⟨k, hk, hlow, hhigh⟩)
    · exact ⟨_, hk, by omega, by omega⟩
    · exact ⟨k, hk, by omega, hhigh⟩

/-- One idle clock, then `n` more. -/
theorem Cpu.idled_succ {n : Nat} {c : Cpu} (hleft : c.cyclesRemaining = n + 1) (hle : n + 1 ≤ c.totalCycles) :
    c.idle.endClock.idled n = c.idled (n + 1) := by
  have hcount : c.cycleCount + 1 + BitVec.ofNat 64 n = c.cycleCount + BitVec.ofNat 64 (n + 1) := by
    rw [BitVec.ofNat_add, add_assoc, add_comm 1]
    rfl
  have hlatch (l x p : Bool) : (l || x || (x && p)) = (l || (x && (true || p))) := by revert l x p; decide
  rw [Cpu.idled, Cpu.idled, Cpu.pollsIn_succ hleft hle, ← hcount, Cpu.idle_eq]
  split_ifs with hpoll
  · rw [decide_eq_true hpoll, ← hlatch]
    rfl
  · rw [decide_eq_false hpoll, Bool.false_or]
    rfl

/-- An idle clock's poll sets the latched IRQ alone (R764). -/
theorem Cpu.idle_keeps (c : Cpu) : c.idle.p = c.p ∧ c.idle.sh = c.sh ∧
    c.idle.cyclesRemaining = c.cyclesRemaining ∧ c.idle.totalCycles = c.totalCycles := by
  unfold Cpu.idle
  split <;> exact ⟨rfl, rfl, rfl, rfl⟩

/-- The clocks left of an instruction, one idle clock after the other (R150, R743). -/
theorem cpuClocks_idled : ∀ (n : Nat) (s : State), s.cpu.sh.active = false → s.cpu.cyclesRemaining = n →
    n ≤ s.cpu.totalCycles → cpuClocks n s = .next (s.mapCpu (Cpu.idled n)) := by
  intro n
  induction n with
  | zero =>
    intro s _ hleft _
    have hidled : s.cpu.idled 0 = s.cpu := by
      rw [Cpu.idled, Cpu.pollsIn_zero, Bool.and_false, Bool.or_false, BitVec.add_zero, ← hleft]
    rw [State.mapCpu, hidled]
    rfl
  | succ n ih =>
    intro s hactive hleft hle
    obtain ⟨-, hsh, hremaining, htotal⟩ := s.cpu.idle_keeps
    have hended : s.cpu.idle.endClock.cyclesRemaining = n := by rw [Cpu.endClock, hremaining, hleft, Nat.add_sub_cancel]
    rw [cpuClocks_succ (cpuClock_idle hactive (hleft ▸ Nat.succ_pos n)),
      ih _ ((congrArg Sh.active hsh).trans hactive) hended (by exact htotal ▸ Nat.le_of_succ_le hle),
      State.mapCpu_mapCpu, State.mapCpu_mapCpu]
    exact congrArg (fun c => Host.Outcome.next { s with cpu := c }) (Cpu.idled_succ hleft hle)

/-- Settles O9: `Cpu.idled` touches the clocks left, the counter and the latched IRQ alone. -/
theorem idleClocksOfAnInstruction : Obligations.IdleClocksOfAnInstruction := by
  intro n s hactive hleft hle
  refine ⟨_, cpuClocks_idled n s hactive hleft hle, rfl, fun r => by cases r <;> rfl, rfl, rfl, rfl, rfl, rfl, rfl,
    ⟨rfl, rfl, rfl, rfl, rfl⟩, ?_⟩
  simp [Cpu.idled, Cpu.pollsIn, and_assoc]

end Sys2Proof.Machine
end

section
/-! PPU ticks (52_ppu.md section 1, 54_console_driver.md): the position and the frames, and what a scanline latches at
its dot 1: O52. -/

namespace Sys2Proof.Machine

/-! ## What a tick keeps -/

/-- What a tick does before its advance. -/
def Ppu.worked (c : Option Cart) (p : Ppu) : Ppu := (p.vblankEvent.preRenderEvent.scanlineEvent.pixelEvent c).decay

theorem Ppu.tick_eq (c : Option Cart) (p : Ppu) : p.tick c = (p.worked c).advance := rfl

/-- The counters and the address registers are the same. -/
structure PpuSameCourse (p q : Ppu) : Prop where
  frameCount : q.frameCount = p.frameCount
  ppuCycles : q.ppuCycles = p.ppuCycles
  v : q.v = p.v
  t : q.t = p.t
  fineX : q.fineX = p.fineX

theorem PpuSameCourse.trans {p q r : Ppu} (h : PpuSameCourse p q) (k : PpuSameCourse q r) : PpuSameCourse p r :=
  ⟨k.frameCount.trans h.frameCount, k.ppuCycles.trans h.ppuCycles, k.v.trans h.v, k.t.trans h.t, k.fineX.trans h.fineX⟩

/-- The latched scroll and the active sprites are the same. -/
structure PpuSameLine (p q : Ppu) : Prop where
  latchedT : q.latchedT = p.latchedT
  latchedFineX : q.latchedFineX = p.latchedFineX
  activeSprites : q.activeSprites = p.activeSprites

theorem PpuSameLine.trans {p q r : Ppu} (h : PpuSameLine p q) (k : PpuSameLine q r) : PpuSameLine p r :=
  ⟨k.latchedT.trans h.latchedT, k.latchedFineX.trans h.latchedFineX, k.activeSprites.trans h.activeSprites⟩

/-- The two events keep all of them (R547, R549). -/
theorem Ppu.events_same (p : Ppu) :
    PpuSameCourse p p.vblankEvent.preRenderEvent ∧ PpuSameLine p p.vblankEvent.preRenderEvent := by
  have hvblank (p : Ppu) : PpuSameCourse p p.vblankEvent ∧ PpuSameLine p p.vblankEvent := by
    unfold Ppu.vblankEvent
    split <;> exact ⟨⟨rfl, rfl, rfl, rfl, rfl⟩, rfl, rfl, rfl⟩
  have hpreRender (p : Ppu) : PpuSameCourse p p.preRenderEvent ∧ PpuSameLine p p.preRenderEvent := by
    unfold Ppu.preRenderEvent
    split <;> exact ⟨⟨rfl, rfl, rfl, rfl, rfl⟩, rfl, rfl, rfl⟩
  exact ⟨(hvblank p).1.trans (hpreRender _).1, (hvblank p).2.trans (hpreRender _).2⟩

theorem Ppu.pixelEvent_same (c : Option Cart) (p : Ppu) :
    PpuSameCourse p (p.pixelEvent c) ∧ PpuSameLine p (p.pixelEvent c) := by
  unfold Ppu.pixelEvent
  split <;> exact ⟨⟨rfl, rfl, rfl, rfl, rfl⟩, rfl, rfl, rfl⟩

theorem Ppu.decay_same (p : Ppu) : PpuSameCourse p p.decay ∧ PpuSameLine p p.decay :=
  ⟨⟨rfl, rfl, rfl, rfl, rfl⟩, rfl, rfl, rfl⟩

/-- Before its advance a tick changes neither the counters nor the address registers. -/
theorem Ppu.worked_sameCourse (c : Option Cart) (p : Ppu) : PpuSameCourse p (p.worked c) := by
  have hscanline (p : Ppu) : PpuSameCourse p p.scanlineEvent := by
    unfold Ppu.scanlineEvent
    split <;> exact ⟨rfl, rfl, rfl, rfl, rfl⟩
  rw [Ppu.worked]
  exact ((p.events_same.1.trans (hscanline _)).trans (Ppu.pixelEvent_same c _).1).trans (Ppu.decay_same _).1

/-- The advance in one equation: the dot wraps into the scanline, the scanline into the frame (R541, R545). -/
theorem Ppu.advance_eq (p : Ppu) : p.advance = { p with
    ppuCycles := p.ppuCycles + 1
    dot := if p.dot + 1 = 341 then 0 else p.dot + 1
    scanline := if p.dot + 1 = 341 then if p.scanline + 1 = 262 then 0 else p.scanline + 1 else p.scanline
    frameCount := if p.dot + 1 = 341 ∧ p.scanline + 1 = 262 then p.frameCount + 1 else p.frameCount
    drawnFrame := if p.dot + 1 = 341 ∧ p.scanline + 1 = 262 then some p.framebuffer else p.drawnFrame } := by
  unfold Ppu.advance
  by_cases hdot : p.dot + 1 = 341
  · by_cases hline : p.scanline + 1 = 262
    · simp only [hdot, hline, and_self, if_true]
    · simp only [hdot, hline, and_false, if_true, if_false]
  · simp only [hdot, false_and, if_false]

/-- Only the scanline's own event at dot 1 latches (R573). -/
theorem Ppu.tick_sameLine (c : Option Cart) (p : Ppu) :
    PpuSameLine p.vblankEvent.preRenderEvent.scanlineEvent (p.tick c) := by
  have hadvance (p : Ppu) : PpuSameLine p p.advance := by
    rw [Ppu.advance_eq]
    exact ⟨rfl, rfl, rfl⟩
  exact ((Ppu.pixelEvent_same c _).2.trans (Ppu.decay_same _).2).trans (hadvance _)

/-! ## The position -/

/-- One dot further, with the frames counted in dots (R541, R545). -/
theorem wrap_count {line dot frames : Nat} (hline : line < 262) (hdot : dot < 341) :
    (if dot + 1 = 341 then if line + 1 = 262 then 0 else line + 1 else line) < 262 ∧
      (if dot + 1 = 341 then 0 else dot + 1) < 341 ∧
      (if dot + 1 = 341 ∧ line + 1 = 262 then frames + 1 else frames) * 89342 +
          ((if dot + 1 = 341 then if line + 1 = 262 then 0 else line + 1 else line) * 341 +
            if dot + 1 = 341 then 0 else dot + 1) =
        frames * 89342 + (line * 341 + dot) + 1 := by
  by_cases hd : dot + 1 = 341
  · by_cases hl : line + 1 = 262
    · simp only [hd, hl, and_self, if_true]
      omega
    · simp only [hd, hl, and_false, if_true, if_false]
      omega
  · simp only [hd, false_and, if_false]
    omega

theorem Ppu.advance_place {p : Ppu} (hline : p.scanline < 262) (hdot : p.dot < 341) :
    p.advance.scanline < 262 ∧ p.advance.dot < 341 ∧
      p.advance.frameCount * 89342 + p.advance.place = p.frameCount * 89342 + p.place + 1 := by
  rw [Ppu.advance_eq]
  exact wrap_count hline hdot

theorem Ppu.tick_place (c : Option Cart) {p : Ppu} (hline : p.scanline < 262) (hdot : p.dot < 341) :
    (p.tick c).scanline < 262 ∧ (p.tick c).dot < 341 ∧ (p.tick c).ppuCycles = p.ppuCycles + 1 ∧
      (p.tick c).frameCount * 89342 + (p.tick c).place = p.frameCount * 89342 + p.place + 1 := by
  have hplace := p.beforeAdvance_inPlace c
  have hcourse := p.worked_sameCourse c
  obtain ⟨hline', hdot', hnext⟩ :=
    Ppu.advance_place (p := p.worked c) (hplace.scanline.trans_lt hline) (hplace.dot.trans_lt hdot)
  have hsame : (p.worked c).place = p.place := by
    rw [Ppu.worked, Ppu.place, hplace.scanline, hplace.dot, Ppu.place]
  rw [hcourse.frameCount, hsame] at hnext
  refine ⟨hline', hdot', ?_, hnext⟩
  rw [Ppu.tick_eq, Ppu.advance_eq, hcourse.ppuCycles]

/-- `k` ticks move the position `k` dots on, with the frames counted in dots. -/
theorem ppuTicks_place (c : Option Cart) (k : Nat) {p : Ppu} (hline : p.scanline < 262) (hdot : p.dot < 341) :
    (ppuTicks c k p).scanline < 262 ∧ (ppuTicks c k p).dot < 341 ∧ (ppuTicks c k p).ppuCycles = p.ppuCycles + k ∧
      (ppuTicks c k p).frameCount * 89342 + (ppuTicks c k p).place = p.frameCount * 89342 + p.place + k := by
  induction k generalizing p with
  | zero =>
    rw [ppuTicks, Nat.add_zero, Nat.add_zero]
    exact ⟨hline, hdot, rfl, rfl⟩
  | succ k ih =>
    obtain ⟨hline', hdot', hcycles, hplace⟩ := Ppu.tick_place c hline hdot
    obtain ⟨hl, hd, hc, hp⟩ := ih hline' hdot'
    rw [ppuTicks]
    have hcomm : 1 + k = k + 1 := Nat.add_comm 1 k
    exact ⟨hl, hd, by rw [hc, hcycles, Nat.add_assoc, hcomm], by rw [hp, hplace, Nat.add_assoc _ 1 k, hcomm]⟩

/-! ## What a tick looks at -/

/-- Other contents of the address registers. -/
def Ppu.withAddr (p : Ppu) (v t : BitVec 15) (x : BitVec 3) : Ppu := { p with v := v, t := t, fineX := x }

section WithAddr
variable (c : Option Cart) (p : Ppu) (v t : BitVec 15) (x : BitVec 3)

theorem Ppu.readAt_withAddr (a : Nat) : (p.withAddr v t x).readAt c a = p.readAt c a := rfl
theorem Ppu.readAtInt_withAddr (a : Int) : (p.withAddr v t x).readAtInt c a = p.readAtInt c a := rfl

theorem Ppu.bgPixel_withAddr (i j : Nat) : (p.withAddr v t x).bgPixel c i j = p.bgPixel c i j := by
  simp only [Ppu.bgPixel, Ppu.readAt_withAddr]
  rfl

theorem Ppu.spriteAt_withAddr (i j : Nat) (n : Fin 64) : (p.withAddr v t x).spriteAt c i j n = p.spriteAt c i j n := by
  simp only [Ppu.spriteAt, Ppu.readAtInt_withAddr]
  rfl

theorem Ppu.renderPixel_withAddr (i j : Nat) :
    (p.withAddr v t x).renderPixel c i j = (p.renderPixel c i j).withAddr v t x := by
  have hsprite : (p.withAddr v t x).spritePixel c i j = p.spritePixel c i j :=
    congrArg (List.findSome? · p.activeSprites) (funext (p.spriteAt_withAddr c v t x i j))
  simp only [Ppu.renderPixel, Ppu.bgPixel_withAddr, hsprite]
  rfl

theorem Ppu.findSprites_withAddr (y : Nat) (found l : List (Fin 64)) :
    (p.withAddr v t x).findSprites y found l = p.findSprites y found l := by
  induction l generalizing found with
  | nil => rfl
  | cons n l ih =>
    simp only [Ppu.findSprites, ih]
    rfl

theorem Ppu.overflowWalk_withAddr (y fuel a : Nat) :
    (p.withAddr v t x).overflowWalk y fuel a = p.overflowWalk y fuel a := by
  induction fuel generalizing a with
  | zero => rfl
  | succ fuel ih =>
    simp only [Ppu.overflowWalk, ih]
    rfl

theorem Ppu.evaluateSprites_withAddr (y : Nat) :
    (p.withAddr v t x).evaluateSprites y = (p.evaluateSprites y).withAddr v t x := by
  simp only [Ppu.evaluateSprites, Ppu.findSprites_withAddr, Ppu.overflowWalk_withAddr]
  rfl

theorem Ppu.vblankEvent_withAddr : (p.withAddr v t x).vblankEvent = p.vblankEvent.withAddr v t x := by
  by_cases h : p.scanline = 241 ∧ p.dot = 1
  · rw [show p.vblankEvent = _ from if_pos h]
    exact if_pos h
  · rw [show p.vblankEvent = _ from if_neg h]
    exact if_neg h

theorem Ppu.preRenderEvent_withAddr : (p.withAddr v t x).preRenderEvent = p.preRenderEvent.withAddr v t x := by
  by_cases h : p.scanline = 261 ∧ p.dot = 1
  · rw [show p.preRenderEvent = _ from if_pos h]
    exact if_pos h
  · rw [show p.preRenderEvent = _ from if_neg h]
    exact if_neg h

theorem Ppu.pixelEvent_withAddr : (p.withAddr v t x).pixelEvent c = (p.pixelEvent c).withAddr v t x := by
  unfold Ppu.pixelEvent
  rw [Ppu.renderPixel_withAddr]
  exact (apply_ite (fun q : Ppu => q.withAddr v t x) _ _ _).symm

theorem Ppu.decay_withAddr : (p.withAddr v t x).decay = p.decay.withAddr v t x := rfl

theorem Ppu.advance_withAddr : (p.withAddr v t x).advance = p.advance.withAddr v t x := by
  rw [Ppu.advance_eq, Ppu.advance_eq]
  rfl

/-- The scanline's event latches and evaluates (R573). -/
def Ppu.Latches (p : Ppu) : Prop := p.scanline ≤ 239 ∧ p.dot = 1

variable {p v t x}

theorem Ppu.scanlineEvent_of_latches (h : p.Latches) :
    p.scanlineEvent = ({ p with latchedT := p.t, latchedFineX := p.fineX } : Ppu).evaluateSprites p.scanline := if_pos h

theorem Ppu.scanlineEvent_of_not_latches (h : ¬p.Latches) : p.scanlineEvent = p := if_neg h

/-- The scanline's event looks at t and fine X where it latches, and never at v. -/
theorem Ppu.scanlineEvent_withAddr (h : ¬p.Latches ∨ t = p.t ∧ x = p.fineX) :
    (p.withAddr v t x).scanlineEvent = p.scanlineEvent.withAddr v t x := by
  by_cases hl : p.Latches
  · obtain ⟨rfl, rfl⟩ := h.resolve_left (not_not_intro hl)
    rw [Ppu.scanlineEvent_of_latches hl, ← Ppu.evaluateSprites_withAddr]
    exact Ppu.scanlineEvent_of_latches hl
  · rw [Ppu.scanlineEvent_of_not_latches hl]
    exact Ppu.scanlineEvent_of_not_latches hl

theorem Ppu.tick_withAddr (h : ¬p.Latches ∨ t = p.t ∧ x = p.fineX) :
    (p.withAddr v t x).tick c = (p.tick c).withAddr v t x := by
  have hplace := p.vblankEvent_inPlace.trans p.vblankEvent.preRenderEvent_inPlace
  have hsame := p.events_same.1
  have hevents : ¬p.vblankEvent.preRenderEvent.Latches ∨
      t = p.vblankEvent.preRenderEvent.t ∧ x = p.vblankEvent.preRenderEvent.fineX := by
    rwa [Ppu.Latches, hplace.scanline, hplace.dot, hsame.t, hsame.fineX]
  rw [Ppu.tick, Ppu.vblankEvent_withAddr, Ppu.preRenderEvent_withAddr, Ppu.scanlineEvent_withAddr hevents,
    Ppu.pixelEvent_withAddr, Ppu.decay_withAddr, Ppu.advance_withAddr, Ppu.tick]

end WithAddr

/-! ## What a tick latches -/

/-- Sprite evaluation's range, in the terms of R579. -/
theorem Ppu.inRange_eq (p : Ppu) (y b : Nat) :
    p.inRange y b = decide (b + 1 ≤ y ∧ y < b + 1 + (if p.ctrl.getLsbD 5 then 16 else 8)) := by
  rw [Ppu.inRange, Ppu.spriteHeight, Bool.decide_and]
  rfl

/-- The evaluation takes the first eight sprites in range, in OAM order (R579). -/
theorem Ppu.evaluateSprites_activeSprites (p : Ppu) (y : Nat) : (p.evaluateSprites y).activeSprites =
    ((List.finRange 64).filter fun n => p.inRange y (p.oamAt (4 * n.val))).take 8 :=
  Ppu.findSprites_found p y _ [] (Nat.zero_le 8)

theorem Ppu.events_of_latches {p : Ppu} (h : p.Latches) : p.vblankEvent.preRenderEvent = p :=
  Ppu.events_elsewhere (fun hv => by have := h.1; omega) (fun hp => by have := h.1; omega)

theorem Ppu.place_lt {p : Ppu} (hline : p.scanline < 262) (hdot : p.dot < 341) : p.place < 89342 := by
  rw [Ppu.place]
  omega

/-- A tick leaves the address registers and the memories alone. -/
theorem Ppu.tick_registers (c : Option Cart) (p : Ppu) : (p.tick c).v = p.v ∧ (p.tick c).t = p.t ∧
    (p.tick c).fineX = p.fineX ∧ (p.tick c).oam = p.oam ∧ (p.tick c).ntRam = p.ntRam := by
  have hplace : PpuInPlace p (p.worked c) := p.beforeAdvance_inPlace c
  have hcourse := p.worked_sameCourse c
  have hadvance (p : Ppu) : p.advance.v = p.v ∧ p.advance.t = p.t ∧ p.advance.fineX = p.fineX ∧
      p.advance.oam = p.oam ∧ p.advance.ntRam = p.ntRam := by
    rw [Ppu.advance_eq]
    exact ⟨rfl, rfl, rfl, rfl, rfl⟩
  rw [Ppu.tick_eq, ← hcourse.v, ← hcourse.t, ← hcourse.fineX, ← hplace.oam, ← hplace.ntRam]
  exact hadvance _

/-- A tick at dot 1 of a visible scanline latches and evaluates (R573, R579). -/
theorem Ppu.tick_of_latches (c : Option Cart) {p : Ppu} (h : p.Latches) :
    (p.tick c).latchedT = p.t ∧ (p.tick c).latchedFineX = p.fineX ∧ (p.tick c).activeSprites =
      ((List.finRange 64).filter fun n => p.inRange p.scanline (p.oamAt (4 * n.val))).take 8 := by
  have hline := p.tick_sameLine c
  rw [Ppu.events_of_latches h, Ppu.scanlineEvent_of_latches h] at hline
  exact ⟨hline.latchedT, hline.latchedFineX, hline.activeSprites.trans (Ppu.evaluateSprites_activeSprites _ _)⟩

/-- Elsewhere a tick keeps what was latched. -/
theorem Ppu.tick_of_not_latches (c : Option Cart) {p : Ppu} (h : ¬p.Latches) : PpuSameLine p (p.tick c) := by
  have hplace := p.vblankEvent_inPlace.trans p.vblankEvent.preRenderEvent_inPlace
  have hline := p.tick_sameLine c
  rw [Ppu.scanlineEvent_of_not_latches (by rwa [Ppu.Latches, hplace.scanline, hplace.dot])] at hline
  exact p.events_same.2.trans hline

/-- Settles O52: the count of dots goes on by one with each tick; what a tick does not look at commutes with it. -/
theorem ppuTicksCountFramesAndLatchScanlines : Obligations.PpuTicksCountFramesAndLatchScanlines := by
  refine ⟨?counts, ?latches⟩
  case counts =>
    intro c k p hline hdot
    obtain ⟨hl, hd, hcycles, hplace⟩ := ppuTicks_place c k hline hdot
    have hlast := Ppu.place_lt hl hd
    exact ⟨by omega, hl, hd, by omega, hcycles⟩
  case latches =>
    intro c p v t x q latches
    obtain ⟨hv, ht, hx, hoam, hnt⟩ := p.tick_registers c
    refine ⟨hv, ht, hx, hoam, hnt, ?v, fun hl => ?latched, fun hl => ?kept⟩
    case v =>
      have h : (p.withAddr v p.t p.fineX).tick c = q.withAddr v q.t q.fineX := by
        rw [Ppu.tick_withAddr c (.inr ⟨rfl, rfl⟩), ht, hx]
      exact h
    case latched =>
      obtain ⟨hT, hX, hsprites⟩ := Ppu.tick_of_latches c hl
      refine ⟨hT, hX, hsprites.trans ?_⟩
      simp only [Ppu.inRange_eq]
      rfl
    case kept =>
      have hline := Ppu.tick_of_not_latches c hl
      refine ⟨hline.latchedT, hline.latchedFineX, hline.activeSprites, ?_⟩
      have h : (p.withAddr p.v t x).tick c = q.withAddr q.v t x := by
        rw [Ppu.tick_withAddr c (.inl hl), hv]
      exact h

end Sys2Proof.Machine
end

section
/-! Every driver tick answers and keeps the machine's invariant (10_state.md, 54_console_driver.md): O57 and O58. Each
operation is related to what it keeps: `Sound` for the invariant without the clocks left, `Executes` for the first clock
of an instruction, `Ticks` for a whole clock or tick. -/

namespace Sys2Proof.Machine

/-! ## A relation between states -/

/-- What is kept of the invariant from `s` to `t`, the clocks left apart: the devices well formed, the parameters the
same, P's Unused and Break bits in place. -/
structure Sound (s t : State) : Prop where
  devices : s.devicesOk → t.devicesOk
  params : t.params = s.params
  status : s.cpu.statusOk = true → t.cpu.statusOk = true

theorem Sound.refl (s : State) : Sound s s := ⟨id, rfl, id⟩

theorem Sound.trans {s t u : State} (h : Sound s t) (k : Sound t u) : Sound s u :=
  ⟨k.devices ∘ h.devices, k.params.trans h.params, k.status ∘ h.status⟩

theorem Sound.mapStatus (s : State) {f : Cpu → Cpu} (hf : s.cpu.statusOk = true → (f s.cpu).statusOk = true) :
    Sound s (s.mapCpu f) := ⟨id, rfl, hf⟩

theorem Sound.mapCpu (s : State) {f : Cpu → Cpu} (hp : (f s.cpu).p = s.cpu.p) : Sound s (s.mapCpu f) :=
  .mapStatus s fun h => by rwa [Cpu.statusOk, hp]

theorem BodyKeeps.statusOk {regs : List Reg} {flags : List Flag} {g : Cpu → Cpu} (hg : BodyKeeps regs flags g)
    (c : Cpu) (hu : Flag.u ∉ flags := by decide) (hb : Flag.b ∉ flags := by decide)
    (hc : c.statusOk = true) : (g c).statusOk = true := by
  rwa [Cpu.statusOk, hg.flags _ .u hu, hg.flags _ .b hb]

theorem ReadOnly.sound {s t : State} (h : ReadOnly s t) : Sound s t :=
  ⟨h.devicesOk, h.params, fun hs => h.cpu ▸ hs⟩

theorem busWrite_sound (a : Word) (v : Byte) (s : State) : Sound s (busWrite a v s) :=
  ⟨fun h => busWrite_devicesOk h a v, busWrite_params a v s, fun h => (busWrite_cpu a v s).symm ▸ h⟩

/-- What the devices' part of the invariant looks at. -/
theorem SameDevices.devicesOk {u t : State} (h : SameDevices u t) (hu : u.devicesOk) : t.devicesOk := by
  rwa [State.devicesOk, State.memoriesOk, h.bus, h.ppu, h.apu, h.cart, h.params]

/-- P's Unused and Break bits are in place where an instruction keeps them. -/
theorem Keeps.statusOk {regs : List Reg} {flags : List Flag} {s t : State} (h : Keeps regs flags s t)
    (hu : Flag.u ∉ flags) (hb : Flag.b ∉ flags) (hs : s.cpu.statusOk = true) : t.cpu.statusOk = true := by
  rwa [Cpu.statusOk, h.flags .u hu, h.flags .b hb]

/-- A pulled P has Unused 1 and Break 0, whatever was pulled (R25). -/
theorem pulledP_statusOk {c : Cpu} {m : Byte} (h : c.p = pulledP m) : c.statusOk = true := by
  simp [Cpu.statusOk, h, getFlag_pulledP]

/-! ## Instructions -/

/-- What running an instruction keeps of the invariant: with no store under way before it, the clocks left after its
first clock are right for what it started. -/
structure Executes (s t : State) : Prop extends Sound s t where
  timing : s.cpu.sh.active = false → t.cpu.endClock.timingOk = true

theorem runs.mono {i : Instr} {s : State} {post post' : State → Prop} (h : runs i s post)
    (himp : ∀ t, post t → post' t) : runs i s post' :=
  h.imp fun t ht => ht.imp_right (himp t)

theorem Cpu.timingOk_of_inactive {c : Cpu} (hclocks : c.cyclesRemaining ≤ 8) (hactive : c.sh.active = false) :
    c.timingOk = true := by
  simp [Cpu.timingOk, hclocks, hactive]

/-- An instruction that starts no store and takes at most eight clocks. -/
theorem endClock_timingOk {s t : State} (hclocks : t.cpu.cyclesRemaining ≤ 8) (hsh : t.cpu.sh = s.cpu.sh)
    (hactive : s.cpu.sh.active = false) : t.cpu.endClock.timingOk = true :=
  Cpu.timingOk_of_inactive ((Nat.sub_le _ _).trans hclocks) ((congrArg Sh.active hsh).trans hactive)

theorem readCycles_le (m : MemMode) (crossed : Bool) : readCycles m crossed ≤ 6 := by
  have hc := Bool.toNat_le crossed
  cases m <;> simp only [readCycles] <;> omega

theorem readMode_cycles_le (m : ReadMode) (s : State) : (readMode m s).cycles ≤ 6 := by
  cases m with
  | imm v => exact Nat.le_add_left 2 4
  | mem m => exact readCycles_le m _

theorem writeCycles_le (m : MemMode) : writeCycles m ≤ 6 := by cases m <;> simp [writeCycles]

theorem rmwCycles_le (m : MemMode) : rmwCycles m ≤ 8 := by cases m <;> simp [rmwCycles]

/-- From what an instruction leaves in the devices, in P and in the store's context, and the clocks it takes, as the
shapes of Safety.lean state them. -/
theorem Sound.executes {s u t : State} {regs : List Reg} {flags : List Flag} (h : Sound s u) (hd : SameDevices u t)
    (hk : Keeps regs flags s t) (hclocks : t.cpu.cyclesRemaining ≤ 8) (hu : Flag.u ∉ flags := by decide)
    (hb : Flag.b ∉ flags := by decide) : Executes s t where
  devices := fun hs => hd.devicesOk (h.devices hs)
  params := hd.params.trans h.params
  status := hk.statusOk hu hb
  timing := endClock_timingOk hclocks hk.sh

section Shapes

variable {regs : List Reg} {flags : List Flag} {s t : State}

theorem RegistersOnly.executes {n : Nat} (h : RegistersOnly regs flags n s t) (hn : n ≤ 8 := by decide)
    (hu : Flag.u ∉ flags := by decide) (hb : Flag.b ∉ flags := by decide) : Executes s t :=
  (Sound.refl s).executes h.devices h.keeps (h.takes.clocks ▸ hn) hu hb

theorem ReadsOperand.executes {m : ReadMode} (h : ReadsOperand regs flags m s t)
    (hu : Flag.u ∉ flags := by decide) (hb : Flag.b ∉ flags := by decide) : Executes s t :=
  (readMode_readOnly m s).sound.executes h.devices h.keeps
    (h.takes.clocks ▸ (readMode_cycles_le m s).trans (by decide)) hu hb

theorem StoresOperand.executes {m : MemMode} {v : Byte} (h : StoresOperand m v s t) : Executes s t :=
  ((beforeStore_readOnly m s).sound.trans (busWrite_sound _ _ _)).executes h.devices h.keeps
    (h.takes.clocks ▸ (writeCycles_le m).trans (by decide))

theorem ModifiesOperand.executes {m : MemMode} {new : Byte} (h : ModifiesOperand regs flags m new s t)
    (hu : Flag.u ∉ flags := by decide) (hb : Flag.b ∉ flags := by decide) : Executes s t :=
  have hfirst : ReadOnly s (rmwFirst m s) := (beforeStore_readOnly m s).trans (busRead_readOnly _ _)
  ((hfirst.sound.trans (busWrite_sound _ _ _)).trans (busWrite_sound _ _ _)).executes h.devices h.keeps
    (h.takes.clocks ▸ rmwCycles_le m) hu hb

theorem Branches.executes {taken : Bool} {off : Byte} (h : Branches taken off s t) : Executes s t :=
  (Sound.refl s).executes h.devices h.keeps (by rw [h.clocks]; split_ifs <;> decide)

/-- A store begins at step 2 with all its clocks left, of which its first clock takes one (R400). -/
theorem StartsStore.executes {op : ShOp} (h : StartsStore op s t) : Executes s t where
  devices := h.devices.devicesOk
  params := h.devices.params
  status := fun hs => by rwa [Cpu.statusOk, h.status]
  timing := fun _ => by
    simp only [Cpu.timingOk, Cpu.endClock, h.active, h.which, h.step, h.clocks]
    cases op <;> decide

end Shapes

/-! The stack's operations, and the instructions made of them. -/

/-- Pulls move SP and set the latch. -/
theorem State.afterPulls_sound (s : State) (v sp : Byte) : Sound s (s.afterStack s.bus.ram v sp) := ⟨id, rfl, id⟩

theorem push_sound (v : Byte) (s : State) : Sound s (push v s) := (busWrite_sound _ _ _).trans (.mapCpu _ rfl)

theorem pushWord_sound (w : Word) (s : State) : Sound s (pushWord w s) := (push_sound _ _).trans (push_sound _ _)

/-- An entry writes the stack page, sets I alone of P and reads its vector. -/
theorem takeEvent_sound (e : Event) (s : State) : Sound s (takeEvent e s) := by
  have hpushed := (pushWord_sound s.cpu.pc s).trans (push_sound (e.pushedP (pushWord s.cpu.pc s).cpu.p) _)
  have hmasked := hpushed.trans (.mapStatus _ ((BodyKeeps.withFlag .i true).statusOk _))
  exact (hmasked.trans (readVector_readOnly e.vector _).sound).trans
    (.mapCpu (f := fun c => { c with pc := (readVector e.vector _).1 }) _ rfl)

/-- A body and its timing after operations that leave the store's context alone. -/
theorem Sound.executesBody {s u : State} {g : Cpu → Cpu} {n : Nat} {pollAt : List Nat} (h : Sound s u)
    (hu : u.cpu.sh = s.cpu.sh) (hsh : (g u.cpu).sh = u.cpu.sh)
    (hstatus : u.cpu.statusOk = true → (g u.cpu).statusOk = true) (hn : n ≤ 8) :
    Executes s (u.mapCpu fun c => (g c).setTiming n pollAt) :=
  ⟨h.trans (.mapStatus _ hstatus), endClock_timingOk hn (hsh.trans hu)⟩

theorem push_executes (v : Byte) (s : State) : Executes s ((push v s).mapCpu (Cpu.setGeneral 3)) :=
  (push_sound _ s).executesBody (by rw [push_eq]; rfl) rfl id (by decide)

theorem pla_executes (s : State) : runs .pla s (Executes s) :=
  ⟨_, exec_pla s,
    (s.afterPulls_sound _ _).executesBody rfl rfl ((BodyKeeps.load [.a] fun _ => _).statusOk _) (by decide)⟩

theorem plp_executes (s : State) : runs .plp s (Executes s) :=
  ⟨_, exec_plp s, (s.afterPulls_sound _ _).executesBody rfl rfl (fun _ => pulledP_statusOk rfl) (by decide)⟩

theorem rti_executes (s : State) : runs .rti s (Executes s) :=
  ⟨_, exec_rti s, (s.afterPulls_sound _ _).executesBody rfl rfl (fun _ => pulledP_statusOk rfl) (by decide)⟩

theorem rts_executes (s : State) : runs .rts s (Executes s) :=
  ⟨_, exec_rts s, (s.afterPulls_sound _ _).executesBody rfl rfl id (by decide)⟩

theorem jsr_executes (w : Word) (s : State) : runs (.jsr w) s (Executes s) := by
  obtain ⟨⟨-, jsr⟩, -⟩ := callAndReturn
  have hcalled := (busRead_readOnly (stackAddr s.cpu.sp) s).sound.trans (pushWord_sound s.cpu.pc _)
  exact (jsr w s).mono fun _ ⟨_, _, _, _, _, _, hk, hd, hn⟩ =>
    (hcalled.trans (busRead_readOnly _ _).sound).executes hd hk (hn.clocks ▸ by decide)

theorem brk_executes (s : State) : runs .brk s (Executes s) :=
  ⟨_, rfl,
    ((Sound.mapCpu s rfl).trans (takeEvent_sound .brk _)).executesBody (by rw [takeEvent_cpu]; rfl) rfl id (by decide)⟩

/-- The NOP forms that read their operand (R366 to R370). -/
theorem nopReads_executes (m : ReadMode) (s : State) : Executes s (readOp m (fun _ c => c) s) :=
  (readOp_reads (fun _ => BodyKeeps.id [] []) (fun _ _ => rfl) m s).executes

/-- Every instruction answers a next state that keeps the invariant: by the shape of each. -/
theorem exec_executes (i : Instr) (s : State) : runs i s (Executes s) := by
  obtain ⟨⟨-, -, -, lda, ldx, ldy⟩, -, lax, lae⟩ := loadsPutTheirOperandInRegisters
  obtain ⟨⟨-, -, -, -, -, -, tax, tay, txa, tya, tsx, txs⟩, -, -, -, -, inx, iny, dex, dey⟩ :=
    transfersAndRegisterCounts
  obtain ⟨-, adc⟩ := adcAddsInBinary
  obtain ⟨-, sbc, -⟩ := sbcSubtractsWithBorrow
  obtain ⟨-, -, -, and, ora, eor⟩ := logicCombinesWithA
  obtain ⟨⟨-, -, -, cmp, cpx, cpy⟩, -, bit⟩ := comparesAndBitSetOnlyFlags
  obtain ⟨-, -, inc, dec⟩ := incDecMemory
  obtain ⟨-, -, -, -, aslA, lsrA, rolA, rorA, asl, lsr, rol, ror⟩ := shiftsMoveOneBit
  obtain ⟨-, jmp, jmpInd⟩ := jumpsSetPc
  obtain ⟨-, -, -, -, -, -, -, -, clc, sec, cli, sei, cld, sed, clv, nop⟩ := flagInstructionsChangeOneFlag
  obtain ⟨⟨-, -, -, -, slo, rla, sre, rra⟩, -, -, dcp, isc⟩ := modifyAndCombine
  cases i with
  -- Loads, stores, transfers and the stack (40_load_store_transfer.md), with the calls and returns (42).
  | lda m => exact (lda m s).mono fun _ ⟨_, _, h⟩ => h.executes
  | ldx m => exact (ldx m s).mono fun _ ⟨_, _, h⟩ => h.executes
  | ldy m => exact (ldy m s).mono fun _ ⟨_, _, h⟩ => h.executes
  | sta m => exact ⟨_, rfl, (writeOp_stores m _ s).executes⟩
  | stx m => exact ⟨_, rfl, (writeOp_stores m _ s).executes⟩
  | sty m => exact ⟨_, rfl, (writeOp_stores m _ s).executes⟩
  | sax m => exact ⟨_, rfl, (writeOp_stores m _ s).executes⟩
  | tax => exact (tax s).mono fun _ ⟨_, _, h⟩ => h.executes
  | tay => exact (tay s).mono fun _ ⟨_, _, h⟩ => h.executes
  | txa => exact (txa s).mono fun _ ⟨_, _, h⟩ => h.executes
  | tya => exact (tya s).mono fun _ ⟨_, _, h⟩ => h.executes
  | tsx => exact (tsx s).mono fun _ ⟨_, _, h⟩ => h.executes
  | txs => exact (txs s).mono fun _ ⟨_, h⟩ => h.executes
  | inx => exact (inx s).mono fun _ ⟨_, _, h⟩ => h.executes
  | iny => exact (iny s).mono fun _ ⟨_, _, h⟩ => h.executes
  | dex => exact (dex s).mono fun _ ⟨_, _, h⟩ => h.executes
  | dey => exact (dey s).mono fun _ ⟨_, _, h⟩ => h.executes
  | pha => exact ⟨_, rfl, push_executes _ s⟩
  | php => exact ⟨_, rfl, push_executes _ s⟩
  | pla => exact pla_executes s
  | plp => exact plp_executes s
  | rts => exact rts_executes s
  | rti => exact rti_executes s
  | brk => exact brk_executes s
  | jsr w => exact jsr_executes w s
  -- Arithmetic, logic and shifts (41_arithmetic_logic.md).
  | adc m => exact (adc m s).mono fun _ ⟨_, _, _, _, h⟩ => h.executes
  | sbc m => exact (sbc m s).mono fun _ ⟨_, _, _, _, h⟩ => h.executes
  | and m => exact (and m s).mono fun _ ⟨_, _, h⟩ => h.executes
  | ora m => exact (ora m s).mono fun _ ⟨_, _, h⟩ => h.executes
  | eor m => exact (eor m s).mono fun _ ⟨_, _, h⟩ => h.executes
  | cmp m => exact (cmp m s).mono fun _ ⟨_, _, _, h⟩ => h.executes
  | cpx m => exact (cpx m s).mono fun _ ⟨_, _, _, h⟩ => h.executes
  | cpy m => exact (cpy m s).mono fun _ ⟨_, _, _, h⟩ => h.executes
  | bit m => exact (bit m s).mono fun _ ⟨_, _, _, h⟩ => h.executes
  | inc m => exact (inc m s).mono fun _ ⟨_, h⟩ => h.executes
  | dec m => exact (dec m s).mono fun _ ⟨_, h⟩ => h.executes
  | asl m =>
    cases m with
    | acc => exact (aslA s).mono fun _ ⟨_, _, _, h⟩ => h.executes
    | mem m => exact (asl m s).mono fun _ ⟨_, _, h⟩ => h.executes
  | lsr m =>
    cases m with
    | acc => exact (lsrA s).mono fun _ ⟨_, _, _, h⟩ => h.executes
    | mem m => exact (lsr m s).mono fun _ ⟨_, _, h⟩ => h.executes
  | rol m =>
    cases m with
    | acc => exact (rolA s).mono fun _ ⟨_, _, _, h⟩ => h.executes
    | mem m => exact (rol m s).mono fun _ ⟨_, _, h⟩ => h.executes
  | ror m =>
    cases m with
    | acc => exact (rorA s).mono fun _ ⟨_, _, _, h⟩ => h.executes
    | mem m => exact (ror m s).mono fun _ ⟨_, _, h⟩ => h.executes
  -- Jumps, branches and flags (42_control_flow_flags.md).
  | jmp w => exact (jmp w s).mono fun _ ⟨_, hk, hd, hn⟩ => (Sound.refl s).executes hd hk (hn.clocks ▸ by decide)
  | jmpInd w =>
    exact (jmpInd w s).mono fun _ ⟨_, hk, hd, _, hn⟩ =>
      ((busRead_readOnly _ _).trans (busRead_readOnly _ _)).sound.executes hd hk (hn.clocks ▸ by decide)
  | bpl off => exact ⟨_, rfl, (branchIf_branches _ off s).executes⟩
  | bmi off => exact ⟨_, rfl, (branchIf_branches _ off s).executes⟩
  | bvc off => exact ⟨_, rfl, (branchIf_branches _ off s).executes⟩
  | bvs off => exact ⟨_, rfl, (branchIf_branches _ off s).executes⟩
  | bcc off => exact ⟨_, rfl, (branchIf_branches _ off s).executes⟩
  | bcs off => exact ⟨_, rfl, (branchIf_branches _ off s).executes⟩
  | bne off => exact ⟨_, rfl, (branchIf_branches _ off s).executes⟩
  | beq off => exact ⟨_, rfl, (branchIf_branches _ off s).executes⟩
  | clc => exact (clc s).mono fun _ ⟨_, h⟩ => h.executes
  | sec => exact (sec s).mono fun _ ⟨_, h⟩ => h.executes
  | cli => exact (cli s).mono fun _ ⟨_, h⟩ => h.executes
  | sei => exact (sei s).mono fun _ ⟨_, h⟩ => h.executes
  | cld => exact (cld s).mono fun _ ⟨_, h⟩ => h.executes
  | sed => exact (sed s).mono fun _ ⟨_, h⟩ => h.executes
  | clv => exact (clv s).mono fun _ ⟨_, h⟩ => h.executes
  | nop => exact (nop s).mono fun _ h => h.executes
  -- Unofficial instructions (43_unofficial.md).
  | slo m => exact (slo m s).mono fun _ ⟨_, _, _, h⟩ => h.executes
  | rla m => exact (rla m s).mono fun _ ⟨_, _, _, h⟩ => h.executes
  | sre m => exact (sre m s).mono fun _ ⟨_, _, _, h⟩ => h.executes
  | rra m => exact (rra m s).mono fun _ ⟨_, _, _, _, h⟩ => h.executes
  | dcp m => exact (dcp m s).mono fun _ ⟨_, _, h⟩ => h.executes
  | isc m => exact (isc m s).mono fun _ ⟨_, _, _, _, h⟩ => h.executes
  | lax m => exact (lax m s).mono fun _ ⟨_, _, _, h⟩ => h.executes
  | lae base =>
    obtain ⟨hi, lo, rfl⟩ := exists_bytes base
    exact (lae lo hi s).2.mono fun _ ⟨_, _, _, _, h⟩ => h.executes
  | anc op m => exact (runs_anc op m s).mono fun _ ⟨_, _, _, h⟩ => h.executes
  | asr m => exact (runs_asr m s).mono fun _ ⟨_, _, _, _, h⟩ => h.executes
  | arr m => exact (runs_arr m s).mono fun _ ⟨_, _, _, _, h⟩ => h.executes
  | axs m => exact (runs_axs m s).mono fun _ ⟨_, _, _, h⟩ => h.executes
  | ane m =>
    obtain ⟨-, -, ane, -⟩ := openConstantInstructions m s
    exact ane.mono fun _ ⟨_, _, _, _, h⟩ => h.executes
  | lxa m =>
    obtain ⟨-, -, -, lxa⟩ := openConstantInstructions m s
    exact lxa.mono fun _ ⟨_, _, _, _, h⟩ => h.executes
  | sbcMirror v => exact (sbc (.imm v) s).mono fun _ ⟨_, _, _, _, h⟩ => h.executes
  | nopImplied op => exact (nop s).mono fun _ h => h.executes
  | nopUnknown op => exact (nop s).mono fun _ h => h.executes
  | nopImm op v => exact ⟨_, rfl, nopReads_executes (.imm v) s⟩
  | nopRead op m => exact ⟨_, rfl, nopReads_executes (.mem m) s⟩
  | nopAbx op w => exact ⟨_, rfl, nopReads_executes (.mem (.abx w)) s⟩
  -- Unstable stores (44_unstable_stores.md).
  | shaIzy z => exact ⟨_, rfl, (startSh_startsStore .shaIzy s).executes⟩
  | shaAby w => exact ⟨_, rfl, (startSh_startsStore .shaAby s).executes⟩
  | shx w => exact ⟨_, rfl, (startSh_startsStore .shx s).executes⟩
  | shy w => exact ⟨_, rfl, (startSh_startsStore .shy s).executes⟩
  | shs w => exact ⟨_, rfl, (startSh_startsStore .shs s).executes⟩

/-! ## The unstable stores -/

theorem shFetch_sound (f : Byte → Sh → Sh) (s : State) : Sound s (shFetch f s) :=
  ((busRead_readOnly s.cpu.pc s).sound.trans (.mapCpu _ rfl)).trans (.mapCpu _ rfl)

theorem shLoad_sound (z : Byte) (f : Byte → Sh → Sh) (s : State) : Sound s (shLoad z f s) :=
  (busRead_readOnly _ s).sound.trans (.mapCpu _ rfl)

theorem shWrite_sound (s : State) : Sound s (shWrite s) := by
  rw [shWrite_eq]
  exact (busWrite_sound _ _ s).trans (.mapCpu _ (by rw [Cpu.shsStack_eq]; rfl))

theorem shStep_sound (s : State) : Sound s (shStep s) := by
  unfold shStep
  split
  case h_1 | h_7 | h_8 => exact shFetch_sound _ s
  case h_2 | h_3 => exact shLoad_sound _ _ s
  case h_4 | h_9 => exact (busRead_readOnly _ s).sound
  case h_5 | h_10 => exact shWrite_sound s
  case h_6 | h_11 => exact Sound.refl s

theorem shClock_sound (s : State) : Sound s (shClock s) := by
  have hpolled : Sound s s.shPolled := by
    unfold State.shPolled
    split
    · exact Sound.mapCpu s rfl
    · exact Sound.refl s
  rw [shClock_eq]
  exact (hpolled.trans (shStep_sound _)).trans (.mapCpu _ rfl)

/-- While a store is under way, `timingOk` bounds its pending step by the clocks left (R400, R401). -/
theorem Cpu.timingOk_iff_of_active {c : Cpu} (h : c.sh.active = true) : c.timingOk = true ↔
    c.cyclesRemaining ≤ 8 ∧ 2 ≤ c.sh.step ∧ c.sh.step ≤ c.sh.op.steps ∧
      c.cyclesRemaining + c.sh.step = c.sh.op.steps + 1 := by
  simp [Cpu.timingOk, h, and_assoc]

/-- A clock of a store takes one step and one of the clocks left (R400). -/
theorem shClock_timingOk {s : State} (hactive : s.cpu.sh.active = true) (h : s.cpu.timingOk = true) :
    (shClock s).cpu.endClock.timingOk = true := by
  obtain ⟨hclocks, hlow, hhigh, hsum⟩ := (Cpu.timingOk_iff_of_active hactive).mp h
  obtain ⟨hstep, hop, hlast, hbefore⟩ := shClock_sh s
  obtain ⟨hremaining, -⟩ := shClock_timing s
  have hended : (shClock s).cpu.endClock.cyclesRemaining = s.cpu.cyclesRemaining - 1 := by
    rw [Cpu.endClock, hremaining]
  by_cases hw : s.cpu.sh.step = s.cpu.sh.op.steps
  · exact Cpu.timingOk_of_inactive (by omega) (hlast hw)
  · refine (Cpu.timingOk_iff_of_active (c := (shClock s).cpu.endClock) ((hbefore hw).trans hactive)).mpr ?_
    rw [hended, show (shClock s).cpu.endClock.sh = (shClock s).cpu.sh from rfl, hstep, hop]
    omega

/-! ## The CPU's turn -/

/-- What the fetch of an instruction leaves alone of the invariant: it reads, and moves PC. -/
structure Fetches (s t : State) : Prop extends Sound s t where
  sh : t.cpu.sh = s.cpu.sh

theorem Fetches.trans {s t u : State} (h : Fetches s t) (k : Fetches t u) : Fetches s u :=
  ⟨h.toSound.trans k.toSound, k.sh.trans h.sh⟩

theorem fetchByte_fetches (s : State) : Fetches s (fetchByte s).2 :=
  ⟨(busRead_readOnly s.cpu.pc s).sound.trans (.mapCpu _ (f := fun c => { c with pc := c.pc + 1 }) rfl),
    by simp [fetchByte]⟩

theorem operandByte_fetches (early k : Nat) (a : Word) (s : State) : Fetches s (operandByte early k a s).2 := by
  unfold operandByte
  split
  · exact fetchByte_fetches s
  · exact ⟨Sound.refl s, rfl⟩

theorem fetch_fetches (s : State) : Fetches s (fetch s).2 :=
  ((fetchByte_fetches s).trans (operandByte_fetches _ _ _ _)).trans (operandByte_fetches _ _ _ _)

theorem interruptEntry_executes (e : Event) {s : State} {f : Cpu → Cpu} (hp : (f s.cpu).p = s.cpu.p)
    (hsh : (f s.cpu).sh = s.cpu.sh) : Executes s (interruptEntry e (s.mapCpu f)) :=
  ((Sound.mapCpu s hp).trans (takeEvent_sound e _)).executesBody (by rw [takeEvent_cpu]; exact hsh) rfl id (by decide)

/-- An instruction boundary answers, whatever it recognises (R762). -/
theorem cpuBoundary_executes (s : State) : ∃ t, cpuBoundary s = .next t ∧ Executes s t := by
  unfold cpuBoundary
  split_ifs
  · exact ⟨_, rfl, interruptEntry_executes .nmi rfl rfl⟩
  · exact ⟨_, rfl, interruptEntry_executes .irq rfl rfl⟩
  · obtain ⟨t, ht, hexec⟩ := exec_executes (fetch s).1 (fetch s).2
    have hfetch := fetch_fetches s
    exact ⟨t, ht, hfetch.toSound.trans hexec.toSound, fun h => hexec.timing (hfetch.sh ▸ h)⟩

/-- What a tick of the machine keeps: the invariant, and so the parameters too. -/
structure Ticks (s t : State) : Prop extends Sound s t where
  timing : s.cpu.timingOk = true → t.cpu.timingOk = true

theorem Ticks.trans {s t u : State} (h : Ticks s t) (k : Ticks t u) : Ticks s u :=
  ⟨h.toSound.trans k.toSound, k.timing ∘ h.timing⟩

/-- Every CPU clock answers: a clock of a store, a boundary, or an idle clock (R743). -/
theorem cpuClock_ticks (s : State) : ∃ t, cpuClock s = .next t ∧ Ticks s t := by
  by_cases hactive : s.cpu.sh.active = true
  · exact ⟨_, cpuClock_active hactive, (shClock_sound s).trans (.mapCpu _ rfl), shClock_timingOk hactive⟩
  have hinactive : s.cpu.sh.active = false := by simpa using hactive
  by_cases hdone : s.cpu.cyclesRemaining = 0
  · obtain ⟨t, ht, hexec⟩ := cpuBoundary_executes s
    exact ⟨_, (cpuClock_boundary hinactive hdone).trans (congrArg _ ht), hexec.toSound.trans (.mapCpu _ rfl),
      fun _ => hexec.timing hinactive⟩
  · obtain ⟨hp, hsh, hremaining, -⟩ := s.cpu.idle_keeps
    refine ⟨_, cpuClock_idle hinactive (Nat.pos_of_ne_zero hdone), (Sound.mapCpu s hp).trans (.mapCpu _ rfl),
      fun h => ?_⟩
    have hclocks : s.cpu.cyclesRemaining ≤ 8 := by
      simp only [Cpu.timingOk, Bool.and_eq_true, decide_eq_true_eq] at h
      exact h.1
    exact Cpu.timingOk_of_inactive ((Nat.sub_le _ 1).trans (hremaining.trans_le hclocks))
      ((congrArg Sh.active hsh).trans hinactive)

/-- A halt cycle counts, and may record itself or end a store (R402). -/
theorem cpuHalt_ticks (s : State) : Ticks s (cpuHalt s) := by
  have hcount : Ticks s (s.mapCpu fun c => { c with cycleCount := c.cycleCount + 1 }) := ⟨.mapCpu s rfl, id⟩
  unfold cpuHalt
  dsimp only
  split
  case isFalse => exact hcount
  refine hcount.trans ?_
  generalize (s.mapCpu fun c => { c with cycleCount := c.cycleCount + 1 }) = u
  by_cases htwo : u.cpu.sh.step + 2 = u.cpu.sh.op.steps
  · rw [shHalt_twoBefore htwo]
    exact ⟨.mapCpu u rfl, id⟩
  by_cases hlast : u.cpu.sh.step = u.cpu.sh.op.steps
  · rw [shHalt_last hlast]
    exact ⟨(shWrite_sound u).trans (.mapCpu _ rfl),
      fun _ => Cpu.timingOk_of_inactive (Nat.zero_le 8) (by rw [State.mapCpu_cpu, shWrite_cpu])⟩
  · rw [shHalt_of_ne hlast htwo]
    exact ⟨Sound.refl u, id⟩

theorem cpuPhase_ticks (s : State) : ∃ t, cpuPhase s = .next t ∧ Ticks s t := by
  unfold cpuPhase
  split
  · have hstall : Ticks s { s with apu := { s.apu with stallPending := s.apu.stallPending - 1 } } :=
      ⟨⟨id, rfl, id⟩, id⟩
    exact ⟨_, rfl, hstall.trans (cpuHalt_ticks _)⟩
  · exact cpuClock_ticks s

/-! ## The other devices' turns -/

theorem ppuTurn_ticks (s : State) : Ticks s (ppuTurn s) where
  devices := fun ⟨hplace, hapu, hmem⟩ => by
    simp only [State.memoriesOk, Bool.and_eq_true] at hmem
    simp only [State.devicesOk, State.memoriesOk, ppuTurn_ppu, ppuTurn_apu, ppuTurn_bus, ppuTurn_cart, ppuTurn_params,
      Bool.and_eq_true]
    exact ⟨Ppu.placeOk_of (Ppu.tick_placeOk s.cart hplace) rfl rfl rfl, hapu,
      ⟨hmem.1.1, Ppu.memoriesOk_of (Ppu.tick_memoriesOk s.cart hmem.1.2) rfl rfl⟩, hmem.2⟩
  params := ppuTurn_params s
  status := by rw [ppuTurn_cpu]; exact id
  timing := by rw [ppuTurn_cpu]; exact id

theorem apuPhase_ticks (s : State) : Ticks s (apuPhase s) where
  devices := fun ⟨hplace, hapu, hmem⟩ => by
    simp only [State.devicesOk, State.memoriesOk, apuPhase_ppu, apuPhase_apu, apuPhase_bus, apuPhase_cart,
      apuPhase_params]
    exact ⟨hplace, (Apu.clock_keeps _ _ _ _).ok hapu, hmem⟩
  params := apuPhase_params s
  status := by rw [apuPhase_cpu]; exact id
  timing := by rw [apuPhase_cpu]; exact id

/-- Every driver tick answers and keeps the invariant: the PPU's turn, the CPU's, the APU's (R740). -/
theorem step_ticks (s : State) : ∃ t, step s = .next t ∧ Ticks s t := by
  have hppu : Ticks s (ppuPhase s) := ((ppuTurn_ticks s).trans (ppuTurn_ticks _)).trans (ppuTurn_ticks _)
  obtain ⟨t, ht, hcpu⟩ := cpuPhase_ticks (ppuPhase s)
  exact ⟨apuPhase t, by rw [step, driverTick, ht, mapNext_next], (hppu.trans hcpu).trans (apuPhase_ticks t)⟩

/-- Settles O58: every tick answers. -/
theorem stepAlwaysAnswers : Obligations.StepAlwaysAnswers := fun s =>
  (step_ticks s).imp fun _ h => h.1

theorem Ticks.ok {s t : State} (h : Ticks s t) (hs : s.ok = true) : t.ok = true := by
  rw [State.ok_iff] at hs ⊢
  exact ⟨h.devices hs.1, h.status hs.2.1, h.timing hs.2.2⟩

/-- Settles O57: a step is the tick that answers. -/
theorem stepKeepsTheInvariant : Obligations.StepKeepsTheInvariant := by
  intro s t hs ht
  obtain ⟨u, hu, hticks⟩ := step_ticks s
  cases hu.symm.trans ht
  exact ⟨hticks.ok hs, hticks.params⟩

end Sys2Proof.Machine
end

section
/-! Reset and the host's operations (70_reset_and_hazards.md section 1, 54_console_driver.md, 51_cartridge_mappers.md
section 1): O56, O59 and O60. -/

namespace Sys2Proof.Machine

/-! ## The console reset -/

/-- The state in which the reset reads its vector (R800). -/
def State.resetDevices (s : State) : State :=
  { s with cart := s.cart.map Cart.resetHook, bus := s.bus.resetKeeping, ppu := s.ppu.resetKeeping, apu := Apu.reset }

/-- A vector above the devices' registers leaves its high byte on the bus, and nothing else (R431). -/
theorem readVector_high {a : Word} (s : State) (ha : 0x4020 ≤ a.toNat) (hb : 0x4020 ≤ (a + 1).toNat) :
    (readVector a s).2 = s.latch (hiByte (readVector a s).1) := by
  simp only [readVector, busRead_high _ hb, busRead_high _ ha, hiByte_mkWord, State.latch_latch]

/-- Everything a console reset does: the devices' resets, and the CPU's at the vector, whose reads set the latch (R800,
R802). -/
theorem consoleReset_eq_latch (s : State) : consoleReset s =
    (s.resetDevices.latch (hiByte (readVector resetVector s.resetDevices).1)).mapCpu fun c =>
      { Cpu.reset (readVector resetVector s.resetDevices).1 with sh := { c.sh with active := false } } := by
  rw [consoleReset, cpuReset, ← readVector_high _ (by decide) (by decide)]
  rfl

/-- The reset hook's registers, mapper by mapper (R62 to R64, R489). -/
theorem Cart.resetHook_eq (c : Cart) : c.resetHook = { c with
    mirroring := c.headerMirroring
    mapper := match c.mapper with
      | .nrom => .nrom
      | .mmc1 _ => .mmc1 { shift := 0x10, control := 0x0C, chrBank0 := 0, chrBank1 := 0, prgBank := 0 }
      | .uxrom _ => .uxrom 0
      | .cnrom _ => .cnrom 0
      | .mmc3 _ => .mmc3 {
          bankSelect := 0, r := #v[0, 0, 0, 0, 0, 0, 0, 0], prgRamEnable := true, prgRamWriteProtect := false } } := by
  rw [Cart.resetHook]
  cases c.mapper <;> rfl

/-- A reset keeps every array but the nametables (R803, R805, R806). -/
theorem State.resetDevices_peek (s : State) {sp : Space} (h : sp ≠ .nametable) (i : Nat) :
    s.resetDevices.peek sp i = s.peek sp i := by
  have hcart (f : Cart → Memory) (hf : ∀ c : Cart, f c.resetHook = f c) :
      s.resetDevices.peekCart f i = s.peekCart f i := by
    simp only [State.peekCart, State.resetDevices]
    cases s.cart with
    | none => rfl
    | some c => exact congrArg (Memory.read · i) (hf c)
  cases sp with
  | nametable => exact absurd rfl h
  | ram | palette | oam => rfl
  | prgRam | prgRom | chr => exact hcart _ fun _ => rfl

/-- At and above 0x8000 storage is PRG-ROM (R484, R485). -/
theorem storage_prgRom {a : Word} {s : State} {c : Cart} (hcart : s.cart = some c) (ha : 0x8000 ≤ a.toNat) :
    s.storage a = some (Memory.read c.prgRom (c.prgRomOffset a.toNat)) := by
  rw [State.storage, if_neg (by omega), hcart]
  simp only [Cart.mapRead, if_neg (show ¬a.toNat < 0x6000 by omega), if_neg (show ¬a.toNat < 0x8000 by omega)]

/-- Settles O56: the vector is two reads of PRG-ROM, or of nothing; the rest is each device's own reset. -/
theorem resetLeavesTheStatedState : Obligations.ResetLeavesTheStatedState := by
  intro s t
  have ht : t = _ := consoleReset_eq_latch s
  clear_value t
  subst ht
  refine ⟨rfl, rfl, rfl, rfl, rfl, rfl, rfl, rfl, rfl, rfl, rfl, rfl, fun hnone => ?absent, fun c hsome => ?vector, rfl,
    rfl, rfl, ?cart, rfl, fun sp i h => s.resetDevices_peek h i, fun _ => rfl⟩
  case absent =>
    have hcart : s.resetDevices.cart = none := congrArg (Option.map Cart.resetHook) hnone
    show (readVector resetVector s.resetDevices).1 = 0
    rw [readVector, busRead_absent (a := resetVector) hcart (by decide),
      busRead_absent (a := resetVector + 1) (s := s.resetDevices.latch 0) hcart (by decide)]
    exact (by decide : mkWord 0 0 = 0)
  case vector =>
    have hcart : s.resetDevices.cart = some c.resetHook := congrArg (Option.map Cart.resetHook) hsome
    show (readVector resetVector s.resetDevices).1 = _
    exact readVector_storage (storage_prgRom hcart (a := resetVector) (by decide))
      (storage_prgRom hcart (a := resetVector + 1) (by decide))
  case cart => exact congrArg (Option.map · s.cart) (funext Cart.resetHook_eq)

/-! ## The invariant after a reset -/

theorem Apu.reset_ok (k : Params) : Apu.reset.ok k = true := by
  simp [Apu.ok, Apu.reset, Pulse.reset, Noise.reset, Envelope.reset, Dmc.reset]

theorem Cart.ok_resetHook {c : Cart} (h : c.ok = true) : c.resetHook.ok = true := by
  simp only [Cart.ok, Cart.resetHook, Bool.and_eq_true] at h ⊢
  refine ⟨h.1, ?_⟩
  cases c.headerMirroring <;> rfl

theorem cartOk_map_resetHook {c : Option Cart} (h : cartOk c = true) : cartOk (c.map Cart.resetHook) = true := by
  cases c with
  | none => rfl
  | some c => exact Cart.ok_resetHook h

/-- The array an image's slice makes lies inside the slice's size. -/
theorem imageSlice_ok (image : List Byte) (start size : Nat) : Memory.ok size (imageSlice image start size) = true := by
  have hwithin := Memory.within_ofBytesFrom ((image.drop start).take size) 0 size
    (by rw [Nat.zero_add]; exact List.length_take_le _ _)
  simp only [Memory.ok, Bool.and_eq_true]
  exact ⟨Memory.wf_ofBytes _, hwithin⟩

/-- A cartridge that creation makes has its banks, its arrays and its mirroring in range: the image has PRG banks, and
CHR banks or CHR-RAM (R480 to R482). -/
theorem createCart_ok {image : List Byte} {prgRam chrRam : Memory} {c : Cart}
    (hprg : Memory.ok 8192 prgRam = true) (hchr : Memory.ok 8192 chrRam = true)
    (h : createCart image prgRam chrRam = .ok c) : c.ok = true := by
  unfold createCart at h
  iterate 3
    split at h
    · cases h
  split at h
  · cases h
  split at h
  · cases h
  next hbanks =>
  obtain rfl := Except.ok.inj h
  have hprgBanks : 0 < (headerByte image 4).toNat := Nat.pos_of_ne_zero fun h0 => hbanks (BitVec.eq_of_toNat_eq h0)
  have hmirroring : imageMirroring image != .fourScreen || imageMirroring image == .fourScreen := by
    cases imageMirroring image <;> rfl
  cases hram : headerByte image 5 == 0 with
  | true => simp [Cart.ok, hprgBanks, imagePrgSize, imageSlice_ok, hprg, hchr, hmirroring]
  | false =>
    have hchrBanks : 0 < (headerByte image 5).toNat :=
      Nat.pos_of_ne_zero fun h0 => beq_eq_false_iff_ne.mp hram (BitVec.eq_of_toNat_eq h0)
    simp [Cart.ok, hprgBanks, imagePrgSize, imageChrRomSize, imageSlice_ok, hprg, hchrBanks, hmirroring]

/-- A PPU's reset puts it at the first position with no sprite active, its OAM as it was (R803). -/
theorem Ppu.resetKeeping_ok {p : Ppu} (h : p.memoriesOk = true) :
    p.resetKeeping.placeOk = true ∧ p.resetKeeping.memoriesOk = true := by
  simp only [Ppu.memoriesOk, Bool.and_eq_true] at h
  refine ⟨rfl, ?_⟩
  simp only [Ppu.memoriesOk, Bool.and_eq_true]
  exact ⟨rfl, h.2⟩

theorem Cpu.reset_ok (pc : Word) (h : Sh) :
    { Cpu.reset pc with sh := { h with active := false } }.statusOk = true ∧
      { Cpu.reset pc with sh := { h with active := false } }.timingOk = true :=
  ⟨(by decide : (getFlag 0x24 .u && !getFlag 0x24 .b) = true), Cpu.timingOk_of_inactive (Nat.le_refl 8) rfl⟩

/-- A console reset needs of the state before it only that its arrays are well formed (R800). -/
theorem consoleReset_ok {s : State} (h : s.memoriesOk = true) : (consoleReset s).ok = true := by
  simp only [State.memoriesOk, Bool.and_eq_true] at h
  obtain ⟨⟨hbus, hppu⟩, hcart⟩ := h
  obtain ⟨hplace, hmem⟩ := Ppu.resetKeeping_ok hppu
  have hdevices : s.resetDevices.devicesOk := by
    simp only [State.devicesOk, State.memoriesOk, Bool.and_eq_true]
    exact ⟨hplace, Apu.reset_ok _, ⟨hbus, hmem⟩, cartOk_map_resetHook hcart⟩
  rw [State.ok_iff, consoleReset_eq_latch]
  exact ⟨hdevices, Cpu.reset_ok _ _⟩

theorem consoleReset_params (s : State) : (consoleReset s).params = s.params := by
  rw [consoleReset_eq_latch]
  rfl

theorem State.ok_memoriesOk {s : State} (h : s.ok = true) : s.memoriesOk = true := by
  obtain ⟨⟨-, -, hmem⟩, -⟩ := s.ok_iff.mp h
  exact hmem

/-- Settles O59: each device's reset. -/
theorem resetMeetsTheInvariant : Obligations.ResetMeetsTheInvariant :=
  State.reset.ok_iff.mpr ⟨⟨rfl, Apu.reset_ok _, rfl⟩, Cpu.reset_ok 0 Sh.reset⟩

/-! ## The host's other operations -/

/-- What `State.ok` looks at in each device. -/
theorem State.ok_of_devices {s t : State} (hs : s.ok = true) (hcpu : t.cpu = s.cpu)
    (hdevices : s.devicesOk → t.devicesOk) : t.ok = true := by
  rw [State.ok_iff] at hs ⊢
  rw [hcpu]
  exact ⟨hdevices hs.1, hs.2⟩

theorem removeCartridge_ok {s : State} (h : s.ok = true) : (removeCartridge s).ok = true := by
  refine State.ok_of_devices h rfl fun ⟨hplace, hapu, hmem⟩ => ⟨hplace, hapu, ?_⟩
  simp only [State.memoriesOk, Bool.and_eq_true] at hmem ⊢
  exact ⟨hmem.1, rfl⟩

theorem setController_ok {s : State} (h : s.ok = true) (player : Nat) (mask : Byte) :
    (setController player mask s).ok = true ∧ (setController player mask s).params = s.params := by
  unfold setController
  split
  · exact ⟨State.ok_of_devices h rfl id, rfl⟩
  · exact ⟨State.ok_of_devices h rfl id, rfl⟩
  · exact ⟨h, rfl⟩

theorem Apu.drop_keeps (k : Params) (u : Apu) (n : Nat) : ApuKeeps k u { u with pcmQueue := u.pcmQueue.drop n } where
  tag1 := rfl
  tag2 := rfl
  queue := (List.length_drop ▸ Nat.sub_le _ _).trans
  decay1 := id
  decay2 := id
  decayN := id
  bits := id
  lfsr := id

theorem drainAudio_ok {s : State} (h : s.ok = true) (n : Nat) : (drainAudio n s).2.ok = true :=
  State.ok_of_devices h rfl fun ⟨hplace, hapu, hmem⟩ => ⟨hplace, (Apu.drop_keeps _ _ _).ok hapu, hmem⟩

theorem takeFrame_ok {s : State} (h : s.ok = true) : (takeFrame s).2.ok = true :=
  State.ok_of_devices h rfl id

/-- An accepted image is inserted and the console reset (R482, R745). -/
theorem insertCartridge_ok {image : List Byte} {prgRam chrRam : Memory} {s t : State} (h : s.ok = true)
    (hprg : Memory.ok 8192 prgRam = true) (hchr : Memory.ok 8192 chrRam = true)
    (ht : insertCartridge image prgRam chrRam s = .ok t) : t.ok = true ∧ t.params = s.params := by
  rw [insertCartridge] at ht
  cases hc : createCart image prgRam chrRam with
  | error e =>
    rw [hc] at ht
    cases ht
  | ok c =>
    rw [hc] at ht
    obtain rfl := Except.ok.inj ht
    refine ⟨consoleReset_ok ?_, consoleReset_params _⟩
    have hmem := State.ok_memoriesOk h
    simp only [State.memoriesOk, Bool.and_eq_true] at hmem ⊢
    exact ⟨hmem.1, createCart_ok hprg hchr hc⟩

/-- Settles O60: each operation by its own lemma. -/
theorem hostOperationsKeepTheInvariant : Obligations.HostOperationsKeepTheInvariant := by
  intro s hs kept
  exact ⟨⟨consoleReset_ok (State.ok_memoriesOk hs), consoleReset_params s⟩, ⟨removeCartridge_ok hs, rfl⟩,
    setController_ok hs, fun n => ⟨drainAudio_ok hs n, rfl⟩, ⟨takeFrame_ok hs, rfl⟩,
    fun _ _ _ _ hprg hchr => insertCartridge_ok hs hprg hchr⟩

end Sys2Proof.Machine
end
